-- ==== Sys2Proof/Word.lean ====
section
/-! DEFINITION. The word types of the LZH codec core: a byte, and nothing else that every unit shares
(spec/00_scope.md R8: a byte is 8 bits; every other width is its register's own). -/

namespace Sys2Proof

/-- A byte, 0..255 (R8). -/
abbrev Byte := BitVec 8

end Sys2Proof
end

