-- ==== Sys2Proof/Config.lean ====
section
/-! DEFINITION. The fixed constants of the format (spec/00_scope.md R6) and the initial cursors (R7, R20, R21).
None of those is a run-time parameter. The one named parameter the spec leaves open, the position-code lengths `POS_LEN` (R46,
decision D12), is an argument of every definition that uses it, with the spec's default here. The free values of the model, two
results the spec does not state, stand at the end: constants without a body (log entry 21). -/

namespace Sys2Proof

/-- The lengths of the 64 position prefix codes, by index (R46, D12). -/
abbrev PosTable := List Nat

end Sys2Proof

namespace Sys2Proof.Config

/-- `N`: the window size in bytes (R6). -/
abbrev N : Nat := 4096

/-- `F`: lookahead size and longest match (R6). -/
abbrev F : Nat := 60

/-- `THRESHOLD`: a match is used only if it is longer (R6). -/
abbrev THRESHOLD : Nat := 2

/-- `NIL`: the match finder's null index (R6). -/
abbrev NIL : Nat := 4096

/-- `N_CHAR`: the number of Huffman symbols (R6). -/
abbrev N_CHAR : Nat := 314

/-- `T`: the number of Huffman tree nodes (R6). -/
abbrev T : Nat := 627

/-- `ROOT`: the Huffman root node (R6; the source's `R`). -/
abbrev ROOT : Nat := 626

/-- `MAX_FREQ`: the root frequency at which the tree is renormalised (R6). -/
abbrev MAX_FREQ : BitVec 16 := 0x8000

/-- `FREQ_SENTINEL`: the guard entry `freq[T]` (R6, R66). -/
abbrev FREQ_SENTINEL : BitVec 16 := 0xFFFF

/-- `FILL`: the filler byte, a space (R6). -/
abbrev FILL : Byte := 0x20

/-- `HDR_BYTES`: the size of the length header (R6). -/
abbrev HDR_BYTES : Nat := 4

/-- `WBUF_LEN`: the size of the window buffer, N + F - 1 (R6). -/
abbrev WBUF_LEN : Nat := 4155

/-- `r0 = N - F`: the initial current position (R7, R107, R112). -/
abbrev R0 : BitVec 12 := 4036

/-- `s0`: the initial eviction cursor (R7, R107). -/
abbrev S0 : BitVec 12 := 0

/-- The default of the parameter `POS_LEN[0..63]`: 1 code of 3 bits, 3 of 4, 8 of 5, 12 of 6, 24 of 7, 16 of 8 (R46). PRESUMED
(unsafe, log entry 1): the source withholds the lengths, and the spec's default is the table of the public LZHUF program. -/
def POS_LEN : PosTable :=
  List.replicate 1 3 ++ List.replicate 3 4 ++ List.replicate 8 5 ++ List.replicate 12 6 ++ List.replicate 24 7
    ++ List.replicate 16 8

/-- FREE VALUE (DESIGN CHOICE, log entry 21): `OFFSET(r, r)`, for which R54's expansion gives -1, no offset. -/
opaque OFFSET_OF_SELF : BitVec 12 → BitVec 12

/-- FREE VALUE (DESIGN CHOICE, log entry 21): `LEN_OF_SYM(c)` for `c` below 253, for which R54's expansion gives a negative
number, no length. -/
opaque LEN_BELOW_ZERO : BitVec 9 → BitVec 16

end Sys2Proof.Config
end

