-- ==== Sys2Proof/Machine/Tables.lean ====
section
/-! DEFINITION. The constant tables of the position code (spec/30_encoding.md R46, R47; spec/42_position_coder.md R81). The 64
lengths are the named parameter `POS_LEN` (R46, D12, U9): an argument `P` of every definition here and of all that rest on them,
with the spec's default (log entry 1). Everything else is derived from the lengths as R46 and R47 say. -/

namespace Sys2Proof.Machine

open Sys2Proof

/-- A table of the shape D12 gives: 64 lengths of 3 to 8 that do not fall, with Kraft sum 1. -/
def LegalTable (P : PosTable) : Prop :=
  P.length = 64 ∧ (∀ l ∈ P, 3 ≤ l ∧ l ≤ 8) ∧ P.Pairwise (· ≤ ·) ∧ (P.map fun l => 2 ^ (8 - l)).sum = 2 ^ 8

/-- `POS_LEN[i]`, i in 0..63 (R46). -/
def posLen (i : Nat) (P : PosTable := Config.POS_LEN) : Nat := P.getD i 8

/-- The canonical codes that follow one of `len` bits: `code[i] = (code[i-1] + 1) << (POS_LEN[i] - POS_LEN[i-1])` (R46). -/
def codesAfter (code len : Nat) : PosTable → List Nat
  | [] => []
  | l :: rest => (code + 1) * 2 ^ (l - len) :: codesAfter ((code + 1) * 2 ^ (l - len)) l rest

/-- The canonical codes, each an integer of its own length; the first is 0 (R46). -/
def canonicalCodes : PosTable → List Nat
  | [] => []
  | l :: rest => 0 :: codesAfter 0 l rest

/-- `POS_CODE[i]`: the code of index `i`, left-justified in 8 bits (R46). -/
def posCode (i : Nat) (P : PosTable := Config.POS_LEN) : Byte :=
  BitVec.ofNat 8 ((canonicalCodes P).getD i 0 * 2 ^ (8 - posLen i P))

/-- The index, counted from `i`, of the first code that `b` begins with: `code << (8 - len) <= b < (code + 1) << (8 - len)`
(R47). -/
def findCode (b : Byte) : PosTable → List Nat → Nat → Nat
  | l :: ls, c :: cs, i =>
    if c * 2 ^ (8 - l) ≤ b.toNat ∧ b.toNat < (c + 1) * 2 ^ (8 - l) then i else findCode b ls cs (i + 1)
  | _, _, i => i

/-- `D_CODE[b]`: the unique index whose code `b` begins with (R47; the code is complete, so there is one). -/
def dCode (b : Byte) (P : PosTable := Config.POS_LEN) : Nat := findCode b P (canonicalCodes P) 0

/-- `D_LEN[b] = POS_LEN[D_CODE[b]]` (R47). -/
def dLen (b : Byte) (P : PosTable := Config.POS_LEN) : Nat := posLen (dCode b P) P

end Sys2Proof.Machine
end

