-- ==== Sys2Proof/Syntax.lean ====
section
/-! DEFINITION. The syntax: one constructor of `Instr` for each row of spec/opcode_table.json (spec/30_encoding.md R55: the
sixteen operations; R52: the four values of `CMD`; R41, R43, R44, R50: the stream header and the three token kinds; R46: the 64
position codes; R54: the four pseudo-operations), with the operands the table and the rule give it. -/

namespace Sys2Proof

/-- Where a word stands, hence which of the encodings that spec/30_encoding.md keeps apart it is read by: the operation
numbers (R55), the `CMD` register (R52), the stream header (R41), the tokens (R43, R44, R50), the position codes (R46), the
pseudo-operations (R54). -/
inductive Space where
  | op | cmd | hdr | token | pos | pseudo
  deriving DecidableEq, Repr

/-- Why bytes are no instruction word of a space. -/
inductive DecodeError where
  /-- The bytes end inside the word. -/
  | truncated
  /-- Operation ids 0x00 and 0x11..0x1F name no operation (R55, 93_implementation_defined.md U8). -/
  | noOperation
  /-- No token kind has this number (the model's own notation for tokens). -/
  | noToken
  /-- No pseudo-operation has this number (the model's own notation). -/
  | noPseudo
  /-- There is no such operand: a symbol is 0..313 (R42, R69, R71), a match length 3..60 (R42, R44), a bit count at most 32 (R49,
  R92); the model's byte layout has room for more (log entry 2). -/
  | operandRange
  deriving DecidableEq, Repr

/-- One row of the opcode table each. -/
inductive Instr where
  /-- `INIT_TREE()` (R56). -/
  | initTree
  /-- `INSERT_NODE(r)`, `r` a window position (R57). -/
  | insertNode (r : BitVec 12)
  /-- `DELETE_NODE(p)`, `p` a window position (R59). -/
  | deleteNode (p : BitVec 12)
  /-- `START_HUFF()` (R68). -/
  | startHuff
  /-- `UPDATE(c)`, `c` a symbol 0..313 (R69). -/
  | update (c : BitVec 9)
  /-- `RECONST()` (R70). -/
  | reconst
  /-- `ENCODE_CHAR(c)`, `c` a symbol 0..313 (R71). -/
  | encodeChar (c : BitVec 9)
  /-- `DECODE_CHAR() -> c` (R72). -/
  | decodeChar
  /-- `ENCODE_POSITION(o)`, `o` an offset 0..4095 (R82). -/
  | encodePosition (o : BitVec 12)
  /-- `DECODE_POSITION() -> o` (R83). -/
  | decodePosition
  /-- `PUT_CODE(l, v)`, `l` a bit count, `v` the bits left-justified (R49, R92). -/
  | putCode (l : BitVec 6) (v : BitVec 32)
  /-- `FLUSH()` (R94). -/
  | flush
  /-- `GET_BIT() -> b` (R96). -/
  | getBit
  /-- `GET_BYTE() -> v` (R97). -/
  | getByte
  /-- `COMPRESS`, the whole command (R106 to R110). -/
  | compress
  /-- `DECOMPRESS`, the whole command (R111 to R115). -/
  | decompress
  /-- The host writes `CMD` = 1 (R23, R116). -/
  | cmdCompress
  /-- The host writes `CMD` = 2 (R23, R116). -/
  | cmdDecompress
  /-- The host writes `CMD` = 0, reserved (R52). -/
  | cmdReserved0
  /-- The host writes `CMD` = 3, reserved (R52). -/
  | cmdReserved3
  /-- `HDR n`, the stream header (R41). -/
  | hdr (n : BitVec 32)
  /-- `LIT b`, a literal token (R43). -/
  | lit (b : Byte)
  /-- `MATCH m, o`, a match token of length `m` at offset `o` (R44). -/
  | matchTok (m : BitVec 6) (o : BitVec 12)
  /-- `PAD k`, the zero bits after the last token (R50). -/
  | pad (k : BitVec 3)
  /-- `POSCODE_0`: the position code of offsets 0..63; `low` is `o[5:0]` (R46). -/
  | poscode0 (low : BitVec 6)
  /-- `POSCODE_1`: the position code of offsets 64..127; `low` is `o[5:0]` (R46). -/
  | poscode1 (low : BitVec 6)
  /-- `POSCODE_2`: the position code of offsets 128..191; `low` is `o[5:0]` (R46). -/
  | poscode2 (low : BitVec 6)
  /-- `POSCODE_3`: the position code of offsets 192..255; `low` is `o[5:0]` (R46). -/
  | poscode3 (low : BitVec 6)
  /-- `POSCODE_4`: the position code of offsets 256..319; `low` is `o[5:0]` (R46). -/
  | poscode4 (low : BitVec 6)
  /-- `POSCODE_5`: the position code of offsets 320..383; `low` is `o[5:0]` (R46). -/
  | poscode5 (low : BitVec 6)
  /-- `POSCODE_6`: the position code of offsets 384..447; `low` is `o[5:0]` (R46). -/
  | poscode6 (low : BitVec 6)
  /-- `POSCODE_7`: the position code of offsets 448..511; `low` is `o[5:0]` (R46). -/
  | poscode7 (low : BitVec 6)
  /-- `POSCODE_8`: the position code of offsets 512..575; `low` is `o[5:0]` (R46). -/
  | poscode8 (low : BitVec 6)
  /-- `POSCODE_9`: the position code of offsets 576..639; `low` is `o[5:0]` (R46). -/
  | poscode9 (low : BitVec 6)
  /-- `POSCODE_10`: the position code of offsets 640..703; `low` is `o[5:0]` (R46). -/
  | poscode10 (low : BitVec 6)
  /-- `POSCODE_11`: the position code of offsets 704..767; `low` is `o[5:0]` (R46). -/
  | poscode11 (low : BitVec 6)
  /-- `POSCODE_12`: the position code of offsets 768..831; `low` is `o[5:0]` (R46). -/
  | poscode12 (low : BitVec 6)
  /-- `POSCODE_13`: the position code of offsets 832..895; `low` is `o[5:0]` (R46). -/
  | poscode13 (low : BitVec 6)
  /-- `POSCODE_14`: the position code of offsets 896..959; `low` is `o[5:0]` (R46). -/
  | poscode14 (low : BitVec 6)
  /-- `POSCODE_15`: the position code of offsets 960..1023; `low` is `o[5:0]` (R46). -/
  | poscode15 (low : BitVec 6)
  /-- `POSCODE_16`: the position code of offsets 1024..1087; `low` is `o[5:0]` (R46). -/
  | poscode16 (low : BitVec 6)
  /-- `POSCODE_17`: the position code of offsets 1088..1151; `low` is `o[5:0]` (R46). -/
  | poscode17 (low : BitVec 6)
  /-- `POSCODE_18`: the position code of offsets 1152..1215; `low` is `o[5:0]` (R46). -/
  | poscode18 (low : BitVec 6)
  /-- `POSCODE_19`: the position code of offsets 1216..1279; `low` is `o[5:0]` (R46). -/
  | poscode19 (low : BitVec 6)
  /-- `POSCODE_20`: the position code of offsets 1280..1343; `low` is `o[5:0]` (R46). -/
  | poscode20 (low : BitVec 6)
  /-- `POSCODE_21`: the position code of offsets 1344..1407; `low` is `o[5:0]` (R46). -/
  | poscode21 (low : BitVec 6)
  /-- `POSCODE_22`: the position code of offsets 1408..1471; `low` is `o[5:0]` (R46). -/
  | poscode22 (low : BitVec 6)
  /-- `POSCODE_23`: the position code of offsets 1472..1535; `low` is `o[5:0]` (R46). -/
  | poscode23 (low : BitVec 6)
  /-- `POSCODE_24`: the position code of offsets 1536..1599; `low` is `o[5:0]` (R46). -/
  | poscode24 (low : BitVec 6)
  /-- `POSCODE_25`: the position code of offsets 1600..1663; `low` is `o[5:0]` (R46). -/
  | poscode25 (low : BitVec 6)
  /-- `POSCODE_26`: the position code of offsets 1664..1727; `low` is `o[5:0]` (R46). -/
  | poscode26 (low : BitVec 6)
  /-- `POSCODE_27`: the position code of offsets 1728..1791; `low` is `o[5:0]` (R46). -/
  | poscode27 (low : BitVec 6)
  /-- `POSCODE_28`: the position code of offsets 1792..1855; `low` is `o[5:0]` (R46). -/
  | poscode28 (low : BitVec 6)
  /-- `POSCODE_29`: the position code of offsets 1856..1919; `low` is `o[5:0]` (R46). -/
  | poscode29 (low : BitVec 6)
  /-- `POSCODE_30`: the position code of offsets 1920..1983; `low` is `o[5:0]` (R46). -/
  | poscode30 (low : BitVec 6)
  /-- `POSCODE_31`: the position code of offsets 1984..2047; `low` is `o[5:0]` (R46). -/
  | poscode31 (low : BitVec 6)
  /-- `POSCODE_32`: the position code of offsets 2048..2111; `low` is `o[5:0]` (R46). -/
  | poscode32 (low : BitVec 6)
  /-- `POSCODE_33`: the position code of offsets 2112..2175; `low` is `o[5:0]` (R46). -/
  | poscode33 (low : BitVec 6)
  /-- `POSCODE_34`: the position code of offsets 2176..2239; `low` is `o[5:0]` (R46). -/
  | poscode34 (low : BitVec 6)
  /-- `POSCODE_35`: the position code of offsets 2240..2303; `low` is `o[5:0]` (R46). -/
  | poscode35 (low : BitVec 6)
  /-- `POSCODE_36`: the position code of offsets 2304..2367; `low` is `o[5:0]` (R46). -/
  | poscode36 (low : BitVec 6)
  /-- `POSCODE_37`: the position code of offsets 2368..2431; `low` is `o[5:0]` (R46). -/
  | poscode37 (low : BitVec 6)
  /-- `POSCODE_38`: the position code of offsets 2432..2495; `low` is `o[5:0]` (R46). -/
  | poscode38 (low : BitVec 6)
  /-- `POSCODE_39`: the position code of offsets 2496..2559; `low` is `o[5:0]` (R46). -/
  | poscode39 (low : BitVec 6)
  /-- `POSCODE_40`: the position code of offsets 2560..2623; `low` is `o[5:0]` (R46). -/
  | poscode40 (low : BitVec 6)
  /-- `POSCODE_41`: the position code of offsets 2624..2687; `low` is `o[5:0]` (R46). -/
  | poscode41 (low : BitVec 6)
  /-- `POSCODE_42`: the position code of offsets 2688..2751; `low` is `o[5:0]` (R46). -/
  | poscode42 (low : BitVec 6)
  /-- `POSCODE_43`: the position code of offsets 2752..2815; `low` is `o[5:0]` (R46). -/
  | poscode43 (low : BitVec 6)
  /-- `POSCODE_44`: the position code of offsets 2816..2879; `low` is `o[5:0]` (R46). -/
  | poscode44 (low : BitVec 6)
  /-- `POSCODE_45`: the position code of offsets 2880..2943; `low` is `o[5:0]` (R46). -/
  | poscode45 (low : BitVec 6)
  /-- `POSCODE_46`: the position code of offsets 2944..3007; `low` is `o[5:0]` (R46). -/
  | poscode46 (low : BitVec 6)
  /-- `POSCODE_47`: the position code of offsets 3008..3071; `low` is `o[5:0]` (R46). -/
  | poscode47 (low : BitVec 6)
  /-- `POSCODE_48`: the position code of offsets 3072..3135; `low` is `o[5:0]` (R46). -/
  | poscode48 (low : BitVec 6)
  /-- `POSCODE_49`: the position code of offsets 3136..3199; `low` is `o[5:0]` (R46). -/
  | poscode49 (low : BitVec 6)
  /-- `POSCODE_50`: the position code of offsets 3200..3263; `low` is `o[5:0]` (R46). -/
  | poscode50 (low : BitVec 6)
  /-- `POSCODE_51`: the position code of offsets 3264..3327; `low` is `o[5:0]` (R46). -/
  | poscode51 (low : BitVec 6)
  /-- `POSCODE_52`: the position code of offsets 3328..3391; `low` is `o[5:0]` (R46). -/
  | poscode52 (low : BitVec 6)
  /-- `POSCODE_53`: the position code of offsets 3392..3455; `low` is `o[5:0]` (R46). -/
  | poscode53 (low : BitVec 6)
  /-- `POSCODE_54`: the position code of offsets 3456..3519; `low` is `o[5:0]` (R46). -/
  | poscode54 (low : BitVec 6)
  /-- `POSCODE_55`: the position code of offsets 3520..3583; `low` is `o[5:0]` (R46). -/
  | poscode55 (low : BitVec 6)
  /-- `POSCODE_56`: the position code of offsets 3584..3647; `low` is `o[5:0]` (R46). -/
  | poscode56 (low : BitVec 6)
  /-- `POSCODE_57`: the position code of offsets 3648..3711; `low` is `o[5:0]` (R46). -/
  | poscode57 (low : BitVec 6)
  /-- `POSCODE_58`: the position code of offsets 3712..3775; `low` is `o[5:0]` (R46). -/
  | poscode58 (low : BitVec 6)
  /-- `POSCODE_59`: the position code of offsets 3776..3839; `low` is `o[5:0]` (R46). -/
  | poscode59 (low : BitVec 6)
  /-- `POSCODE_60`: the position code of offsets 3840..3903; `low` is `o[5:0]` (R46). -/
  | poscode60 (low : BitVec 6)
  /-- `POSCODE_61`: the position code of offsets 3904..3967; `low` is `o[5:0]` (R46). -/
  | poscode61 (low : BitVec 6)
  /-- `POSCODE_62`: the position code of offsets 3968..4031; `low` is `o[5:0]` (R46). -/
  | poscode62 (low : BitVec 6)
  /-- `POSCODE_63`: the position code of offsets 4032..4095; `low` is `o[5:0]` (R46). -/
  | poscode63 (low : BitVec 6)
  /-- `LOOKUP(b)` = the root sentinel index `N + 1 + b` (R54). -/
  | lookup (b : Byte)
  /-- `OFFSET(r, p)` = `((r - p) mod N) - 1` (R54). -/
  | offset (r p : BitVec 12)
  /-- `SYM_OF_LEN(m)` = `253 + m` (R54). -/
  | symOfLen (m : BitVec 6)
  /-- `LEN_OF_SYM(c)` = `c - 253` (R54). -/
  | lenOfSym (c : BitVec 9)
  deriving DecidableEq, Repr

end Sys2Proof
end

