-- ==== Sys2Proof/WellFormed.lean ====
section
/-! DEFINITION. Which instructions are well formed: every operand in the range its rule gives. A position, an offset, a byte, a
header, a remainder and a pad count fill their types, and a pseudo-operation is a formula that every operand has, so only the
symbols, bit counts and lengths of operations and tokens are checked. -/

namespace Sys2Proof

/-- A symbol of the Huffman alphabet, 0..313 (R42). -/
def isSymbol (c : BitVec 9) : Bool := decide (c.toNat < Config.N_CHAR)

/-- A match length, 3..60 (R42). -/
def isMatchLength (m : BitVec 6) : Bool := decide (3 ≤ m.toNat ∧ m.toNat ≤ Config.F)

/-- A bit count PUT_CODE accepts: at most 32; 0 is the no-op R92 names (R92). -/
def isBitCount (l : BitVec 6) : Bool := decide (l.toNat ≤ 32)

/-- The well-formed instructions. -/
def Instr.wf : Instr → Bool
  | .update c => isSymbol c
  | .encodeChar c => isSymbol c
  | .putCode l _ => isBitCount l
  | .matchTok m _ => isMatchLength m
  | .initTree | .insertNode _ | .deleteNode _ | .startHuff | .reconst | .decodeChar | .encodePosition _
  | .decodePosition | .flush | .getBit | .getByte | .compress | .decompress | .cmdCompress | .cmdDecompress
  | .cmdReserved0 | .cmdReserved3 | .hdr _ | .lit _ | .pad _ | .lookup _ | .offset _ _ | .symOfLen _ | .lenOfSym _ => true
  | .poscode0 _ | .poscode1 _ | .poscode2 _ | .poscode3 _ | .poscode4 _ | .poscode5 _ | .poscode6 _ | .poscode7 _
  | .poscode8 _ | .poscode9 _ | .poscode10 _ | .poscode11 _ | .poscode12 _ | .poscode13 _ | .poscode14 _ | .poscode15 _
  | .poscode16 _ | .poscode17 _ | .poscode18 _ | .poscode19 _ | .poscode20 _ | .poscode21 _ | .poscode22 _ | .poscode23 _
  | .poscode24 _ | .poscode25 _ | .poscode26 _ | .poscode27 _ | .poscode28 _ | .poscode29 _ | .poscode30 _ | .poscode31 _
  | .poscode32 _ | .poscode33 _ | .poscode34 _ | .poscode35 _ | .poscode36 _ | .poscode37 _ | .poscode38 _ | .poscode39 _
  | .poscode40 _ | .poscode41 _ | .poscode42 _ | .poscode43 _ | .poscode44 _ | .poscode45 _ | .poscode46 _ | .poscode47 _
  | .poscode48 _ | .poscode49 _ | .poscode50 _ | .poscode51 _ | .poscode52 _ | .poscode53 _ | .poscode54 _ | .poscode55 _
  | .poscode56 _ | .poscode57 _ | .poscode58 _ | .poscode59 _ | .poscode60 _ | .poscode61 _ | .poscode62 _ | .poscode63 _ => true

end Sys2Proof
end

