-- ==== Sys2Proof/Decode.lean ====
section
/-! DEFINITION. The decoder and the encoder. The core fetches no instruction words (spec/30_encoding.md, opening;
spec/10_state.md R22): what its encodings say is which number or bit string stands for which operation, command, header, token
or position code, each in a space of its own. The fixed bits of an operation id, of a `CMD` value, of a position code and of the
header are the spec's (R55, R52, R46, R41). DESIGN CHOICE (log entry 2): how an operation's operands, a token and a
pseudo-operation are laid out in bytes is the model's own notation, since no wire bit carries them. -/

namespace Sys2Proof

open Sys2Proof.Machine

/-- A 16-bit little-endian value. -/
def u16 (lo hi : Byte) : Nat := lo.toNat + 256 * hi.toNat

/-- A 32-bit little-endian value (R32). -/
def u32 (a b c d : Byte) : BitVec 32 := d ++ c ++ b ++ a

/-- A window position or offset operand: 12 bits in two bytes, low byte first; the upper four bits are not looked at. -/
def takePosition : List Byte → Except DecodeError (BitVec 12 × List Byte)
  | lo :: hi :: rest => .ok (BitVec.ofNat 12 (u16 lo hi), rest)
  | _ => .error .truncated

/-- A symbol operand: 9 bits in two bytes, low byte first; below 314 (R42). -/
def takeSymbol : List Byte → Except DecodeError (BitVec 9 × List Byte)
  | lo :: hi :: rest =>
    if u16 lo hi < Config.N_CHAR then .ok (BitVec.ofNat 9 (u16 lo hi), rest) else .error .operandRange
  | _ => .error .truncated

/-- A match length operand: one byte, 3..60 (R42). -/
def takeLength : List Byte → Except DecodeError (BitVec 6 × List Byte)
  | m :: rest => if 3 ≤ m.toNat ∧ m.toNat ≤ Config.F then .ok (BitVec.ofNat 6 m.toNat, rest) else .error .operandRange
  | _ => .error .truncated

/-- An operation (R55): the low five bits of the first byte are its id (mask 0x1F), its operands follow. -/
def decodeOp (id : Nat) (bs : List Byte) : Except DecodeError (Instr × List Byte) :=
  match id with
  | 0x01 => .ok (.initTree, bs)
  | 0x02 => (takePosition bs).map fun (r, rest) => (.insertNode r, rest)
  | 0x03 => (takePosition bs).map fun (p, rest) => (.deleteNode p, rest)
  | 0x04 => .ok (.startHuff, bs)
  | 0x05 => (takeSymbol bs).map fun (c, rest) => (.update c, rest)
  | 0x06 => .ok (.reconst, bs)
  | 0x07 => (takeSymbol bs).map fun (c, rest) => (.encodeChar c, rest)
  | 0x08 => .ok (.decodeChar, bs)
  | 0x09 => (takePosition bs).map fun (o, rest) => (.encodePosition o, rest)
  | 0x0A => .ok (.decodePosition, bs)
  | 0x0B =>
    match bs with
    | l :: a :: b :: c :: d :: rest =>
      if l.toNat ≤ 32 then .ok (.putCode (BitVec.ofNat 6 l.toNat) (u32 a b c d), rest) else .error .operandRange
    | _ => .error .truncated
  | 0x0C => .ok (.flush, bs)
  | 0x0D => .ok (.getBit, bs)
  | 0x0E => .ok (.getByte, bs)
  | 0x0F => .ok (.compress, bs)
  | 0x10 => .ok (.decompress, bs)
  | _ => .error .noOperation

/-- A write of the register `CMD`: two bits, every value named (R23, R52). -/
def decodeCmd (v : Nat) : Instr :=
  match v with
  | 0 => .cmdReserved0
  | 1 => .cmdCompress
  | 2 => .cmdDecompress
  | _ => .cmdReserved3

/-- A token in the notation of R54: its kind, then its operands; of the byte of a PAD the low three bits count. -/
def decodeToken (kind : Nat) (bs : List Byte) : Except DecodeError (Instr × List Byte) :=
  match kind with
  | 0 =>
    match bs with
    | b :: rest => .ok (.lit b, rest)
    | _ => .error .truncated
  | 1 =>
    match takeLength bs with
    | .ok (m, bs') => (takePosition bs').map fun (o, rest) => (.matchTok m o, rest)
    | .error e => .error e
  | 2 =>
    match bs with
    | k :: rest => .ok (.pad (BitVec.ofNat 3 k.toNat), rest)
    | _ => .error .truncated
  | _ => .error .noToken

/-- A pseudo-operation of R54: its number, then its operands, of whose bytes the bits past the operand's width are not looked
at: an expansion is a formula, so every operand has it. -/
def decodePseudo (id : Nat) (bs : List Byte) : Except DecodeError (Instr × List Byte) :=
  match id with
  | 0 =>
    match bs with
    | b :: rest => .ok (.lookup b, rest)
    | _ => .error .truncated
  | 1 =>
    match takePosition bs with
    | .ok (r, bs') =>
      match takePosition bs' with
      | .ok (p, rest) => .ok (.offset r p, rest)
      | .error e => .error e
    | .error e => .error e
  | 2 =>
    match bs with
    | m :: rest => .ok (.symOfLen (BitVec.ofNat 6 m.toNat), rest)
    | _ => .error .truncated
  | 3 =>
    match bs with
    | lo :: hi :: rest => .ok (.lenOfSym (BitVec.ofNat 9 (u16 lo hi)), rest)
    | _ => .error .truncated
  | _ => .error .noPseudo

/-- The position code of high part `i` with the six low offset bits `low`. -/
def poscodeOf (i : Nat) (low : BitVec 6) : Instr :=
  match i with
  | 0 => .poscode0 low
  | 1 => .poscode1 low
  | 2 => .poscode2 low
  | 3 => .poscode3 low
  | 4 => .poscode4 low
  | 5 => .poscode5 low
  | 6 => .poscode6 low
  | 7 => .poscode7 low
  | 8 => .poscode8 low
  | 9 => .poscode9 low
  | 10 => .poscode10 low
  | 11 => .poscode11 low
  | 12 => .poscode12 low
  | 13 => .poscode13 low
  | 14 => .poscode14 low
  | 15 => .poscode15 low
  | 16 => .poscode16 low
  | 17 => .poscode17 low
  | 18 => .poscode18 low
  | 19 => .poscode19 low
  | 20 => .poscode20 low
  | 21 => .poscode21 low
  | 22 => .poscode22 low
  | 23 => .poscode23 low
  | 24 => .poscode24 low
  | 25 => .poscode25 low
  | 26 => .poscode26 low
  | 27 => .poscode27 low
  | 28 => .poscode28 low
  | 29 => .poscode29 low
  | 30 => .poscode30 low
  | 31 => .poscode31 low
  | 32 => .poscode32 low
  | 33 => .poscode33 low
  | 34 => .poscode34 low
  | 35 => .poscode35 low
  | 36 => .poscode36 low
  | 37 => .poscode37 low
  | 38 => .poscode38 low
  | 39 => .poscode39 low
  | 40 => .poscode40 low
  | 41 => .poscode41 low
  | 42 => .poscode42 low
  | 43 => .poscode43 low
  | 44 => .poscode44 low
  | 45 => .poscode45 low
  | 46 => .poscode46 low
  | 47 => .poscode47 low
  | 48 => .poscode48 low
  | 49 => .poscode49 low
  | 50 => .poscode50 low
  | 51 => .poscode51 low
  | 52 => .poscode52 low
  | 53 => .poscode53 low
  | 54 => .poscode54 low
  | 55 => .poscode55 low
  | 56 => .poscode56 low
  | 57 => .poscode57 low
  | 58 => .poscode58 low
  | 59 => .poscode59 low
  | 60 => .poscode60 low
  | 61 => .poscode61 low
  | 62 => .poscode62 low
  | _ => .poscode63 low

/-- The six raw bits that follow a prefix code of `len` bits in the 16 bits `b0 b1` (R48 (d)). -/
def rawBits (len : Nat) (b0 b1 : Byte) : BitVec 6 :=
  BitVec.ofNat 6 ((b0.toNat * 256 + b1.toNat) / 2 ^ (10 - len))

/-- The instruction that the bytes of a space begin with, and the bytes after it. -/
def decode (sp : Space) (bytes : List Byte) (P : PosTable := Config.POS_LEN) : Except DecodeError (Instr × List Byte) :=
  match sp, bytes with
  | .op, b :: rest => decodeOp (b.toNat % 32) rest
  | .cmd, b :: rest => .ok (decodeCmd (b.toNat % 4), rest)
  | .hdr, a :: b :: c :: d :: rest => .ok (.hdr (u32 a b c d), rest)
  | .token, b :: rest => decodeToken b.toNat rest
  | .pos, b0 :: b1 :: rest => .ok (poscodeOf (dCode b0 P) (rawBits (dLen b0 P) b0 b1), rest)
  | .pseudo, b :: rest => decodePseudo b.toNat rest
  | _, _ => .error .truncated

/-- Two bytes of a 16-bit value, low byte first. -/
def bytes16 (v : Nat) : List Byte := [BitVec.ofNat 8 v, BitVec.ofNat 8 (v / 256)]

/-- Four bytes of a 32-bit value, low byte first (R32). -/
def bytes32 (v : BitVec 32) : List Byte :=
  [v.extractLsb' 0 8, v.extractLsb' 8 8, v.extractLsb' 16 8, v.extractLsb' 24 8]

/-- The position code of high part `i` and low bits `low`, left-justified in two bytes (R44, R46). -/
def posWord (i : Nat) (low : BitVec 6) (P : PosTable := Config.POS_LEN) : List Byte :=
  [BitVec.ofNat 8 (((posCode i P).toNat * 256 + low.toNat * 2 ^ (10 - posLen i P)) / 256),
   BitVec.ofNat 8 ((posCode i P).toNat * 256 + low.toNat * 2 ^ (10 - posLen i P))]

/-- The word of an instruction and the space it stands in. -/
def encode (i : Instr) (P : PosTable := Config.POS_LEN) : Space × List Byte :=
  match i with
  | .initTree => (.op, [0x01])
  | .insertNode r => (.op, 0x02 :: bytes16 r.toNat)
  | .deleteNode p => (.op, 0x03 :: bytes16 p.toNat)
  | .startHuff => (.op, [0x04])
  | .update c => (.op, 0x05 :: bytes16 c.toNat)
  | .reconst => (.op, [0x06])
  | .encodeChar c => (.op, 0x07 :: bytes16 c.toNat)
  | .decodeChar => (.op, [0x08])
  | .encodePosition o => (.op, 0x09 :: bytes16 o.toNat)
  | .decodePosition => (.op, [0x0A])
  | .putCode l v => (.op, 0x0B :: BitVec.ofNat 8 l.toNat :: bytes32 v)
  | .flush => (.op, [0x0C])
  | .getBit => (.op, [0x0D])
  | .getByte => (.op, [0x0E])
  | .compress => (.op, [0x0F])
  | .decompress => (.op, [0x10])
  | .cmdCompress => (.cmd, [0x01])
  | .cmdDecompress => (.cmd, [0x02])
  | .cmdReserved0 => (.cmd, [0x00])
  | .cmdReserved3 => (.cmd, [0x03])
  | .hdr n => (.hdr, bytes32 n)
  | .lit b => (.token, [0x00, b])
  | .matchTok m o => (.token, 0x01 :: BitVec.ofNat 8 m.toNat :: bytes16 o.toNat)
  | .pad k => (.token, [0x02, BitVec.ofNat 8 k.toNat])
  | .poscode0 low => (.pos, posWord 0 low P)
  | .poscode1 low => (.pos, posWord 1 low P)
  | .poscode2 low => (.pos, posWord 2 low P)
  | .poscode3 low => (.pos, posWord 3 low P)
  | .poscode4 low => (.pos, posWord 4 low P)
  | .poscode5 low => (.pos, posWord 5 low P)
  | .poscode6 low => (.pos, posWord 6 low P)
  | .poscode7 low => (.pos, posWord 7 low P)
  | .poscode8 low => (.pos, posWord 8 low P)
  | .poscode9 low => (.pos, posWord 9 low P)
  | .poscode10 low => (.pos, posWord 10 low P)
  | .poscode11 low => (.pos, posWord 11 low P)
  | .poscode12 low => (.pos, posWord 12 low P)
  | .poscode13 low => (.pos, posWord 13 low P)
  | .poscode14 low => (.pos, posWord 14 low P)
  | .poscode15 low => (.pos, posWord 15 low P)
  | .poscode16 low => (.pos, posWord 16 low P)
  | .poscode17 low => (.pos, posWord 17 low P)
  | .poscode18 low => (.pos, posWord 18 low P)
  | .poscode19 low => (.pos, posWord 19 low P)
  | .poscode20 low => (.pos, posWord 20 low P)
  | .poscode21 low => (.pos, posWord 21 low P)
  | .poscode22 low => (.pos, posWord 22 low P)
  | .poscode23 low => (.pos, posWord 23 low P)
  | .poscode24 low => (.pos, posWord 24 low P)
  | .poscode25 low => (.pos, posWord 25 low P)
  | .poscode26 low => (.pos, posWord 26 low P)
  | .poscode27 low => (.pos, posWord 27 low P)
  | .poscode28 low => (.pos, posWord 28 low P)
  | .poscode29 low => (.pos, posWord 29 low P)
  | .poscode30 low => (.pos, posWord 30 low P)
  | .poscode31 low => (.pos, posWord 31 low P)
  | .poscode32 low => (.pos, posWord 32 low P)
  | .poscode33 low => (.pos, posWord 33 low P)
  | .poscode34 low => (.pos, posWord 34 low P)
  | .poscode35 low => (.pos, posWord 35 low P)
  | .poscode36 low => (.pos, posWord 36 low P)
  | .poscode37 low => (.pos, posWord 37 low P)
  | .poscode38 low => (.pos, posWord 38 low P)
  | .poscode39 low => (.pos, posWord 39 low P)
  | .poscode40 low => (.pos, posWord 40 low P)
  | .poscode41 low => (.pos, posWord 41 low P)
  | .poscode42 low => (.pos, posWord 42 low P)
  | .poscode43 low => (.pos, posWord 43 low P)
  | .poscode44 low => (.pos, posWord 44 low P)
  | .poscode45 low => (.pos, posWord 45 low P)
  | .poscode46 low => (.pos, posWord 46 low P)
  | .poscode47 low => (.pos, posWord 47 low P)
  | .poscode48 low => (.pos, posWord 48 low P)
  | .poscode49 low => (.pos, posWord 49 low P)
  | .poscode50 low => (.pos, posWord 50 low P)
  | .poscode51 low => (.pos, posWord 51 low P)
  | .poscode52 low => (.pos, posWord 52 low P)
  | .poscode53 low => (.pos, posWord 53 low P)
  | .poscode54 low => (.pos, posWord 54 low P)
  | .poscode55 low => (.pos, posWord 55 low P)
  | .poscode56 low => (.pos, posWord 56 low P)
  | .poscode57 low => (.pos, posWord 57 low P)
  | .poscode58 low => (.pos, posWord 58 low P)
  | .poscode59 low => (.pos, posWord 59 low P)
  | .poscode60 low => (.pos, posWord 60 low P)
  | .poscode61 low => (.pos, posWord 61 low P)
  | .poscode62 low => (.pos, posWord 62 low P)
  | .poscode63 low => (.pos, posWord 63 low P)
  | .lookup b => (.pseudo, [0x00, b])
  | .offset r p => (.pseudo, 0x01 :: (bytes16 r.toNat ++ bytes16 p.toNat))
  | .symOfLen m => (.pseudo, [0x02, BitVec.ofNat 8 m.toNat])
  | .lenOfSym c => (.pseudo, 0x03 :: bytes16 c.toNat)

/-- The `match` and `mask` that spec/opcode_table.json gives the row, as numbers over the first byte; (0, 0) where the table
fixes no bit. -/
def tableRow : Instr → Nat × Nat
  | .initTree => (0x01, 0x1F)
  | .insertNode _ => (0x02, 0x1F)
  | .deleteNode _ => (0x03, 0x1F)
  | .startHuff => (0x04, 0x1F)
  | .update _ => (0x05, 0x1F)
  | .reconst => (0x06, 0x1F)
  | .encodeChar _ => (0x07, 0x1F)
  | .decodeChar => (0x08, 0x1F)
  | .encodePosition _ => (0x09, 0x1F)
  | .decodePosition => (0x0A, 0x1F)
  | .putCode _ _ => (0x0B, 0x1F)
  | .flush => (0x0C, 0x1F)
  | .getBit => (0x0D, 0x1F)
  | .getByte => (0x0E, 0x1F)
  | .compress => (0x0F, 0x1F)
  | .decompress => (0x10, 0x1F)
  | .cmdCompress => (0x1, 0x3)
  | .cmdDecompress => (0x2, 0x3)
  | .cmdReserved0 => (0x0, 0x3)
  | .cmdReserved3 => (0x3, 0x3)
  | .hdr _ => (0x0, 0x0)
  | .lit _ => (0x0, 0x0)
  | .matchTok _ _ => (0x0, 0x0)
  | .pad _ => (0x0, 0x0)
  | .poscode0 _ => (0x00, 0xE0)
  | .poscode1 _ => (0x20, 0xF0)
  | .poscode2 _ => (0x30, 0xF0)
  | .poscode3 _ => (0x40, 0xF0)
  | .poscode4 _ => (0x50, 0xF8)
  | .poscode5 _ => (0x58, 0xF8)
  | .poscode6 _ => (0x60, 0xF8)
  | .poscode7 _ => (0x68, 0xF8)
  | .poscode8 _ => (0x70, 0xF8)
  | .poscode9 _ => (0x78, 0xF8)
  | .poscode10 _ => (0x80, 0xF8)
  | .poscode11 _ => (0x88, 0xF8)
  | .poscode12 _ => (0x90, 0xFC)
  | .poscode13 _ => (0x94, 0xFC)
  | .poscode14 _ => (0x98, 0xFC)
  | .poscode15 _ => (0x9C, 0xFC)
  | .poscode16 _ => (0xA0, 0xFC)
  | .poscode17 _ => (0xA4, 0xFC)
  | .poscode18 _ => (0xA8, 0xFC)
  | .poscode19 _ => (0xAC, 0xFC)
  | .poscode20 _ => (0xB0, 0xFC)
  | .poscode21 _ => (0xB4, 0xFC)
  | .poscode22 _ => (0xB8, 0xFC)
  | .poscode23 _ => (0xBC, 0xFC)
  | .poscode24 _ => (0xC0, 0xFE)
  | .poscode25 _ => (0xC2, 0xFE)
  | .poscode26 _ => (0xC4, 0xFE)
  | .poscode27 _ => (0xC6, 0xFE)
  | .poscode28 _ => (0xC8, 0xFE)
  | .poscode29 _ => (0xCA, 0xFE)
  | .poscode30 _ => (0xCC, 0xFE)
  | .poscode31 _ => (0xCE, 0xFE)
  | .poscode32 _ => (0xD0, 0xFE)
  | .poscode33 _ => (0xD2, 0xFE)
  | .poscode34 _ => (0xD4, 0xFE)
  | .poscode35 _ => (0xD6, 0xFE)
  | .poscode36 _ => (0xD8, 0xFE)
  | .poscode37 _ => (0xDA, 0xFE)
  | .poscode38 _ => (0xDC, 0xFE)
  | .poscode39 _ => (0xDE, 0xFE)
  | .poscode40 _ => (0xE0, 0xFE)
  | .poscode41 _ => (0xE2, 0xFE)
  | .poscode42 _ => (0xE4, 0xFE)
  | .poscode43 _ => (0xE6, 0xFE)
  | .poscode44 _ => (0xE8, 0xFE)
  | .poscode45 _ => (0xEA, 0xFE)
  | .poscode46 _ => (0xEC, 0xFE)
  | .poscode47 _ => (0xEE, 0xFE)
  | .poscode48 _ => (0xF0, 0xFF)
  | .poscode49 _ => (0xF1, 0xFF)
  | .poscode50 _ => (0xF2, 0xFF)
  | .poscode51 _ => (0xF3, 0xFF)
  | .poscode52 _ => (0xF4, 0xFF)
  | .poscode53 _ => (0xF5, 0xFF)
  | .poscode54 _ => (0xF6, 0xFF)
  | .poscode55 _ => (0xF7, 0xFF)
  | .poscode56 _ => (0xF8, 0xFF)
  | .poscode57 _ => (0xF9, 0xFF)
  | .poscode58 _ => (0xFA, 0xFF)
  | .poscode59 _ => (0xFB, 0xFF)
  | .poscode60 _ => (0xFC, 0xFF)
  | .poscode61 _ => (0xFD, 0xFF)
  | .poscode62 _ => (0xFE, 0xFF)
  | .poscode63 _ => (0xFF, 0xFF)
  | .lookup _ => (0x0, 0x0)
  | .offset _ _ => (0x0, 0x0)
  | .symOfLen _ => (0x0, 0x0)
  | .lenOfSym _ => (0x0, 0x0)

/-- The space a word of `nbits` bits is read in when only its number is known. DESIGN CHOICE (log entry 3): the table numbers
the operations, the values of `CMD` and the position codes each from 0, so one byte can be a word of all three; a byte is taken
as the operation of that id where there is one and as a position code otherwise, at most two bits are taken as a value of `CMD`, three to
five as an operation id, and four bytes as the header. -/
def tableSpace (nbits w : Nat) : Space :=
  if nbits ≤ 2 then .cmd
  else if nbits ≤ 5 then .op
  else if nbits ≤ 8 then (if 1 ≤ w ∧ w ≤ 0x10 then .op else .pos)
  else if nbits ≤ 16 then .pos
  else .hdr

/-- The bytes of the number `w`, the first the least significant, as many as the longest word has. -/
def tableBytes (w : Nat) : List Byte := (List.range 8).map fun k => BitVec.ofNat 8 (w / 256 ^ k)

/-- The instruction the decoder reads from a word that the opcode table numbers `w`. -/
def decodeTableWord (nbits w : Nat) : Option Instr :=
  match decode (tableSpace nbits w) (tableBytes w) with
  | .ok (i, _) => some i
  | .error _ => none

end Sys2Proof
end

