-- ==== Sys2Proof/Machine/State.lean ====
section
/-! DEFINITION. The state of the machine as plain data (spec/10_state.md R12 to R25), why a step can stop, and the state after
reset (R27, R140).

Every address space of spec/20_memory.md R28 is a list of (index, value) pairs in one canonical form: indices strictly rising,
and no entry equal to what an unlisted index reads as. What that is stands in Sys2Proof/Machine/Ops.lean, space by space. -/

namespace Sys2Proof.Machine

/-- A match-finder index, 0..N+256: a window position, `NIL`, or a root sentinel (13 bits, R15). -/
abbrev Idx := Fin 4353

/-- A value of `son`, 0..T+N_CHAR-1: a tree node or a leaf id (10 bits, R17). -/
abbrev SonVal := Fin 941

/-- A Huffman tree node, 0..ROOT (10 bits, R17). -/
abbrev Node := Fin 627

/-- The sequencing register `phase` (4 bits; the values 14 and 15 are never taken, R22). -/
inductive Phase where
  /-- 0 IDLE: no command has run since reset. -/
  | idle
  /-- 1 E_HDR: write the header, test for empty input. -/
  | eHdr
  /-- 2 E_INIT: trees, window, preload. -/
  | eInit
  /-- 3 E_PRIME: the priming insertions and the first insertion of `r`. -/
  | ePrime
  /-- 4 E_EMIT: clamp, choose literal or match, emit. -/
  | eEmit
  /-- 5 E_ADV_IN: advance one position taking one input byte. -/
  | eAdvIn
  /-- 6 E_ADV_DRAIN: advance one position with the input exhausted. -/
  | eAdvDrain
  /-- 7 E_FLUSH: FLUSH. -/
  | eFlush
  /-- 8 D_HDR: read the header, test for zero. -/
  | dHdr
  /-- 9 D_INIT: START_HUFF, fill the window. -/
  | dInit
  /-- 10 D_SYMBOL: DECODE_CHAR, literal or start of match. -/
  | dSymbol
  /-- 11 D_COPY: copy one match byte. -/
  | dCopy
  /-- 12 DONE: the last command completed. -/
  | done
  /-- 13 FAULT: the last command stopped on a fault. -/
  | fault
  deriving DecidableEq, Repr

/-- The register `FAULT_CODE`, 2 bits, every value named (R23, R121). -/
inductive FaultCode where
  /-- 0: no fault since the last command started. -/
  | none
  /-- 1 `F_LEN_RANGE`: COMPRESS of 2^32 bytes or more (R122). -/
  | lenRange
  /-- 2 `F_HDR_SHORT`: DECOMPRESS of fewer than 4 bytes (R123). -/
  | hdrShort
  /-- 3 `F_OUT_OVERRUN`: a match runs past the declared length (R125). -/
  | outOverrun
  deriving DecidableEq, Repr

/-- The match finder's arrays and its current result (R15, R16). -/
structure MatchFinder where
  /-- `lson[0..N]`, left children. -/
  lson : List (Nat × Idx)
  /-- `rson[0..N+256]`, right children and bucket roots. -/
  rson : List (Nat × Idx)
  /-- `dad[0..N]`, parents. -/
  dad : List (Nat × Idx)
  /-- `match_length`, 0..F. -/
  matchLength : BitVec 6
  /-- `match_position`, an offset. -/
  matchPosition : BitVec 12
  deriving DecidableEq, Repr

/-- The adaptive Huffman tree (R17). -/
structure Huffman where
  /-- `freq[0..T]`, 16-bit frequencies and the guard `freq[T]`. -/
  freq : List (Nat × BitVec 16)
  /-- `son[0..T-1]`, left child (the right child is the next node) or leaf id. -/
  son : List (Nat × SonVal)
  /-- `prnt[0..T+N_CHAR-1]`, parent of a node, node of a symbol's leaf. -/
  prnt : List (Nat × Node)
  deriving DecidableEq, Repr

/-- The write side of the bit channel (R18). -/
structure BitWriter where
  /-- `wr_acc`: the pending bits, left-justified. -/
  acc : BitVec 32
  /-- `wr_cnt`: how many bits are pending. -/
  cnt : BitVec 4
  deriving DecidableEq, Repr

/-- The encode registers but for `r` (R20). -/
structure EncodeRegs where
  /-- `s`: the position that will next be evicted. -/
  s : BitVec 12
  /-- `len`: the number of lookahead bytes. -/
  len : BitVec 6
  /-- `last_match_length`: how many positions the current token covers. -/
  lastMatchLength : BitVec 6
  /-- `adv_i`: how many of them have been advanced over. -/
  advI : BitVec 6
  /-- `in_pos`: the number of input bytes consumed. -/
  inPos : BitVec 32
  deriving DecidableEq, Repr

/-- The decode registers but for `r` (R21). -/
structure DecodeRegs where
  /-- `orig_len`: the header value. -/
  origLen : BitVec 32
  /-- `out_cnt`: the number of output bytes produced. -/
  outCnt : BitVec 32
  /-- `sym`: the symbol just decoded. -/
  sym : BitVec 9
  /-- `src`: the copy source position. -/
  src : BitVec 12
  /-- `copy_rem`: the number of match bytes still to copy. -/
  copyRem : BitVec 6
  deriving DecidableEq, Repr

/-- What comes to the machine from outside, in the order in which it comes (log entries 4, 5). The host's acts are those of
R23, R24 and R140. -/
inductive Input where
  /-- A word is presented in its space: a value of `CMD` by the host, or an operation, header, token, position code or
  pseudo-operation invoked by its name (the model's own window on the core's inner operations, R55). -/
  | word (sp : Space) (bytes : List Byte)
  /-- The host reads register number `n`. -/
  | readReg (n : BitVec 3)
  /-- The host writes `v` to register number `n`. -/
  | writeReg (n : BitVec 3) (v : BitVec 64)
  /-- The host writes byte `b` to `IN[k]`. -/
  | writeIn (k : BitVec 64) (b : Byte)
  /-- The host reads `OUT[k]`. -/
  | readOut (k : BitVec 64)
  /-- The RESET input is asserted. -/
  | resetLine
  /-- The host does nothing while the core takes one step. -/
  | letStep
  deriving DecidableEq, Repr

/-- The whole state. -/
structure State where
  /-- `phase` (R22). -/
  phase : Phase
  /-- `IN_LEN` (R23, register 1). -/
  inLen : BitVec 64
  /-- `FAULT_CODE` (R23, register 3). -/
  faultCode : FaultCode
  /-- `FAULT_INFO` (R23, register 4). -/
  faultInfo : BitVec 64
  /-- `OUT_LEN` (R23, register 5). -/
  outLen : BitVec 64
  /-- The bit channel's write side (R18). -/
  wr : BitWriter
  /-- `rd_bitpos`: the number of payload bits consumed (R19). -/
  rdBitpos : BitVec 64
  /-- `r`: the current position, and the decoder's write cursor (R20, R21). -/
  r : BitVec 12
  /-- The encode registers (R20). -/
  enc : EncodeRegs
  /-- The decode registers (R21). -/
  dec : DecodeRegs
  /-- The MODEL's own: the value the operation last presented as a word returned to its caller (log entry 6). -/
  ret : BitVec 16
  /-- The MODEL's own: the value the host's last read returned (log entry 5). -/
  hostData : BitVec 64
  /-- The MODEL's own: what is still to come from outside, next first (log entry 5). -/
  inputs : List Input
  /-- The input buffer `IN` (R24). -/
  inBuf : List Host.Cell
  /-- The output buffer `OUT` (R24). -/
  outBuf : List Host.Cell
  /-- The window buffer `text_buf[0..N+F-2]` (R14). -/
  textBuf : List Host.Cell
  /-- The match finder (R15, R16). -/
  mf : MatchFinder
  /-- The Huffman tree (R17). -/
  huff : Huffman
  deriving DecidableEq, Repr

/-- The arrays an index can leave. -/
inductive ArrayName where
  | textBuf | lson | rson | dad | freq | son | inBuf | outBuf
  deriving DecidableEq, Repr

/-- Why the machine stops. The three faults of the spec (R121) are no stops of the model: raising one is a next state. -/
inductive Fault where
  /-- An index outside an array's range (R10, R131: none of the rules forms one). Raised by the accessors of
  Machine/MatchFinder.lean, Machine/Huffman.lean and Machine/Ops.lean in states no command reaches, and by the host's read of
  a byte of `OUT` at or past `OUT_LEN`. Safe: the model stops (log entry 12). -/
  | indexOutOfRange (a : ArrayName) (i : Nat)
  /-- A loop that the spec says ends (R151) goes round more often than any tree the rules build allows, so the tree is broken
  (R63, 93_implementation_defined.md U18): a stuck state. Raised by the walks of Machine/MatchFinder.lean and
  Machine/Huffman.lean. Safe: the model stops (log entry 11). -/
  | loopDiverges
  deriving DecidableEq, Repr

/-- Why a word or an act of the host has no meaning. -/
inductive Refusal where
  /-- An instruction that has no meaning yet; raised by an arm of `exec` alone. Safe. -/
  | notModelled (mnemonic : String)
  /-- Bytes that are no word of their space; raised by the fetch (R55: the id names no operation). Safe. -/
  | undecodable (e : DecodeError)
  /-- The host writes `IN` or `IN_LEN`, or reads `OUT` or `OUT_LEN`, while BUSY: undefined, to be refused
  (93_implementation_defined.md U6). Raised by the host port. Safe (log entry 13). -/
  | hostAccessWhileBusy
  /-- The host reads the write-only `CMD` or writes a read-only register: no access R23 gives. Raised by the host port. Safe. -/
  | noSuchAccess
  /-- There is no register of that number (R23 numbers 0 to 5). Raised by the host port. Safe. -/
  | noSuchRegister
  deriving DecidableEq, Repr

/-- The result of an operation: a value, or the reason the machine stops. -/
abbrev Res (α : Type) := Except Fault α

/-- The outcome of a step. -/
abbrev Out := Host.Outcome State Fault Refusal

/-- The machine after power-on or the RESET input (R27, R140). `phase`, `FAULT_CODE`, `FAULT_INFO` and `OUT_LEN` are the spec's.
DESIGN CHOICE (unsafe, log entry 7): the spec leaves every other item unspecified. The arrays and `r` hold what R27
gives them at the start of a command (nothing listed: see the unlisted values in Machine/Ops.lean); the rest is zero. -/
def State.reset : State where
  phase := .idle
  inLen := 0
  faultCode := .none
  faultInfo := 0
  outLen := 0
  inBuf := []
  outBuf := []
  textBuf := []
  mf := { lson := [], rson := [], dad := [], matchLength := 0, matchPosition := 0 }
  huff := { freq := [], son := [], prnt := [] }
  wr := { acc := 0, cnt := 0 }
  rdBitpos := 0
  r := Config.R0
  enc := { s := 0, len := 0, lastMatchLength := 0, advI := 0, inPos := 0 }
  dec := { origLen := 0, outCnt := 0, sym := 0, src := 0, copyRem := 0 }
  ret := 0
  hostData := 0
  inputs := []

end Sys2Proof.Machine
end

