-- ==== Sys2Proof/Machine/Flags.lean ====
section
/-! DEFINITION. The flags. The hardware has no arithmetic flags (spec/10_state.md R25); its only flag-like state is the register
`STATUS`, every field of which is a function of `phase` (R22, R23). -/

namespace Sys2Proof.Machine

/-- The value of `phase` as its 4 bits (R22). -/
def Phase.bits : Phase → BitVec 4
  | .idle => 0
  | .eHdr => 1
  | .eInit => 2
  | .ePrime => 3
  | .eEmit => 4
  | .eAdvIn => 5
  | .eAdvDrain => 6
  | .eFlush => 7
  | .dHdr => 8
  | .dInit => 9
  | .dSymbol => 10
  | .dCopy => 11
  | .done => 12
  | .fault => 13

/-- `STATUS.BUSY`: 1 exactly when `phase` is 1..11 (R23). -/
def Phase.busy (p : Phase) : Bool := decide (1 ≤ p.bits.toNat ∧ p.bits.toNat ≤ 11)

/-- `STATUS.DONE`: 1 exactly when `phase` = 12 (R23). -/
def Phase.isDone (p : Phase) : Bool := decide (p.bits = 12)

/-- `STATUS.FAULT`: 1 exactly when `phase` = 13 (R23). -/
def Phase.isFault (p : Phase) : Bool := decide (p.bits = 13)

/-- The register `STATUS`: bit 7 reads 0, then FAULT, DONE, BUSY and PHASE (R23). -/
def statusReg (p : Phase) : BitVec 8 :=
  0#1 ++ BitVec.ofBool p.isFault ++ BitVec.ofBool p.isDone ++ BitVec.ofBool p.busy ++ p.bits

/-- `STATUS.BUSY` of a state. -/
def busy (s : State) : Bool := s.phase.busy

/-- The value of `FAULT_CODE` as its 2 bits (R121). -/
def FaultCode.bits : FaultCode → BitVec 2
  | .none => 0
  | .lenRange => 1
  | .hdrShort => 2
  | .outOverrun => 3

end Sys2Proof.Machine
end

