-- ==== Sys2Proof/Machine/Ops.lean ====
section
/-! DEFINITION. The named operations every unit shares: the sparse arrays and what an unlisted index reads as, the loops of the
spec's pseudocode (spec/00_scope.md R10), the buffers (spec/20_memory.md R28, R31; spec/10_state.md R24), raising a fault
(spec/60_exceptions.md R124) and the way on from one (R129). -/

namespace Sys2Proof.Machine

open Sys2Proof

/-! ### Sparse arrays -/

/-- Element `i` of an array whose unlisted indices read as `d`. -/
def sparseGet {α : Type} (d : Nat → α) : List (Nat × α) → Nat → α
  | [], i => d i
  | (a, v) :: t, i => if i < a then d i else if i = a then v else sparseGet d t i

/-- The array with element `i` set to `x`, in canonical form again. -/
def sparseSet {α : Type} [DecidableEq α] (d : Nat → α) : List (Nat × α) → Nat → α → List (Nat × α)
  | [], i, x => if x = d i then [] else [(i, x)]
  | (a, v) :: t, i, x =>
    if i < a then (if x = d i then (a, v) :: t else (i, x) :: (a, v) :: t)
    else if i = a then (if x = d i then t else (i, x) :: t)
    else (a, v) :: sparseSet d t i x

/-- The canonical form: indices strictly rising from `lo` on and below `hi`, no entry equal to what an unlisted index reads
as. -/
def sparseWf {α : Type} [DecidableEq α] (d : Nat → α) (lo hi : Nat) : List (Nat × α) → Bool
  | [] => true
  | (a, v) :: t => decide (lo ≤ a ∧ a < hi ∧ v ≠ d a) && sparseWf d (a + 1) hi t

/-! ### What an unlisted index reads as -/

/-- `IN` and `OUT`: 0. DESIGN CHOICE (unsafe, log entry 8): the spec says nothing of a byte the host has not written; the core
reads no byte at or past `IN_LEN`, and nobody reads one at or past `OUT_LEN`. -/
def bufferDefault : Nat → Byte := fun _ => 0

/-- `text_buf`: `FILL`, what every entry holds at the start of a command (R27). -/
def windowDefault : Nat → Byte := fun _ => Config.FILL

/-- `lson`, `rson`, `dad`: `NIL`, what INIT_TREE writes (R27, R56). -/
def treeDefault : Nat → Idx := fun _ => 4096

/-- `freq`: the frequencies of the initial tree (R27, R68, the values of 95_test_vectors.md V-H1) and the guard (R66). -/
def freqDefault (i : Nat) : BitVec 16 :=
  if i < 314 then 1 else if i < 471 then 2 else if i < 549 then 4 else if i < 550 then 6 else if i < 588 then 8
  else if i < 589 then 10 else if i < 608 then 16 else if i < 609 then 26 else if i < 618 then 32
  else if i < 619 then 58 else if i < 623 then 64 else if i < 624 then 122 else if i < 625 then 128
  else if i < 626 then 186 else if i < 627 then 314 else 0xFFFF

/-- `son`: the initial tree's, `i + T` at a leaf and `2*(i - N_CHAR)` above (R27, R68). -/
def sonDefault (i : Nat) : SonVal := Fin.ofNat 941 (if i < 314 then i + 627 else 2 * (i - 314))

/-- `prnt`: the initial tree's, `N_CHAR + i/2`, 0 at the root, the symbol's own node above (R27, R68). -/
def prntDefault (i : Nat) : Node := Fin.ofNat 627 (if i < 626 then 314 + i / 2 else if i = 626 then 0 else i - 627)

/-- The match finder's arrays are in canonical form, their indices in their own ranges (R28). -/
def MatchFinder.wf (m : MatchFinder) : Bool :=
  sparseWf treeDefault 0 4097 m.lson && sparseWf treeDefault 0 4353 m.rson && sparseWf treeDefault 0 4097 m.dad

/-- The Huffman tree's arrays are in canonical form, their indices in their own ranges (R28). -/
def Huffman.wf (h : Huffman) : Bool :=
  sparseWf freqDefault 0 628 h.freq && sparseWf sonDefault 0 627 h.son && sparseWf prntDefault 0 941 h.prnt

/-- Every address space is in canonical form, its indices in its own range (R28). -/
def Memory.wf (s : State) : Bool :=
  sparseWf bufferDefault 0 (2 ^ 64) s.inBuf && sparseWf bufferDefault 0 (2 ^ 64) s.outBuf
    && sparseWf windowDefault 0 4155 s.textBuf && s.mf.wf && s.huff.wf

/-! ### Loops (R10) -/

/-- `for i in start .. start+count-1: s <- f i s`. -/
def forUp {σ : Type} (f : Nat → σ → σ) : (count start : Nat) → σ → σ
  | 0, _, s => s
  | n + 1, i, s => forUp f n (i + 1) (f i s)

/-- The same loop with a body that can stop. -/
def forUpM {σ : Type} (f : Nat → σ → Res σ) : (count start : Nat) → σ → Res σ
  | 0, _, s => .ok s
  | n + 1, i, s => do
    let s' ← f i s
    forUpM f n (i + 1) s'

/-! ### The window (R14, R31) -/

/-- `WinRead(i)`: `text_buf[i]` (R10). -/
def winRead (tb : List Host.Cell) (i : Nat) : Res Byte :=
  if i < Config.WBUF_LEN then .ok (sparseGet windowDefault tb i) else .error (.indexOutOfRange .textBuf i)

/-- The plain write `text_buf[i] <- v`, `i` an index of the buffer. -/
def winPut (i : Nat) (v : Byte) (tb : List Host.Cell) : List Host.Cell := sparseSet windowDefault tb i v

/-- `WinWrite(i, v)`, the mirrored window write (R31). -/
def winWrite (i : Nat) (v : Byte) (tb : List Host.Cell) : List Host.Cell :=
  let tb' := winPut i v tb
  if i < Config.F - 1 then winPut (i + Config.N) v tb' else tb'

/-- All entries of the window buffer, mirror included, become `FILL` (R107, R112). -/
def winFill (tb : List Host.Cell) : List Host.Cell := forUp (fun i t => winPut i Config.FILL t) Config.WBUF_LEN 0 tb

/-! ### The input and output buffers (R24, R28) -/

/-- `InByte(k)`: byte `k` of the input buffer, `k` below `IN_LEN` (R10). -/
def inByte (s : State) (k : Nat) : Res Byte :=
  if k < s.inLen.toNat then .ok (sparseGet bufferDefault s.inBuf k) else .error (.indexOutOfRange .inBuf k)

/-- `OutAppend(v)`: `OUT[OUT_LEN] <- v; OUT_LEN <- OUT_LEN + 1` (R106). -/
def outAppend (v : Byte) (s : State) : State :=
  { s with outBuf := sparseSet bufferDefault s.outBuf s.outLen.toNat v, outLen := s.outLen + 1 }

/-- An output byte of DECOMPRESS: `OutWrite(out_cnt, v); out_cnt <- out_cnt + 1; OUT_LEN <- out_cnt` (R111). -/
def outWriteNext (v : Byte) (s : State) : State :=
  { s with
    outBuf := sparseSet bufferDefault s.outBuf s.dec.outCnt.toNat v
    dec := { s.dec with outCnt := s.dec.outCnt + 1 }
    outLen := (s.dec.outCnt + 1).setWidth 64 }

/-! ### Faults (R121, R124, R129) -/

/-- `raise x(info)`: `FAULT_CODE`, `FAULT_INFO` and `phase`, nothing else (R124). -/
def raiseFault (x : FaultCode) (info : BitVec 64) (s : State) : State :=
  { s with faultCode := x, faultInfo := info, phase := .fault }

/-- What a command's first step clears: `FAULT_CODE`, `FAULT_INFO`, `OUT_LEN`, and `OUT` is empty (R106, R111, R129). -/
def clearResults (s : State) : State :=
  { s with faultCode := .none, faultInfo := 0, outLen := 0, outBuf := [] }

/-- A start of a command, the only way on from DONE and FAULT but RESET: ignored while BUSY (R23, R116, R129). -/
def startCommand (first : Phase) (s : State) : State :=
  if busy s then s else { s with phase := first }

/-! ### Results of operations -/

/-- The outcome of an operation on the state. -/
def outcome (x : Res State) : Out :=
  match x with
  | .ok s => .next s
  | .error f => .fault f

/-- The state with the value an operation returned to its caller (log entry 6). -/
def setRet (v : BitVec 16) (s : State) : State := { s with ret := v }

/-- The state with another match finder. -/
def setMf (m : MatchFinder) (s : State) : State := { s with mf := m }

/-- The state with another Huffman tree. -/
def setHuff (h : Huffman) (s : State) : State := { s with huff := h }

/-- The state with other encode registers. -/
def setEnc (e : EncodeRegs) (s : State) : State := { s with enc := e }

/-- The state with other decode registers. -/
def setDec (d : DecodeRegs) (s : State) : State := { s with dec := d }

/-- The state in another phase. -/
def setPhase (p : Phase) (s : State) : State := { s with phase := p }

end Sys2Proof.Machine
end

