-- ==== Sys2Proof/Machine/Operands.lean ====
section
/-! DEFINITION. The operand forms: the pseudo-operations' expansions (spec/30_encoding.md R54), the header's bytes
(spec/20_memory.md R32), the payload's bits (spec/43_bit_channel.md R95), the copy source (spec/44_orchestrator.md R113). -/

namespace Sys2Proof.Machine

open Sys2Proof

/-- `LOOKUP(b)` = `N + 1 + b`, the root sentinel of first byte `b` (R54, R30). -/
def lookupIdx (b : Byte) : Idx := Fin.ofNat 4353 (4097 + b.toNat)

/-- `OFFSET(r, p)` = `((r - p) mod N) - 1` (R54; subtraction of 12-bit values is mod N). Of a position from itself that is -1, no
offset: a free value (log entry 21). -/
def offsetOf (r p : BitVec 12) : BitVec 12 := if r = p then Config.OFFSET_OF_SELF r else r - p - 1

/-- `SYM_OF_LEN(m)` = `253 + m` (R42, R54). -/
def symOfLen (m : BitVec 6) : Nat := 253 + m.toNat

/-- `LEN_OF_SYM(c)` = `c - 253` for a symbol 256..313 (R42, R54). -/
def lenOfSym (c : Nat) : BitVec 6 := BitVec.ofNat 6 (c - 253)

/-- The copy source `(r - o - 1) mod N` (R113). -/
def copySource (r o : BitVec 12) : BitVec 12 := r - o - 1

/-- The header bytes of a length, `n[7:0]` first (R32). -/
def headerBytes (n : BitVec 32) : List Byte :=
  [n.extractLsb' 0 8, n.extractLsb' 8 8, n.extractLsb' 16 8, n.extractLsb' 24 8]

/-- `orig_len` from the first four input bytes (R32, R111). -/
def readHeader (s : State) : Res (BitVec 32) := do
  let a ← inByte s 0
  let b ← inByte s 1
  let c ← inByte s 2
  let d ← inByte s 3
  .ok (d ++ c ++ b ++ a)

/-- `PayloadBit(k)`: bit `7 - (k mod 8)` of `IN[4 + k/8]` below `IN_LEN`, and 0 from there on for ever (R95). -/
def payloadBit (s : State) (k : Nat) : Bool :=
  if 4 + k / 8 < s.inLen.toNat then (sparseGet bufferDefault s.inBuf (4 + k / 8)).getLsbD (7 - k % 8) else false

end Sys2Proof.Machine
end

