-- ==== Sys2Proof/Machine/Pseudo.lean ====
section
/-! DEFINITION. The four pseudo-operations (spec/30_encoding.md R54): names for fixed expansions. Presented as a word, the value
goes to the caller (log entry 6) and nothing else changes. -/

namespace Sys2Proof.Machine

open Sys2Proof

/-- `LOOKUP(b)`. -/
def execLookup (b : Byte) (s : State) : Out := .next (setRet (BitVec.ofNat 16 (lookupIdx b).val) s)

/-- `OFFSET(r, p)`. -/
def execOffset (r p : BitVec 12) (s : State) : Out := .next (setRet ((offsetOf r p).setWidth 16) s)

/-- `SYM_OF_LEN(m)`. -/
def execSymOfLen (m : BitVec 6) (s : State) : Out := .next (setRet (BitVec.ofNat 16 (symOfLen m)) s)

/-- `LEN_OF_SYM(c)` = `c - 253`; below 253 that is negative, no length: a free value (log entry 21). -/
def execLenOfSym (c : BitVec 9) (s : State) : Out :=
  .next (setRet (if 253 ≤ c.toNat then BitVec.ofNat 16 (c.toNat - 253) else Config.LEN_BELOW_ZERO c) s)

end Sys2Proof.Machine
end

