-- ==== Sys2Proof/Machine/BitChannel.lean ====
section
/-! DEFINITION. Unit bit_channel: PUT_CODE, FLUSH, GET_BIT, GET_BYTE (spec/43_bit_channel.md R90 to R97). The other units touch
`wr_acc`, `wr_cnt` and `rd_bitpos` only through these. -/

namespace Sys2Proof.Machine

open Sys2Proof

/-- One round of PUT_CODE's loop: the bit `b` joins the pending bits, and a completed byte goes to `OUT` (R92). -/
def putBit (b : Bool) (s : State) : State :=
  let acc := s.wr.acc ||| ((BitVec.ofBool b).setWidth 32 <<< (31 - s.wr.cnt.toNat))
  let cnt := s.wr.cnt + 1
  if cnt = 8 then { outAppend (acc.extractLsb' 24 8) s with wr := { acc := 0, cnt := 0 } }
  else { s with wr := { acc := acc, cnt := cnt } }

/-- PUT_CODE(l, v): the top `l` bits of `v`, `v[31]` first (R49, R92). A bit past the 32nd reads 0: no operand has one (log
entry 9). -/
def putCode (l : Nat) (v : BitVec 32) (s : State) : State := forUp (fun k => putBit (v.getMsbD k)) l 0 s

/-- FLUSH: the pending bits and `8 - wr_cnt` zero bits, where any are pending (R94). -/
def flushBits (s : State) : State :=
  if 0 < s.wr.cnt.toNat then { outAppend (s.wr.acc.extractLsb' 24 8) s with wr := { acc := 0, cnt := 0 } } else s

/-- GET_BIT: the next payload bit (R96). -/
def getBit (s : State) : Bool × State :=
  (payloadBit s s.rdBitpos.toNat, { s with rdBitpos := s.rdBitpos + 1 })

/-- GET_BYTE's loop: `v <- (v << 1) | PayloadBit(rd_bitpos)`, `n` times (R97). -/
def getBits : Nat → BitVec 8 → State → BitVec 8 × State
  | 0, v, s => (v, s)
  | n + 1, v, s => getBits n ((v <<< 1) ||| (BitVec.ofBool (getBit s).1).setWidth 8) (getBit s).2

/-- GET_BYTE: the next eight payload bits, the first the most significant (R97). -/
def getByte (s : State) : BitVec 8 × State := getBits 8 0 s

/-- The instruction PUT_CODE. -/
def execPutCode (l : BitVec 6) (v : BitVec 32) (s : State) : Out := .next (putCode l.toNat v s)

/-- The instruction FLUSH. -/
def execFlush (s : State) : Out := .next (flushBits s)

/-- The instruction GET_BIT; the bit goes to its caller. -/
def execGetBit (s : State) : Out := .next (setRet ((BitVec.ofBool (getBit s).1).setWidth 16) (getBit s).2)

/-- The instruction GET_BYTE; the byte goes to its caller. -/
def execGetByte (s : State) : Out := .next (setRet ((getByte s).1.setWidth 16) (getByte s).2)

end Sys2Proof.Machine
end

