-- ==== Sys2Proof/Machine/Huffman.lean ====
section
/-! DEFINITION. Unit adaptive_huffman_coder: START_HUFF, UPDATE, RECONST, ENCODE_CHAR, DECODE_CHAR
(spec/41_adaptive_huffman.md R65 to R79). Indices of `freq`, `son` and `prnt` are in range by the types of their entries, but
where an accessor here says otherwise. -/

namespace Sys2Proof.Machine

open Sys2Proof

/-! ### The arrays (R17, R28) -/

/-- `freq[i]`, i in 0..T. -/
def freqAt (h : Huffman) (i : Nat) : BitVec 16 := sparseGet freqDefault h.freq i

/-- `son[i]`, i in 0..T-1. -/
def sonAt (h : Huffman) (i : Nat) : SonVal := sparseGet sonDefault h.son i

/-- `prnt[i]`, i in 0..T+N_CHAR-1. -/
def prntAt (h : Huffman) (i : Nat) : Node := sparseGet prntDefault h.prnt i

/-- `freq[i] <- f`. -/
def setFreq (i : Nat) (f : BitVec 16) (h : Huffman) : Huffman := { h with freq := sparseSet freqDefault h.freq i f }

/-- `son[i] <- v`. -/
def setSon (i v : Nat) (h : Huffman) : Huffman := { h with son := sparseSet sonDefault h.son i (Fin.ofNat 941 v) }

/-- `prnt[i] <- v`. -/
def setPrnt (i v : Nat) (h : Huffman) : Huffman := { h with prnt := sparseSet prntDefault h.prnt i (Fin.ofNat 627 v) }

/-- The children of what a `son` entry `k` names get parent `v`: `prnt[k] <- v; if k < T: prnt[k+1] <- v`. -/
def adopt (k : SonVal) (v : Nat) (h : Huffman) : Huffman :=
  if k.val < Config.T then setPrnt (k.val + 1) v (setPrnt k.val v h) else setPrnt k.val v h

/-! ### START_HUFF (R68) -/

/-- A leaf of the initial tree. -/
def startLeaf (i : Nat) (h : Huffman) : Huffman :=
  setPrnt (i + Config.T) i (setSon i (i + Config.T) (setFreq i 1 h))

/-- Internal node `j` of the initial tree, over nodes `i` and `i+1` with `i = 2*(j - N_CHAR)`. -/
def startInternal (j : Nat) (h : Huffman) : Huffman :=
  let i := 2 * (j - Config.N_CHAR)
  setPrnt (i + 1) j (setPrnt i j (setSon j i (setFreq j (freqAt h i + freqAt h (i + 1)) h)))

/-- START_HUFF. -/
def startHuff (h : Huffman) : Huffman :=
  let h := forUp startLeaf Config.N_CHAR 0 h
  let h := forUp startInternal (Config.T - Config.N_CHAR) Config.N_CHAR h
  setPrnt Config.ROOT 0 (setFreq Config.T Config.FREQ_SENTINEL h)

/-! ### RECONST (R70) -/

/-- Step 1 of RECONST, on entry `i`: a leaf moves to entry `j`, its frequency halved and rounded up. -/
def collectLeaf (i : Nat) (jh : Nat × Huffman) : Nat × Huffman :=
  if Config.T ≤ (sonAt jh.2 i).val then
    (jh.1 + 1,
      setSon jh.1 (sonAt jh.2 i).val (setFreq jh.1 (BitVec.ofNat 16 (((freqAt jh.2 i).toNat + 1) / 2)) jh.2))
  else jh

/-- The insertion index below `k`: after every entry with frequency at most `f`, from the top. -/
def insertionIndex (h : Huffman) (f : Nat) : (k : Nat) → Nat
  | 0 => 0
  | k + 1 => if f < (freqAt h k).toNat then insertionIndex h f k else k + 1

/-- `for m in j downto k+1: freq[m] <- freq[m-1]; son[m] <- son[m-1]`, with `n = j - k` rounds. -/
def shiftUp : (n j : Nat) → Huffman → Huffman
  | 0, _, h => h
  | n + 1, j, h => shiftUp n (j - 1) (setSon j (sonAt h (j - 1)).val (setFreq j (freqAt h (j - 1)) h))

/-- Step 2 of RECONST, for internal node number `j`, over entries `i` and `i+1` with `i = 2*(j - N_CHAR)`. -/
def insertInternal (j : Nat) (h : Huffman) : Huffman :=
  let i := 2 * (j - Config.N_CHAR)
  let f := (freqAt h i).toNat + (freqAt h (i + 1)).toNat
  let k := insertionIndex h f j
  setSon k i (setFreq k (BitVec.ofNat 16 f) (shiftUp (j - k) j h))

/-- Step 3 of RECONST, for node `i`: its children get it as their parent. -/
def relinkNode (i : Nat) (h : Huffman) : Huffman := adopt (sonAt h i) i h

/-- RECONST. -/
def reconst (h : Huffman) : Huffman :=
  let h := (forUp collectLeaf Config.T 0 (0, h)).2
  let h := forUp insertInternal (Config.T - Config.N_CHAR) Config.N_CHAR h
  forUp relinkNode Config.T 0 h

/-! ### UPDATE (R69) -/

/-- `while k > freq[l + 1]: l <- l + 1`, at most `fuel` rounds; the guard `freq[T]` ends it (R66). -/
def scanUp (h : Huffman) (k : BitVec 16) : (fuel l : Nat) → Res Nat
  | 0, _ => .error .loopDiverges
  | fuel + 1, l =>
    if Config.T < l + 1 then .error (.indexOutOfRange .freq (l + 1))
    else if (freqAt h (l + 1)).toNat < k.toNat then scanUp h k fuel (l + 1)
    else .ok l

/-- The exchange of nodes `c` and `l`: their frequencies, `k` being `freq[c]`, and what hangs under them (R69). -/
def exchange (c l : Nat) (k : BitVec 16) (h : Huffman) : Huffman :=
  let h := setFreq l k (setFreq c (freqAt h l) h)
  let i := sonAt h c
  let h := adopt i l h
  let j := sonAt h l
  let h := setSon l i.val h
  setSon c j.val (adopt j c h)

/-- The body of UPDATE's loop up to `c <- prnt[c]`: node `c` is incremented and, where that disturbs the order, exchanged with
the highest node of smaller frequency; the node it is then at (R69). -/
def bump (c : Nat) (h : Huffman) : Res (Nat × Huffman) :=
  let k := freqAt h c + 1
  let h := setFreq c k h
  if (freqAt h (c + 1)).toNat < k.toNat then do
    let l ← scanUp h k Config.T (c + 1)
    .ok (l, exchange c l k h)
  else .ok (c, h)

/-- UPDATE's loop: from node `c` to the root. -/
def climb : (fuel c : Nat) → Huffman → Res Huffman
  | 0, _, _ => .error .loopDiverges
  | fuel + 1, c, h => do
    let (l, h') ← bump c h
    let up := (prntAt h' l).val
    if up = 0 then .ok h' else climb fuel up h'

/-- UPDATE(c) (R69, R74: the test is equality). -/
def update (c : Nat) (h : Huffman) : Res Huffman :=
  let h := if freqAt h Config.ROOT = Config.MAX_FREQ then reconst h else h
  climb Config.T (prntAt h (c + Config.T)).val h

/-! ### ENCODE_CHAR and DECODE_CHAR (R71, R72) -/

/-- The loop of ENCODE_CHAR: the path from node `k` up to the root, `(l, code)` so far. -/
def codeLoop (h : Huffman) : (fuel k l : Nat) → BitVec 32 → Res (Nat × BitVec 32)
  | 0, _, _, _ => .error .loopDiverges
  | fuel + 1, k, l, code =>
    let code' := if k % 2 = 1 then (code >>> 1) ||| 0x80000000 else code >>> 1
    let up := (prntAt h k).val
    if up = Config.ROOT then .ok (l + 1, code') else codeLoop h fuel up (l + 1) code'

/-- `Code(c)`: its length and its bits, left-justified (R71, R73). -/
def codeOf (h : Huffman) (c : Nat) : Res (Nat × BitVec 32) := codeLoop h Config.T (prntAt h (c + Config.T)).val 0 0

/-- ENCODE_CHAR(c) (R71): the code in the tree as it stands, then UPDATE. -/
def encodeChar (c : Nat) (s : State) : Res State := do
  let (l, code) ← codeOf s.huff c
  let s := putCode l code s
  let h ← update c s.huff
  .ok (setHuff h s)

/-- The walk of DECODE_CHAR from the `son` entry `c` down to a leaf id (R72). -/
def decodeWalk : (fuel c : Nat) → State → Res (Nat × State)
  | 0, _, _ => .error .loopDiverges
  | fuel + 1, c, s =>
    if c < Config.T then
      let c' := c + (getBit s).1.toNat
      if c' < Config.T then decodeWalk fuel (sonAt s.huff c').val (getBit s).2
      else .error (.indexOutOfRange .son c')
    else .ok (c - Config.T, s)

/-- DECODE_CHAR (R72): the symbol, and the state after its UPDATE. -/
def decodeChar (s : State) : Res (Nat × State) := do
  let (c, s) ← decodeWalk (Config.T + 1) (sonAt s.huff Config.ROOT).val s
  let h ← update c s.huff
  .ok (c, setHuff h s)

/-- The instruction START_HUFF. -/
def execStartHuff (s : State) : Out := .next (setHuff (startHuff s.huff) s)

/-- The instruction UPDATE. -/
def execUpdate (c : BitVec 9) (s : State) : Out := outcome ((update c.toNat s.huff).map fun h => setHuff h s)

/-- The instruction RECONST. -/
def execReconst (s : State) : Out := .next (setHuff (reconst s.huff) s)

/-- The instruction ENCODE_CHAR. -/
def execEncodeChar (c : BitVec 9) (s : State) : Out := outcome (encodeChar c.toNat s)

/-- The instruction DECODE_CHAR; the symbol goes to its caller. -/
def execDecodeChar (s : State) : Out :=
  outcome ((decodeChar s).map fun cs => setRet (BitVec.ofNat 16 cs.1) cs.2)

end Sys2Proof.Machine
end

