-- ==== Sys2Proof/Machine/MatchFinder.lean ====
section
/-! DEFINITION. Unit lzss_match_finder: INIT_TREE, INSERT_NODE, DELETE_NODE (spec/40_match_finder.md R56 to R64). -/

namespace Sys2Proof.Machine

open Sys2Proof

/-! ### The arrays (R15, R28) -/

/-- The null index. -/
def nilIdx : Idx := 4096

/-- A window position as an index. -/
def posIdx (r : BitVec 12) : Idx := Fin.ofNat 4353 r.toNat

/-- `lson[i]`, i in 0..N. -/
def lsonAt (m : MatchFinder) (i : Nat) : Res Idx :=
  if i ≤ Config.N then .ok (sparseGet treeDefault m.lson i) else .error (.indexOutOfRange .lson i)

/-- `rson[i]`, i in 0..N+256. -/
def rsonAt (m : MatchFinder) (i : Nat) : Res Idx :=
  if i ≤ Config.N + 256 then .ok (sparseGet treeDefault m.rson i) else .error (.indexOutOfRange .rson i)

/-- `dad[i]`, i in 0..N. -/
def dadAt (m : MatchFinder) (i : Nat) : Res Idx :=
  if i ≤ Config.N then .ok (sparseGet treeDefault m.dad i) else .error (.indexOutOfRange .dad i)

/-- `lson[i] <- v`. -/
def setLson (i : Nat) (v : Idx) (m : MatchFinder) : Res MatchFinder :=
  if i ≤ Config.N then .ok { m with lson := sparseSet treeDefault m.lson i v } else .error (.indexOutOfRange .lson i)

/-- `rson[i] <- v`. -/
def setRson (i : Nat) (v : Idx) (m : MatchFinder) : Res MatchFinder :=
  if i ≤ Config.N + 256 then .ok { m with rson := sparseSet treeDefault m.rson i v }
  else .error (.indexOutOfRange .rson i)

/-- `dad[i] <- v`; `i` may be NIL (R60). -/
def setDad (i : Nat) (v : Idx) (m : MatchFinder) : Res MatchFinder :=
  if i ≤ Config.N then .ok { m with dad := sparseSet treeDefault m.dad i v } else .error (.indexOutOfRange .dad i)

/-! ### INIT_TREE (R56) -/

/-- INIT_TREE: every bucket root and every position's parent become NIL. -/
def initTree (m : MatchFinder) : MatchFinder :=
  { m with
    rson := forUp (fun i t => sparseSet treeDefault t i nilIdx) 256 4097 m.rson
    dad := forUp (fun i t => sparseSet treeDefault t i nilIdx) Config.N 0 m.dad }

/-! ### INSERT_NODE (R57) -/

/-- The comparison loop of R57: from byte `i` on, for `n` bytes at most, the difference of the first pair of bytes that differ
(else the last difference taken) and how many bytes agree. -/
def keyCompare (tb : List Host.Cell) (r p : Nat) : (n i : Nat) → (cmp : Int) → Res (Int × Nat)
  | 0, i, cmp => .ok (cmp, i)
  | n + 1, i, _ => do
    let a ← winRead tb (r + i)
    let b ← winRead tb (p + i)
    let cmp : Int := (a.toNat : Int) - (b.toNat : Int)
    if cmp ≠ 0 then .ok (cmp, i) else keyCompare tb r p n (i + 1) cmp

/-- A candidate at offset `o` with `i` common bytes: taken when longer than THRESHOLD and than the best so far, or as long
and nearer (R57). -/
def noteCandidate (o : BitVec 12) (i : Nat) (m : MatchFinder) : MatchFinder :=
  if Config.THRESHOLD < i then
    if m.matchLength.toNat < i then { m with matchPosition := o, matchLength := BitVec.ofNat 6 i }
    else if i = m.matchLength.toNat ∧ o.toNat < m.matchPosition.toNat then { m with matchPosition := o }
    else m
  else m

/-- Where the walk of INSERT_NODE ends: at an empty child slot of `p`, or at a node `p` with the same key. -/
inductive InsertSite where
  | rightOf (p : Idx)
  | leftOf (p : Idx)
  | replaces (p : Idx)
  deriving DecidableEq, Repr

/-- The child of node `p` in the direction of `cmp`: the right one where `cmp` is not negative (R57). -/
def childAt (m : MatchFinder) (cmp : Int) (p : Idx) : Res Idx := if 0 ≤ cmp then rsonAt m p.val else lsonAt m p.val

/-- The walk of INSERT_NODE from node `p` in the direction of `cmp`, with the match result it leaves (R57). The tree itself is
only read. A walk that visits more nodes than there are goes round for ever: a stuck state (R63). -/
def insertWalk (tb : List Host.Cell) (r : BitVec 12) : (fuel : Nat) → Int → Idx → MatchFinder →
    Res (InsertSite × MatchFinder)
  | 0, _, _, _ => .error .loopDiverges
  | fuel + 1, cmp, p, m => do
    let child ← childAt m cmp p
    if child = nilIdx then .ok (if 0 ≤ cmp then .rightOf p else .leftOf p, m)
    else
      let (cmp', i) ← keyCompare tb r.toNat child.val (Config.F - 1) 1 cmp
      let m' := noteCandidate (offsetOf r (BitVec.ofNat 12 child.val)) i m
      if Config.THRESHOLD < i ∧ m.matchLength.toNat < i ∧ Config.F ≤ i then .ok (.replaces child, m')
      else insertWalk tb r fuel cmp' child m'

/-- `if rson[q] == p: rson[q] <- x; else: lson[q] <- x`: `x` hangs from `q` where `p` hung (R57, R59). -/
def hangInPlace (q p x : Idx) (m : MatchFinder) : Res MatchFinder := do
  let c ← rsonAt m q.val
  if c = p then setRson q.val x m else setLson q.val x m

/-- The tail of INSERT_NODE: `r` takes `p`'s place and `p` leaves the tree (R57 (e), R60). -/
def replaceNode (r p : Idx) (m0 : MatchFinder) : Res MatchFinder := do
  let m ← setDad r.val (← dadAt m0 p.val) m0
  let m ← setLson r.val (← lsonAt m p.val) m
  let m ← setRson r.val (← rsonAt m p.val) m
  let m ← setDad (← lsonAt m p.val).val r m
  let m ← setDad (← rsonAt m p.val).val r m
  let m ← hangInPlace (← dadAt m p.val) p r m
  setDad p.val nilIdx m

/-- The end of INSERT_NODE at a site. -/
def linkAt (r : Idx) (site : InsertSite) (m : MatchFinder) : Res MatchFinder :=
  match site with
  | .rightOf p => do
    let m ← setRson p.val r m
    setDad r.val p m
  | .leftOf p => do
    let m ← setLson p.val r m
    setDad r.val p m
  | .replaces p => replaceNode r p m

/-- How many nodes a walk can visit: the positions, NIL and the sentinels. -/
def walkFuel : Nat := Config.N + 257

/-- What INSERT_NODE writes before its walk: no children, no match. -/
def clearNode (r : Idx) (m : MatchFinder) : Res MatchFinder := do
  let m ← setRson r.val nilIdx m
  let m ← setLson r.val nilIdx m
  .ok { m with matchLength := 0 }

/-- INSERT_NODE(r) (R57). -/
def insertNode (tb : List Host.Cell) (r : BitVec 12) (m : MatchFinder) : Res MatchFinder := do
  let b ← winRead tb r.toNat
  let m ← clearNode (posIdx r) m
  let (site, m) ← insertWalk tb r walkFuel 1 (lookupIdx b) m
  linkAt (posIdx r) site m

/-! ### DELETE_NODE (R59) -/

/-- `while rson[q] != NIL: q <- rson[q]`. -/
def rightmost (m : MatchFinder) : (fuel : Nat) → Idx → Res Idx
  | 0, _ => .error .loopDiverges
  | fuel + 1, q => do
    let c ← rsonAt m q.val
    if c = nilIdx then .ok q else rightmost m fuel c

/-- The in-order predecessor of `p` below its left child `q0`; where it is not `q0` itself it is spliced out and `p`'s left
subtree hung from it (R59). -/
def detachPredecessor (p q0 : Idx) (m0 : MatchFinder) : Res (Idx × MatchFinder) := do
  let c ← rsonAt m0 q0.val
  if c = nilIdx then .ok (q0, m0)
  else do
    let q ← rightmost m0 walkFuel q0
    let m ← setRson (← dadAt m0 q.val).val (← lsonAt m0 q.val) m0
    let m ← setDad (← lsonAt m q.val).val (← dadAt m q.val) m
    let m ← setLson q.val (← lsonAt m p.val) m
    let m ← setDad (← lsonAt m p.val).val q m
    .ok (q, m)

/-- The node that takes the place of a `p` with two children, its in-order predecessor, with both subtrees re-hung (R59). -/
def hangPredecessor (p : Idx) (m0 : MatchFinder) : Res (Idx × MatchFinder) := do
  let (q, m) ← detachPredecessor p (← lsonAt m0 p.val) m0
  let m ← setRson q.val (← rsonAt m p.val) m
  let m ← setDad (← rsonAt m p.val).val q m
  .ok (q, m)

/-- What takes the place of `p`: its only child or NIL, or its predecessor (R59). -/
def replacement (p : Idx) (m : MatchFinder) : Res (Idx × MatchFinder) := do
  let l ← lsonAt m p.val
  let r ← rsonAt m p.val
  if r = nilIdx then .ok (l, m) else if l = nilIdx then .ok (r, m) else hangPredecessor p m

/-- The end of DELETE_NODE: `q` hangs where `p` hung, and `p` leaves the tree (R59, R60). -/
def spliceOut (p q : Idx) (m : MatchFinder) : Res MatchFinder := do
  let m ← setDad q.val (← dadAt m p.val) m
  let m ← hangInPlace (← dadAt m p.val) p q m
  setDad p.val nilIdx m

/-- DELETE_NODE(p) (R59); no effect on a position that is not in the tree. -/
def deleteNode (p : BitVec 12) (m : MatchFinder) : Res MatchFinder := do
  let d ← dadAt m p.toNat
  if d = nilIdx then .ok m
  else do
    let (q, m) ← replacement (posIdx p) m
    spliceOut (posIdx p) q m

/-- The instruction INIT_TREE. -/
def execInitTree (s : State) : Out := .next (setMf (initTree s.mf) s)

/-- The instruction INSERT_NODE. -/
def execInsertNode (r : BitVec 12) (s : State) : Out :=
  outcome ((insertNode s.textBuf r s.mf).map fun m => setMf m s)

/-- The instruction DELETE_NODE. -/
def execDeleteNode (p : BitVec 12) (s : State) : Out :=
  outcome ((deleteNode p s.mf).map fun m => setMf m s)

end Sys2Proof.Machine
end

