-- ==== Sys2Proof/Machine/PositionCoder.lean ====
section
/-! DEFINITION. Unit position_coder: ENCODE_POSITION, DECODE_POSITION (spec/42_position_coder.md R80 to R85). The unit has no
state of its own. -/

namespace Sys2Proof.Machine

open Sys2Proof

/-- ENCODE_POSITION(o): the prefix code of `o >> 6`, then the six low bits (R82). -/
def encodePosition (o : BitVec 12) (s : State) (P : PosTable := Config.POS_LEN) : State :=
  let i := o.toNat / 64
  putCode 6 ((o &&& 0x3F).setWidth 32 <<< 26) (putCode (posLen i P) ((posCode i P).setWidth 32 <<< 24) s)

/-- DECODE_POSITION's loop: `i <- ((i << 1) + GET_BIT()) & 0xFFFF`, `j` times (R83). -/
def moreBits : Nat → BitVec 16 → State → BitVec 16 × State
  | 0, i, s => (i, s)
  | j + 1, i, s => moreBits j ((i <<< 1) + (BitVec.ofBool (getBit s).1).setWidth 16) (getBit s).2

/-- DECODE_POSITION: eight bits, the high part from the table, `D_LEN - 2` more bits (R83). -/
def decodePosition (s : State) (P : PosTable := Config.POS_LEN) : BitVec 12 × State :=
  let b := (getByte s).1
  let more := moreBits (dLen b P - 2) (b.setWidth 16) (getByte s).2
  ((BitVec.ofNat 12 (dCode b P) <<< 6) ||| (more.1 &&& 0x3F).setWidth 12, more.2)

/-- The instruction ENCODE_POSITION. -/
def execEncodePosition (o : BitVec 12) (s : State) (P : PosTable := Config.POS_LEN) : Out := .next (encodePosition o s P)

/-- The instruction DECODE_POSITION; the offset goes to its caller. -/
def execDecodePosition (s : State) (P : PosTable := Config.POS_LEN) : Out :=
  .next (setRet ((decodePosition s P).1.setWidth 16) (decodePosition s P).2)

end Sys2Proof.Machine
end

