-- ==== Sys2Proof/Machine/Orchestrator.lean ====
section
/-! DEFINITION. Unit codec_orchestrator (spec/44_orchestrator.md R105 to R117): one definition per row group of the phase table
R116, the core's step, and the commands COMPRESS and DECOMPRESS as their steps from the first to DONE or FAULT (R150). -/

namespace Sys2Proof.Machine

open Sys2Proof

/-! ### COMPRESS (R106 to R110) -/

/-- E_HDR: clear the results; a length of 2^32 or more faults; else the header, and DONE for an empty input (R106). -/
def stepEHdr (s0 : State) : State :=
  let s := clearResults s0
  if 2 ^ 32 ≤ s.inLen.toNat then raiseFault .lenRange s.inLen s
  else
    let s := (headerBytes (s.inLen.setWidth 32)).foldl (fun t v => outAppend v t) s
    setPhase (if s.inLen = 0 then .done else .eInit) s

/-- One byte of the preload: `text_buf[r + len] <- c`, a plain write at a linear index (R107, R29). -/
def preloadByte (c : Byte) (s : State) : State :=
  { s with
    textBuf := winPut (s.r.toNat + s.enc.len.toNat) c s.textBuf
    enc := { s.enc with inPos := s.enc.inPos + 1, len := s.enc.len + 1 } }

/-- The preload: up to `n` more input bytes into the lookahead (R107). -/
def preload : (n : Nat) → State → Res State
  | 0, s => .ok s
  | n + 1, s =>
    if s.enc.inPos.toNat < s.inLen.toNat then do
      let c ← inByte s s.enc.inPos.toNat
      preload n (preloadByte c s)
    else .ok s

/-- E_INIT up to the preload: bit channel, trees, match result, window, cursors (R107). -/
def initEncode (s : State) : State :=
  { s with
    wr := { acc := 0, cnt := 0 }
    huff := startHuff s.huff
    mf := { initTree s.mf with matchLength := 0, matchPosition := 0 }
    textBuf := winFill s.textBuf
    r := Config.R0
    enc := { s.enc with s := Config.S0, inPos := 0, len := 0 } }

/-- E_INIT (R107). -/
def stepEInit (s0 : State) : Res State := do
  let s ← preload Config.F (initEncode s0)
  .ok (setPhase .ePrime s)

/-- `INSERT_NODE(r)` on the state. -/
def insertAt (r : BitVec 12) (s : State) : Res State := do
  let m ← insertNode s.textBuf r s.mf
  .ok (setMf m s)

/-- `DELETE_NODE(p)` on the state. -/
def deleteAt (p : BitVec 12) (s : State) : Res State := do
  let m ← deleteNode p s.mf
  .ok (setMf m s)

/-- E_PRIME: positions `r-1` down to `r-F`, then `r` (R107). -/
def stepEPrime (s : State) : Res State := do
  let s' ← forUpM (fun i t => insertAt (s.r - BitVec.ofNat 12 i) t) Config.F 1 s
  let s' ← insertAt s.r s'
  .ok (setPhase .eEmit s')

/-- The clamp: a match never runs past the lookahead (R108). -/
def clamp (s : State) : State :=
  if s.enc.len.toNat < s.mf.matchLength.toNat then setMf { s.mf with matchLength := s.enc.len } s else s

/-- The token the match result calls for: a literal where it is not above THRESHOLD, else the match (R108). -/
def emitToken (s : State) (P : PosTable := Config.POS_LEN) : Res State :=
  if s.mf.matchLength.toNat ≤ Config.THRESHOLD then do
    let b ← winRead s.textBuf s.r.toNat
    encodeChar b.toNat (setMf { s.mf with matchLength := 1 } s)
  else do
    let t ← encodeChar (symOfLen s.mf.matchLength) s
    .ok (encodePosition s.mf.matchPosition t P)

/-- E_EMIT: clamp, emit, start the advance (R108). -/
def stepEEmit (s0 : State) (P : PosTable := Config.POS_LEN) : Res State := do
  let s ← emitToken (clamp s0) P
  .ok (setPhase (if s.enc.inPos.toNat < s.inLen.toNat then .eAdvIn else .eAdvDrain)
    (setEnc { s.enc with lastMatchLength := s.mf.matchLength, advI := 0 } s))

/-- `WinWrite(s, c)`, then both cursors advance (R109). -/
def slideIn (c : Byte) (s : State) : State :=
  { s with
    textBuf := winWrite s.enc.s.toNat c s.textBuf
    r := s.r + 1
    enc := { s.enc with s := s.enc.s + 1 } }

/-- E_ADV_IN: one position, with one input byte (R109). -/
def stepEAdvIn (s0 : State) : Res State := do
  let c ← inByte s0 s0.enc.inPos.toNat
  let s ← deleteAt s0.enc.s (setEnc { s0.enc with inPos := s0.enc.inPos + 1 } s0)
  let s ← insertAt (s.r + 1) (slideIn c s)
  let s := setEnc { s.enc with advI := s.enc.advI + 1 } s
  .ok (setPhase
    (if s.enc.lastMatchLength.toNat ≤ s.enc.advI.toNat then .eEmit
      else if s.enc.inPos.toNat < s.inLen.toNat then .eAdvIn else .eAdvDrain) s)

/-- Both cursors advance and the lookahead shrinks (R109). -/
def slideDrain (s : State) : State :=
  { s with r := s.r + 1, enc := { s.enc with s := s.enc.s + 1, len := s.enc.len - 1 } }

/-- `if len > 0: INSERT_NODE(r)` (R109). -/
def insertWhileAny (s : State) : Res State := if 0 < s.enc.len.toNat then insertAt s.r s else .ok s

/-- E_ADV_DRAIN: one position, with the input exhausted (R109, R110). -/
def stepEAdvDrain (s0 : State) : Res State := do
  let s ← deleteAt s0.enc.s (setEnc { s0.enc with advI := s0.enc.advI + 1 } s0)
  let s ← insertWhileAny (slideDrain s)
  .ok (setPhase
    (if s.enc.advI.toNat < s.enc.lastMatchLength.toNat then .eAdvDrain
      else if 0 < s.enc.len.toNat then .eEmit else .eFlush) s)

/-- E_FLUSH (R110). -/
def stepEFlush (s : State) : State := setPhase .done (flushBits s)

/-! ### DECOMPRESS (R111 to R115) -/

/-- What the first step of DECOMPRESS does with a header of value `n` (R111). -/
def takeHeader (n : BitVec 32) (s : State) : State :=
  setPhase (if n = 0 then .done else .dInit) (setDec { s.dec with origLen := n } s)

/-- D_HDR: clear the results; fewer than four bytes fault; else the header (R111). -/
def stepDHdr (s0 : State) : Res State :=
  let s := clearResults s0
  if s.inLen.toNat < Config.HDR_BYTES then .ok (raiseFault .hdrShort s.inLen s)
  else do
    let n ← readHeader s
    .ok (takeHeader n s)

/-- D_INIT (R112). -/
def stepDInit (s : State) : State :=
  { s with
    huff := startHuff s.huff
    textBuf := winFill s.textBuf
    r := Config.R0
    dec := { s.dec with outCnt := 0 }
    rdBitpos := 0
    phase := .dSymbol }

/-- A byte produced: to the output, and to the window at `r`, which advances (R114, R115). -/
def produceByte (c : Byte) (s : State) : State :=
  let s := outWriteNext c s
  { s with textBuf := winPut s.r.toNat c s.textBuf, r := s.r + 1 }

/-- The phase after output bytes: more tokens while `out_cnt < orig_len` (R111, R116). -/
def afterOutput (s : State) : Phase := if s.dec.outCnt.toNat < s.dec.origLen.toNat then .dSymbol else .done

/-- A literal token, `sym` being its byte (R115). -/
def takeLiteral (s0 : State) : State :=
  let s := produceByte (s0.dec.sym.setWidth 8) s0
  setPhase (afterOutput s) s

/-- A match token of the length `sym` denotes at offset `o` (R113). -/
def startCopy (o : BitVec 12) (s : State) : State :=
  setPhase .dCopy (setDec { s.dec with copyRem := lenOfSym s.dec.sym.toNat, src := copySource s.r o } s)

/-- The decoded symbol goes to `sym`. -/
def setSym (c : Nat) (s : State) : State := setDec { s.dec with sym := BitVec.ofNat 9 c } s

/-- D_SYMBOL: one symbol; a literal whole, or the start of a match (R111, R113, R115). -/
def stepDSymbol (s0 : State) (P : PosTable := Config.POS_LEN) : Res State := do
  let (c, s) ← decodeChar s0
  let s := setSym c s
  if c < 256 then .ok (takeLiteral s)
  else .ok (startCopy (decodePosition s P).1 (decodePosition s P).2)

/-- The byte at `src` goes out; `src` advances and one byte fewer is left (R114). -/
def copyByte (c : Byte) (s0 : State) : State :=
  let s := produceByte c s0
  setDec { s.dec with src := s.dec.src + 1, copyRem := s.dec.copyRem - 1 } s

/-- D_COPY: one byte of a match, or the fault of a match that runs past the declared length (R114, R125). -/
def stepDCopy (s0 : State) : Res State :=
  if s0.dec.outCnt = s0.dec.origLen then .ok (raiseFault .outOverrun (s0.dec.copyRem.setWidth 64) s0)
  else do
    let c ← winRead s0.textBuf s0.dec.src.toNat
    let s := copyByte c s0
    .ok (setPhase (if 0 < s.dec.copyRem.toNat then .dCopy else afterOutput s) s)

/-! ### The core's step and the whole commands (R116, R150) -/

/-- One step of the core: one row of R116. In IDLE, DONE and FAULT it waits and all state keeps its value (R136). -/
def coreStep (s : State) (P : PosTable := Config.POS_LEN) : Res State :=
  match s.phase with
  | .idle | .done | .fault => .ok s
  | .eHdr => .ok (stepEHdr s)
  | .eInit => stepEInit s
  | .ePrime => stepEPrime s
  | .eEmit => stepEEmit s P
  | .eAdvIn => stepEAdvIn s
  | .eAdvDrain => stepEAdvDrain s
  | .eFlush => .ok (stepEFlush s)
  | .dHdr => stepDHdr s
  | .dInit => .ok (stepDInit s)
  | .dSymbol => stepDSymbol s P
  | .dCopy => stepDCopy s

/-- More steps than any command takes: two for each of fewer than 2^32 bytes, and the first and last ones (R151; log entry 14). -/
def commandFuel : Nat := 2 ^ 33 + 16

/-- Steps of the core until it is no longer BUSY. -/
def runCommand (fuel : Nat) (s : State) (P : PosTable := Config.POS_LEN) : Res State :=
  match fuel with
  | 0 => if busy s then .error .loopDiverges else .ok s
  | fuel + 1 => if busy s then do runCommand fuel (← coreStep s P) P else .ok s

/-- A whole command from its first phase; ignored while another runs (R23, R116, R150). -/
def wholeCommand (first : Phase) (s : State) (P : PosTable := Config.POS_LEN) : Res State :=
  if busy s then .ok s else runCommand commandFuel (startCommand first s) P

/-- The instruction COMPRESS: the command whole. -/
def execCompress (s : State) (P : PosTable := Config.POS_LEN) : Out := outcome (wholeCommand .eHdr s P)

/-- The instruction DECOMPRESS: the command whole. -/
def execDecompress (s : State) (P : PosTable := Config.POS_LEN) : Out := outcome (wholeCommand .dHdr s P)

/-- The host writes `CMD` = 1 (R23, R116). -/
def execCmdCompress (s : State) : Out := .next (startCommand .eHdr s)

/-- The host writes `CMD` = 2 (R23, R116). -/
def execCmdDecompress (s : State) : Out := .next (startCommand .dHdr s)

/-- The host writes `CMD` = 0: reserved, ignored, no state change (R23, R52; log entry 15). -/
def execCmdReserved0 (s : State) : Out := .next s

/-- The host writes `CMD` = 3: reserved, ignored, no state change (R23, R52; log entry 15). -/
def execCmdReserved3 (s : State) : Out := .next s

end Sys2Proof.Machine
end

