-- ==== Sys2Proof/Machine/Stream.lean ====
section
/-! DEFINITION. The elements of the compressed stream as the decoder takes them (spec/30_encoding.md R40 to R50;
spec/44_orchestrator.md R111 to R115): the header, the tokens LIT, MATCH and PAD, the 64 position codes. DESIGN CHOICE (unsafe,
log entry 10): the spec gives a stream element a meaning on the side that writes it and on the side that reads it; presented as
a word it is READ, wherever the decoder stands: the bits that spell it are consumed (`rd_bitpos` moves past them, the bits
themselves are not looked at) and its effect happens. -/

namespace Sys2Proof.Machine

open Sys2Proof

/-- `n` payload bits are consumed. -/
def skipBits (n : Nat) (s : State) : State := { s with rdBitpos := s.rdBitpos + BitVec.ofNat 64 n }

/-- The Huffman code of symbol `c` is read: its bits are consumed, the tree is updated, `sym` is `c` (R45, R72). -/
def takeSymbolCode (c : Nat) (s : State) : Res State := do
  let (l, _) ← codeOf s.huff c
  let h ← update c s.huff
  .ok (setSym c (setHuff h (skipBits l s)))

/-- How many bits a position code of high part `i` has (R81). -/
def posCodeBits (i : Nat) (P : PosTable := Config.POS_LEN) : Nat := posLen i P + 6

/-- Copy passes until the copy ends, `n` at most (R114). -/
def copyAll : (n : Nat) → State → Res State
  | 0, s => .ok s
  | n + 1, s => if s.phase = .dCopy then do copyAll n (← stepDCopy s) else .ok s

/-- The stream header is read: the first step of DECOMPRESS on it (R41, R111). -/
def execHdr (n : BitVec 32) (s : State) : Out := .next (takeHeader n (clearResults s))

/-- A literal token is read (R43, R115). -/
def execLit (b : Byte) (s : State) : Out := outcome ((takeSymbolCode b.toNat s).map takeLiteral)

/-- A match token is read: its symbol, its position code, and the copy to its end (R44, R113, R114). -/
def execMatchTok (m : BitVec 6) (o : BitVec 12) (s : State) (P : PosTable := Config.POS_LEN) : Out :=
  outcome (do
    let s ← takeSymbolCode (symOfLen m) s
    copyAll 64 (startCopy o (skipBits (posCodeBits (o.toNat / 64) P) s)))

/-- The pad bits: never read by DECOMPRESS, so nothing happens (R50). -/
def execPad (_k : BitVec 3) (s : State) : Out := .next s

/-- The position code of high part `i` with low bits `low` is read: its bits are consumed and its offset goes to the caller
(R46, R48, R83). -/
def takePosCode (i : Nat) (low : BitVec 6) (s : State) (P : PosTable := Config.POS_LEN) : State :=
  setRet (BitVec.ofNat 16 (64 * i + low.toNat)) (skipBits (posCodeBits i P) s)

/-- The position code `POSCODE_0`. -/
def execPoscode0 (low : BitVec 6) (s : State) : Out := .next (takePosCode 0 low s)

/-- The position code `POSCODE_1`. -/
def execPoscode1 (low : BitVec 6) (s : State) : Out := .next (takePosCode 1 low s)

/-- The position code `POSCODE_2`. -/
def execPoscode2 (low : BitVec 6) (s : State) : Out := .next (takePosCode 2 low s)

/-- The position code `POSCODE_3`. -/
def execPoscode3 (low : BitVec 6) (s : State) : Out := .next (takePosCode 3 low s)

/-- The position code `POSCODE_4`. -/
def execPoscode4 (low : BitVec 6) (s : State) : Out := .next (takePosCode 4 low s)

/-- The position code `POSCODE_5`. -/
def execPoscode5 (low : BitVec 6) (s : State) : Out := .next (takePosCode 5 low s)

/-- The position code `POSCODE_6`. -/
def execPoscode6 (low : BitVec 6) (s : State) : Out := .next (takePosCode 6 low s)

/-- The position code `POSCODE_7`. -/
def execPoscode7 (low : BitVec 6) (s : State) : Out := .next (takePosCode 7 low s)

/-- The position code `POSCODE_8`. -/
def execPoscode8 (low : BitVec 6) (s : State) : Out := .next (takePosCode 8 low s)

/-- The position code `POSCODE_9`. -/
def execPoscode9 (low : BitVec 6) (s : State) : Out := .next (takePosCode 9 low s)

/-- The position code `POSCODE_10`. -/
def execPoscode10 (low : BitVec 6) (s : State) : Out := .next (takePosCode 10 low s)

/-- The position code `POSCODE_11`. -/
def execPoscode11 (low : BitVec 6) (s : State) : Out := .next (takePosCode 11 low s)

/-- The position code `POSCODE_12`. -/
def execPoscode12 (low : BitVec 6) (s : State) : Out := .next (takePosCode 12 low s)

/-- The position code `POSCODE_13`. -/
def execPoscode13 (low : BitVec 6) (s : State) : Out := .next (takePosCode 13 low s)

/-- The position code `POSCODE_14`. -/
def execPoscode14 (low : BitVec 6) (s : State) : Out := .next (takePosCode 14 low s)

/-- The position code `POSCODE_15`. -/
def execPoscode15 (low : BitVec 6) (s : State) : Out := .next (takePosCode 15 low s)

/-- The position code `POSCODE_16`. -/
def execPoscode16 (low : BitVec 6) (s : State) : Out := .next (takePosCode 16 low s)

/-- The position code `POSCODE_17`. -/
def execPoscode17 (low : BitVec 6) (s : State) : Out := .next (takePosCode 17 low s)

/-- The position code `POSCODE_18`. -/
def execPoscode18 (low : BitVec 6) (s : State) : Out := .next (takePosCode 18 low s)

/-- The position code `POSCODE_19`. -/
def execPoscode19 (low : BitVec 6) (s : State) : Out := .next (takePosCode 19 low s)

/-- The position code `POSCODE_20`. -/
def execPoscode20 (low : BitVec 6) (s : State) : Out := .next (takePosCode 20 low s)

/-- The position code `POSCODE_21`. -/
def execPoscode21 (low : BitVec 6) (s : State) : Out := .next (takePosCode 21 low s)

/-- The position code `POSCODE_22`. -/
def execPoscode22 (low : BitVec 6) (s : State) : Out := .next (takePosCode 22 low s)

/-- The position code `POSCODE_23`. -/
def execPoscode23 (low : BitVec 6) (s : State) : Out := .next (takePosCode 23 low s)

/-- The position code `POSCODE_24`. -/
def execPoscode24 (low : BitVec 6) (s : State) : Out := .next (takePosCode 24 low s)

/-- The position code `POSCODE_25`. -/
def execPoscode25 (low : BitVec 6) (s : State) : Out := .next (takePosCode 25 low s)

/-- The position code `POSCODE_26`. -/
def execPoscode26 (low : BitVec 6) (s : State) : Out := .next (takePosCode 26 low s)

/-- The position code `POSCODE_27`. -/
def execPoscode27 (low : BitVec 6) (s : State) : Out := .next (takePosCode 27 low s)

/-- The position code `POSCODE_28`. -/
def execPoscode28 (low : BitVec 6) (s : State) : Out := .next (takePosCode 28 low s)

/-- The position code `POSCODE_29`. -/
def execPoscode29 (low : BitVec 6) (s : State) : Out := .next (takePosCode 29 low s)

/-- The position code `POSCODE_30`. -/
def execPoscode30 (low : BitVec 6) (s : State) : Out := .next (takePosCode 30 low s)

/-- The position code `POSCODE_31`. -/
def execPoscode31 (low : BitVec 6) (s : State) : Out := .next (takePosCode 31 low s)

/-- The position code `POSCODE_32`. -/
def execPoscode32 (low : BitVec 6) (s : State) : Out := .next (takePosCode 32 low s)

/-- The position code `POSCODE_33`. -/
def execPoscode33 (low : BitVec 6) (s : State) : Out := .next (takePosCode 33 low s)

/-- The position code `POSCODE_34`. -/
def execPoscode34 (low : BitVec 6) (s : State) : Out := .next (takePosCode 34 low s)

/-- The position code `POSCODE_35`. -/
def execPoscode35 (low : BitVec 6) (s : State) : Out := .next (takePosCode 35 low s)

/-- The position code `POSCODE_36`. -/
def execPoscode36 (low : BitVec 6) (s : State) : Out := .next (takePosCode 36 low s)

/-- The position code `POSCODE_37`. -/
def execPoscode37 (low : BitVec 6) (s : State) : Out := .next (takePosCode 37 low s)

/-- The position code `POSCODE_38`. -/
def execPoscode38 (low : BitVec 6) (s : State) : Out := .next (takePosCode 38 low s)

/-- The position code `POSCODE_39`. -/
def execPoscode39 (low : BitVec 6) (s : State) : Out := .next (takePosCode 39 low s)

/-- The position code `POSCODE_40`. -/
def execPoscode40 (low : BitVec 6) (s : State) : Out := .next (takePosCode 40 low s)

/-- The position code `POSCODE_41`. -/
def execPoscode41 (low : BitVec 6) (s : State) : Out := .next (takePosCode 41 low s)

/-- The position code `POSCODE_42`. -/
def execPoscode42 (low : BitVec 6) (s : State) : Out := .next (takePosCode 42 low s)

/-- The position code `POSCODE_43`. -/
def execPoscode43 (low : BitVec 6) (s : State) : Out := .next (takePosCode 43 low s)

/-- The position code `POSCODE_44`. -/
def execPoscode44 (low : BitVec 6) (s : State) : Out := .next (takePosCode 44 low s)

/-- The position code `POSCODE_45`. -/
def execPoscode45 (low : BitVec 6) (s : State) : Out := .next (takePosCode 45 low s)

/-- The position code `POSCODE_46`. -/
def execPoscode46 (low : BitVec 6) (s : State) : Out := .next (takePosCode 46 low s)

/-- The position code `POSCODE_47`. -/
def execPoscode47 (low : BitVec 6) (s : State) : Out := .next (takePosCode 47 low s)

/-- The position code `POSCODE_48`. -/
def execPoscode48 (low : BitVec 6) (s : State) : Out := .next (takePosCode 48 low s)

/-- The position code `POSCODE_49`. -/
def execPoscode49 (low : BitVec 6) (s : State) : Out := .next (takePosCode 49 low s)

/-- The position code `POSCODE_50`. -/
def execPoscode50 (low : BitVec 6) (s : State) : Out := .next (takePosCode 50 low s)

/-- The position code `POSCODE_51`. -/
def execPoscode51 (low : BitVec 6) (s : State) : Out := .next (takePosCode 51 low s)

/-- The position code `POSCODE_52`. -/
def execPoscode52 (low : BitVec 6) (s : State) : Out := .next (takePosCode 52 low s)

/-- The position code `POSCODE_53`. -/
def execPoscode53 (low : BitVec 6) (s : State) : Out := .next (takePosCode 53 low s)

/-- The position code `POSCODE_54`. -/
def execPoscode54 (low : BitVec 6) (s : State) : Out := .next (takePosCode 54 low s)

/-- The position code `POSCODE_55`. -/
def execPoscode55 (low : BitVec 6) (s : State) : Out := .next (takePosCode 55 low s)

/-- The position code `POSCODE_56`. -/
def execPoscode56 (low : BitVec 6) (s : State) : Out := .next (takePosCode 56 low s)

/-- The position code `POSCODE_57`. -/
def execPoscode57 (low : BitVec 6) (s : State) : Out := .next (takePosCode 57 low s)

/-- The position code `POSCODE_58`. -/
def execPoscode58 (low : BitVec 6) (s : State) : Out := .next (takePosCode 58 low s)

/-- The position code `POSCODE_59`. -/
def execPoscode59 (low : BitVec 6) (s : State) : Out := .next (takePosCode 59 low s)

/-- The position code `POSCODE_60`. -/
def execPoscode60 (low : BitVec 6) (s : State) : Out := .next (takePosCode 60 low s)

/-- The position code `POSCODE_61`. -/
def execPoscode61 (low : BitVec 6) (s : State) : Out := .next (takePosCode 61 low s)

/-- The position code `POSCODE_62`. -/
def execPoscode62 (low : BitVec 6) (s : State) : Out := .next (takePosCode 62 low s)

/-- The position code `POSCODE_63`. -/
def execPoscode63 (low : BitVec 6) (s : State) : Out := .next (takePosCode 63 low s)

end Sys2Proof.Machine
end

