-- ==== Sys2Proof/Machine/Dispatch.lean ====
section
/-! DEFINITION. The dispatch: one arm per constructor of `Instr`, one direct call of its meaning. -/

namespace Sys2Proof.Machine

open Sys2Proof

-- The meaning of each instruction on a state.
def exec (i : Instr) (s : State) : Host.Outcome State Fault Refusal :=
  match i with
  | .initTree => Sys2Proof.Machine.execInitTree s
  | .insertNode r => Sys2Proof.Machine.execInsertNode r s
  | .deleteNode p => Sys2Proof.Machine.execDeleteNode p s
  | .startHuff => Sys2Proof.Machine.execStartHuff s
  | .update c => Sys2Proof.Machine.execUpdate c s
  | .reconst => Sys2Proof.Machine.execReconst s
  | .encodeChar c => Sys2Proof.Machine.execEncodeChar c s
  | .decodeChar => Sys2Proof.Machine.execDecodeChar s
  | .encodePosition o => Sys2Proof.Machine.execEncodePosition o s
  | .decodePosition => Sys2Proof.Machine.execDecodePosition s
  | .putCode l v => Sys2Proof.Machine.execPutCode l v s
  | .flush => Sys2Proof.Machine.execFlush s
  | .getBit => Sys2Proof.Machine.execGetBit s
  | .getByte => Sys2Proof.Machine.execGetByte s
  | .compress => Sys2Proof.Machine.execCompress s
  | .decompress => Sys2Proof.Machine.execDecompress s
  | .cmdCompress => Sys2Proof.Machine.execCmdCompress s
  | .cmdDecompress => Sys2Proof.Machine.execCmdDecompress s
  | .cmdReserved0 => Sys2Proof.Machine.execCmdReserved0 s
  | .cmdReserved3 => Sys2Proof.Machine.execCmdReserved3 s
  | .hdr n => Sys2Proof.Machine.execHdr n s
  | .lit b => Sys2Proof.Machine.execLit b s
  | .matchTok m o => Sys2Proof.Machine.execMatchTok m o s
  | .pad k => Sys2Proof.Machine.execPad k s
  | .poscode0 low => Sys2Proof.Machine.execPoscode0 low s
  | .poscode1 low => Sys2Proof.Machine.execPoscode1 low s
  | .poscode2 low => Sys2Proof.Machine.execPoscode2 low s
  | .poscode3 low => Sys2Proof.Machine.execPoscode3 low s
  | .poscode4 low => Sys2Proof.Machine.execPoscode4 low s
  | .poscode5 low => Sys2Proof.Machine.execPoscode5 low s
  | .poscode6 low => Sys2Proof.Machine.execPoscode6 low s
  | .poscode7 low => Sys2Proof.Machine.execPoscode7 low s
  | .poscode8 low => Sys2Proof.Machine.execPoscode8 low s
  | .poscode9 low => Sys2Proof.Machine.execPoscode9 low s
  | .poscode10 low => Sys2Proof.Machine.execPoscode10 low s
  | .poscode11 low => Sys2Proof.Machine.execPoscode11 low s
  | .poscode12 low => Sys2Proof.Machine.execPoscode12 low s
  | .poscode13 low => Sys2Proof.Machine.execPoscode13 low s
  | .poscode14 low => Sys2Proof.Machine.execPoscode14 low s
  | .poscode15 low => Sys2Proof.Machine.execPoscode15 low s
  | .poscode16 low => Sys2Proof.Machine.execPoscode16 low s
  | .poscode17 low => Sys2Proof.Machine.execPoscode17 low s
  | .poscode18 low => Sys2Proof.Machine.execPoscode18 low s
  | .poscode19 low => Sys2Proof.Machine.execPoscode19 low s
  | .poscode20 low => Sys2Proof.Machine.execPoscode20 low s
  | .poscode21 low => Sys2Proof.Machine.execPoscode21 low s
  | .poscode22 low => Sys2Proof.Machine.execPoscode22 low s
  | .poscode23 low => Sys2Proof.Machine.execPoscode23 low s
  | .poscode24 low => Sys2Proof.Machine.execPoscode24 low s
  | .poscode25 low => Sys2Proof.Machine.execPoscode25 low s
  | .poscode26 low => Sys2Proof.Machine.execPoscode26 low s
  | .poscode27 low => Sys2Proof.Machine.execPoscode27 low s
  | .poscode28 low => Sys2Proof.Machine.execPoscode28 low s
  | .poscode29 low => Sys2Proof.Machine.execPoscode29 low s
  | .poscode30 low => Sys2Proof.Machine.execPoscode30 low s
  | .poscode31 low => Sys2Proof.Machine.execPoscode31 low s
  | .poscode32 low => Sys2Proof.Machine.execPoscode32 low s
  | .poscode33 low => Sys2Proof.Machine.execPoscode33 low s
  | .poscode34 low => Sys2Proof.Machine.execPoscode34 low s
  | .poscode35 low => Sys2Proof.Machine.execPoscode35 low s
  | .poscode36 low => Sys2Proof.Machine.execPoscode36 low s
  | .poscode37 low => Sys2Proof.Machine.execPoscode37 low s
  | .poscode38 low => Sys2Proof.Machine.execPoscode38 low s
  | .poscode39 low => Sys2Proof.Machine.execPoscode39 low s
  | .poscode40 low => Sys2Proof.Machine.execPoscode40 low s
  | .poscode41 low => Sys2Proof.Machine.execPoscode41 low s
  | .poscode42 low => Sys2Proof.Machine.execPoscode42 low s
  | .poscode43 low => Sys2Proof.Machine.execPoscode43 low s
  | .poscode44 low => Sys2Proof.Machine.execPoscode44 low s
  | .poscode45 low => Sys2Proof.Machine.execPoscode45 low s
  | .poscode46 low => Sys2Proof.Machine.execPoscode46 low s
  | .poscode47 low => Sys2Proof.Machine.execPoscode47 low s
  | .poscode48 low => Sys2Proof.Machine.execPoscode48 low s
  | .poscode49 low => Sys2Proof.Machine.execPoscode49 low s
  | .poscode50 low => Sys2Proof.Machine.execPoscode50 low s
  | .poscode51 low => Sys2Proof.Machine.execPoscode51 low s
  | .poscode52 low => Sys2Proof.Machine.execPoscode52 low s
  | .poscode53 low => Sys2Proof.Machine.execPoscode53 low s
  | .poscode54 low => Sys2Proof.Machine.execPoscode54 low s
  | .poscode55 low => Sys2Proof.Machine.execPoscode55 low s
  | .poscode56 low => Sys2Proof.Machine.execPoscode56 low s
  | .poscode57 low => Sys2Proof.Machine.execPoscode57 low s
  | .poscode58 low => Sys2Proof.Machine.execPoscode58 low s
  | .poscode59 low => Sys2Proof.Machine.execPoscode59 low s
  | .poscode60 low => Sys2Proof.Machine.execPoscode60 low s
  | .poscode61 low => Sys2Proof.Machine.execPoscode61 low s
  | .poscode62 low => Sys2Proof.Machine.execPoscode62 low s
  | .poscode63 low => Sys2Proof.Machine.execPoscode63 low s
  | .lookup b => Sys2Proof.Machine.execLookup b s
  | .offset r p => Sys2Proof.Machine.execOffset r p s
  | .symOfLen m => Sys2Proof.Machine.execSymOfLen m s
  | .lenOfSym c => Sys2Proof.Machine.execLenOfSym c s

end Sys2Proof.Machine
end

