-- ==== Sys2Proof/Machine/Ports.lean ====
section
/-! DEFINITION. What comes from outside: a word presented in its space is decoded and executed; the host reads and writes the
registers of spec/10_state.md R23 and the buffers of R24; the RESET input (spec/70_reset_and_hazards.md R140). -/

namespace Sys2Proof.Machine

open Sys2Proof

/-- A word is fetched, decoded and executed. A request is one word: bytes after it are not looked at (log entry 5). -/
def runWord (sp : Space) (bytes : List Byte) (s : State) : Out :=
  match decode sp bytes with
  | .ok (i, _) => exec i s
  | .error e => .refused (.undecodable e)

/-- The value of readable register `n` (R23). -/
def registerValue (n : Nat) (s : State) : Option (BitVec 64) :=
  match n with
  | 1 => some s.inLen
  | 2 => some ((statusReg s.phase).setWidth 64)
  | 3 => some (s.faultCode.bits.setWidth 64)
  | 4 => some s.faultInfo
  | 5 => some s.outLen
  | _ => none

/-- The host reads register `n`: `CMD` is write-only, `OUT_LEN` is not to be read while BUSY (R23, R37). DESIGN CHOICE: while BUSY
`IN_LEN`, `FAULT_CODE` and `FAULT_INFO` can be read as `STATUS` can (safe, log entry 13), and `OUT_LEN`, which R23 calls valid when
DONE, reads as what it holds in IDLE and FAULT too (unsafe, log entry 20). -/
def hostReadReg (n : BitVec 3) (s : State) : Out :=
  if 5 < n.toNat then .refused .noSuchRegister
  else if n.toNat = 5 ∧ busy s = true then .refused .hostAccessWhileBusy
  else
    match registerValue n.toNat s with
    | some v => .next { s with hostData := v }
    | none => .refused .noSuchAccess

/-- The host writes register `n`: `CMD` takes the low two bits, `IN_LEN` is not to be written while BUSY, the others are
read-only (R23, R37). -/
def hostWriteReg (n : BitVec 3) (v : BitVec 64) (s : State) : Out :=
  if 5 < n.toNat then .refused .noSuchRegister
  else if n.toNat = 0 then runWord .cmd [v.extractLsb' 0 8] s
  else if n.toNat = 1 then
    (if busy s then .refused .hostAccessWhileBusy else .next { s with inLen := v })
  else .refused .noSuchAccess

/-- The host writes a byte of `IN`, not while BUSY (R24, R37). -/
def hostWriteIn (k : BitVec 64) (b : Byte) (s : State) : Out :=
  if busy s then .refused .hostAccessWhileBusy
  else .next { s with inBuf := sparseSet bufferDefault s.inBuf k.toNat b }

/-- The host reads a byte of `OUT` below `OUT_LEN`, not while BUSY (R24, R37). DESIGN CHOICE (unsafe, log entry 20): R24 has the host
read `OUT` only when DONE, and U6 names only BUSY; in IDLE and FAULT the read gives the byte that `OUT` holds. -/
def hostReadOut (k : BitVec 64) (s : State) : Out :=
  if busy s then .refused .hostAccessWhileBusy
  else if k.toNat < s.outLen.toNat then
    .next { s with hostData := (sparseGet bufferDefault s.outBuf k.toNat).setWidth 64 }
  else .fault (.indexOutOfRange .outBuf k.toNat)

/-- The RESET input: the state after reset; what is still to come from outside stays to come (R140). -/
def resetInput (s : State) : State := { State.reset with inputs := s.inputs }

/-- One act from outside. -/
def takeInput (a : Input) (s : State) : Out :=
  match a with
  | .word sp bytes => runWord sp bytes s
  | .readReg n => hostReadReg n s
  | .writeReg n v => hostWriteReg n v s
  | .writeIn k b => hostWriteIn k b s
  | .readOut k => hostReadOut k s
  | .resetLine => .next (resetInput s)
  | .letStep => outcome (coreStep s)

/-- The state with the number `w` of an opcode-table row as the word that comes next. -/
def presentTableWord (nbits w : Nat) (s : State) : State :=
  { s with inputs := .word (tableSpace nbits w) (tableBytes w) :: s.inputs }

end Sys2Proof.Machine
end

