-- ==== Sys2Proof/Machine/Step.lean ====
section
/-! DEFINITION. One step of the machine: what comes next from outside, or, with nothing to come, one step of the core
(spec/44_orchestrator.md R116; spec/70_reset_and_hazards.md R150). -/

namespace Sys2Proof.Machine

open Sys2Proof

/-- One step (log entry 5). -/
def step (s : State) : Host.Outcome State Fault Refusal :=
  match s.inputs with
  | [] => outcome (coreStep s)
  | a :: rest => takeInput a { s with inputs := rest }

/-- The state in which the very next step runs the instruction of the opcode-table word `w` (log entry 3). -/
def State.withFetchWord (s : State) (nbits w : Nat) : State := presentTableWord nbits w s

end Sys2Proof.Machine
end

