-- ==== Sys2Proof/Safety.lean ====
section
/-! DEFINITION. The terms claims are stated in: reads of one element, bit strings, the invariants of the units (spec/43_bit_channel.md
R91, R95, R98; spec/41_adaptive_huffman.md R67, R73; spec/40_match_finder.md R58, R61) and the safe states. The machine uses none
of them. -/

namespace Sys2Proof.Machine

open Sys2Proof

/-! ### Reads of one element -/

/-- Byte `k` of `IN`. -/
def inAt (s : State) (k : Nat) : Byte := sparseGet bufferDefault s.inBuf k

/-- Byte `k` of `OUT`. -/
def outAt (s : State) (k : Nat) : Byte := sparseGet bufferDefault s.outBuf k

/-- Byte `i` of a window buffer. -/
def winAt (tb : List Host.Cell) (i : Nat) : Byte := sparseGet windowDefault tb i

/-- `lson[i]`. -/
def lsonOf (m : MatchFinder) (i : Nat) : Nat := (sparseGet treeDefault m.lson i).val

/-- `rson[i]`. -/
def rsonOf (m : MatchFinder) (i : Nat) : Nat := (sparseGet treeDefault m.rson i).val

/-- `dad[i]`. -/
def dadOf (m : MatchFinder) (i : Nat) : Nat := (sparseGet treeDefault m.dad i).val

/-! ### Bit strings, in stream order (R9, R33) -/

/-- The `n` most significant bits of a word, the first of them bit `w - 1`. -/
def topBits {w : Nat} (n : Nat) (v : BitVec w) : List Bool := (List.range n).map fun k => v.getMsbD k

/-- The bits of `OUT[start .. start+n-1]`. -/
def outBits (s : State) (start n : Nat) : List Bool := (List.range n).flatMap fun k => topBits 8 (outAt s (start + k))

/-- Everything written so far: the bits of `OUT[0 .. OUT_LEN-1]`, then the pending bits (R91). -/
def writtenBits (s : State) : List Bool := outBits s 0 s.outLen.toNat ++ topBits s.wr.cnt.toNat s.wr.acc

/-- The write side between operations: fewer than 8 bits pending, zeros below them (R18, R91). -/
def WriterOk (s : State) : Prop :=
  s.wr.cnt.toNat < 8 ∧ ∀ k, s.wr.cnt.toNat ≤ k → s.wr.acc.getMsbD k = false

/-- The payload bit `k` places after the next one to deliver. -/
def payloadAt (s : State) (k : Nat) : Bool := payloadBit s (s.rdBitpos + BitVec.ofNat 64 k).toNat

/-- The payload goes on with these bits from the next one to deliver. -/
abbrev Spells (s : State) (bits : List Bool) : Prop := (List.range bits.length).map (payloadAt s) = bits

/-- The position code of offset `o`: its prefix code, then `o[5:0]` (R44). -/
def posBits (o : BitVec 12) (P : PosTable := Config.POS_LEN) : List Bool :=
  topBits (posLen (o.toNat / 64) P) (posCode (o.toNat / 64) P) ++ topBits 6 (o.setWidth 6)

/-! ### The Huffman tree -/

/-- The frequency of the leaf of symbol `c`. -/
def leafFreq (h : Huffman) (c : Nat) : Nat := (freqAt h (prntAt h (c + Config.T)).val).toNat

/-- The invariants R67 (H1 to H7) with the guard of R66. -/
structure HuffOk (h : Huffman) : Prop where
  /-- H1: frequencies do not fall from node to node, the guard included. -/
  order : ∀ i, i < Config.T → (freqAt h i).toNat ≤ (freqAt h (i + 1)).toNat
  /-- The guard entry (R66). -/
  guard : freqAt h Config.T = Config.FREQ_SENTINEL
  /-- H2: the children of an internal node are an even and the next node, the first below it. -/
  shape : ∀ i, i < Config.T → (sonAt h i).val < Config.T → (sonAt h i).val % 2 = 0 ∧ (sonAt h i).val < i
  /-- H3: the parent link of what hangs under a node, leaf id or first child. -/
  parent : ∀ i, i < Config.T → (prntAt h (sonAt h i).val).val = i
  /-- H3: the parent link of the second child. -/
  parentRight : ∀ i, i < Config.T → (sonAt h i).val < Config.T → (prntAt h ((sonAt h i).val + 1)).val = i
  /-- H3: the root marker. -/
  rootMark : (prntAt h Config.ROOT).val = 0
  /-- H2, H3 read upwards: every node but the root is one of its parent's two children. -/
  child : ∀ i, i < Config.ROOT → (sonAt h (prntAt h i).val).val = i - i % 2
  /-- H4: sums. -/
  sum : ∀ i, i < Config.T → (sonAt h i).val < Config.T →
    (freqAt h i).toNat = (freqAt h (sonAt h i).val).toNat + (freqAt h ((sonAt h i).val + 1)).toNat
  /-- H5: the node a symbol's `prnt` entry names is its leaf. -/
  leaf : ∀ c, c < Config.N_CHAR → (sonAt h (prntAt h (c + Config.T)).val).val = c + Config.T
  /-- H5: the root is internal. -/
  rootInternal : (sonAt h Config.ROOT).val < Config.T
  /-- H6: no leaf has frequency 0. -/
  leafPos : ∀ c, c < Config.N_CHAR → 1 ≤ leafFreq h c
  /-- H6: the root is at most MAX_FREQ. -/
  rootMax : (freqAt h Config.ROOT).toNat ≤ Config.MAX_FREQ.toNat
  /-- H6: the root is the sum of the leaves. -/
  rootSum : (freqAt h Config.ROOT).toNat = ((List.range Config.N_CHAR).map (leafFreq h)).sum

/-- The symbol at whose leaf the bits end, walked from node `i` down: 0 to `son[i]`, 1 to `son[i]+1` (R45). -/
def follow (h : Huffman) : Nat → List Bool → Option Nat
  | i, [] => if Config.T ≤ (sonAt h i).val then some ((sonAt h i).val - Config.T) else none
  | i, b :: bits => if (sonAt h i).val < Config.T then follow h ((sonAt h i).val + b.toNat) bits else none

/-- `bits` is the code of symbol `c` (R73). -/
abbrev IsCode (h : Huffman) (c : Nat) (bits : List Bool) : Prop := follow h Config.ROOT bits = some c

/-- What UPDATE finds: the tree itself, or the renormalised tree where the root stands at MAX_FREQ (R69). -/
def renormalised (h : Huffman) : Huffman := if freqAt h Config.ROOT = Config.MAX_FREQ then reconst h else h

/-- `l` is the last node whose frequency is that of node `c`: the exchange partner of `c` (R69, 92_eei_decisions.md D13). -/
structure LastEqual (h : Huffman) (c l : Nat) : Prop where
  range : c ≤ l ∧ l ≤ Config.ROOT
  equal : freqAt h l = freqAt h c
  last : ∀ m, l < m → m ≤ Config.T → (freqAt h c).toNat < (freqAt h m).toNat

/-- Entry `k` of `prnt` is that of what hangs under node `i`: its leaf id, or one of its two children (R67, H3). -/
abbrev HangsFrom (h : Huffman) (i k : Nat) : Prop :=
  k = (sonAt h i).val ∨ ((sonAt h i).val < Config.T ∧ k = (sonAt h i).val + 1)

/-- One level of UPDATE's climb takes the tree `h` to `g`: node `c` changes places with its partner `l` (with itself where it is
the last of its frequency), what hangs under the two goes with them, and node `l` counts one more; every other entry of the three
arrays stays (R69). -/
structure OneLevel (h g : Huffman) (c l : Nat) : Prop where
  partner : LastEqual h c l
  freq : ∀ i, i ≤ Config.T → (freqAt g i).toNat = if i = l then (freqAt h c).toNat + 1 else (freqAt h i).toNat
  son : ∀ i, i < Config.T → sonAt g i = if i = c then sonAt h l else if i = l then sonAt h c else sonAt h i
  prntOf : ∀ k, k < Config.T + Config.N_CHAR → (prntAt g k).val =
    if HangsFrom h c k then l else if HangsFrom h l k then c else (prntAt h k).val

/-- UPDATE's climb from node `c` takes the tree `h` to `t`: one exchange a level, up to the root (R69). -/
inductive Climbs : Nat → Huffman → Huffman → Prop where
  /-- The level of the root ends the climb. -/
  | root {c l : Nat} {h t : Huffman} : OneLevel h t c l → (prntAt t l).val = 0 → Climbs c h t
  /-- From any other level the climb goes on at the parent of the node the increment is at. -/
  | level {c l : Nat} {h g t : Huffman} :
      OneLevel h g c l → (prntAt g l).val ≠ 0 → Climbs (prntAt g l).val g t → Climbs c h t

/-! ### The match finder -/

/-- Position `p` is in the tree (R15, I1). -/
abbrev InTree (m : MatchFinder) (p : Nat) : Prop := p < Config.N ∧ dadOf m p ≠ Config.NIL

/-- `q` is a root sentinel (R30). -/
abbrev IsSentinel (q : Nat) : Prop := Config.N + 1 ≤ q ∧ q ≤ Config.N + 256

/-- `n` steps up from `p`, to a sentinel at most. -/
def ancestor (m : MatchFinder) : Nat → Nat → Nat
  | 0, p => p
  | n + 1, p => ancestor m n (if p < Config.N then dadOf m p else p)

/-- `p` is `x` or below it. -/
def Below (m : MatchFinder) (x p : Nat) : Prop := ∃ n, ancestor m n p = x

/-- Byte `i` of the key of position `p` (R58). -/
def keyByte (tb : List Host.Cell) (p i : Nat) : Nat := (winAt tb (p + i)).toNat

/-- The keys of `p` and `q` agree in their first `n` bytes. -/
abbrev SharePrefix (tb : List Host.Cell) (p q n : Nat) : Prop := ∀ i, i < n → keyByte tb p i = keyByte tb q i

/-- The keys of `p` and `q` are equal (R58). -/
abbrev SameKey (tb : List Host.Cell) (p q : Nat) : Prop := SharePrefix tb p q Config.F

/-- The key of `p` is less than the key of `q`: the first byte that differs decides, unsigned (R58). -/
def KeyLt (tb : List Host.Cell) (p q : Nat) : Prop :=
  ∃ i, i < Config.F ∧ SharePrefix tb p q i ∧ keyByte tb p i < keyByte tb q i

/-- The invariants R61 (I1 to I4) of the trees over a window. -/
structure FinderOk (tb : List Host.Cell) (m : MatchFinder) : Prop where
  /-- I2: a right child, of a position in the tree or of a sentinel, is a position whose parent that is. -/
  right : ∀ q, InTree m q ∨ IsSentinel q → rsonOf m q ≠ Config.NIL → rsonOf m q < Config.N ∧ dadOf m (rsonOf m q) = q
  /-- I2: a left child of a position in the tree is a position whose parent that is. -/
  left : ∀ q, InTree m q → lsonOf m q ≠ Config.NIL → lsonOf m q < Config.N ∧ dadOf m (lsonOf m q) = q
  /-- I2: no position hangs on both sides of one node. -/
  once : ∀ q, InTree m q → lsonOf m q ≠ Config.NIL → lsonOf m q ≠ rsonOf m q
  /-- I2: the parent of a position in the tree is a sentinel or a position in the tree. -/
  above : ∀ p, InTree m p → InTree m (dadOf m p) ∨ IsSentinel (dadOf m p)
  /-- I2: a position in the tree is a child of its parent. -/
  hung : ∀ p, InTree m p → rsonOf m (dadOf m p) = p ∨ (InTree m (dadOf m p) ∧ lsonOf m (dadOf m p) = p)
  /-- I3: a position in the tree is below the sentinel of its first byte. -/
  bucket : ∀ p, InTree m p → Below m (Config.N + 1 + keyByte tb p 0) p
  /-- I4: keys on the left are less. -/
  orderLeft : ∀ q p, InTree m q → InTree m p → lsonOf m q ≠ Config.NIL → Below m (lsonOf m q) p → KeyLt tb p q
  /-- I4: keys on the right are greater. -/
  orderRight : ∀ q p, InTree m q → InTree m p → rsonOf m q ≠ Config.NIL → Below m (rsonOf m q) p → KeyLt tb q p

/-! ### The read side as a shift register (R98) -/

/-- `rd_acc`, `rd_cnt`, `rd_ptr` of R98. -/
structure ReadReg where
  acc : BitVec 16
  cnt : Nat
  ptr : Nat
  deriving DecidableEq, Repr

/-- The shift register at the start of DECOMPRESS. -/
def ReadReg.start : ReadReg := { acc := 0, cnt := 0, ptr := 4 }

/-- One round of the refill. -/
def ReadReg.load (s : State) (g : ReadReg) : ReadReg :=
  let byte : Byte := if g.ptr < s.inLen.toNat then inAt s g.ptr else 0
  { acc := g.acc ||| (byte.setWidth 16 <<< (8 - g.cnt))
    cnt := g.cnt + 8
    ptr := if g.ptr < s.inLen.toNat then g.ptr + 1 else g.ptr }

/-- The refill: `while rd_cnt <= 8`, two rounds at most. -/
def ReadReg.refill (s : State) (g : ReadReg) : ReadReg :=
  if g.cnt ≤ 8 then (if (g.load s).cnt ≤ 8 then (g.load s).load s else g.load s) else g

/-- GET_BIT of the shift register. -/
def ReadReg.getBit (s : State) (g : ReadReg) : Bool × ReadReg :=
  let f := g.refill s
  (f.acc.getMsbD 0, { acc := f.acc <<< 1, cnt := f.cnt - 1, ptr := f.ptr })

/-- GET_BYTE of the shift register. -/
def ReadReg.getByte (s : State) (g : ReadReg) : Byte × ReadReg :=
  let f := g.refill s
  (f.acc.extractLsb' 8 8, { acc := f.acc <<< 8, cnt := f.cnt - 8, ptr := f.ptr })

/-- The register holds, left-justified, the `rd_cnt` payload bits that start at `rd_bitpos`, and `rd_ptr` is at the next byte to
load or at the end of the input (R98). -/
def ReadReg.Holds (s : State) (g : ReadReg) : Prop :=
  g.cnt ≤ 16 ∧ (s.rdBitpos.toNat + g.cnt) % 8 = 0
    ∧ (g.ptr = 4 + (s.rdBitpos.toNat + g.cnt) / 8
      ∨ (s.inLen.toNat ≤ g.ptr ∧ s.inLen.toNat ≤ 4 + (s.rdBitpos.toNat + g.cnt) / 8))
    ∧ ∀ k, k < 16 → g.acc.getMsbD k = (decide (k < g.cnt) && payloadBit s (s.rdBitpos.toNat + k))

/-! ### Safe states -/

/-- What every step keeps, whatever comes from outside: every address space in canonical form with its indices in range (R28), the
write side in order (R18), a well-formed Huffman tree (R67), a match no longer than the lookahead can be (R16). -/
structure Safe (s : State) : Prop where
  memory : Memory.wf s = true
  writer : WriterOk s
  huffman : HuffOk s.huff
  matchBound : s.mf.matchLength.toNat ≤ Config.F

/-! ### COMPRESS between its steps -/

/-- How many input bytes the tokens so far cover: `in_pos - len`. -/
def covered (s : State) : Nat := s.enc.inPos.toNat - s.enc.len.toNat

/-- The state between the steps of COMPRESS from E_PRIME to the last advance. -/
structure Encoding (s : State) : Prop where
  /-- The header could hold the length (R106). -/
  inLen : s.inLen.toNat < 2 ^ 32
  /-- `s = (r + F) mod N` (R20, R109). -/
  cursors : s.enc.s = s.r + 60
  /-- The lookahead is not empty and at most F bytes. -/
  len : 1 ≤ s.enc.len.toNat ∧ s.enc.len.toNat ≤ Config.F
  /-- No more bytes in the lookahead than taken, nor taken than there are. -/
  taken : s.enc.len.toNat ≤ s.enc.inPos.toNat ∧ s.enc.inPos.toNat ≤ s.inLen.toNat
  /-- The lookahead is full while input is left (R107, R109). -/
  full : s.enc.inPos.toNat < s.inLen.toNat → s.enc.len.toNat = Config.F
  /-- The mirror (R14, R31). -/
  mirror : ∀ k, k < Config.F - 1 → winAt s.textBuf (Config.N + k) = winAt s.textBuf k
  /-- `text_buf[r .. r+len-1]` are the next input bytes not yet encoded (R14). -/
  lookahead : ∀ i, i < s.enc.len.toNat → winAt s.textBuf (s.r + BitVec.ofNat 12 i).toNat = inAt s (covered s + i)
  /-- The N - F bytes before `r` are the last input bytes encoded, and FILL before the first (R14, R107). -/
  history : ∀ j, 1 ≤ j → j ≤ 4036 →
    winAt s.textBuf (s.r - BitVec.ofNat 12 j).toNat = if j ≤ covered s then inAt s (covered s - j) else Config.FILL
  /-- The trees are search trees over the window (R61, I1 to I4). -/
  finder : FinderOk s.textBuf s.mf
  /-- Every position in the tree is one of `s, s+1, .., r` (R61, I5). -/
  range : ∀ p : BitVec 12, InTree s.mf p.toNat → (s.r - p).toNat ≤ 4036
  /-- Before the priming insertions the trees are empty (R107). -/
  prime : s.phase = .ePrime → ∀ p, ¬ InTree s.mf p
  /-- The match result at a token is none or a real one, at most N - F bytes back (R62). -/
  emit : s.phase = .eEmit → s.mf.matchLength = 0 ∨ (3 ≤ s.mf.matchLength.toNat ∧ s.mf.matchPosition.toNat ≤ 4035
    ∧ SharePrefix s.textBuf (s.r - s.mf.matchPosition - 1).toNat s.r.toNat s.mf.matchLength.toNat)
  /-- Inside an advance: positions are left to advance over, all of them lookahead; the phase says whether input is left (R109,
  R110, R116). -/
  advance : s.phase = .eAdvIn ∨ s.phase = .eAdvDrain →
    s.enc.advI.toNat < s.enc.lastMatchLength.toNat
      ∧ s.enc.lastMatchLength.toNat - s.enc.advI.toNat ≤ s.enc.len.toNat
      ∧ (s.phase = .eAdvIn ↔ s.enc.inPos.toNat < s.inLen.toNat)

/-- What COMPRESS keeps from its start to its end, phase by phase; nothing is asked outside it. -/
def EncoderOk (s : State) : Prop :=
  match s.phase with
  | .eInit => 1 ≤ s.inLen.toNat ∧ s.inLen.toNat < 2 ^ 32
  | .ePrime | .eEmit | .eAdvIn | .eAdvDrain => Encoding s
  | .idle | .eHdr | .eFlush | .dHdr | .dInit | .dSymbol | .dCopy | .done | .fault => True

/-- `OUT` has room for `n` more bytes before `OUT_LEN` leaves its 64 bits (`OUT` never fills: 93_implementation_defined.md U13). -/
abbrev Room (n : Nat) (s : State) : Prop := s.outLen.toNat + n < 2 ^ 64

/-- The bytes of `OUT` at and past the old `OUT_LEN` and below the new one are the only ones that can differ. -/
def AppendsOnly (s t : State) : Prop :=
  ∀ a, a < s.outLen.toNat ∨ t.outLen.toNat ≤ a → outAt t a = outAt s a

/-- `n` steps of the core on its own, as long as each answers. -/
def coreSteps : Nat → State → Res State
  | 0, s => .ok s
  | n + 1, s => do coreSteps n (← coreStep s)

/-- What the host reads of a finished command: `STATUS`, `FAULT_CODE`, `FAULT_INFO`, `OUT_LEN` and `OUT[0 .. OUT_LEN-1]` (R13). -/
def SameResult (s t : State) : Prop :=
  s.phase = t.phase ∧ s.faultCode = t.faultCode ∧ s.faultInfo = t.faultInfo ∧ s.outLen = t.outLen
    ∧ ∀ k, k < s.outLen.toNat → outAt s k = outAt t k

/-- Two states offer a command the same input: `IN_LEN` and `IN[0 .. IN_LEN-1]` (R119). -/
abbrev SameInput (s t : State) : Prop := s.inLen = t.inLen ∧ ∀ k, k < s.inLen.toNat → inAt s k = inAt t k

end Sys2Proof.Machine
end

