-- ==== Sys2Proof/Certificates/Slice0/Obligations.lean ====
section
/-! DEFINITION. The statements for the provers. Each says which rule of the spec it states, or that it is derived; their titles,
texts and citations stand in OBLIGATIONS.json. -/

open Sys2Proof Sys2Proof.Machine

/-! ### Reset, the interface, one step -/

/-- Derived from R140: what power-on and the RESET input leave. That what is still to come from outside stays to come is the
model's choice (log entry 5). -/
def Obligations.ResetClearsPhaseAndResults : Prop :=
  (State.reset.phase = .idle ∧ State.reset.faultCode = .none ∧ State.reset.faultInfo = 0 ∧ State.reset.outLen = 0
    ∧ statusReg State.reset.phase = 0)
  ∧ ∀ (s : State) (rest : List Input), s.inputs = .resetLine :: rest →
      ∃ t, step s = .next t ∧ t.phase = .idle ∧ t.faultCode = .none ∧ t.faultInfo = 0 ∧ t.outLen = 0
        ∧ statusReg t.phase = 0 ∧ t.inputs = rest

/-- Derived from R18, R28, R67: the model's reset state (log entry 7 names its open values) meets the invariants of
EveryStepKeepsSafeStates. -/
def Obligations.ResetStateIsSafe : Prop := Safe State.reset ∧ EncoderOk State.reset

/-- Derived from R28, R131: every step keeps every address space in canonical form with its indices in range. -/
def Obligations.EveryStepKeepsMemoryCanonical : Prop :=
  ∀ s t : State, Memory.wf s = true → step s = .next t → Memory.wf t = true

/-- Derived from R14, R18, R20, R61, R62, R67, R109, R116: every step keeps a safe state safe, whatever comes from outside; every
step but an inner operation presented as a word (the model's own window, log entry 4) keeps what COMPRESS keeps between its steps;
and from such a state the core's next step answers. -/
def Obligations.EveryStepKeepsSafeStates : Prop :=
  (∀ s t : State, Safe s → step s = .next t → Safe t)
  ∧ (∀ s t : State, Safe s → EncoderOk s → (∀ sp bytes rest, s.inputs = .word sp bytes :: rest → sp = .cmd) →
      step s = .next t → EncoderOk t)
  ∧ ∀ s : State, Safe s → EncoderOk s → s.inputs = [] → ∃ t, step s = .next t

/-- Derived from R55: a step with a word to come runs the instruction the word decodes to, with the word taken off and nothing
else changed; bytes that are no word are refused. -/
def Obligations.StepRunsTheDecodedWord : Prop :=
  (∀ (s : State) (sp : Space) (bytes left : List Byte) (rest : List Input) (i : Instr),
    s.inputs = .word sp bytes :: rest → decode sp bytes = .ok (i, left) → step s = exec i { s with inputs := rest })
  ∧ (∀ (s : State) (sp : Space) (bytes : List Byte) (rest : List Input) (e : DecodeError),
    s.inputs = .word sp bytes :: rest → decode sp bytes = .error e → step s = .refused (.undecodable e))
  ∧ ∀ (s : State) (nbits w : Nat) (i : Instr),
    decodeTableWord nbits w = some i → step (s.withFetchWord nbits w) = exec i s

/-- R136: outside a command the core waits and all state keeps its value. -/
def Obligations.CoreWaitsOutsideCommands : Prop :=
  ∀ s : State, s.inputs = [] → s.phase = .idle ∨ s.phase = .done ∨ s.phase = .fault → step s = .next s

/-- Derived from R23, R116, R129: a write of `CMD` = 1 or 2 starts the command outside one and is ignored inside one. That the
port takes the low two bits of what is written to register 0 is the model's choice (log entry 5). -/
def Obligations.CommandWritesStartOrAreIgnored : Prop :=
  (∀ s : State, exec .cmdCompress s = .next (if busy s then s else { s with phase := .eHdr }))
  ∧ (∀ s : State, exec .cmdDecompress s = .next (if busy s then s else { s with phase := .dHdr }))
  ∧ ∀ (s : State) (v : BitVec 64) (rest : List Input), s.inputs = .writeReg 0 v :: rest →
      (v.toNat % 4 = 1 → step s = exec .cmdCompress { s with inputs := rest })
      ∧ (v.toNat % 4 = 2 → step s = exec .cmdDecompress { s with inputs := rest })
      ∧ (v.toNat % 4 = 0 → step s = exec .cmdReserved0 { s with inputs := rest })
      ∧ (v.toNat % 4 = 3 → step s = exec .cmdReserved3 { s with inputs := rest })

/-- Derived from R23, R52: the reserved values of `CMD` change no state, and `phase` never takes 14 or 15. That the model runs them
where R52 would let it refuse them is its choice (log entry 15). -/
def Obligations.ReservedCommandsChangeNothing : Prop :=
  (∀ s : State, exec .cmdReserved0 s = .next s) ∧ (∀ s : State, exec .cmdReserved3 s = .next s)
    ∧ ∀ p : Phase, p.bits ≠ 14 ∧ p.bits ≠ 15

/-- Derived from R23, R37: what the host reads in each register, field by field. The model's choices are the names of the refusals
and the reads it allows while BUSY beside that of `STATUS` (log entry 13), the read of `OUT_LEN` in IDLE and FAULT (log entry 20),
and where the value stands (log entry 5). -/
def Obligations.HostReadsEachRegister : Prop :=
  ∀ (s : State) (n : BitVec 3) (rest : List Input), s.inputs = .readReg n :: rest →
    (n.toNat = 0 → step s = .refused .noSuchAccess)
    ∧ (n.toNat = 1 → step s = .next { s with inputs := rest, hostData := s.inLen })
    ∧ (n.toNat = 2 → ∃ t, step s = .next t ∧ t = { s with inputs := rest, hostData := t.hostData }
        ∧ t.hostData.extractLsb' 0 4 = s.phase.bits
        ∧ t.hostData.getLsbD 4 = decide (1 ≤ s.phase.bits.toNat ∧ s.phase.bits.toNat ≤ 11)
        ∧ t.hostData.getLsbD 5 = decide (s.phase.bits = 12) ∧ t.hostData.getLsbD 6 = decide (s.phase.bits = 13)
        ∧ ∀ k, 7 ≤ k → t.hostData.getLsbD k = false)
    ∧ (n.toNat = 3 → step s = .next { s with inputs := rest, hostData := s.faultCode.bits.setWidth 64 })
    ∧ (n.toNat = 4 → step s = .next { s with inputs := rest, hostData := s.faultInfo })
    ∧ (n.toNat = 5 → busy s = false → step s = .next { s with inputs := rest, hostData := s.outLen })
    ∧ (n.toNat = 5 → busy s = true → step s = .refused .hostAccessWhileBusy)
    ∧ (5 < n.toNat → step s = .refused .noSuchRegister)

/-- Derived from R23, R24, R37: the host's writes reach `IN` and `IN_LEN` alone (a write of a read-only register or of a number
that names none changes nothing: it is refused) and its reads of `OUT` change nothing else. The model's choices are that each is
refused inside a command and the names of the refusals (log entry 13), and that `OUT` is read in IDLE and FAULT as in DONE (log
entry 20). -/
def Obligations.HostReachesBuffersOutsideCommands : Prop :=
  (∀ (s : State) (k : BitVec 64) (b : Byte) (rest : List Input), s.inputs = .writeIn k b :: rest →
    (busy s = true → step s = .refused .hostAccessWhileBusy)
    ∧ (busy s = false → Memory.wf s = true → ∃ t, step s = .next t ∧ t = { s with inputs := rest, inBuf := t.inBuf }
        ∧ ∀ j, inAt t j = if j = k.toNat then b else inAt s j))
  ∧ (∀ (s : State) (v : BitVec 64) (rest : List Input), s.inputs = .writeReg 1 v :: rest →
    (busy s = true → step s = .refused .hostAccessWhileBusy)
    ∧ (busy s = false → step s = .next { s with inputs := rest, inLen := v }))
  ∧ (∀ (s : State) (n : BitVec 3) (v : BitVec 64) (rest : List Input), s.inputs = .writeReg n v :: rest →
    (2 ≤ n.toNat → n.toNat ≤ 5 → step s = .refused .noSuchAccess) ∧ (5 < n.toNat → step s = .refused .noSuchRegister))
  ∧ ∀ (s : State) (k : BitVec 64) (rest : List Input), s.inputs = .readOut k :: rest →
    (busy s = true → step s = .refused .hostAccessWhileBusy)
    ∧ (busy s = false → k.toNat < s.outLen.toNat →
        step s = .next { s with inputs := rest, hostData := (outAt s k.toNat).setWidth 64 })

/-! ### Encoding -/

/-- Derived from R41 to R55: decoding an encoded well-formed instruction gives it back with nothing left over, every operand at
every value its rule admits, under every table of the shape of D12. -/
def Obligations.DecodeOfEncodeIsTheInstruction : Prop :=
  ∀ (P : PosTable) (i : Instr) (rest : List Byte), LegalTable P → i.wf = true →
    decode (encode i P).1 ((encode i P).2 ++ rest) P = .ok (i, rest)

/-- Derived from R42, R46, R47, R55: what decodes is well formed, stands in its own space and takes as many bytes as its own
word. How many bytes a word has and which operands do not decode rest on the model's layout (log entry 2). -/
def Obligations.DecodedInstructionsAreWellFormed : Prop :=
  ∀ (sp : Space) (bytes rest : List Byte) (i : Instr), decode sp bytes = .ok (i, rest) →
    i.wf = true ∧ (encode i).1 = sp ∧ bytes.length = (encode i).2.length + rest.length

/-- Derived from R41, R46, R52, R55: words written out from the spec's tables decode to what they stand for, and the ids that
name no operation to nothing. Operand bytes are the model's layout (log entry 2), the position codes the default table's
(PRESUMED, log entry 1). -/
def Obligations.SpecWordsDecodeAsListed : Prop :=
  decode .op [0x01] = .ok (.initTree, []) ∧ decode .op [0x02, 0xC4, 0x0F] = .ok (.insertNode 4036, [])
  ∧ decode .op [0x05, 0x41, 0x00] = .ok (.update 65, []) ∧ decode .op [0x0A] = .ok (.decodePosition, [])
  ∧ decode .op [0x0B, 0x09, 0x00, 0x00, 0x80, 0xE6] = .ok (.putCode 9 0xE6800000, [])
  ∧ decode .op [0x0F] = .ok (.compress, []) ∧ decode .op [0x10] = .ok (.decompress, [])
  ∧ decode .cmd [0x01] = .ok (.cmdCompress, []) ∧ decode .cmd [0x02] = .ok (.cmdDecompress, [])
  ∧ decode .hdr [0x04, 0x03, 0x02, 0x01] = .ok (.hdr 0x01020304, [])
  ∧ decode .pos [0x29, 0x00] = .ok (.poscode1 36, []) ∧ decode .pos [0xFF, 0xFC] = .ok (.poscode63 63, [])
  ∧ decode .op [0x00] = .error .noOperation ∧ decode .op [0x11] = .error .noOperation
  ∧ decode .op [0x1F] = .error .noOperation

/-- Derived from R46, R47: under every table of the shape of D12, of every byte exactly one of the 64 codes is a prefix, `D_CODE` is
its index and `D_LEN` its length; under the default table (PRESUMED, log entry 1), how many bytes each index has. -/
def Obligations.EveryByteBeginsWithOneCode : Prop :=
  (∀ (P : PosTable) (b : Byte), LegalTable P →
    dCode b P < 64 ∧ topBits (posLen (dCode b P) P) b = topBits (posLen (dCode b P) P) (posCode (dCode b P) P)
    ∧ (∀ i, i < 64 → topBits (posLen i P) b = topBits (posLen i P) (posCode i P) → i = dCode b P)
    ∧ dLen b P = posLen (dCode b P) P
    ∧ ∀ i, i < 64 → (topBits (posLen i P) b = topBits (posLen i P) (posCode i P) ↔
        (posCode i P).toNat ≤ b.toNat ∧ b.toNat < (posCode i P).toNat + 2 ^ (8 - posLen i P)))
  ∧ ∀ i, i < 64 → ((List.range 256).filter fun b => dCode (BitVec.ofNat 8 b) = i).length =
      if i < 1 then 32 else if i < 4 then 16 else if i < 12 then 8 else if i < 24 then 4 else if i < 48 then 2 else 1

/-! ### The bit channel -/

/-- Derived from R91, R92: PUT_CODE appends the top `l` bits of `v` to what is written, at most four bytes to `OUT`, and changes
nothing else. -/
def Obligations.PutCodeAppendsTheTopBits : Prop :=
  ∀ (s : State) (l : BitVec 6) (v : BitVec 32), Memory.wf s = true → WriterOk s → Room 4 s → l.toNat ≤ 32 →
    ∃ t, exec (.putCode l v) s = .next t ∧ writtenBits t = writtenBits s ++ topBits l.toNat v ∧ WriterOk t
      ∧ s.outLen.toNat ≤ t.outLen.toNat ∧ t.outLen.toNat ≤ s.outLen.toNat + 4 ∧ AppendsOnly s t
      ∧ t = { s with wr := t.wr, outBuf := t.outBuf, outLen := t.outLen }

/-- R94: FLUSH, id 0x0C, appends the pending bits with zeros up to a byte, if any are pending, and clears the write side. -/
def Obligations.FlushWritesThePendingBits : Prop :=
  decode .op [0x0C] = .ok (.flush, []) ∧ ∀ s : State, Memory.wf s = true → WriterOk s → Room 1 s →
    (s.wr.cnt = 0 → exec .flush s = .next s)
    ∧ (s.wr.cnt ≠ 0 → ∃ t, exec .flush s = .next t ∧ outAt t s.outLen.toNat = s.wr.acc.extractLsb' 24 8
        ∧ writtenBits t = writtenBits s ++ List.replicate (8 - s.wr.cnt.toNat) false
        ∧ (∀ a, a ≠ s.outLen.toNat → outAt t a = outAt s a)
        ∧ t = { s with wr := { acc := 0, cnt := 0 }, outLen := s.outLen + 1, outBuf := t.outBuf })

/-- R95, R96: GET_BIT, id 0x0D, returns the payload bit at `rd_bitpos`, a bit of `IN` below `IN_LEN` and 0 from there on, and
moves on by one. (A returned value stands in `ret`, log entry 6.) -/
def Obligations.GetBitDeliversThePayloadBit : Prop :=
  decode .op [0x0D] = .ok (.getBit, []) ∧ ∀ s : State,
    exec .getBit s = .next { s with
      rdBitpos := s.rdBitpos + 1
      ret := if payloadBit s s.rdBitpos.toNat then 1 else 0 }
    ∧ ∀ k, payloadBit s k =
        if 4 + k / 8 < s.inLen.toNat then (inAt s (4 + k / 8)).getLsbD (7 - k % 8) else false

/-- R97: GET_BYTE, id 0x0E, returns the next eight payload bits, the first the most significant, and moves on by eight. -/
def Obligations.GetByteIsEightPayloadBits : Prop :=
  decode .op [0x0E] = .ok (.getByte, []) ∧ ∀ s : State, ∃ t, exec .getByte s = .next t ∧ t = { s with rdBitpos := s.rdBitpos + 8, ret := t.ret }
    ∧ t.ret.toNat < 256 ∧ ∀ k, k < 8 → t.ret.getLsbD (7 - k) = payloadAt s k

/-- Derived from R99 (a), (b): after FLUSH the bits after the header read back as they were written, zeros after them. -/
def Obligations.FlushedOutputReadsBackAsWritten : Prop :=
  ∀ s u : State, Memory.wf s = true → WriterOk s → Room 1 s → 4 ≤ s.outLen.toNat → exec .flush s = .next u →
    ∀ k, payloadBit { u with inBuf := u.outBuf, inLen := u.outLen } k = ((writtenBits s).drop 32).getD k false

/-- R98: the shift register with its refill delivers exactly the bits of GET_BIT and GET_BYTE, from its start on. -/
def Obligations.ShiftRegisterDeliversTheSameBits : Prop :=
  (∀ s : State, s.rdBitpos = 0 → ReadReg.start.Holds s)
  ∧ ∀ (s : State) (g : ReadReg), g.Holds s → s.rdBitpos.toNat + 8 < 2 ^ 64 →
      (∃ t, exec .getBit s = .next t ∧ t.ret = (if (g.getBit s).1 then 1 else 0) ∧ (g.getBit s).2.Holds t)
      ∧ ∃ t, exec .getByte s = .next t ∧ t.ret = (g.getByte s).1.setWidth 16 ∧ (g.getByte s).2.Holds t

/-! ### The position coder -/

/-- Derived from R81, R82: under every table of the shape of D12, ENCODE_POSITION, id 0x09, appends the prefix code of `o >> 6` and
the six low bits, and changes nothing else; the instruction is that at the default table, with which the lengths are 9 to 14 bits
(PRESUMED, log entry 1). -/
def Obligations.EncodePositionEmitsItsCode : Prop :=
  decode .op [0x09, 0x64, 0x00] = .ok (.encodePosition 100, [])
  ∧ (∀ (P : PosTable) (s : State) (o : BitVec 12), LegalTable P → Memory.wf s = true → WriterOk s → Room 4 s →
    (∃ t, execEncodePosition o s P = .next t
      ∧ writtenBits t = writtenBits s ++ (topBits (posLen (o.toNat / 64) P) (posCode (o.toNat / 64) P) ++
          topBits 6 (o.setWidth 6)) ∧ WriterOk t ∧ AppendsOnly s t
      ∧ t = { s with wr := t.wr, outBuf := t.outBuf, outLen := t.outLen })
    ∧ (posBits o P).length = posLen (o.toNat / 64) P + 6)
  ∧ (∀ (s : State) (o : BitVec 12), Memory.wf s = true → WriterOk s → Room 4 s →
    ∃ t, exec (.encodePosition o) s = .next t ∧ execEncodePosition o s Config.POS_LEN = .next t)
  ∧ ∀ o : BitVec 12, (posBits o).length = if o.toNat < 64 then 9 else if o.toNat < 256 then 10 else if o.toNat < 768 then 11
      else if o.toNat < 1536 then 12 else if o.toNat < 3072 then 13 else 14

/-- R84: under every table of the shape of D12, DECODE_POSITION consumes exactly the position code the payload goes on with and
returns its offset, and the payload always goes on with one; the instruction is that at the default table. (A returned value
stands in `ret`, log entry 6.) -/
def Obligations.DecodePositionReadsOneCode : Prop :=
  (∀ (P : PosTable) (s : State) (o : BitVec 12), LegalTable P → Spells s (posBits o P) →
    execDecodePosition s P = .next { s with
      rdBitpos := s.rdBitpos + BitVec.ofNat 64 (posBits o P).length
      ret := o.setWidth 16 })
  ∧ (∀ (P : PosTable) (s : State), LegalTable P → ∃ o : BitVec 12, Spells s (posBits o P))
  ∧ ∀ (s : State) (o : BitVec 12), Spells s (posBits o) → exec .decodePosition s = .next { s with
      rdBitpos := s.rdBitpos + BitVec.ofNat 64 (posBits o).length
      ret := o.setWidth 16 }

/-- Derived from R44, R46: each of the 64 position-code words is the position code of its offset and completes with it, at the default
table (PRESUMED, log entry 1); that a word by itself is read so is the model's choice (log entry 10). -/
def Obligations.PositionWordsCompleteWithTheirOffset : Prop :=
  ∀ (s : State) (i : Nat) (low : BitVec 6), i < 64 →
    exec (poscodeOf i low) s = .next { s with
      rdBitpos := s.rdBitpos + BitVec.ofNat 64 (posLen i + 6)
      ret := BitVec.ofNat 16 (64 * i + low.toNat) }
    ∧ ∃ b0 b1, encode (poscodeOf i low) = (.pos, [b0, b1])
        ∧ (topBits 8 b0 ++ topBits 8 b1).take (posLen i + 6) = posBits (BitVec.ofNat 12 (64 * i + low.toNat))

/-! ### The Huffman coder -/

/-- R68: START_HUFF, id 0x04, in closed form, every entry of the three arrays, and nothing else changed. -/
def Obligations.StartHuffBuildsTheInitialTree : Prop :=
  decode .op [0x04] = .ok (.startHuff, []) ∧ ∀ s : State, Memory.wf s = true → ∃ t, exec .startHuff s = .next t ∧ t = { s with huff := t.huff }
    ∧ (∀ c, c < 314 → freqAt t.huff c = 1 ∧ (sonAt t.huff c).val = c + 627 ∧ (prntAt t.huff (c + 627)).val = c)
    ∧ (∀ j, 314 ≤ j → j < 627 → (sonAt t.huff j).val = 2 * (j - 314)
        ∧ freqAt t.huff j = freqAt t.huff (2 * (j - 314)) + freqAt t.huff (2 * (j - 314) + 1))
    ∧ (∀ i, i < 626 → (prntAt t.huff i).val = 314 + i / 2) ∧ (prntAt t.huff 626).val = 0
    ∧ freqAt t.huff 627 = 0xFFFF
    ∧ (∀ j, 314 ≤ j → j < 471 → freqAt t.huff j = 2) ∧ (∀ j, 471 ≤ j → j < 549 → freqAt t.huff j = 4)
    ∧ freqAt t.huff 549 = 6 ∧ freqAt t.huff 624 = 128 ∧ freqAt t.huff 625 = 186 ∧ freqAt t.huff 626 = 314
    ∧ ∀ c, c < 314 → ∃ bits, IsCode t.huff c bits ∧ bits.length = if c < 116 then 9 else 8

/-- Derived from R67, R68: the tree START_HUFF builds is well formed. -/
def Obligations.StartHuffTreeIsWellFormed : Prop :=
  ∀ s t : State, Memory.wf s = true → exec .startHuff s = .next t → HuffOk t.huff

/-- Derived from R67, R69, R75, R147: UPDATE of a symbol completes in every well-formed tree, keeps it well formed, counts that symbol
once and no other, and changes nothing but the tree; where the root stands at MAX_FREQ it renormalises first. At every level from
the symbol's leaf to the root there is one exchange, with the last node of the same frequency, and nothing else moves (D13, R147):
the leaf is then where that node was, and what was there is where the leaf was. -/
def Obligations.UpdateCountsOneSymbol : Prop :=
  ∀ (s : State) (c : BitVec 9), Memory.wf s = true → HuffOk s.huff → c.toNat < 314 →
    ∃ t, exec (.update c) s = .next t ∧ t = { s with huff := t.huff } ∧ HuffOk t.huff
      ∧ leafFreq t.huff c.toNat = leafFreq (renormalised s.huff) c.toNat + 1
      ∧ (∀ d, d < 314 → d ≠ c.toNat → leafFreq t.huff d = leafFreq (renormalised s.huff) d)
      ∧ (freqAt t.huff 626).toNat = (freqAt (renormalised s.huff) 626).toNat + 1
      ∧ Climbs (prntAt (renormalised s.huff) (c.toNat + 627)).val (renormalised s.huff) t.huff
      ∧ ∃ l, LastEqual (renormalised s.huff) (prntAt (renormalised s.huff) (c.toNat + 627)).val l
        ∧ (prntAt t.huff (c.toNat + 627)).val = l
        ∧ sonAt t.huff (prntAt (renormalised s.huff) (c.toNat + 627)).val = sonAt (renormalised s.huff) l

/-- Derived from R67, R70, R147: RECONST keeps the tree well formed, halves every leaf's frequency rounding up, keeps the order of
the leaves, and changes nothing but the tree. Each internal node stands after every leaf of its frequency, and the internal nodes
stand in the order of the pairs they join (D14). -/
def Obligations.ReconstHalvesEveryLeaf : Prop :=
  ∀ s : State, Memory.wf s = true → HuffOk s.huff →
    ∃ t, exec .reconst s = .next t ∧ t = { s with huff := t.huff } ∧ HuffOk t.huff
      ∧ (∀ c, c < 314 → leafFreq t.huff c = (leafFreq s.huff c + 1) / 2)
      ∧ (∀ c d, c < 314 → d < 314 → (prntAt s.huff (c + 627)).val < (prntAt s.huff (d + 627)).val →
          (prntAt t.huff (c + 627)).val < (prntAt t.huff (d + 627)).val)
      ∧ (∀ i j, i < j → j < 627 → freqAt t.huff i = freqAt t.huff j → (sonAt t.huff i).val < 627 → (sonAt t.huff j).val < 627)
      ∧ (∀ i j, i < j → j < 627 → (sonAt t.huff i).val < 627 → (sonAt t.huff j).val < 627 →
          (sonAt t.huff i).val < (sonAt t.huff j).val)
      ∧ (freqAt t.huff 626).toNat ≤ 16541

/-- R73, R79: in a well-formed tree every symbol has exactly one code, the one ENCODE_CHAR forms, of 1 to 21 bits; no code is a
prefix of another, and every infinite bit string begins with exactly one code. -/
def Obligations.SymbolCodesAreACompletePrefixCode : Prop :=
  ∀ h : Huffman, HuffOk h →
    (∀ c, c < 314 → ∃ bits v, IsCode h c bits ∧ 1 ≤ bits.length ∧ bits.length ≤ 21
      ∧ codeOf h c = .ok (bits.length, v) ∧ topBits bits.length v = bits
      ∧ ∀ bits', IsCode h c bits' → bits' = bits)
    ∧ (∀ (c d : Nat) (bits more : List Bool), IsCode h c bits → IsCode h d (bits ++ more) → more = [] ∧ d = c)
    ∧ ∀ f : Nat → Bool, ∃ n c, c < 314 ∧ IsCode h c ((List.range n).map f)
        ∧ ∀ n' c', IsCode h c' ((List.range n').map f) → n' = n ∧ c' = c

/-- Derived from R71, R75, R79: ENCODE_CHAR emits the symbol's code in the tree as it stands, 21 bits at most, then updates the
tree; nothing else changes. -/
def Obligations.EncodeCharEmitsTheCode : Prop :=
  ∀ (s : State) (c : BitVec 9), Safe s → Room 4 s → c.toNat < 314 →
    ∃ t bits, exec (.encodeChar c) s = .next t ∧ IsCode s.huff c.toNat bits ∧ bits.length ≤ 21
      ∧ writtenBits t = writtenBits s ++ bits ∧ AppendsOnly s t
      ∧ exec (.update c) s = .next { s with huff := t.huff }
      ∧ t = { s with huff := t.huff, wr := t.wr, outBuf := t.outBuf, outLen := t.outLen }

/-- Derived from R72, R73: DECODE_CHAR consumes exactly the code the payload goes on with, returns its symbol and updates the
tree as the encoder does; the payload always goes on with one; nothing else changes. -/
def Obligations.DecodeCharReadsOneCode : Prop :=
  (∀ (s : State) (c : BitVec 9) (bits : List Bool), Safe s → IsCode s.huff c.toNat bits → Spells s bits →
    ∃ t, exec .decodeChar s = .next t ∧ t.ret = c.setWidth 16
      ∧ t.rdBitpos = s.rdBitpos + BitVec.ofNat 64 bits.length
      ∧ exec (.update c) s = .next { s with huff := t.huff }
      ∧ t = { s with huff := t.huff, rdBitpos := t.rdBitpos, ret := t.ret })
  ∧ ∀ s : State, Safe s → ∃ (c : BitVec 9) (bits : List Bool),
      c.toNat < 314 ∧ IsCode s.huff c.toNat bits ∧ Spells s bits

/-! ### The match finder -/

/-- R56: INIT_TREE, id 0x01, empties every bucket and takes every position out of the tree; it writes nothing else. -/
def Obligations.InitTreeEmptiesEveryBucket : Prop :=
  decode .op [0x01] = .ok (.initTree, []) ∧ ∀ s : State, Memory.wf s = true → ∃ t, exec .initTree s = .next t ∧ t = { s with mf := t.mf }
    ∧ (∀ i, 4097 ≤ i → i ≤ 4352 → rsonOf t.mf i = 4096) ∧ (∀ i, i < 4096 → dadOf t.mf i = 4096)
    ∧ (∀ i, i ≤ 4096 → lsonOf t.mf i = lsonOf s.mf i ∧ rsonOf t.mf i = rsonOf s.mf i)
    ∧ dadOf t.mf 4096 = dadOf s.mf 4096
    ∧ t.mf.matchLength = s.mf.matchLength ∧ t.mf.matchPosition = s.mf.matchPosition

/-- Derived from R56, R61: the empty trees meet the invariants over every window. -/
def Obligations.EmptyTreesAreSearchTrees : Prop :=
  ∀ s t : State, Memory.wf s = true → exec .initTree s = .next t →
    FinderOk t.textBuf t.mf ∧ ∀ p, ¬ InTree t.mf p

/-- Derived from R57, R61, R63: INSERT_NODE of a position that is not in the tree completes and keeps the trees search trees;
the position is then in, a position of the same key out, every other as before; the links of positions outside the tree and all
other state keep their values. -/
def Obligations.InsertNodeKeepsTheSearchTrees : Prop :=
  ∀ (s : State) (r : BitVec 12), Memory.wf s = true → FinderOk s.textBuf s.mf → ¬ InTree s.mf r.toNat →
    ∃ t, exec (.insertNode r) s = .next t ∧ t = { s with mf := t.mf } ∧ FinderOk t.textBuf t.mf
      ∧ InTree t.mf r.toNat
      ∧ (∀ q, q ≠ r.toNat → (InTree t.mf q ↔ InTree s.mf q ∧ ¬ SameKey s.textBuf q r.toNat))
      ∧ ∀ q, q < 4096 → q ≠ r.toNat → ¬ InTree s.mf q → lsonOf t.mf q = lsonOf s.mf q ∧ rsonOf t.mf q = rsonOf s.mf q

/-- Derived from R16, R57, R62: the match INSERT_NODE finds is real: a length of 0 or 3 to 60, at a position that was in the tree, with
exactly that many bytes in common; without one `match_position` keeps its value. Of the positions the insertion visits (the
ancestors of the inserted one) that have as many bytes in common, the one at the smallest offset is the match (R16, D25). -/
def Obligations.InsertNodeMatchIsReal : Prop :=
  ∀ (s t : State) (r : BitVec 12), Memory.wf s = true → FinderOk s.textBuf s.mf → ¬ InTree s.mf r.toNat →
    exec (.insertNode r) s = .next t →
    (t.mf.matchLength = 0 → t.mf.matchPosition = s.mf.matchPosition)
    ∧ (t.mf.matchLength ≠ 0 → 3 ≤ t.mf.matchLength.toNat ∧ t.mf.matchLength.toNat ≤ 60
        ∧ t.mf.matchPosition.toNat ≤ 4094
        ∧ InTree s.mf (r - t.mf.matchPosition - 1).toNat
        ∧ SharePrefix s.textBuf (r - t.mf.matchPosition - 1).toNat r.toNat t.mf.matchLength.toNat
        ∧ (t.mf.matchLength.toNat < 60 →
            keyByte s.textBuf (r - t.mf.matchPosition - 1).toNat t.mf.matchLength.toNat ≠
              keyByte s.textBuf r.toNat t.mf.matchLength.toNat
              ∧ Below t.mf (r - t.mf.matchPosition - 1).toNat r.toNat)
        ∧ ∀ q : BitVec 12, InTree s.mf q.toNat → Below t.mf q.toNat r.toNat →
            SharePrefix s.textBuf q.toNat r.toNat t.mf.matchLength.toNat → t.mf.matchPosition.toNat ≤ (r - q - 1).toNat)

/-- Derived from R2, R57, R61: no position in the tree has more leading bytes in common with the inserted one than the match found
(2 where none is found). -/
def Obligations.InsertNodeFindsTheLongestMatch : Prop :=
  ∀ (s t : State) (r : BitVec 12) (q n : Nat), Memory.wf s = true → FinderOk s.textBuf s.mf → ¬ InTree s.mf r.toNat →
    exec (.insertNode r) s = .next t → InTree s.mf q → n ≤ 60 → SharePrefix s.textBuf q r.toNat n →
    n ≤ 2 ∨ n ≤ t.mf.matchLength.toNat

/-- Derived from R59, R61: DELETE_NODE completes, keeps the trees search trees, takes out exactly its position (and does nothing
where it is not in), and leaves the match result and all other state. -/
def Obligations.DeleteNodeRemovesExactlyItsPosition : Prop :=
  (∀ (s : State) (p : BitVec 12), Memory.wf s = true → FinderOk s.textBuf s.mf →
    ∃ t, exec (.deleteNode p) s = .next t
      ∧ t = { s with mf := { s.mf with lson := t.mf.lson, rson := t.mf.rson, dad := t.mf.dad } }
      ∧ FinderOk t.textBuf t.mf ∧ ∀ q, InTree t.mf q ↔ InTree s.mf q ∧ q ≠ p.toNat)
  ∧ ∀ (s : State) (p : BitVec 12), ¬ InTree s.mf p.toNat → exec (.deleteNode p) s = .next s

/-! ### COMPRESS, step by step -/

/-- R106, R122: COMPRESS is `CMD` = 1 and operation id 0x0F; its first step, exactly. -/
def Obligations.CompressWritesTheHeader : Prop :=
  decode .cmd [0x01] = .ok (.cmdCompress, []) ∧ decode .op [0x0F] = .ok (.compress, []) ∧ ∀ s : State, s.inputs = [] → s.phase = .eHdr →
    (2 ^ 32 ≤ s.inLen.toNat → step s = .next { s with
      phase := .fault, faultCode := .lenRange, faultInfo := s.inLen, outLen := 0, outBuf := [] })
    ∧ (s.inLen.toNat < 2 ^ 32 → ∃ t, step s = .next t ∧ t.outLen = 4
        ∧ outAt t 0 = s.inLen.extractLsb' 0 8 ∧ outAt t 1 = s.inLen.extractLsb' 8 8
        ∧ outAt t 2 = s.inLen.extractLsb' 16 8 ∧ outAt t 3 = s.inLen.extractLsb' 24 8
        ∧ t = { s with
            phase := if s.inLen = 0 then .done else .eInit
            faultCode := .none, faultInfo := 0, outLen := 4, outBuf := t.outBuf })

/-- Derived from R56, R68, R107: the second step of COMPRESS, exactly: bit channel, trees, match result, window with the preload,
cursors; and the third: the insertions of `r-1` down to `r-60`, then of `r`. -/
def Obligations.CompressInitialisesAndPreloads : Prop :=
  (∀ s : State, Memory.wf s = true → s.inputs = [] → s.phase = .eInit →
    ∃ t, step s = .next t ∧ t.phase = .ePrime ∧ t.wr = { acc := 0, cnt := 0 }
      ∧ exec .startHuff s = .next { s with huff := t.huff }
      ∧ exec .initTree s = .next { s with mf := { s.mf with lson := t.mf.lson, rson := t.mf.rson, dad := t.mf.dad } }
      ∧ (∀ p, ¬ InTree t.mf p) ∧ (∀ i, 4097 ≤ i → i ≤ 4352 → rsonOf t.mf i = 4096)
      ∧ (∀ i, i ≤ 4096 → lsonOf t.mf i = lsonOf s.mf i ∧ rsonOf t.mf i = rsonOf s.mf i) ∧ dadOf t.mf 4096 = dadOf s.mf 4096
      ∧ t.mf.matchLength = 0 ∧ t.mf.matchPosition = 0 ∧ t.r = 4036 ∧ t.enc.s = 0
      ∧ t.enc.len.toNat = min s.inLen.toNat 60 ∧ t.enc.inPos.toNat = min s.inLen.toNat 60
      ∧ (∀ i, i < 4155 → winAt t.textBuf i =
          if 4036 ≤ i ∧ i < 4036 + min s.inLen.toNat 60 then inAt s (i - 4036) else 0x20)
      ∧ t.enc.lastMatchLength = s.enc.lastMatchLength ∧ t.enc.advI = s.enc.advI
      ∧ t = { s with phase := t.phase, wr := t.wr, huff := t.huff, mf := t.mf, textBuf := t.textBuf, r := t.r, enc := t.enc })
  ∧ ∀ s t : State, s.inputs = [] → s.phase = .ePrime →
    (step s = .next t ↔ ∃ (f : Nat → State) (u : State), f 0 = s
      ∧ (∀ i, i < 60 → exec (.insertNode (s.r - BitVec.ofNat 12 (i + 1))) (f i) = .next (f (i + 1)))
      ∧ exec (.insertNode s.r) (f 60) = .next u ∧ t = { u with phase := .eEmit })

/-- Derived from R108: the token step of COMPRESS: the match clamped to the lookahead, a literal where it is 2 or less, else the
match's symbol and its position code; then the advance, or the draining one. -/
def Obligations.EmitWritesOneToken : Prop :=
  ∀ s : State, Safe s → Room 8 s → s.inputs = [] → s.phase = .eEmit →
    ∃ t bits, step s = .next t ∧ WriterOk t ∧ t.enc.advI = 0
      ∧ t.phase = (if s.enc.inPos.toNat < s.inLen.toNat then .eAdvIn else .eAdvDrain)
      ∧ (min s.mf.matchLength.toNat s.enc.len.toNat ≤ 2 →
          IsCode s.huff (winAt s.textBuf s.r.toNat).toNat bits ∧ writtenBits t = writtenBits s ++ bits
          ∧ update (winAt s.textBuf s.r.toNat).toNat s.huff = .ok t.huff
          ∧ t.mf = { s.mf with matchLength := 1 } ∧ t.enc.lastMatchLength = 1)
      ∧ (2 < min s.mf.matchLength.toNat s.enc.len.toNat →
          IsCode s.huff (253 + min s.mf.matchLength.toNat s.enc.len.toNat) bits
          ∧ writtenBits t = writtenBits s ++ bits ++ posBits s.mf.matchPosition
          ∧ update (253 + min s.mf.matchLength.toNat s.enc.len.toNat) s.huff = .ok t.huff
          ∧ t.mf = { s.mf with matchLength := t.mf.matchLength }
          ∧ t.mf.matchLength.toNat = min s.mf.matchLength.toNat s.enc.len.toNat
          ∧ t.enc.lastMatchLength = t.mf.matchLength)
      ∧ AppendsOnly s t
      ∧ t = { s with
          phase := t.phase, wr := t.wr, outBuf := t.outBuf, outLen := t.outLen, huff := t.huff, mf := t.mf
          enc := { s.enc with lastMatchLength := t.enc.lastMatchLength, advI := 0 } }

/-- Derived from R31, R109, R110, R146, R148: one position of the advance: what happens to the cursors, the counters and the window,
mirror included; that the evicted position is deleted before its byte changes and the new one inserted over the written window,
in the draining advance only while lookahead is left; that both cursors stay in lock step; and that the last step is FLUSH. -/
def Obligations.AdvanceMovesBothCursors : Prop :=
  (∀ s t : State, Memory.wf s = true → s.inputs = [] → step s = .next t →
    (s.phase = .eAdvIn →
      t.enc = { s.enc with s := s.enc.s + 1, advI := s.enc.advI + 1, inPos := s.enc.inPos + 1 } ∧ t.r = s.r + 1
      ∧ (∀ i, i < 4155 → winAt t.textBuf i =
          if i = s.enc.s.toNat ∨ (s.enc.s.toNat < 59 ∧ i = s.enc.s.toNat + 4096) then inAt s s.enc.inPos.toNat
          else winAt s.textBuf i)
      ∧ (∃ u v, exec (.deleteNode s.enc.s) s = .next u
          ∧ exec (.insertNode (s.r + 1)) { u with textBuf := t.textBuf } = .next v ∧ t.mf = v.mf)
      ∧ t = { s with phase := t.phase, mf := t.mf, textBuf := t.textBuf, r := t.r, enc := t.enc })
    ∧ (s.phase = .eAdvDrain →
      t.enc = { s.enc with s := s.enc.s + 1, advI := s.enc.advI + 1, len := s.enc.len - 1 } ∧ t.r = s.r + 1
      ∧ (∃ u, exec (.deleteNode s.enc.s) s = .next u ∧ (t.enc.len = 0 → t.mf = u.mf)
          ∧ (t.enc.len ≠ 0 → ∃ v, exec (.insertNode (s.r + 1)) u = .next v ∧ t.mf = v.mf))
      ∧ t = { s with phase := t.phase, mf := t.mf, r := t.r, enc := t.enc })
    ∧ (s.phase = .eAdvIn ∨ s.phase = .eAdvDrain → s.enc.s = s.r + 60 → t.enc.s = t.r + 60))
  ∧ ∀ s : State, s.inputs = [] → s.phase = .eFlush →
    ∃ u, exec .flush s = .next u ∧ step s = .next { u with phase := .done }

/-! ### DECOMPRESS, step by step, and the stream's elements -/

/-- Derived from R111, R123: the first step of DECOMPRESS, exactly. -/
def Obligations.DecompressReadsTheHeader : Prop :=
  ∀ s : State, s.inputs = [] → s.phase = .dHdr →
    (s.inLen.toNat < 4 → step s = .next { s with
      phase := .fault, faultCode := .hdrShort, faultInfo := s.inLen, outLen := 0, outBuf := [] })
    ∧ (4 ≤ s.inLen.toNat → ∃ t, step s = .next t
        ∧ t.dec.origLen.toNat = (inAt s 0).toNat + 256 * (inAt s 1).toNat + 65536 * (inAt s 2).toNat
            + 16777216 * (inAt s 3).toNat
        ∧ t = { s with
            phase := if t.dec.origLen = 0 then .done else .dInit
            faultCode := .none, faultInfo := 0, outLen := 0, outBuf := []
            dec := { s.dec with origLen := t.dec.origLen } })

/-- R112: the second step of DECOMPRESS, exactly; the match finder is not touched. -/
def Obligations.DecompressInitialises : Prop :=
  ∀ s : State, Memory.wf s = true → s.inputs = [] → s.phase = .dInit →
    ∃ t, step s = .next t ∧ exec .startHuff s = .next { s with huff := t.huff }
      ∧ (∀ i, i < 4155 → winAt t.textBuf i = 0x20)
      ∧ t = { s with
          huff := t.huff, textBuf := t.textBuf, r := 4036, rdBitpos := 0, phase := .dSymbol
          dec := { s.dec with outCnt := 0 } }

/-- Derived from R111, R113: the symbol step reads one code: a literal's step is the literal token, a match's sets up the copy from
its position code. -/
def Obligations.SymbolStepReadsOneToken : Prop :=
  ∀ (s : State) (c : Nat) (bits : List Bool), Safe s → s.inputs = [] → s.phase = .dSymbol → c < 314 →
    IsCode s.huff c bits → Spells s bits →
    (c < 256 → step s = exec (.lit (BitVec.ofNat 8 c)) s)
    ∧ (256 ≤ c → ∀ o : BitVec 12, Spells { s with rdBitpos := s.rdBitpos + BitVec.ofNat 64 bits.length } (posBits o) →
        ∃ t, step s = .next t ∧ update c s.huff = .ok t.huff ∧ t = { s with
          phase := .dCopy, huff := t.huff
          rdBitpos := s.rdBitpos + BitVec.ofNat 64 (bits.length + (posBits o).length)
          dec := { s.dec with sym := BitVec.ofNat 9 c, src := s.r - o - 1, copyRem := BitVec.ofNat 6 (c - 253) } })

/-- Derived from R114, R125: one pass of the copy, or the fault of a match that runs past the declared length. -/
def Obligations.CopyStepMovesOneByteOrFaults : Prop :=
  ∀ s : State, Memory.wf s = true → s.inputs = [] → s.phase = .dCopy →
    (s.dec.outCnt = s.dec.origLen → step s = .next { s with
      phase := .fault, faultCode := .outOverrun, faultInfo := s.dec.copyRem.setWidth 64 })
    ∧ (s.dec.outCnt ≠ s.dec.origLen → ∃ t, step s = .next t
        ∧ (∀ a, outAt t a = if a = s.dec.outCnt.toNat then winAt s.textBuf s.dec.src.toNat else outAt s a)
        ∧ (∀ i, winAt t.textBuf i = if i = s.r.toNat then winAt s.textBuf s.dec.src.toNat else winAt s.textBuf i)
        ∧ t = { s with
            phase := if s.dec.copyRem ≠ 1 then .dCopy
              else if (s.dec.outCnt + 1).toNat < s.dec.origLen.toNat then .dSymbol else .done
            outBuf := t.outBuf, textBuf := t.textBuf, outLen := (s.dec.outCnt + 1).setWidth 64, r := s.r + 1
            dec := { s.dec with outCnt := s.dec.outCnt + 1, src := s.dec.src + 1, copyRem := s.dec.copyRem - 1 } })

/-- Derived from R43, R115: a literal token produces its byte, in `OUT` and in the window, and consumes its code. -/
def Obligations.LiteralTokenProducesItsByte : Prop :=
  ∀ (s : State) (b : Byte), Safe s →
    ∃ t bits, exec (.lit b) s = .next t ∧ IsCode s.huff b.toNat bits ∧ update b.toNat s.huff = .ok t.huff
      ∧ (∀ a, outAt t a = if a = s.dec.outCnt.toNat then b else outAt s a)
      ∧ (∀ i, winAt t.textBuf i = if i = s.r.toNat then b else winAt s.textBuf i)
      ∧ t = { s with
          phase := if (s.dec.outCnt + 1).toNat < s.dec.origLen.toNat then .dSymbol else .done
          huff := t.huff, outBuf := t.outBuf, textBuf := t.textBuf, outLen := (s.dec.outCnt + 1).setWidth 64
          rdBitpos := s.rdBitpos + BitVec.ofNat 64 bits.length, r := s.r + 1
          dec := { s.dec with sym := b.setWidth 9, outCnt := s.dec.outCnt + 1 } }

/-- Derived from R44, R113, R114, R145: a match token with room for it copies its bytes forward from `o + 1` back, a byte it wrote
itself where the ranges overlap. That a token presented by itself is read, whole and in any phase, the bits that spell it consumed
without being looked at, is the model's choice (log entry 10, unsafe). -/
def Obligations.MatchTokenCopiesForward : Prop :=
  ∀ (s : State) (m : BitVec 6) (o : BitVec 12), Safe s → 3 ≤ m.toNat → m.toNat ≤ 60 →
    s.dec.outCnt.toNat + m.toNat ≤ s.dec.origLen.toNat →
    ∃ t bits, exec (.matchTok m o) s = .next t ∧ IsCode s.huff (253 + m.toNat) bits
      ∧ update (253 + m.toNat) s.huff = .ok t.huff
      ∧ (∀ j, j < m.toNat → winAt t.textBuf (s.r + BitVec.ofNat 12 j).toNat =
          winAt (if j ≤ o.toNat then s.textBuf else t.textBuf) (s.r + BitVec.ofNat 12 j - o - 1).toNat)
      ∧ (∀ j, j < m.toNat → outAt t (s.dec.outCnt.toNat + j) = winAt t.textBuf (s.r + BitVec.ofNat 12 j).toNat)
      ∧ (∀ i, (∀ j, j < m.toNat → i ≠ (s.r + BitVec.ofNat 12 j).toNat) → winAt t.textBuf i = winAt s.textBuf i)
      ∧ (∀ a, a < s.dec.outCnt.toNat ∨ s.dec.outCnt.toNat + m.toNat ≤ a → outAt t a = outAt s a)
      ∧ t = { s with
          phase := if s.dec.outCnt.toNat + m.toNat < s.dec.origLen.toNat then .dSymbol else .done
          huff := t.huff, outBuf := t.outBuf, textBuf := t.textBuf
          outLen := (s.dec.outCnt + m.setWidth 32).setWidth 64, r := s.r + m.setWidth 12
          rdBitpos := s.rdBitpos + BitVec.ofNat 64 (bits.length + (posBits o).length)
          dec := { s.dec with
            sym := BitVec.ofNat 9 (253 + m.toNat), outCnt := s.dec.outCnt + m.setWidth 32
            src := s.r - o - 1 + m.setWidth 12, copyRem := 0 } }

/-- Derived from R44, R113, R114, R125, R145: a match token longer than the room left copies its bytes, as one with room does, up to
the declared length, and faults with the number of bytes it did not copy; with no room left it copies none. That a token presented
by itself is read, whole and in any phase, the bits that spell it consumed without being looked at, is the model's choice (log
entry 10, unsafe). -/
def Obligations.MatchPastTheEndFaults : Prop :=
  ∀ (s : State) (m : BitVec 6) (o : BitVec 12) (d : BitVec 32), Safe s → 3 ≤ m.toNat → m.toNat ≤ 60 →
    s.dec.outCnt.toNat + d.toNat = s.dec.origLen.toNat → d.toNat < m.toNat →
    ∃ t bits, exec (.matchTok m o) s = .next t ∧ IsCode s.huff (253 + m.toNat) bits
      ∧ update (253 + m.toNat) s.huff = .ok t.huff
      ∧ (∀ j, j < d.toNat → winAt t.textBuf (s.r + BitVec.ofNat 12 j).toNat =
          winAt (if j ≤ o.toNat then s.textBuf else t.textBuf) (s.r + BitVec.ofNat 12 j - o - 1).toNat)
      ∧ (∀ j, j < d.toNat → outAt t (s.dec.outCnt.toNat + j) = winAt t.textBuf (s.r + BitVec.ofNat 12 j).toNat)
      ∧ (∀ i, (∀ j, j < d.toNat → i ≠ (s.r + BitVec.ofNat 12 j).toNat) → winAt t.textBuf i = winAt s.textBuf i)
      ∧ (∀ a, a < s.dec.outCnt.toNat ∨ s.dec.origLen.toNat ≤ a → outAt t a = outAt s a)
      ∧ t.faultInfo.toNat = s.dec.outCnt.toNat + m.toNat - s.dec.origLen.toNat
      ∧ 1 ≤ t.faultInfo.toNat ∧ (d ≠ 0 → t.faultInfo.toNat ≤ 59)
      ∧ t = { s with
          phase := .fault, faultCode := .outOverrun, faultInfo := (m - d.setWidth 6).setWidth 64
          huff := t.huff, outBuf := t.outBuf, textBuf := t.textBuf
          outLen := if d = 0 then s.outLen else s.dec.origLen.setWidth 64, r := s.r + d.setWidth 12
          rdBitpos := s.rdBitpos + BitVec.ofNat 64 (bits.length + (posBits o).length)
          dec := { s.dec with
            sym := BitVec.ofNat 9 (253 + m.toNat), outCnt := s.dec.origLen
            src := s.r - o - 1 + d.setWidth 12, copyRem := m - d.setWidth 6 } }

/-- Derived from R41, R50, R111: a header element acts as the first step of DECOMPRESS on it; pad bits do nothing. That either can
be presented by itself, and that a header acts so in any phase, inside COMPRESS too, is the model's choice (log entry 10, unsafe). -/
def Obligations.HeaderAndPadElements : Prop :=
  (∀ (s : State) (n : BitVec 32), exec (.hdr n) s = .next { s with
    phase := if n = 0 then .done else .dInit
    faultCode := .none, faultInfo := 0, outLen := 0, outBuf := []
    dec := { s.dec with origLen := n } })
  ∧ ∀ (s : State) (k : BitVec 3), exec (.pad k) s = .next s

/-- Derived from R54: each pseudo-operation completes on every operand, with the value of its expansion, and nothing else changes.
Where R54's formula is negative (OFFSET of a position from itself, LEN_OF_SYM below 253) the value is a free one, of which the
statement says nothing (log entry 21); that the value goes to `ret` is the model's choice (log entry 6). -/
def Obligations.PseudoOperationsReturnTheirExpansion : Prop :=
  (∀ (s : State) (b : Byte), exec (.lookup b) s = .next { s with ret := BitVec.ofNat 16 (4096 + 1 + b.toNat) })
  ∧ (∀ (s : State) (r p : BitVec 12), ∃ v, exec (.offset r p) s = .next { s with ret := v }
      ∧ (r ≠ p → v = BitVec.ofNat 16 ((((r.toNat : Int) - p.toNat) % 4096 - 1).toNat)))
  ∧ (∀ (s : State) (m : BitVec 6), exec (.symOfLen m) s = .next { s with ret := BitVec.ofNat 16 (253 + m.toNat) })
  ∧ ∀ (s : State) (c : BitVec 9), ∃ v, exec (.lenOfSym c) s = .next { s with ret := v }
      ∧ (253 ≤ c.toNat → v = BitVec.ofNat 16 (c.toNat - 253))

/-! ### The whole machine -/

/-- Derived from R116: where `phase` goes from each phase, row by row. -/
def Obligations.PhaseMovesAsTheTableSays : Prop :=
  ∀ s t : State, s.inputs = [] → step s = .next t →
    (s.phase = .idle ∨ s.phase = .done ∨ s.phase = .fault → t.phase = s.phase)
    ∧ (s.phase = .eHdr → t.phase =
        if 2 ^ 32 ≤ s.inLen.toNat then .fault else if s.inLen = 0 then .done else .eInit)
    ∧ (s.phase = .eInit → t.phase = .ePrime) ∧ (s.phase = .ePrime → t.phase = .eEmit)
    ∧ (s.phase = .eEmit → t.phase = if s.enc.inPos.toNat < s.inLen.toNat then .eAdvIn else .eAdvDrain)
    ∧ (s.phase = .eAdvIn → t.enc.advI.toNat ≤ t.enc.lastMatchLength.toNat → t.phase =
        if t.enc.advI = t.enc.lastMatchLength then .eEmit
        else if t.enc.inPos.toNat < t.inLen.toNat then .eAdvIn else .eAdvDrain)
    ∧ (s.phase = .eAdvDrain → t.enc.advI.toNat ≤ t.enc.lastMatchLength.toNat → t.phase =
        if t.enc.advI ≠ t.enc.lastMatchLength then .eAdvDrain else if t.enc.len = 0 then .eFlush else .eEmit)
    ∧ (s.phase = .eFlush → t.phase = .done)
    ∧ (s.phase = .dHdr → t.phase = if s.inLen.toNat < 4 then .fault else if t.dec.origLen = 0 then .done else .dInit)
    ∧ (s.phase = .dInit → t.phase = .dSymbol)
    ∧ (s.phase = .dSymbol → t.phase =
        if 256 ≤ t.dec.sym.toNat then .dCopy else if t.dec.outCnt.toNat < t.dec.origLen.toNat then .dSymbol else .done)
    ∧ (s.phase = .dCopy → t.phase =
        if s.dec.outCnt = s.dec.origLen then .fault else if t.dec.copyRem ≠ 0 then .dCopy
        else if t.dec.outCnt.toNat < t.dec.origLen.toNat then .dSymbol else .done)

/-- Derived from R121, R124, R128: of the core's steps only three rows raise a fault, each on its condition, with its code and its
value, and change nothing but that and the results cleared at a command's start. -/
def Obligations.OnlyThreeRowsRaiseFaults : Prop :=
  ∀ s t : State, s.inputs = [] → step s = .next t → s.phase ≠ .fault → t.phase = .fault →
    (s.phase = .eHdr ∧ 2 ^ 32 ≤ s.inLen.toNat ∧ t = { s with
      phase := .fault, faultCode := .lenRange, faultInfo := s.inLen, outLen := 0, outBuf := [] })
    ∨ (s.phase = .dHdr ∧ s.inLen.toNat < 4 ∧ t = { s with
      phase := .fault, faultCode := .hdrShort, faultInfo := s.inLen, outLen := 0, outBuf := [] })
    ∨ (s.phase = .dCopy ∧ s.dec.outCnt = s.dec.origLen ∧ t = { s with
      phase := .fault, faultCode := .outOverrun, faultInfo := s.dec.copyRem.setWidth 64 })

/-- Derived from R24, R130: no instruction and no step of the core writes `IN`, `IN_LEN` or what is still to come from outside. -/
def Obligations.CoreNeverWritesItsInput : Prop :=
  (∀ (i : Instr) (s t : State), exec i s = .next t →
    t.inBuf = s.inBuf ∧ t.inLen = s.inLen ∧ t.inputs = s.inputs ∧ t.hostData = s.hostData)
  ∧ ∀ s t : State, s.inputs = [] → step s = .next t →
    t.inBuf = s.inBuf ∧ t.inLen = s.inLen ∧ t.inputs = s.inputs ∧ t.hostData = s.hostData

/-- Derived from R15, R27, R90: DECOMPRESS leaves the match finder, the encode registers and the write side alone, COMPRESS the decode
registers and the read side. -/
def Obligations.CommandsKeepApart : Prop :=
  (∀ s t : State, busy s = false → exec .decompress s = .next t →
    t.mf = s.mf ∧ t.enc = s.enc ∧ t.wr = s.wr ∧ t.ret = s.ret)
  ∧ ∀ s t : State, busy s = false → exec .compress s = .next t →
    t.dec = s.dec ∧ t.rdBitpos = s.rdBitpos ∧ t.ret = s.ret

/-- Derived from R116, R150: a whole command is its steps up to the first at which the core is no longer busy. The bound on their
number (log entry 14) and that the operation is ignored inside a command (log entry 4) are the model's choices. -/
def Obligations.WholeCommandIsItsSteps : Prop :=
  ∀ s : State,
    (busy s = true → exec .compress s = .next s ∧ exec .decompress s = .next s)
    ∧ (busy s = false → ∀ t,
        (exec .compress s = .next t ↔ ∃ n, n ≤ commandFuel ∧ coreSteps n { s with phase := .eHdr } = .ok t ∧ busy t = false
          ∧ ∀ k u, k < n → coreSteps k { s with phase := .eHdr } = .ok u → busy u = true)
        ∧ (exec .decompress s = .next t ↔ ∃ n, n ≤ commandFuel ∧ coreSteps n { s with phase := .dHdr } = .ok t
          ∧ busy t = false ∧ ∀ k u, k < n → coreSteps k { s with phase := .dHdr } = .ok u → busy u = true))

/-- Derived from R41, R118 (b): the empty input compresses to four zero bytes, and a zero header decompresses to nothing, whatever
follows it. -/
def Obligations.EmptyInputBothWays : Prop :=
  (∀ s : State, busy s = false → s.inLen = 0 → ∃ t, exec .compress s = .next t ∧ t.phase = .done ∧ t.faultCode = .none
    ∧ t.outLen = 4 ∧ ∀ k, k < 4 → outAt t k = 0)
  ∧ ∀ s : State, busy s = false → 4 ≤ s.inLen.toNat → (∀ k, k < 4 → inAt s k = 0) →
    ∃ t, exec .decompress s = .next t ∧ t.phase = .done ∧ t.faultCode = .none ∧ t.outLen = 0

/-- Derived from R118 (d), R122, R143, R151: COMPRESS ends on every input: DONE with the header and at most the bound of R143, or
the fault of a length the header cannot hold. -/
def Obligations.CompressEndsOnEveryInput : Prop :=
  ∀ s : State, Memory.wf s = true → busy s = false →
    ∃ t, exec .compress s = .next t
      ∧ (s.inLen.toNat < 2 ^ 32 → t.phase = .done ∧ t.faultCode = .none ∧ t.faultInfo = 0 ∧ 4 ≤ t.outLen.toNat
          ∧ t.outLen.toNat ≤ 4 + (21 * s.inLen.toNat + 7) / 8
          ∧ (outAt t 0).toNat + 256 * (outAt t 1).toNat + 65536 * (outAt t 2).toNat + 16777216 * (outAt t 3).toNat =
              s.inLen.toNat)
      ∧ (2 ^ 32 ≤ s.inLen.toNat → t.phase = .fault ∧ t.faultCode = .lenRange ∧ t.faultInfo = s.inLen ∧ t.outLen = 0)

/-- Derived from R111, R121, R127, R151: DECOMPRESS ends on every input, well formed or not: DONE with as many bytes as the header
says, or one of its two faults. -/
def Obligations.DecompressEndsOnEveryInput : Prop :=
  ∀ s : State, Memory.wf s = true → busy s = false →
    ∃ t, exec .decompress s = .next t
      ∧ (s.inLen.toNat < 4 → t.phase = .fault ∧ t.faultCode = .hdrShort ∧ t.faultInfo = s.inLen ∧ t.outLen = 0)
      ∧ (4 ≤ s.inLen.toNat →
          t.outLen.toNat = (inAt s 0).toNat + 256 * (inAt s 1).toNat + 65536 * (inAt s 2).toNat
            + 16777216 * (inAt s 3).toNat
          ∧ ((t.phase = .done ∧ t.faultCode = .none ∧ t.faultInfo = 0)
            ∨ (t.phase = .fault ∧ t.faultCode = .outOverrun ∧ 1 ≤ t.faultInfo.toNat ∧ t.faultInfo.toNat ≤ 59)))

/-- Derived from R119, R142: the result of DECOMPRESS is a function of `IN_LEN` and `IN[0 .. IN_LEN-1]`. -/
def Obligations.DecompressDependsOnItsInputAlone : Prop :=
  ∀ s s' t t' : State, Memory.wf s = true → Memory.wf s' = true → busy s = false → busy s' = false → SameInput s s' →
    exec .decompress s = .next t → exec .decompress s' = .next t' → SameResult t t'

/-- Derived from R118 (c), R119, R142: the result of COMPRESS is a function of `IN_LEN` and `IN[0 .. IN_LEN-1]`. -/
def Obligations.CompressDependsOnItsInputAlone : Prop :=
  ∀ s s' t t' : State, Memory.wf s = true → Memory.wf s' = true → busy s = false → busy s' = false → SameInput s s' →
    exec .compress s = .next t → exec .compress s' = .next t' → SameResult t t'

/-- Derived from R118 (a): DECOMPRESS of what COMPRESS wrote gives the input back, for every input shorter than 2^32 bytes and under
every table of the shape of D12; the instructions are those at the default table. -/
def Obligations.RoundTripRestoresTheInput : Prop :=
  (∀ (P : PosTable) (s : State), LegalTable P → Memory.wf s = true → busy s = false → s.inLen.toNat < 2 ^ 32 →
    ∃ t u, execCompress s P = .next t ∧ execDecompress { t with inBuf := t.outBuf, inLen := t.outLen } P = .next u
      ∧ u.phase = .done ∧ u.faultCode = .none ∧ u.outLen = s.inLen
      ∧ ∀ k, k < s.inLen.toNat → outAt u k = inAt s k)
  ∧ ∀ s : State, Memory.wf s = true → busy s = false → s.inLen.toNat < 2 ^ 32 →
    ∃ t u, exec .compress s = .next t ∧ exec .decompress { t with inBuf := t.outBuf, inLen := t.outLen } = .next u
      ∧ u.phase = .done ∧ u.faultCode = .none ∧ u.outLen = s.inLen
      ∧ ∀ k, k < s.inLen.toNat → outAt u k = inAt s k
end

