-- ==== Sys2Proof/Laws/Result.lean ====
section
/-! SUPPORT. Results of operations taken apart: sequencing, and the outcome of a step. -/

namespace Sys2Proof.Machine

@[simp] theorem bind_ok {α β : Type} (a : α) (f : α → Res β) : ((Except.ok a : Res α) >>= f) = f a := rfl

@[simp] theorem bind_error {α β : Type} (e : Fault) (f : α → Res β) :
    ((Except.error e : Res α) >>= f) = Except.error e := rfl

/-- A sequence answers exactly when its first part answers and the rest answers on that. -/
theorem bind_eq_ok {α β : Type} {x : Res α} {f : α → Res β} {b : β} :
    (x >>= f) = .ok b ↔ ∃ a, x = .ok a ∧ f a = .ok b := by
  cases x with
  | ok a => simp
  | error e => simp

@[simp] theorem map_ok {α β : Type} (a : α) (f : α → β) : (Except.ok a : Res α).map f = .ok (f a) := rfl

theorem map_eq_ok {α β : Type} {x : Res α} {f : α → β} {b : β} :
    x.map f = .ok b ↔ ∃ a, x = .ok a ∧ f a = b := by
  cases x with
  | ok a => simp
  | error e => simp [Except.map]

@[simp] theorem outcome_ok (s : State) : outcome (.ok s) = .next s := rfl

@[simp] theorem outcome_error (f : Fault) : outcome (.error f) = .fault f := rfl

theorem outcome_eq_next {x : Res State} {t : State} : outcome x = .next t ↔ x = .ok t := by
  cases x with
  | ok a => simp [outcome]
  | error e => simp [outcome]

/-- The loop with a body that can stop, over a property every round keeps. -/
theorem forUpM_inv {σ : Type} {P : σ → Prop} {f : Nat → σ → Res σ} :
    ∀ {n i : Nat} {s t : σ}, (∀ j s s', i ≤ j → j < i + n → P s → f j s = .ok s' → P s') → P s → forUpM f n i s = .ok t → P t
  | 0, _, s, t, _, hs, h => by
    simp only [forUpM, Except.ok.injEq] at h; exact h ▸ hs
  | n + 1, i, s, t, hf, hs, h => by
    obtain ⟨s', h1, h2⟩ := bind_eq_ok.1 (by simpa only [forUpM] using h)
    exact forUpM_inv (fun j a b h1 h2 => hf j a b (by omega) (by omega)) (hf i s s' (by omega) (by omega) hs h1) h2

/-- The loop over a property every round keeps. -/
theorem forUp_inv {σ : Type} {P : σ → Prop} {f : Nat → σ → σ} :
    ∀ {n i : Nat} {s : σ}, (∀ j s, i ≤ j → j < i + n → P s → P (f j s)) → P s → P (forUp f n i s)
  | 0, _, _, _, hs => hs
  | n + 1, i, s, hf, hs => by
    simp only [forUp]
    exact forUp_inv (fun j a h1 h2 => hf j a (by omega) (by omega)) (hf i s (by omega) (by omega) hs)

/-- The loop over a property of the number of rounds done. -/
theorem forUp_indexed {σ : Type} {P : Nat → σ → Prop} {f : Nat → σ → σ} :
    ∀ {n i : Nat} {s : σ}, (∀ j s, i ≤ j → j < i + n → P j s → P (j + 1) (f j s)) → P i s → P (i + n) (forUp f n i s)
  | 0, _, _, _, hs => hs
  | n + 1, i, s, hf, hs => by
    have := forUp_indexed (P := P) (n := n) (i := i + 1) (s := f i s)
      (fun j a h1 h2 => hf j a (by omega) (by omega)) (hf i s (by omega) (by omega) hs)
    simpa [forUp, Nat.add_assoc, Nat.add_comm 1 n] using this

end Sys2Proof.Machine
end

