-- ==== Sys2Proof/Laws/Sparse.lean ====
section
/-! SUPPORT. The laws of the sparse arrays: a read after a write, and that a write keeps the canonical form. -/

namespace Sys2Proof.Machine

variable {α : Type} {d : Nat → α}

@[simp] theorem sparseGet_nil (d : Nat → α) (i : Nat) : sparseGet d [] i = d i := rfl

variable [DecidableEq α]

@[simp] theorem sparseWf_nil (lo hi : Nat) : sparseWf d lo hi [] = true := rfl

theorem sparseWf_cons {lo hi a : Nat} {v : α} {t : List (Nat × α)} :
    sparseWf d lo hi ((a, v) :: t) = true ↔ lo ≤ a ∧ a < hi ∧ v ≠ d a ∧ sparseWf d (a + 1) hi t = true := by
  simp [sparseWf, and_assoc]

theorem sparseWf_mono {lo lo' hi : Nat} (h : lo' ≤ lo) {m : List (Nat × α)} (w : sparseWf d lo hi m = true) :
    sparseWf d lo' hi m = true := by
  cases m with
  | nil => rfl
  | cons e t =>
    obtain ⟨a, v⟩ := e
    rw [sparseWf_cons] at w ⊢
    exact ⟨by omega, w.2⟩

/-- Below the first index an array reads as unlisted. -/
theorem sparseGet_below {lo hi i : Nat} {m : List (Nat × α)} (w : sparseWf d lo hi m = true) (h : i < lo) :
    sparseGet d m i = d i := by
  cases m with
  | nil => rfl
  | cons e t =>
    obtain ⟨a, v⟩ := e
    rw [sparseWf_cons] at w
    simp [sparseGet, show i < a by omega]

/-- At and above the end of the range an array reads as unlisted. -/
theorem sparseGet_above {lo hi i : Nat} {m : List (Nat × α)} (w : sparseWf d lo hi m = true) (h : hi ≤ i) :
    sparseGet d m i = d i := by
  induction m generalizing lo with
  | nil => rfl
  | cons e t ih =>
    obtain ⟨a, v⟩ := e
    rw [sparseWf_cons] at w
    simp [sparseGet, show ¬ i < a by omega, show i ≠ a by omega, ih w.2.2.2]

/-- A read of the index written gives the value written. -/
theorem sparseGet_sparseSet_same {lo hi i : Nat} {x : α} {m : List (Nat × α)} (w : sparseWf d lo hi m = true) :
    sparseGet d (sparseSet d m i x) i = x := by
  induction m generalizing lo with
  | nil => by_cases hx : x = d i <;> simp [sparseSet, hx, sparseGet]
  | cons e t ih =>
    obtain ⟨a, v⟩ := e
    rw [sparseWf_cons] at w
    unfold sparseSet
    split_ifs with h1 h2 h3 h4
    · simp [sparseGet, h1, h2]
    · simp [sparseGet]
    · rw [sparseGet_below w.2.2.2 (by omega), h4]
    · simp [sparseGet]
    · simp [sparseGet, h1, h3, ih w.2.2.2]

/-- A write leaves every other index alone. -/
theorem sparseGet_sparseSet_other {lo hi i j : Nat} {x : α} {m : List (Nat × α)} (w : sparseWf d lo hi m = true)
    (hij : j ≠ i) : sparseGet d (sparseSet d m i x) j = sparseGet d m j := by
  induction m generalizing lo with
  | nil =>
    by_cases hx : x = d i
    · simp [sparseSet, hx]
    · simp [sparseSet, hx, sparseGet, hij]
  | cons e t ih =>
    obtain ⟨a, v⟩ := e
    rw [sparseWf_cons] at w
    unfold sparseSet
    split_ifs with h1 h2 h3 h4
    · rfl
    · by_cases hj : j < i
      · simp [sparseGet, hj, show j < a by omega]
      · simp [sparseGet, hj, hij]
    · subst h3
      by_cases hj : j < i
      · rw [sparseGet_below w.2.2.2 (by omega)]; simp [sparseGet, hj]
      · simp [sparseGet, hj, hij]
    · subst h3; simp [sparseGet, hij]
    · simp [sparseGet, ih w.2.2.2]

/-- A read after a write. -/
theorem sparseGet_sparseSet {lo hi i j : Nat} {x : α} {m : List (Nat × α)} (w : sparseWf d lo hi m = true) :
    sparseGet d (sparseSet d m i x) j = if j = i then x else sparseGet d m j := by
  split_ifs with h
  · subst h; exact sparseGet_sparseSet_same w
  · exact sparseGet_sparseSet_other w h

/-- A write in range keeps the canonical form. -/
theorem sparseWf_sparseSet {lo hi i : Nat} {x : α} {m : List (Nat × α)} (w : sparseWf d lo hi m = true)
    (h1 : lo ≤ i) (h2 : i < hi) : sparseWf d lo hi (sparseSet d m i x) = true := by
  induction m generalizing lo with
  | nil => by_cases hx : x = d i <;> simp [sparseSet, hx, sparseWf, h1, h2]
  | cons e t ih =>
    obtain ⟨a, v⟩ := e
    have w' := sparseWf_cons.1 w
    unfold sparseSet
    split_ifs with g1 g2 g3 g4
    · exact w
    · exact sparseWf_cons.2 ⟨h1, h2, g2, sparseWf_cons.2 ⟨by omega, w'.2.1, w'.2.2.1, w'.2.2.2⟩⟩
    · exact sparseWf_mono (by omega) w'.2.2.2
    · subst g3; exact sparseWf_cons.2 ⟨h1, h2, g4, w'.2.2.2⟩
    · exact sparseWf_cons.2 ⟨w'.1, w'.2.1, w'.2.2.1, ih w'.2.2.2 (by omega)⟩

/-- Arrays in canonical form that read alike at every index of their range are equal. -/
theorem sparse_ext {lo hi : Nat} {m n : List (Nat × α)} (wm : sparseWf d lo hi m = true) (wn : sparseWf d lo hi n = true)
    (h : ∀ i, lo ≤ i → i < hi → sparseGet d m i = sparseGet d n i) : m = n := by
  induction m generalizing lo n with
  | nil =>
    cases n with
    | nil => rfl
    | cons e t =>
      obtain ⟨a, v⟩ := e
      have w := sparseWf_cons.1 wn
      exact absurd (by simpa [sparseGet] using (h a w.1 w.2.1).symm) w.2.2.1
  | cons e t ih =>
    obtain ⟨a, v⟩ := e
    have w := sparseWf_cons.1 wm
    cases n with
    | nil => exact absurd (by simpa [sparseGet] using h a w.1 w.2.1) w.2.2.1
    | cons e' t' =>
      obtain ⟨a', v'⟩ := e'
      have w' := sparseWf_cons.1 wn
      have haa : a = a' := by
        rcases lt_trichotomy a a' with hl | he | hg
        · exact absurd (by simpa [sparseGet, hl] using h a w.1 w.2.1) w.2.2.1
        · exact he
        · exact absurd (by simpa [sparseGet, hg] using (h a' w'.1 w'.2.1).symm) w'.2.2.1
      subst haa
      have hv : v = v' := by simpa [sparseGet] using h a w.1 w.2.1
      subst hv
      have ht : t = t' := by
        refine ih w.2.2.2 w'.2.2.2 fun i hi1 hi2 => ?_
        simpa [sparseGet, show ¬ i < a by omega, show i ≠ a by omega] using h i (by omega) hi2
      rw [ht]

end Sys2Proof.Machine
end

