-- ==== Sys2Proof/Laws/State.lean ====
section
/-! SUPPORT. Every field of the state after every record update: one lemma per field per update, so that no proof unfolds a
record. -/

namespace Sys2Proof.Machine

variable (s : State)

/-! ### `setRet` -/

@[simp] theorem setRet_phase (v : BitVec 16) : (setRet v s).phase = s.phase := rfl

@[simp] theorem setRet_inLen (v : BitVec 16) : (setRet v s).inLen = s.inLen := rfl

@[simp] theorem setRet_faultCode (v : BitVec 16) : (setRet v s).faultCode = s.faultCode := rfl

@[simp] theorem setRet_faultInfo (v : BitVec 16) : (setRet v s).faultInfo = s.faultInfo := rfl

@[simp] theorem setRet_outLen (v : BitVec 16) : (setRet v s).outLen = s.outLen := rfl

@[simp] theorem setRet_inBuf (v : BitVec 16) : (setRet v s).inBuf = s.inBuf := rfl

@[simp] theorem setRet_outBuf (v : BitVec 16) : (setRet v s).outBuf = s.outBuf := rfl

@[simp] theorem setRet_textBuf (v : BitVec 16) : (setRet v s).textBuf = s.textBuf := rfl

@[simp] theorem setRet_mf (v : BitVec 16) : (setRet v s).mf = s.mf := rfl

@[simp] theorem setRet_huff (v : BitVec 16) : (setRet v s).huff = s.huff := rfl

@[simp] theorem setRet_wr (v : BitVec 16) : (setRet v s).wr = s.wr := rfl

@[simp] theorem setRet_rdBitpos (v : BitVec 16) : (setRet v s).rdBitpos = s.rdBitpos := rfl

@[simp] theorem setRet_r (v : BitVec 16) : (setRet v s).r = s.r := rfl

@[simp] theorem setRet_enc (v : BitVec 16) : (setRet v s).enc = s.enc := rfl

@[simp] theorem setRet_dec (v : BitVec 16) : (setRet v s).dec = s.dec := rfl

@[simp] theorem setRet_ret (v : BitVec 16) : (setRet v s).ret = v := rfl

@[simp] theorem setRet_hostData (v : BitVec 16) : (setRet v s).hostData = s.hostData := rfl

@[simp] theorem setRet_inputs (v : BitVec 16) : (setRet v s).inputs = s.inputs := rfl

/-! ### `setMf` -/

@[simp] theorem setMf_phase (m : MatchFinder) : (setMf m s).phase = s.phase := rfl

@[simp] theorem setMf_inLen (m : MatchFinder) : (setMf m s).inLen = s.inLen := rfl

@[simp] theorem setMf_faultCode (m : MatchFinder) : (setMf m s).faultCode = s.faultCode := rfl

@[simp] theorem setMf_faultInfo (m : MatchFinder) : (setMf m s).faultInfo = s.faultInfo := rfl

@[simp] theorem setMf_outLen (m : MatchFinder) : (setMf m s).outLen = s.outLen := rfl

@[simp] theorem setMf_inBuf (m : MatchFinder) : (setMf m s).inBuf = s.inBuf := rfl

@[simp] theorem setMf_outBuf (m : MatchFinder) : (setMf m s).outBuf = s.outBuf := rfl

@[simp] theorem setMf_textBuf (m : MatchFinder) : (setMf m s).textBuf = s.textBuf := rfl

@[simp] theorem setMf_mf (m : MatchFinder) : (setMf m s).mf = m := rfl

@[simp] theorem setMf_huff (m : MatchFinder) : (setMf m s).huff = s.huff := rfl

@[simp] theorem setMf_wr (m : MatchFinder) : (setMf m s).wr = s.wr := rfl

@[simp] theorem setMf_rdBitpos (m : MatchFinder) : (setMf m s).rdBitpos = s.rdBitpos := rfl

@[simp] theorem setMf_r (m : MatchFinder) : (setMf m s).r = s.r := rfl

@[simp] theorem setMf_enc (m : MatchFinder) : (setMf m s).enc = s.enc := rfl

@[simp] theorem setMf_dec (m : MatchFinder) : (setMf m s).dec = s.dec := rfl

@[simp] theorem setMf_ret (m : MatchFinder) : (setMf m s).ret = s.ret := rfl

@[simp] theorem setMf_hostData (m : MatchFinder) : (setMf m s).hostData = s.hostData := rfl

@[simp] theorem setMf_inputs (m : MatchFinder) : (setMf m s).inputs = s.inputs := rfl

/-! ### `setHuff` -/

@[simp] theorem setHuff_phase (h : Huffman) : (setHuff h s).phase = s.phase := rfl

@[simp] theorem setHuff_inLen (h : Huffman) : (setHuff h s).inLen = s.inLen := rfl

@[simp] theorem setHuff_faultCode (h : Huffman) : (setHuff h s).faultCode = s.faultCode := rfl

@[simp] theorem setHuff_faultInfo (h : Huffman) : (setHuff h s).faultInfo = s.faultInfo := rfl

@[simp] theorem setHuff_outLen (h : Huffman) : (setHuff h s).outLen = s.outLen := rfl

@[simp] theorem setHuff_inBuf (h : Huffman) : (setHuff h s).inBuf = s.inBuf := rfl

@[simp] theorem setHuff_outBuf (h : Huffman) : (setHuff h s).outBuf = s.outBuf := rfl

@[simp] theorem setHuff_textBuf (h : Huffman) : (setHuff h s).textBuf = s.textBuf := rfl

@[simp] theorem setHuff_mf (h : Huffman) : (setHuff h s).mf = s.mf := rfl

@[simp] theorem setHuff_huff (h : Huffman) : (setHuff h s).huff = h := rfl

@[simp] theorem setHuff_wr (h : Huffman) : (setHuff h s).wr = s.wr := rfl

@[simp] theorem setHuff_rdBitpos (h : Huffman) : (setHuff h s).rdBitpos = s.rdBitpos := rfl

@[simp] theorem setHuff_r (h : Huffman) : (setHuff h s).r = s.r := rfl

@[simp] theorem setHuff_enc (h : Huffman) : (setHuff h s).enc = s.enc := rfl

@[simp] theorem setHuff_dec (h : Huffman) : (setHuff h s).dec = s.dec := rfl

@[simp] theorem setHuff_ret (h : Huffman) : (setHuff h s).ret = s.ret := rfl

@[simp] theorem setHuff_hostData (h : Huffman) : (setHuff h s).hostData = s.hostData := rfl

@[simp] theorem setHuff_inputs (h : Huffman) : (setHuff h s).inputs = s.inputs := rfl

/-! ### `setEnc` -/

@[simp] theorem setEnc_phase (e : EncodeRegs) : (setEnc e s).phase = s.phase := rfl

@[simp] theorem setEnc_inLen (e : EncodeRegs) : (setEnc e s).inLen = s.inLen := rfl

@[simp] theorem setEnc_faultCode (e : EncodeRegs) : (setEnc e s).faultCode = s.faultCode := rfl

@[simp] theorem setEnc_faultInfo (e : EncodeRegs) : (setEnc e s).faultInfo = s.faultInfo := rfl

@[simp] theorem setEnc_outLen (e : EncodeRegs) : (setEnc e s).outLen = s.outLen := rfl

@[simp] theorem setEnc_inBuf (e : EncodeRegs) : (setEnc e s).inBuf = s.inBuf := rfl

@[simp] theorem setEnc_outBuf (e : EncodeRegs) : (setEnc e s).outBuf = s.outBuf := rfl

@[simp] theorem setEnc_textBuf (e : EncodeRegs) : (setEnc e s).textBuf = s.textBuf := rfl

@[simp] theorem setEnc_mf (e : EncodeRegs) : (setEnc e s).mf = s.mf := rfl

@[simp] theorem setEnc_huff (e : EncodeRegs) : (setEnc e s).huff = s.huff := rfl

@[simp] theorem setEnc_wr (e : EncodeRegs) : (setEnc e s).wr = s.wr := rfl

@[simp] theorem setEnc_rdBitpos (e : EncodeRegs) : (setEnc e s).rdBitpos = s.rdBitpos := rfl

@[simp] theorem setEnc_r (e : EncodeRegs) : (setEnc e s).r = s.r := rfl

@[simp] theorem setEnc_enc (e : EncodeRegs) : (setEnc e s).enc = e := rfl

@[simp] theorem setEnc_dec (e : EncodeRegs) : (setEnc e s).dec = s.dec := rfl

@[simp] theorem setEnc_ret (e : EncodeRegs) : (setEnc e s).ret = s.ret := rfl

@[simp] theorem setEnc_hostData (e : EncodeRegs) : (setEnc e s).hostData = s.hostData := rfl

@[simp] theorem setEnc_inputs (e : EncodeRegs) : (setEnc e s).inputs = s.inputs := rfl

/-! ### `setDec` -/

@[simp] theorem setDec_phase (d : DecodeRegs) : (setDec d s).phase = s.phase := rfl

@[simp] theorem setDec_inLen (d : DecodeRegs) : (setDec d s).inLen = s.inLen := rfl

@[simp] theorem setDec_faultCode (d : DecodeRegs) : (setDec d s).faultCode = s.faultCode := rfl

@[simp] theorem setDec_faultInfo (d : DecodeRegs) : (setDec d s).faultInfo = s.faultInfo := rfl

@[simp] theorem setDec_outLen (d : DecodeRegs) : (setDec d s).outLen = s.outLen := rfl

@[simp] theorem setDec_inBuf (d : DecodeRegs) : (setDec d s).inBuf = s.inBuf := rfl

@[simp] theorem setDec_outBuf (d : DecodeRegs) : (setDec d s).outBuf = s.outBuf := rfl

@[simp] theorem setDec_textBuf (d : DecodeRegs) : (setDec d s).textBuf = s.textBuf := rfl

@[simp] theorem setDec_mf (d : DecodeRegs) : (setDec d s).mf = s.mf := rfl

@[simp] theorem setDec_huff (d : DecodeRegs) : (setDec d s).huff = s.huff := rfl

@[simp] theorem setDec_wr (d : DecodeRegs) : (setDec d s).wr = s.wr := rfl

@[simp] theorem setDec_rdBitpos (d : DecodeRegs) : (setDec d s).rdBitpos = s.rdBitpos := rfl

@[simp] theorem setDec_r (d : DecodeRegs) : (setDec d s).r = s.r := rfl

@[simp] theorem setDec_enc (d : DecodeRegs) : (setDec d s).enc = s.enc := rfl

@[simp] theorem setDec_dec (d : DecodeRegs) : (setDec d s).dec = d := rfl

@[simp] theorem setDec_ret (d : DecodeRegs) : (setDec d s).ret = s.ret := rfl

@[simp] theorem setDec_hostData (d : DecodeRegs) : (setDec d s).hostData = s.hostData := rfl

@[simp] theorem setDec_inputs (d : DecodeRegs) : (setDec d s).inputs = s.inputs := rfl

/-! ### `setPhase` -/

@[simp] theorem setPhase_phase (p : Phase) : (setPhase p s).phase = p := rfl

@[simp] theorem setPhase_inLen (p : Phase) : (setPhase p s).inLen = s.inLen := rfl

@[simp] theorem setPhase_faultCode (p : Phase) : (setPhase p s).faultCode = s.faultCode := rfl

@[simp] theorem setPhase_faultInfo (p : Phase) : (setPhase p s).faultInfo = s.faultInfo := rfl

@[simp] theorem setPhase_outLen (p : Phase) : (setPhase p s).outLen = s.outLen := rfl

@[simp] theorem setPhase_inBuf (p : Phase) : (setPhase p s).inBuf = s.inBuf := rfl

@[simp] theorem setPhase_outBuf (p : Phase) : (setPhase p s).outBuf = s.outBuf := rfl

@[simp] theorem setPhase_textBuf (p : Phase) : (setPhase p s).textBuf = s.textBuf := rfl

@[simp] theorem setPhase_mf (p : Phase) : (setPhase p s).mf = s.mf := rfl

@[simp] theorem setPhase_huff (p : Phase) : (setPhase p s).huff = s.huff := rfl

@[simp] theorem setPhase_wr (p : Phase) : (setPhase p s).wr = s.wr := rfl

@[simp] theorem setPhase_rdBitpos (p : Phase) : (setPhase p s).rdBitpos = s.rdBitpos := rfl

@[simp] theorem setPhase_r (p : Phase) : (setPhase p s).r = s.r := rfl

@[simp] theorem setPhase_enc (p : Phase) : (setPhase p s).enc = s.enc := rfl

@[simp] theorem setPhase_dec (p : Phase) : (setPhase p s).dec = s.dec := rfl

@[simp] theorem setPhase_ret (p : Phase) : (setPhase p s).ret = s.ret := rfl

@[simp] theorem setPhase_hostData (p : Phase) : (setPhase p s).hostData = s.hostData := rfl

@[simp] theorem setPhase_inputs (p : Phase) : (setPhase p s).inputs = s.inputs := rfl

/-! ### `raiseFault` -/

@[simp] theorem raiseFault_phase (x : FaultCode) (info : BitVec 64) : (raiseFault x info s).phase = .fault := rfl

@[simp] theorem raiseFault_inLen (x : FaultCode) (info : BitVec 64) : (raiseFault x info s).inLen = s.inLen := rfl

@[simp] theorem raiseFault_faultCode (x : FaultCode) (info : BitVec 64) : (raiseFault x info s).faultCode = x := rfl

@[simp] theorem raiseFault_faultInfo (x : FaultCode) (info : BitVec 64) : (raiseFault x info s).faultInfo = info := rfl

@[simp] theorem raiseFault_outLen (x : FaultCode) (info : BitVec 64) : (raiseFault x info s).outLen = s.outLen := rfl

@[simp] theorem raiseFault_inBuf (x : FaultCode) (info : BitVec 64) : (raiseFault x info s).inBuf = s.inBuf := rfl

@[simp] theorem raiseFault_outBuf (x : FaultCode) (info : BitVec 64) : (raiseFault x info s).outBuf = s.outBuf := rfl

@[simp] theorem raiseFault_textBuf (x : FaultCode) (info : BitVec 64) : (raiseFault x info s).textBuf = s.textBuf := rfl

@[simp] theorem raiseFault_mf (x : FaultCode) (info : BitVec 64) : (raiseFault x info s).mf = s.mf := rfl

@[simp] theorem raiseFault_huff (x : FaultCode) (info : BitVec 64) : (raiseFault x info s).huff = s.huff := rfl

@[simp] theorem raiseFault_wr (x : FaultCode) (info : BitVec 64) : (raiseFault x info s).wr = s.wr := rfl

@[simp] theorem raiseFault_rdBitpos (x : FaultCode) (info : BitVec 64) : (raiseFault x info s).rdBitpos = s.rdBitpos := rfl

@[simp] theorem raiseFault_r (x : FaultCode) (info : BitVec 64) : (raiseFault x info s).r = s.r := rfl

@[simp] theorem raiseFault_enc (x : FaultCode) (info : BitVec 64) : (raiseFault x info s).enc = s.enc := rfl

@[simp] theorem raiseFault_dec (x : FaultCode) (info : BitVec 64) : (raiseFault x info s).dec = s.dec := rfl

@[simp] theorem raiseFault_ret (x : FaultCode) (info : BitVec 64) : (raiseFault x info s).ret = s.ret := rfl

@[simp] theorem raiseFault_hostData (x : FaultCode) (info : BitVec 64) : (raiseFault x info s).hostData = s.hostData := rfl

@[simp] theorem raiseFault_inputs (x : FaultCode) (info : BitVec 64) : (raiseFault x info s).inputs = s.inputs := rfl

/-! ### `clearResults` -/

@[simp] theorem clearResults_phase : (clearResults s).phase = s.phase := rfl

@[simp] theorem clearResults_inLen : (clearResults s).inLen = s.inLen := rfl

@[simp] theorem clearResults_faultCode : (clearResults s).faultCode = .none := rfl

@[simp] theorem clearResults_faultInfo : (clearResults s).faultInfo = 0 := rfl

@[simp] theorem clearResults_outLen : (clearResults s).outLen = 0 := rfl

@[simp] theorem clearResults_inBuf : (clearResults s).inBuf = s.inBuf := rfl

@[simp] theorem clearResults_outBuf : (clearResults s).outBuf = [] := rfl

@[simp] theorem clearResults_textBuf : (clearResults s).textBuf = s.textBuf := rfl

@[simp] theorem clearResults_mf : (clearResults s).mf = s.mf := rfl

@[simp] theorem clearResults_huff : (clearResults s).huff = s.huff := rfl

@[simp] theorem clearResults_wr : (clearResults s).wr = s.wr := rfl

@[simp] theorem clearResults_rdBitpos : (clearResults s).rdBitpos = s.rdBitpos := rfl

@[simp] theorem clearResults_r : (clearResults s).r = s.r := rfl

@[simp] theorem clearResults_enc : (clearResults s).enc = s.enc := rfl

@[simp] theorem clearResults_dec : (clearResults s).dec = s.dec := rfl

@[simp] theorem clearResults_ret : (clearResults s).ret = s.ret := rfl

@[simp] theorem clearResults_hostData : (clearResults s).hostData = s.hostData := rfl

@[simp] theorem clearResults_inputs : (clearResults s).inputs = s.inputs := rfl

/-! ### `outAppend` -/

@[simp] theorem outAppend_phase (v : Byte) : (outAppend v s).phase = s.phase := rfl

@[simp] theorem outAppend_inLen (v : Byte) : (outAppend v s).inLen = s.inLen := rfl

@[simp] theorem outAppend_faultCode (v : Byte) : (outAppend v s).faultCode = s.faultCode := rfl

@[simp] theorem outAppend_faultInfo (v : Byte) : (outAppend v s).faultInfo = s.faultInfo := rfl

@[simp] theorem outAppend_outLen (v : Byte) : (outAppend v s).outLen = s.outLen + 1 := rfl

@[simp] theorem outAppend_inBuf (v : Byte) : (outAppend v s).inBuf = s.inBuf := rfl

@[simp] theorem outAppend_outBuf (v : Byte) : (outAppend v s).outBuf = sparseSet bufferDefault s.outBuf s.outLen.toNat v := rfl

@[simp] theorem outAppend_textBuf (v : Byte) : (outAppend v s).textBuf = s.textBuf := rfl

@[simp] theorem outAppend_mf (v : Byte) : (outAppend v s).mf = s.mf := rfl

@[simp] theorem outAppend_huff (v : Byte) : (outAppend v s).huff = s.huff := rfl

@[simp] theorem outAppend_wr (v : Byte) : (outAppend v s).wr = s.wr := rfl

@[simp] theorem outAppend_rdBitpos (v : Byte) : (outAppend v s).rdBitpos = s.rdBitpos := rfl

@[simp] theorem outAppend_r (v : Byte) : (outAppend v s).r = s.r := rfl

@[simp] theorem outAppend_enc (v : Byte) : (outAppend v s).enc = s.enc := rfl

@[simp] theorem outAppend_dec (v : Byte) : (outAppend v s).dec = s.dec := rfl

@[simp] theorem outAppend_ret (v : Byte) : (outAppend v s).ret = s.ret := rfl

@[simp] theorem outAppend_hostData (v : Byte) : (outAppend v s).hostData = s.hostData := rfl

@[simp] theorem outAppend_inputs (v : Byte) : (outAppend v s).inputs = s.inputs := rfl

/-! ### `outWriteNext` -/

@[simp] theorem outWriteNext_phase (v : Byte) : (outWriteNext v s).phase = s.phase := rfl

@[simp] theorem outWriteNext_inLen (v : Byte) : (outWriteNext v s).inLen = s.inLen := rfl

@[simp] theorem outWriteNext_faultCode (v : Byte) : (outWriteNext v s).faultCode = s.faultCode := rfl

@[simp] theorem outWriteNext_faultInfo (v : Byte) : (outWriteNext v s).faultInfo = s.faultInfo := rfl

@[simp] theorem outWriteNext_outLen (v : Byte) : (outWriteNext v s).outLen = (s.dec.outCnt + 1).setWidth 64 := rfl

@[simp] theorem outWriteNext_inBuf (v : Byte) : (outWriteNext v s).inBuf = s.inBuf := rfl

@[simp] theorem outWriteNext_outBuf (v : Byte) : (outWriteNext v s).outBuf = sparseSet bufferDefault s.outBuf s.dec.outCnt.toNat v := rfl

@[simp] theorem outWriteNext_textBuf (v : Byte) : (outWriteNext v s).textBuf = s.textBuf := rfl

@[simp] theorem outWriteNext_mf (v : Byte) : (outWriteNext v s).mf = s.mf := rfl

@[simp] theorem outWriteNext_huff (v : Byte) : (outWriteNext v s).huff = s.huff := rfl

@[simp] theorem outWriteNext_wr (v : Byte) : (outWriteNext v s).wr = s.wr := rfl

@[simp] theorem outWriteNext_rdBitpos (v : Byte) : (outWriteNext v s).rdBitpos = s.rdBitpos := rfl

@[simp] theorem outWriteNext_r (v : Byte) : (outWriteNext v s).r = s.r := rfl

@[simp] theorem outWriteNext_enc (v : Byte) : (outWriteNext v s).enc = s.enc := rfl

@[simp] theorem outWriteNext_dec (v : Byte) : (outWriteNext v s).dec = { s.dec with outCnt := s.dec.outCnt + 1 } := rfl

@[simp] theorem outWriteNext_ret (v : Byte) : (outWriteNext v s).ret = s.ret := rfl

@[simp] theorem outWriteNext_hostData (v : Byte) : (outWriteNext v s).hostData = s.hostData := rfl

@[simp] theorem outWriteNext_inputs (v : Byte) : (outWriteNext v s).inputs = s.inputs := rfl

/-! ### `setSym` -/

@[simp] theorem setSym_phase (c : Nat) : (setSym c s).phase = s.phase := rfl

@[simp] theorem setSym_inLen (c : Nat) : (setSym c s).inLen = s.inLen := rfl

@[simp] theorem setSym_faultCode (c : Nat) : (setSym c s).faultCode = s.faultCode := rfl

@[simp] theorem setSym_faultInfo (c : Nat) : (setSym c s).faultInfo = s.faultInfo := rfl

@[simp] theorem setSym_outLen (c : Nat) : (setSym c s).outLen = s.outLen := rfl

@[simp] theorem setSym_inBuf (c : Nat) : (setSym c s).inBuf = s.inBuf := rfl

@[simp] theorem setSym_outBuf (c : Nat) : (setSym c s).outBuf = s.outBuf := rfl

@[simp] theorem setSym_textBuf (c : Nat) : (setSym c s).textBuf = s.textBuf := rfl

@[simp] theorem setSym_mf (c : Nat) : (setSym c s).mf = s.mf := rfl

@[simp] theorem setSym_huff (c : Nat) : (setSym c s).huff = s.huff := rfl

@[simp] theorem setSym_wr (c : Nat) : (setSym c s).wr = s.wr := rfl

@[simp] theorem setSym_rdBitpos (c : Nat) : (setSym c s).rdBitpos = s.rdBitpos := rfl

@[simp] theorem setSym_r (c : Nat) : (setSym c s).r = s.r := rfl

@[simp] theorem setSym_enc (c : Nat) : (setSym c s).enc = s.enc := rfl

@[simp] theorem setSym_dec (c : Nat) : (setSym c s).dec = { s.dec with sym := BitVec.ofNat 9 c } := rfl

@[simp] theorem setSym_ret (c : Nat) : (setSym c s).ret = s.ret := rfl

@[simp] theorem setSym_hostData (c : Nat) : (setSym c s).hostData = s.hostData := rfl

@[simp] theorem setSym_inputs (c : Nat) : (setSym c s).inputs = s.inputs := rfl

/-! ### `skipBits` -/

@[simp] theorem skipBits_phase (n : Nat) : (skipBits n s).phase = s.phase := rfl

@[simp] theorem skipBits_inLen (n : Nat) : (skipBits n s).inLen = s.inLen := rfl

@[simp] theorem skipBits_faultCode (n : Nat) : (skipBits n s).faultCode = s.faultCode := rfl

@[simp] theorem skipBits_faultInfo (n : Nat) : (skipBits n s).faultInfo = s.faultInfo := rfl

@[simp] theorem skipBits_outLen (n : Nat) : (skipBits n s).outLen = s.outLen := rfl

@[simp] theorem skipBits_inBuf (n : Nat) : (skipBits n s).inBuf = s.inBuf := rfl

@[simp] theorem skipBits_outBuf (n : Nat) : (skipBits n s).outBuf = s.outBuf := rfl

@[simp] theorem skipBits_textBuf (n : Nat) : (skipBits n s).textBuf = s.textBuf := rfl

@[simp] theorem skipBits_mf (n : Nat) : (skipBits n s).mf = s.mf := rfl

@[simp] theorem skipBits_huff (n : Nat) : (skipBits n s).huff = s.huff := rfl

@[simp] theorem skipBits_wr (n : Nat) : (skipBits n s).wr = s.wr := rfl

@[simp] theorem skipBits_rdBitpos (n : Nat) : (skipBits n s).rdBitpos = s.rdBitpos + BitVec.ofNat 64 n := rfl

@[simp] theorem skipBits_r (n : Nat) : (skipBits n s).r = s.r := rfl

@[simp] theorem skipBits_enc (n : Nat) : (skipBits n s).enc = s.enc := rfl

@[simp] theorem skipBits_dec (n : Nat) : (skipBits n s).dec = s.dec := rfl

@[simp] theorem skipBits_ret (n : Nat) : (skipBits n s).ret = s.ret := rfl

@[simp] theorem skipBits_hostData (n : Nat) : (skipBits n s).hostData = s.hostData := rfl

@[simp] theorem skipBits_inputs (n : Nat) : (skipBits n s).inputs = s.inputs := rfl

/-! ### `startCopy` -/

@[simp] theorem startCopy_phase (o : BitVec 12) : (startCopy o s).phase = .dCopy := rfl

@[simp] theorem startCopy_inLen (o : BitVec 12) : (startCopy o s).inLen = s.inLen := rfl

@[simp] theorem startCopy_faultCode (o : BitVec 12) : (startCopy o s).faultCode = s.faultCode := rfl

@[simp] theorem startCopy_faultInfo (o : BitVec 12) : (startCopy o s).faultInfo = s.faultInfo := rfl

@[simp] theorem startCopy_outLen (o : BitVec 12) : (startCopy o s).outLen = s.outLen := rfl

@[simp] theorem startCopy_inBuf (o : BitVec 12) : (startCopy o s).inBuf = s.inBuf := rfl

@[simp] theorem startCopy_outBuf (o : BitVec 12) : (startCopy o s).outBuf = s.outBuf := rfl

@[simp] theorem startCopy_textBuf (o : BitVec 12) : (startCopy o s).textBuf = s.textBuf := rfl

@[simp] theorem startCopy_mf (o : BitVec 12) : (startCopy o s).mf = s.mf := rfl

@[simp] theorem startCopy_huff (o : BitVec 12) : (startCopy o s).huff = s.huff := rfl

@[simp] theorem startCopy_wr (o : BitVec 12) : (startCopy o s).wr = s.wr := rfl

@[simp] theorem startCopy_rdBitpos (o : BitVec 12) : (startCopy o s).rdBitpos = s.rdBitpos := rfl

@[simp] theorem startCopy_r (o : BitVec 12) : (startCopy o s).r = s.r := rfl

@[simp] theorem startCopy_enc (o : BitVec 12) : (startCopy o s).enc = s.enc := rfl

@[simp] theorem startCopy_dec (o : BitVec 12) : (startCopy o s).dec = { s.dec with copyRem := lenOfSym s.dec.sym.toNat, src := copySource s.r o } := rfl

@[simp] theorem startCopy_ret (o : BitVec 12) : (startCopy o s).ret = s.ret := rfl

@[simp] theorem startCopy_hostData (o : BitVec 12) : (startCopy o s).hostData = s.hostData := rfl

@[simp] theorem startCopy_inputs (o : BitVec 12) : (startCopy o s).inputs = s.inputs := rfl

/-! ### `preloadByte` -/

@[simp] theorem preloadByte_phase (c : Byte) : (preloadByte c s).phase = s.phase := rfl

@[simp] theorem preloadByte_inLen (c : Byte) : (preloadByte c s).inLen = s.inLen := rfl

@[simp] theorem preloadByte_faultCode (c : Byte) : (preloadByte c s).faultCode = s.faultCode := rfl

@[simp] theorem preloadByte_faultInfo (c : Byte) : (preloadByte c s).faultInfo = s.faultInfo := rfl

@[simp] theorem preloadByte_outLen (c : Byte) : (preloadByte c s).outLen = s.outLen := rfl

@[simp] theorem preloadByte_inBuf (c : Byte) : (preloadByte c s).inBuf = s.inBuf := rfl

@[simp] theorem preloadByte_outBuf (c : Byte) : (preloadByte c s).outBuf = s.outBuf := rfl

@[simp] theorem preloadByte_textBuf (c : Byte) : (preloadByte c s).textBuf = winPut (s.r.toNat + s.enc.len.toNat) c s.textBuf := rfl

@[simp] theorem preloadByte_mf (c : Byte) : (preloadByte c s).mf = s.mf := rfl

@[simp] theorem preloadByte_huff (c : Byte) : (preloadByte c s).huff = s.huff := rfl

@[simp] theorem preloadByte_wr (c : Byte) : (preloadByte c s).wr = s.wr := rfl

@[simp] theorem preloadByte_rdBitpos (c : Byte) : (preloadByte c s).rdBitpos = s.rdBitpos := rfl

@[simp] theorem preloadByte_r (c : Byte) : (preloadByte c s).r = s.r := rfl

@[simp] theorem preloadByte_enc (c : Byte) : (preloadByte c s).enc = { s.enc with inPos := s.enc.inPos + 1, len := s.enc.len + 1 } := rfl

@[simp] theorem preloadByte_dec (c : Byte) : (preloadByte c s).dec = s.dec := rfl

@[simp] theorem preloadByte_ret (c : Byte) : (preloadByte c s).ret = s.ret := rfl

@[simp] theorem preloadByte_hostData (c : Byte) : (preloadByte c s).hostData = s.hostData := rfl

@[simp] theorem preloadByte_inputs (c : Byte) : (preloadByte c s).inputs = s.inputs := rfl

/-! ### `slideIn` -/

@[simp] theorem slideIn_phase (c : Byte) : (slideIn c s).phase = s.phase := rfl

@[simp] theorem slideIn_inLen (c : Byte) : (slideIn c s).inLen = s.inLen := rfl

@[simp] theorem slideIn_faultCode (c : Byte) : (slideIn c s).faultCode = s.faultCode := rfl

@[simp] theorem slideIn_faultInfo (c : Byte) : (slideIn c s).faultInfo = s.faultInfo := rfl

@[simp] theorem slideIn_outLen (c : Byte) : (slideIn c s).outLen = s.outLen := rfl

@[simp] theorem slideIn_inBuf (c : Byte) : (slideIn c s).inBuf = s.inBuf := rfl

@[simp] theorem slideIn_outBuf (c : Byte) : (slideIn c s).outBuf = s.outBuf := rfl

@[simp] theorem slideIn_textBuf (c : Byte) : (slideIn c s).textBuf = winWrite s.enc.s.toNat c s.textBuf := rfl

@[simp] theorem slideIn_mf (c : Byte) : (slideIn c s).mf = s.mf := rfl

@[simp] theorem slideIn_huff (c : Byte) : (slideIn c s).huff = s.huff := rfl

@[simp] theorem slideIn_wr (c : Byte) : (slideIn c s).wr = s.wr := rfl

@[simp] theorem slideIn_rdBitpos (c : Byte) : (slideIn c s).rdBitpos = s.rdBitpos := rfl

@[simp] theorem slideIn_r (c : Byte) : (slideIn c s).r = s.r + 1 := rfl

@[simp] theorem slideIn_enc (c : Byte) : (slideIn c s).enc = { s.enc with s := s.enc.s + 1 } := rfl

@[simp] theorem slideIn_dec (c : Byte) : (slideIn c s).dec = s.dec := rfl

@[simp] theorem slideIn_ret (c : Byte) : (slideIn c s).ret = s.ret := rfl

@[simp] theorem slideIn_hostData (c : Byte) : (slideIn c s).hostData = s.hostData := rfl

@[simp] theorem slideIn_inputs (c : Byte) : (slideIn c s).inputs = s.inputs := rfl

/-! ### `slideDrain` -/

@[simp] theorem slideDrain_phase : (slideDrain s).phase = s.phase := rfl

@[simp] theorem slideDrain_inLen : (slideDrain s).inLen = s.inLen := rfl

@[simp] theorem slideDrain_faultCode : (slideDrain s).faultCode = s.faultCode := rfl

@[simp] theorem slideDrain_faultInfo : (slideDrain s).faultInfo = s.faultInfo := rfl

@[simp] theorem slideDrain_outLen : (slideDrain s).outLen = s.outLen := rfl

@[simp] theorem slideDrain_inBuf : (slideDrain s).inBuf = s.inBuf := rfl

@[simp] theorem slideDrain_outBuf : (slideDrain s).outBuf = s.outBuf := rfl

@[simp] theorem slideDrain_textBuf : (slideDrain s).textBuf = s.textBuf := rfl

@[simp] theorem slideDrain_mf : (slideDrain s).mf = s.mf := rfl

@[simp] theorem slideDrain_huff : (slideDrain s).huff = s.huff := rfl

@[simp] theorem slideDrain_wr : (slideDrain s).wr = s.wr := rfl

@[simp] theorem slideDrain_rdBitpos : (slideDrain s).rdBitpos = s.rdBitpos := rfl

@[simp] theorem slideDrain_r : (slideDrain s).r = s.r + 1 := rfl

@[simp] theorem slideDrain_enc : (slideDrain s).enc = { s.enc with s := s.enc.s + 1, len := s.enc.len - 1 } := rfl

@[simp] theorem slideDrain_dec : (slideDrain s).dec = s.dec := rfl

@[simp] theorem slideDrain_ret : (slideDrain s).ret = s.ret := rfl

@[simp] theorem slideDrain_hostData : (slideDrain s).hostData = s.hostData := rfl

@[simp] theorem slideDrain_inputs : (slideDrain s).inputs = s.inputs := rfl

/-! ### `initEncode` -/

@[simp] theorem initEncode_phase : (initEncode s).phase = s.phase := by rw [initEncode]

@[simp] theorem initEncode_inLen : (initEncode s).inLen = s.inLen := by rw [initEncode]

@[simp] theorem initEncode_faultCode : (initEncode s).faultCode = s.faultCode := by rw [initEncode]

@[simp] theorem initEncode_faultInfo : (initEncode s).faultInfo = s.faultInfo := by rw [initEncode]

@[simp] theorem initEncode_outLen : (initEncode s).outLen = s.outLen := by rw [initEncode]

@[simp] theorem initEncode_inBuf : (initEncode s).inBuf = s.inBuf := by rw [initEncode]

@[simp] theorem initEncode_outBuf : (initEncode s).outBuf = s.outBuf := by rw [initEncode]

@[simp] theorem initEncode_textBuf : (initEncode s).textBuf = winFill s.textBuf := by rw [initEncode]

@[simp] theorem initEncode_mf : (initEncode s).mf = { initTree s.mf with matchLength := 0, matchPosition := 0 } := by rw [initEncode]

@[simp] theorem initEncode_huff : (initEncode s).huff = startHuff s.huff := by rw [initEncode]

@[simp] theorem initEncode_wr : (initEncode s).wr = { acc := 0, cnt := 0 } := by rw [initEncode]

@[simp] theorem initEncode_rdBitpos : (initEncode s).rdBitpos = s.rdBitpos := by rw [initEncode]

@[simp] theorem initEncode_r : (initEncode s).r = Config.R0 := by rw [initEncode]

@[simp] theorem initEncode_enc : (initEncode s).enc = { s.enc with s := Config.S0, inPos := 0, len := 0 } := by rw [initEncode]

@[simp] theorem initEncode_dec : (initEncode s).dec = s.dec := by rw [initEncode]

@[simp] theorem initEncode_ret : (initEncode s).ret = s.ret := by rw [initEncode]

@[simp] theorem initEncode_hostData : (initEncode s).hostData = s.hostData := by rw [initEncode]

@[simp] theorem initEncode_inputs : (initEncode s).inputs = s.inputs := by rw [initEncode]

/-! ### `stepDInit` -/

@[simp] theorem stepDInit_phase : (stepDInit s).phase = .dSymbol := by rw [stepDInit]

@[simp] theorem stepDInit_inLen : (stepDInit s).inLen = s.inLen := by rw [stepDInit]

@[simp] theorem stepDInit_faultCode : (stepDInit s).faultCode = s.faultCode := by rw [stepDInit]

@[simp] theorem stepDInit_faultInfo : (stepDInit s).faultInfo = s.faultInfo := by rw [stepDInit]

@[simp] theorem stepDInit_outLen : (stepDInit s).outLen = s.outLen := by rw [stepDInit]

@[simp] theorem stepDInit_inBuf : (stepDInit s).inBuf = s.inBuf := by rw [stepDInit]

@[simp] theorem stepDInit_outBuf : (stepDInit s).outBuf = s.outBuf := by rw [stepDInit]

@[simp] theorem stepDInit_textBuf : (stepDInit s).textBuf = winFill s.textBuf := by rw [stepDInit]

@[simp] theorem stepDInit_mf : (stepDInit s).mf = s.mf := by rw [stepDInit]

@[simp] theorem stepDInit_huff : (stepDInit s).huff = startHuff s.huff := by rw [stepDInit]

@[simp] theorem stepDInit_wr : (stepDInit s).wr = s.wr := by rw [stepDInit]

@[simp] theorem stepDInit_rdBitpos : (stepDInit s).rdBitpos = 0 := by rw [stepDInit]

@[simp] theorem stepDInit_r : (stepDInit s).r = Config.R0 := by rw [stepDInit]

@[simp] theorem stepDInit_enc : (stepDInit s).enc = s.enc := by rw [stepDInit]

@[simp] theorem stepDInit_dec : (stepDInit s).dec = { s.dec with outCnt := 0 } := by rw [stepDInit]

@[simp] theorem stepDInit_ret : (stepDInit s).ret = s.ret := by rw [stepDInit]

@[simp] theorem stepDInit_hostData : (stepDInit s).hostData = s.hostData := by rw [stepDInit]

@[simp] theorem stepDInit_inputs : (stepDInit s).inputs = s.inputs := by rw [stepDInit]

/-! ### `produceByte` -/

@[simp] theorem produceByte_phase (c : Byte) : (produceByte c s).phase = s.phase := rfl

@[simp] theorem produceByte_inLen (c : Byte) : (produceByte c s).inLen = s.inLen := rfl

@[simp] theorem produceByte_faultCode (c : Byte) : (produceByte c s).faultCode = s.faultCode := rfl

@[simp] theorem produceByte_faultInfo (c : Byte) : (produceByte c s).faultInfo = s.faultInfo := rfl

@[simp] theorem produceByte_outLen (c : Byte) : (produceByte c s).outLen = (s.dec.outCnt + 1).setWidth 64 := rfl

@[simp] theorem produceByte_inBuf (c : Byte) : (produceByte c s).inBuf = s.inBuf := rfl

@[simp] theorem produceByte_outBuf (c : Byte) : (produceByte c s).outBuf = sparseSet bufferDefault s.outBuf s.dec.outCnt.toNat c := rfl

@[simp] theorem produceByte_textBuf (c : Byte) : (produceByte c s).textBuf = winPut s.r.toNat c s.textBuf := rfl

@[simp] theorem produceByte_mf (c : Byte) : (produceByte c s).mf = s.mf := rfl

@[simp] theorem produceByte_huff (c : Byte) : (produceByte c s).huff = s.huff := rfl

@[simp] theorem produceByte_wr (c : Byte) : (produceByte c s).wr = s.wr := rfl

@[simp] theorem produceByte_rdBitpos (c : Byte) : (produceByte c s).rdBitpos = s.rdBitpos := rfl

@[simp] theorem produceByte_r (c : Byte) : (produceByte c s).r = s.r + 1 := rfl

@[simp] theorem produceByte_enc (c : Byte) : (produceByte c s).enc = s.enc := rfl

@[simp] theorem produceByte_dec (c : Byte) : (produceByte c s).dec = { s.dec with outCnt := s.dec.outCnt + 1 } := rfl

@[simp] theorem produceByte_ret (c : Byte) : (produceByte c s).ret = s.ret := rfl

@[simp] theorem produceByte_hostData (c : Byte) : (produceByte c s).hostData = s.hostData := rfl

@[simp] theorem produceByte_inputs (c : Byte) : (produceByte c s).inputs = s.inputs := rfl

/-! ### `copyByte` -/

@[simp] theorem copyByte_phase (c : Byte) : (copyByte c s).phase = s.phase := rfl

@[simp] theorem copyByte_inLen (c : Byte) : (copyByte c s).inLen = s.inLen := rfl

@[simp] theorem copyByte_faultCode (c : Byte) : (copyByte c s).faultCode = s.faultCode := rfl

@[simp] theorem copyByte_faultInfo (c : Byte) : (copyByte c s).faultInfo = s.faultInfo := rfl

@[simp] theorem copyByte_outLen (c : Byte) : (copyByte c s).outLen = (s.dec.outCnt + 1).setWidth 64 := rfl

@[simp] theorem copyByte_inBuf (c : Byte) : (copyByte c s).inBuf = s.inBuf := rfl

@[simp] theorem copyByte_outBuf (c : Byte) : (copyByte c s).outBuf = sparseSet bufferDefault s.outBuf s.dec.outCnt.toNat c := rfl

@[simp] theorem copyByte_textBuf (c : Byte) : (copyByte c s).textBuf = winPut s.r.toNat c s.textBuf := rfl

@[simp] theorem copyByte_mf (c : Byte) : (copyByte c s).mf = s.mf := rfl

@[simp] theorem copyByte_huff (c : Byte) : (copyByte c s).huff = s.huff := rfl

@[simp] theorem copyByte_wr (c : Byte) : (copyByte c s).wr = s.wr := rfl

@[simp] theorem copyByte_rdBitpos (c : Byte) : (copyByte c s).rdBitpos = s.rdBitpos := rfl

@[simp] theorem copyByte_r (c : Byte) : (copyByte c s).r = s.r + 1 := rfl

@[simp] theorem copyByte_enc (c : Byte) : (copyByte c s).enc = s.enc := rfl

@[simp] theorem copyByte_dec (c : Byte) : (copyByte c s).dec = { s.dec with outCnt := s.dec.outCnt + 1, src := s.dec.src + 1, copyRem := s.dec.copyRem - 1 } := rfl

@[simp] theorem copyByte_ret (c : Byte) : (copyByte c s).ret = s.ret := rfl

@[simp] theorem copyByte_hostData (c : Byte) : (copyByte c s).hostData = s.hostData := rfl

@[simp] theorem copyByte_inputs (c : Byte) : (copyByte c s).inputs = s.inputs := rfl

/-! ### `takeHeader` -/

@[simp] theorem takeHeader_phase (n : BitVec 32) : (takeHeader n s).phase = if n = 0 then .done else .dInit := rfl

@[simp] theorem takeHeader_inLen (n : BitVec 32) : (takeHeader n s).inLen = s.inLen := rfl

@[simp] theorem takeHeader_faultCode (n : BitVec 32) : (takeHeader n s).faultCode = s.faultCode := rfl

@[simp] theorem takeHeader_faultInfo (n : BitVec 32) : (takeHeader n s).faultInfo = s.faultInfo := rfl

@[simp] theorem takeHeader_outLen (n : BitVec 32) : (takeHeader n s).outLen = s.outLen := rfl

@[simp] theorem takeHeader_inBuf (n : BitVec 32) : (takeHeader n s).inBuf = s.inBuf := rfl

@[simp] theorem takeHeader_outBuf (n : BitVec 32) : (takeHeader n s).outBuf = s.outBuf := rfl

@[simp] theorem takeHeader_textBuf (n : BitVec 32) : (takeHeader n s).textBuf = s.textBuf := rfl

@[simp] theorem takeHeader_mf (n : BitVec 32) : (takeHeader n s).mf = s.mf := rfl

@[simp] theorem takeHeader_huff (n : BitVec 32) : (takeHeader n s).huff = s.huff := rfl

@[simp] theorem takeHeader_wr (n : BitVec 32) : (takeHeader n s).wr = s.wr := rfl

@[simp] theorem takeHeader_rdBitpos (n : BitVec 32) : (takeHeader n s).rdBitpos = s.rdBitpos := rfl

@[simp] theorem takeHeader_r (n : BitVec 32) : (takeHeader n s).r = s.r := rfl

@[simp] theorem takeHeader_enc (n : BitVec 32) : (takeHeader n s).enc = s.enc := rfl

@[simp] theorem takeHeader_dec (n : BitVec 32) : (takeHeader n s).dec = { s.dec with origLen := n } := rfl

@[simp] theorem takeHeader_ret (n : BitVec 32) : (takeHeader n s).ret = s.ret := rfl

@[simp] theorem takeHeader_hostData (n : BitVec 32) : (takeHeader n s).hostData = s.hostData := rfl

@[simp] theorem takeHeader_inputs (n : BitVec 32) : (takeHeader n s).inputs = s.inputs := rfl

end Sys2Proof.Machine
end

