-- ==== Sys2Proof/Laws/Memory.lean ====
section
/-! SUPPORT. Every memory operation keeps the canonical form (`Memory.wf`), unit by unit, and the reset state has it. -/

namespace Sys2Proof.Machine

open Sys2Proof

/-! ### The form taken apart -/

theorem MatchFinder.wf_iff {m : MatchFinder} : m.wf = true ↔ sparseWf treeDefault 0 4097 m.lson = true ∧
    sparseWf treeDefault 0 4353 m.rson = true ∧ sparseWf treeDefault 0 4097 m.dad = true := by
  simp [MatchFinder.wf, and_assoc]

theorem Huffman.wf_iff {h : Huffman} : h.wf = true ↔ sparseWf freqDefault 0 628 h.freq = true ∧
    sparseWf sonDefault 0 627 h.son = true ∧ sparseWf prntDefault 0 941 h.prnt = true := by
  simp [Huffman.wf, and_assoc]

theorem memory_wf_iff {s : State} : Memory.wf s = true ↔ sparseWf bufferDefault 0 (2 ^ 64) s.inBuf = true ∧
    sparseWf bufferDefault 0 (2 ^ 64) s.outBuf = true ∧ sparseWf windowDefault 0 4155 s.textBuf = true ∧
    s.mf.wf = true ∧ s.huff.wf = true := by
  simp [Memory.wf, and_assoc]

theorem reset_memory_wf : Memory.wf State.reset = true := by decide

/-- The form looks at the buffers, the window and the trees only. -/
theorem memory_wf_congr {s t : State} (h1 : t.inBuf = s.inBuf) (h2 : t.outBuf = s.outBuf) (h3 : t.textBuf = s.textBuf)
    (h4 : t.mf = s.mf) (h5 : t.huff = s.huff) : Memory.wf t = Memory.wf s := by
  simp only [Memory.wf, h1, h2, h3, h4, h5]

/-! ### The window and the buffers -/

theorem winPut_wf {i : Nat} {v : Byte} {tb : List Host.Cell} (w : sparseWf windowDefault 0 4155 tb = true)
    (h : i < 4155) : sparseWf windowDefault 0 4155 (winPut i v tb) = true :=
  sparseWf_sparseSet w (Nat.zero_le i) h

theorem winWrite_wf {i : Nat} {v : Byte} {tb : List Host.Cell} (w : sparseWf windowDefault 0 4155 tb = true)
    (h : i < 4096) : sparseWf windowDefault 0 4155 (winWrite i v tb) = true := by
  have w1 := winPut_wf (v := v) w (show i < 4155 by omega)
  simp only [winWrite]
  split_ifs with hi
  · exact winPut_wf w1 (by simp only [Config.F, Config.N] at *; omega)
  · exact w1

theorem winFill_wf {tb : List Host.Cell} (w : sparseWf windowDefault 0 4155 tb = true) :
    sparseWf windowDefault 0 4155 (winFill tb) = true :=
  forUp_inv (P := fun t => sparseWf windowDefault 0 4155 t = true)
    (fun _ _ _ h2 ht => winPut_wf ht (by simpa [Config.WBUF_LEN] using h2)) w

theorem outAppend_memory_wf {v : Byte} {s : State} (w : Memory.wf s = true) : Memory.wf (outAppend v s) = true := by
  rw [memory_wf_iff] at w ⊢
  exact ⟨w.1, sparseWf_sparseSet w.2.1 (Nat.zero_le _) s.outLen.isLt, w.2.2⟩

theorem outWriteNext_memory_wf {v : Byte} {s : State} (w : Memory.wf s = true) :
    Memory.wf (outWriteNext v s) = true := by
  rw [memory_wf_iff] at w ⊢
  refine ⟨w.1, sparseWf_sparseSet w.2.1 (Nat.zero_le _) ?_, w.2.2⟩
  exact Nat.lt_of_lt_of_le s.dec.outCnt.isLt (by decide)

theorem clearResults_memory_wf {s : State} (w : Memory.wf s = true) : Memory.wf (clearResults s) = true := by
  rw [memory_wf_iff] at w ⊢
  exact ⟨w.1, rfl, w.2.2⟩

/-! ### The bit channel and the position coder -/

theorem putBit_memory_wf {b : Bool} {s : State} (w : Memory.wf s = true) : Memory.wf (putBit b s) = true := by
  simp only [putBit]
  split_ifs
  · exact outAppend_memory_wf w
  · exact w

theorem putCode_memory_wf {l : Nat} {v : BitVec 32} {s : State} (w : Memory.wf s = true) :
    Memory.wf (putCode l v s) = true :=
  forUp_inv (P := fun t => Memory.wf t = true) (fun _ _ _ _ ht => putBit_memory_wf ht) w

theorem flushBits_memory_wf {s : State} (w : Memory.wf s = true) : Memory.wf (flushBits s) = true := by
  simp only [flushBits]
  split_ifs
  · exact outAppend_memory_wf w
  · exact w

theorem encodePosition_memory_wf {P : PosTable} {o : BitVec 12} {s : State} (w : Memory.wf s = true) :
    Memory.wf (encodePosition o s P) = true :=
  putCode_memory_wf (putCode_memory_wf w)

theorem getBit_memory_wf {s : State} : Memory.wf (getBit s).2 = Memory.wf s := by
  simp only [Memory.wf, getBit]

theorem getBits_memory_wf {n : Nat} {v : BitVec 8} {s : State} : Memory.wf (getBits n v s).2 = Memory.wf s := by
  induction n generalizing v s with
  | zero => rfl
  | succ n ih => exact ih

theorem moreBits_memory_wf {n : Nat} {v : BitVec 16} {s : State} : Memory.wf (moreBits n v s).2 = Memory.wf s := by
  induction n generalizing v s with
  | zero => rfl
  | succ n ih => exact ih

theorem decodePosition_memory_wf {P : PosTable} {s : State} : Memory.wf (decodePosition s P).2 = Memory.wf s :=
  moreBits_memory_wf.trans getBits_memory_wf

/-! ### The match finder -/

theorem setLson_wf {i : Nat} {v : Idx} {m m' : MatchFinder} (w : m.wf = true) (h : setLson i v m = .ok m') :
    m'.wf = true := by
  unfold setLson at h
  split_ifs at h with hi
  cases h
  rw [MatchFinder.wf_iff] at w ⊢
  exact ⟨sparseWf_sparseSet w.1 (Nat.zero_le i) (by simp only [Config.N] at hi; omega), w.2⟩

theorem setRson_wf {i : Nat} {v : Idx} {m m' : MatchFinder} (w : m.wf = true) (h : setRson i v m = .ok m') :
    m'.wf = true := by
  unfold setRson at h
  split_ifs at h with hi
  cases h
  rw [MatchFinder.wf_iff] at w ⊢
  exact ⟨w.1, sparseWf_sparseSet w.2.1 (Nat.zero_le i) (by simp only [Config.N] at hi; omega), w.2.2⟩

theorem setDad_wf {i : Nat} {v : Idx} {m m' : MatchFinder} (w : m.wf = true) (h : setDad i v m = .ok m') :
    m'.wf = true := by
  unfold setDad at h
  split_ifs at h with hi
  cases h
  rw [MatchFinder.wf_iff] at w ⊢
  exact ⟨w.1, w.2.1, sparseWf_sparseSet w.2.2 (Nat.zero_le i) (by simp only [Config.N] at hi; omega)⟩

/-- A run of plain writes in range keeps the form. -/
theorem forUp_sparseSet_wf {α : Type} [DecidableEq α] {d : Nat → α} {hi : Nat} {v : α} {n i : Nat} {t : List (Nat × α)}
    (h : i + n ≤ hi) (w : sparseWf d 0 hi t = true) :
    sparseWf d 0 hi (forUp (fun j t => sparseSet d t j v) n i t) = true :=
  forUp_inv (P := fun t => sparseWf d 0 hi t = true)
    (fun j _ _ h2 ht => sparseWf_sparseSet ht (Nat.zero_le j) (by omega)) w

theorem initTree_wf {m : MatchFinder} (w : m.wf = true) : (initTree m).wf = true := by
  rw [MatchFinder.wf_iff] at w ⊢
  simp only [initTree]
  refine ⟨w.1, ?_, ?_⟩
  · exact forUp_sparseSet_wf (n := 256) (i := 4097) (by omega) w.2.1
  · exact forUp_sparseSet_wf (n := Config.N) (i := 0) (by decide) w.2.2

theorem noteCandidate_wf {o : BitVec 12} {i : Nat} {m : MatchFinder} : (noteCandidate o i m).wf = m.wf := by
  unfold noteCandidate
  split_ifs <;> rfl

theorem insertWalk_wf {tb : List Host.Cell} {r : BitVec 12} {fuel : Nat} {cmp : Int} {p : Idx} {m m' : MatchFinder}
    {site : InsertSite} (w : m.wf = true) (h : insertWalk tb r fuel cmp p m = .ok (site, m')) : m'.wf = true := by
  induction fuel generalizing cmp p m with
  | zero => simp [insertWalk] at h
  | succ n ih =>
    unfold insertWalk at h
    obtain ⟨child, -, h⟩ := bind_eq_ok.1 h
    split_ifs at h
    · cases h; exact w
    · cases h; exact w
    · obtain ⟨⟨cmp', i⟩, -, h⟩ := bind_eq_ok.1 h
      simp only at h
      split_ifs at h
      · cases h; exact noteCandidate_wf.trans w
      · exact ih (noteCandidate_wf.trans w) h

theorem matchLength_wf {l : BitVec 6} {m : MatchFinder} : MatchFinder.wf { m with matchLength := l } = m.wf := rfl

theorem clearNode_wf {r : Idx} {m m' : MatchFinder} (w : m.wf = true) (h : clearNode r m = .ok m') :
    m'.wf = true := by
  unfold clearNode at h
  obtain ⟨m1, h1, h⟩ := bind_eq_ok.1 h
  obtain ⟨m2, h2, h⟩ := bind_eq_ok.1 h
  rw [← Except.ok.inj h]
  exact matchLength_wf.trans (setLson_wf (setRson_wf w h1) h2)

theorem hangInPlace_wf {q p x : Idx} {m m' : MatchFinder} (w : m.wf = true) (h : hangInPlace q p x m = .ok m') :
    m'.wf = true := by
  unfold hangInPlace at h
  obtain ⟨c, -, h⟩ := bind_eq_ok.1 h
  split_ifs at h
  · exact setRson_wf w h
  · exact setLson_wf w h

theorem replaceNode_wf {r p : Idx} {m m' : MatchFinder} (w : m.wf = true) (h : replaceNode r p m = .ok m') :
    m'.wf = true := by
  unfold replaceNode at h
  obtain ⟨d, -, h⟩ := bind_eq_ok.1 h
  obtain ⟨m1, h1, h⟩ := bind_eq_ok.1 h
  obtain ⟨l, -, h⟩ := bind_eq_ok.1 h
  obtain ⟨m2, h2, h⟩ := bind_eq_ok.1 h
  obtain ⟨r', -, h⟩ := bind_eq_ok.1 h
  obtain ⟨m3, h3, h⟩ := bind_eq_ok.1 h
  obtain ⟨l', -, h⟩ := bind_eq_ok.1 h
  obtain ⟨m4, h4, h⟩ := bind_eq_ok.1 h
  obtain ⟨r'', -, h⟩ := bind_eq_ok.1 h
  obtain ⟨m5, h5, h⟩ := bind_eq_ok.1 h
  obtain ⟨q, -, h⟩ := bind_eq_ok.1 h
  obtain ⟨m6, h6, h⟩ := bind_eq_ok.1 h
  have w5 := setDad_wf (setDad_wf (setRson_wf (setLson_wf (setDad_wf w h1) h2) h3) h4) h5
  exact setDad_wf (hangInPlace_wf w5 h6) h

theorem linkAt_wf {r : Idx} {site : InsertSite} {m m' : MatchFinder} (w : m.wf = true)
    (h : linkAt r site m = .ok m') : m'.wf = true := by
  cases site with
  | rightOf p =>
    obtain ⟨m1, h1, h⟩ := bind_eq_ok.1 h
    exact setDad_wf (setRson_wf w h1) h
  | leftOf p =>
    obtain ⟨m1, h1, h⟩ := bind_eq_ok.1 h
    exact setDad_wf (setLson_wf w h1) h
  | replaces p => exact replaceNode_wf w h

theorem insertNode_wf {tb : List Host.Cell} {r : BitVec 12} {m m' : MatchFinder} (w : m.wf = true)
    (h : insertNode tb r m = .ok m') : m'.wf = true := by
  unfold insertNode at h
  obtain ⟨b, -, h⟩ := bind_eq_ok.1 h
  obtain ⟨m1, h1, h⟩ := bind_eq_ok.1 h
  obtain ⟨⟨site, m2⟩, h2, h⟩ := bind_eq_ok.1 h
  exact linkAt_wf (insertWalk_wf (clearNode_wf w h1) h2) h

theorem detachPredecessor_wf {p q0 q : Idx} {m m' : MatchFinder} (w : m.wf = true)
    (h : detachPredecessor p q0 m = .ok (q, m')) : m'.wf = true := by
  unfold detachPredecessor at h
  obtain ⟨c, -, h⟩ := bind_eq_ok.1 h
  split_ifs at h
  · cases h; exact w
  · obtain ⟨q2, -, h⟩ := bind_eq_ok.1 h
    obtain ⟨d, -, h⟩ := bind_eq_ok.1 h
    obtain ⟨l, -, h⟩ := bind_eq_ok.1 h
    obtain ⟨m2, h2, h⟩ := bind_eq_ok.1 h
    obtain ⟨l', -, h⟩ := bind_eq_ok.1 h
    obtain ⟨d', -, h⟩ := bind_eq_ok.1 h
    obtain ⟨m3, h3, h⟩ := bind_eq_ok.1 h
    obtain ⟨l2, -, h⟩ := bind_eq_ok.1 h
    obtain ⟨m4, h4, h⟩ := bind_eq_ok.1 h
    obtain ⟨l3, -, h⟩ := bind_eq_ok.1 h
    obtain ⟨m5, h5, h⟩ := bind_eq_ok.1 h
    cases h
    exact setDad_wf (setLson_wf (setDad_wf (setRson_wf w h2) h3) h4) h5

theorem hangPredecessor_wf {p q : Idx} {m m' : MatchFinder} (w : m.wf = true)
    (h : hangPredecessor p m = .ok (q, m')) : m'.wf = true := by
  unfold hangPredecessor at h
  obtain ⟨q0, -, h⟩ := bind_eq_ok.1 h
  obtain ⟨⟨q1, m₁⟩, h1, h⟩ := bind_eq_ok.1 h
  obtain ⟨c, -, h⟩ := bind_eq_ok.1 h
  obtain ⟨m2, h2, h⟩ := bind_eq_ok.1 h
  obtain ⟨c', -, h⟩ := bind_eq_ok.1 h
  obtain ⟨m3, h3, h⟩ := bind_eq_ok.1 h
  cases h
  exact setDad_wf (setRson_wf (detachPredecessor_wf w h1) h2) h3

theorem replacement_wf {p q : Idx} {m m' : MatchFinder} (w : m.wf = true) (h : replacement p m = .ok (q, m')) :
    m'.wf = true := by
  unfold replacement at h
  obtain ⟨l, -, h⟩ := bind_eq_ok.1 h
  obtain ⟨r, -, h⟩ := bind_eq_ok.1 h
  split_ifs at h
  · cases h; exact w
  · cases h; exact w
  · exact hangPredecessor_wf w h

theorem spliceOut_wf {p q : Idx} {m m' : MatchFinder} (w : m.wf = true) (h : spliceOut p q m = .ok m') :
    m'.wf = true := by
  unfold spliceOut at h
  obtain ⟨d, -, h⟩ := bind_eq_ok.1 h
  obtain ⟨m1, h1, h⟩ := bind_eq_ok.1 h
  obtain ⟨d', -, h⟩ := bind_eq_ok.1 h
  obtain ⟨m2, h2, h⟩ := bind_eq_ok.1 h
  exact setDad_wf (hangInPlace_wf (setDad_wf w h1) h2) h

theorem deleteNode_wf {p : BitVec 12} {m m' : MatchFinder} (w : m.wf = true) (h : deleteNode p m = .ok m') :
    m'.wf = true := by
  unfold deleteNode at h
  obtain ⟨d, -, h⟩ := bind_eq_ok.1 h
  split_ifs at h
  · cases h; exact w
  · obtain ⟨⟨q, m₁⟩, h1, h⟩ := bind_eq_ok.1 h
    exact spliceOut_wf (replacement_wf w h1) h

theorem insertAt_memory_wf {r : BitVec 12} {s t : State} (w : Memory.wf s = true) (h : insertAt r s = .ok t) :
    Memory.wf t = true := by
  obtain ⟨m, h1, h⟩ := bind_eq_ok.1 h
  cases h
  rw [memory_wf_iff] at w ⊢
  exact ⟨w.1, w.2.1, w.2.2.1, insertNode_wf w.2.2.2.1 h1, w.2.2.2.2⟩

theorem deleteAt_memory_wf {p : BitVec 12} {s t : State} (w : Memory.wf s = true) (h : deleteAt p s = .ok t) :
    Memory.wf t = true := by
  obtain ⟨m, h1, h⟩ := bind_eq_ok.1 h
  cases h
  rw [memory_wf_iff] at w ⊢
  exact ⟨w.1, w.2.1, w.2.2.1, deleteNode_wf w.2.2.2.1 h1, w.2.2.2.2⟩

/-! ### The Huffman tree -/

theorem setFreq_wf {i : Nat} {f : BitVec 16} {h : Huffman} (w : h.wf = true) (hi : i < 628) :
    (setFreq i f h).wf = true := by
  rw [Huffman.wf_iff] at w ⊢
  exact ⟨sparseWf_sparseSet w.1 (Nat.zero_le i) hi, w.2⟩

theorem setSon_wf {i v : Nat} {h : Huffman} (w : h.wf = true) (hi : i < 627) : (setSon i v h).wf = true := by
  rw [Huffman.wf_iff] at w ⊢
  exact ⟨w.1, sparseWf_sparseSet w.2.1 (Nat.zero_le i) hi, w.2.2⟩

theorem setPrnt_wf {i v : Nat} {h : Huffman} (w : h.wf = true) (hi : i < 941) : (setPrnt i v h).wf = true := by
  rw [Huffman.wf_iff] at w ⊢
  exact ⟨w.1, w.2.1, sparseWf_sparseSet w.2.2 (Nat.zero_le i) hi⟩

theorem adopt_wf {k : SonVal} {v : Nat} {h : Huffman} (w : h.wf = true) : (adopt k v h).wf = true := by
  have hk := k.isLt
  unfold adopt
  split_ifs with hT
  · exact setPrnt_wf (setPrnt_wf w hk) (by simp only [Config.T] at hT; omega)
  · exact setPrnt_wf w hk

theorem startLeaf_wf {i : Nat} {h : Huffman} (hi : i < 314) (w : h.wf = true) : (startLeaf i h).wf = true :=
  setPrnt_wf (setSon_wf (setFreq_wf w (by omega)) (by omega)) (by simp only [Config.T]; omega)

theorem startInternal_wf {j : Nat} {h : Huffman} (hj : j < 627) (w : h.wf = true) : (startInternal j h).wf = true :=
  setPrnt_wf (setPrnt_wf (setSon_wf (setFreq_wf w (by omega)) hj) (by simp only [Config.N_CHAR]; omega))
    (by simp only [Config.N_CHAR]; omega)

theorem startHuff_wf {h : Huffman} (w : h.wf = true) : (startHuff h).wf = true := by
  unfold startHuff
  refine setPrnt_wf (setFreq_wf ?_ (by decide)) (by decide)
  refine forUp_inv (P := fun h => Huffman.wf h = true) (fun j g _ h2 w => startInternal_wf ?_ w) ?_
  · simp only [Config.N_CHAR, Config.T] at h2; omega
  · refine forUp_inv (P := fun h => Huffman.wf h = true) (fun i g _ h2 w => startLeaf_wf ?_ w) w
    simp only [Config.N_CHAR] at h2; omega

theorem collectLeaves_wf {n i : Nat} {jh : Nat × Huffman} (hn : i + n ≤ 627) (hj : jh.1 ≤ i) (w : jh.2.wf = true) :
    (forUp collectLeaf n i jh).2.wf = true := by
  induction n generalizing i jh with
  | zero => exact w
  | succ n ih =>
    refine ih (i := i + 1) (jh := collectLeaf i jh) (by omega) ?_ ?_
    · unfold collectLeaf; split_ifs <;> omega
    · unfold collectLeaf
      split_ifs
      · exact setSon_wf (setFreq_wf w (by omega)) (by omega)
      · exact w

theorem insertionIndex_le {h : Huffman} {f k : Nat} : insertionIndex h f k ≤ k := by
  induction k with
  | zero => simp [insertionIndex]
  | succ k ih => unfold insertionIndex; split_ifs <;> omega

theorem shiftUp_wf {n j : Nat} {h : Huffman} (hj : j < 627) (w : h.wf = true) : (shiftUp n j h).wf = true := by
  induction n generalizing j h with
  | zero => exact w
  | succ n ih => exact ih (by omega) (setSon_wf (setFreq_wf w (by omega)) hj)

theorem insertInternal_wf {j : Nat} {h : Huffman} (hj : j < 627) (w : h.wf = true) :
    (insertInternal j h).wf = true := by
  have hk := insertionIndex_le (h := h)
    (f := (freqAt h (2 * (j - Config.N_CHAR))).toNat + (freqAt h (2 * (j - Config.N_CHAR) + 1)).toNat) (k := j)
  exact setSon_wf (setFreq_wf (shiftUp_wf hj w) (by omega)) (by omega)

theorem reconst_wf {h : Huffman} (w : h.wf = true) : (reconst h).wf = true := by
  unfold reconst
  refine forUp_inv (P := fun h => Huffman.wf h = true) (fun _ _ _ _ w => adopt_wf w) ?_
  refine forUp_inv (P := fun h => Huffman.wf h = true) (fun j g _ h2 w => insertInternal_wf ?_ w) ?_
  · simp only [Config.N_CHAR, Config.T] at h2; omega
  · exact collectLeaves_wf (jh := (0, h)) (by decide) (Nat.le_refl 0) w

theorem scanUp_lt {h : Huffman} {k : BitVec 16} {fuel l l' : Nat} (e : scanUp h k fuel l = .ok l') : l' < 627 := by
  induction fuel generalizing l with
  | zero => simp [scanUp] at e
  | succ n ih =>
    unfold scanUp at e
    split_ifs at e with h1 h2
    · exact ih e
    · cases e; simp only [Config.T] at h1; omega

theorem exchange_wf {c l : Nat} {k : BitVec 16} {h : Huffman} (hc : c < 627) (hl : l < 627) (w : h.wf = true) :
    (exchange c l k h).wf = true :=
  setSon_wf (adopt_wf (setSon_wf (adopt_wf (setFreq_wf (setFreq_wf w (by omega)) (by omega))) hl)) hc

theorem bump_wf {c l : Nat} {h h' : Huffman} (hc : c < 627) (w : h.wf = true) (e : bump c h = .ok (l, h')) :
    h'.wf = true := by
  unfold bump at e
  simp only at e
  split_ifs at e
  · obtain ⟨l', e1, e⟩ := bind_eq_ok.1 e
    cases e
    exact exchange_wf hc (scanUp_lt e1) (setFreq_wf w (by omega))
  · cases e; exact setFreq_wf w (by omega)

theorem climb_wf {fuel c : Nat} {h h' : Huffman} (hc : c < 627) (w : h.wf = true) (e : climb fuel c h = .ok h') :
    h'.wf = true := by
  induction fuel generalizing c h with
  | zero => simp [climb] at e
  | succ n ih =>
    obtain ⟨⟨l, g⟩, e1, e⟩ := bind_eq_ok.1 (by simpa only [climb] using e)
    have w1 := bump_wf hc w e1
    simp only at e
    split_ifs at e
    · cases e; exact w1
    · exact ih (prntAt g l).isLt w1 e

theorem update_wf {c : Nat} {h h' : Huffman} (w : h.wf = true) (e : update c h = .ok h') : h'.wf = true := by
  unfold update at e
  refine climb_wf (prntAt _ _).isLt ?_ e
  split_ifs
  · exact reconst_wf w
  · exact w

theorem setHuff_memory_wf {h : Huffman} {s : State} (w : Memory.wf s = true) (wh : h.wf = true) :
    Memory.wf (setHuff h s) = true := by
  rw [memory_wf_iff] at w ⊢
  exact ⟨w.1, w.2.1, w.2.2.1, w.2.2.2.1, wh⟩

theorem setMf_memory_wf {m : MatchFinder} {s : State} (w : Memory.wf s = true) (wm : m.wf = true) :
    Memory.wf (setMf m s) = true := by
  rw [memory_wf_iff] at w ⊢
  exact ⟨w.1, w.2.1, w.2.2.1, wm, w.2.2.2.2⟩

theorem encodeChar_memory_wf {c : Nat} {s t : State} (w : Memory.wf s = true) (e : encodeChar c s = .ok t) :
    Memory.wf t = true := by
  unfold encodeChar at e
  obtain ⟨⟨l, code⟩, -, e⟩ := bind_eq_ok.1 e
  obtain ⟨h, e1, e⟩ := bind_eq_ok.1 e
  cases e
  have w1 := putCode_memory_wf (l := l) (v := code) w
  exact setHuff_memory_wf w1 (update_wf (memory_wf_iff.1 w1).2.2.2.2 e1)

theorem decodeWalk_memory_wf {fuel c c' : Nat} {s t : State} (e : decodeWalk fuel c s = .ok (c', t)) :
    Memory.wf t = Memory.wf s := by
  induction fuel generalizing c s with
  | zero => simp [decodeWalk] at e
  | succ n ih =>
    unfold decodeWalk at e
    simp only at e
    split_ifs at e
    · exact (ih e).trans getBit_memory_wf
    · rw [(Prod.mk.inj (Except.ok.inj e)).2]

theorem decodeChar_memory_wf {c : Nat} {s t : State} (w : Memory.wf s = true) (e : decodeChar s = .ok (c, t)) :
    Memory.wf t = true := by
  unfold decodeChar at e
  obtain ⟨⟨c1, s1⟩, e1, e⟩ := bind_eq_ok.1 e
  obtain ⟨h, e2, e⟩ := bind_eq_ok.1 e
  cases e
  have w1 := (decodeWalk_memory_wf e1).trans w
  exact setHuff_memory_wf w1 (update_wf (memory_wf_iff.1 w1).2.2.2.2 e2)

end Sys2Proof.Machine
end

