-- ==== Sys2Proof/Laws/Commands.lean ====
section
/-! SUPPORT. The rows of the phase table and the stream elements keep the canonical form of the memory. -/

namespace Sys2Proof.Machine

open Sys2Proof

theorem foldl_outAppend_memory_wf {l : List Byte} {s : State} (w : Memory.wf s = true) :
    Memory.wf (l.foldl (fun t v => outAppend v t) s) = true := by
  induction l generalizing s with
  | nil => exact w
  | cons v l ih => exact ih (outAppend_memory_wf w)

theorem raiseFault_memory_wf {x : FaultCode} {i : BitVec 64} {s : State} : Memory.wf (raiseFault x i s) = Memory.wf s := by
  simp only [Memory.wf, raiseFault]

theorem setPhase_memory_wf {p : Phase} {s : State} : Memory.wf (setPhase p s) = Memory.wf s := by
  simp only [Memory.wf, setPhase]

theorem setEnc_memory_wf {e : EncodeRegs} {s : State} : Memory.wf (setEnc e s) = Memory.wf s := by
  simp only [Memory.wf, setEnc]

theorem setDec_memory_wf {d : DecodeRegs} {s : State} : Memory.wf (setDec d s) = Memory.wf s := by
  simp only [Memory.wf, setDec]

theorem stepEHdr_memory_wf {s : State} (w : Memory.wf s = true) : Memory.wf (stepEHdr s) = true := by
  have w1 := clearResults_memory_wf w
  simp only [stepEHdr]
  split_ifs
  · exact raiseFault_memory_wf.trans w1
  all_goals exact setPhase_memory_wf.trans (foldl_outAppend_memory_wf w1)

theorem preload_memory_wf {n : Nat} {s t : State} (w : Memory.wf s = true) (hr : s.r = Config.R0)
    (hl : s.enc.len.toNat + n ≤ 60) (e : preload n s = .ok t) : Memory.wf t = true := by
  induction n generalizing s with
  | zero => simp only [preload, Except.ok.injEq] at e; exact e ▸ w
  | succ n ih =>
    unfold preload at e
    split_ifs at e
    · obtain ⟨c, -, e⟩ := bind_eq_ok.1 e
      refine ih (s := preloadByte c s) ?_ hr ?_ e
      · rw [memory_wf_iff] at w ⊢
        refine ⟨w.1, w.2.1, winPut_wf w.2.2.1 ?_, w.2.2.2⟩
        have : s.r.toNat = 4036 := by rw [hr]; rfl
        omega
      · simp only [preloadByte_enc]; bv_omega
    · cases e; exact w

theorem wf_matchResult {l : BitVec 6} {p : BitVec 12} {m : MatchFinder} :
    MatchFinder.wf { m with matchLength := l, matchPosition := p } = m.wf := rfl

theorem stepEInit_memory_wf {s t : State} (w : Memory.wf s = true) (e : stepEInit s = .ok t) :
    Memory.wf t = true := by
  unfold stepEInit at e
  obtain ⟨s1, e1, e⟩ := bind_eq_ok.1 e
  rw [← Except.ok.inj e, setPhase_memory_wf]
  refine preload_memory_wf ?_ (initEncode_r s) (by simp [Config.F]) e1
  rw [memory_wf_iff] at w ⊢
  refine ⟨w.1, w.2.1, ?_, ?_, ?_⟩
  · rw [initEncode_textBuf]; exact winFill_wf w.2.2.1
  · rw [initEncode_mf, wf_matchResult (m := initTree s.mf)]; exact initTree_wf w.2.2.2.1
  · rw [initEncode_huff]; exact startHuff_wf w.2.2.2.2

theorem stepEPrime_memory_wf {s t : State} (w : Memory.wf s = true) (e : stepEPrime s = .ok t) :
    Memory.wf t = true := by
  unfold stepEPrime at e
  obtain ⟨s1, e1, e⟩ := bind_eq_ok.1 e
  obtain ⟨s2, e2, e⟩ := bind_eq_ok.1 e
  rw [← Except.ok.inj e, setPhase_memory_wf]
  exact insertAt_memory_wf
    (forUpM_inv (P := fun s => Memory.wf s = true) (fun _ _ _ _ _ w e => insertAt_memory_wf w e) w e1) e2

theorem emitToken_memory_wf {P : PosTable} {s t : State} (w : Memory.wf s = true) (e : emitToken s P = .ok t) : Memory.wf t = true := by
  unfold emitToken at e
  split_ifs at e
  · obtain ⟨b, -, e⟩ := bind_eq_ok.1 e
    exact encodeChar_memory_wf (setMf_memory_wf w (matchLength_wf.trans (memory_wf_iff.1 w).2.2.2.1)) e
  · obtain ⟨s1, e1, e⟩ := bind_eq_ok.1 e
    rw [← Except.ok.inj e]
    exact encodePosition_memory_wf (encodeChar_memory_wf w e1)

theorem clamp_memory_wf {s : State} (w : Memory.wf s = true) : Memory.wf (clamp s) = true := by
  unfold clamp
  split_ifs
  · exact setMf_memory_wf w (matchLength_wf.trans (memory_wf_iff.1 w).2.2.2.1)
  · exact w

theorem stepEEmit_memory_wf {P : PosTable} {s t : State} (w : Memory.wf s = true) (e : stepEEmit s P = .ok t) : Memory.wf t = true := by
  unfold stepEEmit at e
  obtain ⟨s1, e1, e⟩ := bind_eq_ok.1 e
  have w1 := emitToken_memory_wf (clamp_memory_wf w) e1
  rw [← Except.ok.inj e, setPhase_memory_wf, setEnc_memory_wf]
  exact w1

theorem stepEAdvIn_memory_wf {s t : State} (w : Memory.wf s = true) (e : stepEAdvIn s = .ok t) :
    Memory.wf t = true := by
  unfold stepEAdvIn at e
  obtain ⟨c, -, e⟩ := bind_eq_ok.1 e
  obtain ⟨s1, e1, e⟩ := bind_eq_ok.1 e
  obtain ⟨s2, e2, e⟩ := bind_eq_ok.1 e
  have w1 := memory_wf_iff.1 (deleteAt_memory_wf (setEnc_memory_wf.trans w) e1)
  have w2 : Memory.wf (slideIn c s1) = true :=
    memory_wf_iff.2 ⟨w1.1, w1.2.1, winWrite_wf w1.2.2.1 s1.enc.s.isLt, w1.2.2.2⟩
  rw [← Except.ok.inj e, setPhase_memory_wf, setEnc_memory_wf]
  exact insertAt_memory_wf w2 e2

theorem insertWhileAny_memory_wf {s t : State} (w : Memory.wf s = true) (e : insertWhileAny s = .ok t) :
    Memory.wf t = true := by
  unfold insertWhileAny at e
  split_ifs at e
  · exact insertAt_memory_wf w e
  · cases e; exact w

theorem stepEAdvDrain_memory_wf {s t : State} (w : Memory.wf s = true) (e : stepEAdvDrain s = .ok t) :
    Memory.wf t = true := by
  unfold stepEAdvDrain at e
  obtain ⟨s1, e1, e⟩ := bind_eq_ok.1 e
  obtain ⟨s2, e2, e⟩ := bind_eq_ok.1 e
  have w1 := deleteAt_memory_wf (setEnc_memory_wf.trans w) e1
  have w2 : Memory.wf (slideDrain s1) = true := memory_wf_iff.2 (memory_wf_iff.1 w1)
  rw [← Except.ok.inj e, setPhase_memory_wf]
  exact insertWhileAny_memory_wf w2 e2

theorem stepEFlush_memory_wf {s : State} (w : Memory.wf s = true) : Memory.wf (stepEFlush s) = true :=
  setPhase_memory_wf.trans (flushBits_memory_wf w)

theorem takeHeader_memory_wf {n : BitVec 32} {s : State} : Memory.wf (takeHeader n s) = Memory.wf s := by
  simp only [Memory.wf, takeHeader, setPhase, setDec]

theorem stepDHdr_memory_wf {s t : State} (w : Memory.wf s = true) (e : stepDHdr s = .ok t) : Memory.wf t = true := by
  have w1 := clearResults_memory_wf w
  unfold stepDHdr at e
  simp only at e
  split_ifs at e
  · rw [← Except.ok.inj e, raiseFault_memory_wf]; exact w1
  · obtain ⟨n, -, e⟩ := bind_eq_ok.1 e
    rw [← Except.ok.inj e, takeHeader_memory_wf]; exact w1

theorem stepDInit_memory_wf {s : State} (w : Memory.wf s = true) : Memory.wf (stepDInit s) = true := by
  rw [memory_wf_iff] at w ⊢
  refine ⟨w.1, w.2.1, ?_, w.2.2.2.1, ?_⟩
  · rw [stepDInit_textBuf]; exact winFill_wf w.2.2.1
  · rw [stepDInit_huff]; exact startHuff_wf w.2.2.2.2

theorem produceByte_memory_wf {c : Byte} {s : State} (w : Memory.wf s = true) : Memory.wf (produceByte c s) = true := by
  have w1 := memory_wf_iff.1 (outWriteNext_memory_wf (v := c) w)
  exact memory_wf_iff.2 ⟨w1.1, w1.2.1, winPut_wf w1.2.2.1 (Nat.lt_trans s.r.isLt (by decide)), w1.2.2.2⟩

theorem takeLiteral_memory_wf {s : State} (w : Memory.wf s = true) : Memory.wf (takeLiteral s) = true :=
  setPhase_memory_wf.trans (produceByte_memory_wf w)

theorem startCopy_memory_wf {o : BitVec 12} {s : State} : Memory.wf (startCopy o s) = Memory.wf s := by
  simp only [Memory.wf, startCopy, setPhase, setDec]

theorem setSym_memory_wf {c : Nat} {s : State} : Memory.wf (setSym c s) = Memory.wf s := by
  simp only [Memory.wf, setSym, setDec]

theorem stepDSymbol_memory_wf {P : PosTable} {s t : State} (w : Memory.wf s = true) (e : stepDSymbol s P = .ok t) :
    Memory.wf t = true := by
  unfold stepDSymbol at e
  obtain ⟨⟨c, s1⟩, e1, e⟩ := bind_eq_ok.1 e
  have w1 := setSym_memory_wf (c := c).trans (decodeChar_memory_wf w e1)
  simp only at e
  split_ifs at e
  · rw [← Except.ok.inj e]; exact takeLiteral_memory_wf w1
  · rw [← Except.ok.inj e, startCopy_memory_wf, decodePosition_memory_wf]; exact w1

theorem stepDCopy_memory_wf {s t : State} (w : Memory.wf s = true) (e : stepDCopy s = .ok t) : Memory.wf t = true := by
  unfold stepDCopy at e
  split_ifs at e
  · rw [← Except.ok.inj e, raiseFault_memory_wf]; exact w
  · obtain ⟨c, -, e⟩ := bind_eq_ok.1 e
    rw [← Except.ok.inj e, setPhase_memory_wf, copyByte, setDec_memory_wf]
    exact produceByte_memory_wf w

/-- Every row of the phase table keeps the canonical form. -/
theorem coreStep_memory_wf {P : PosTable} {s t : State} (w : Memory.wf s = true) (e : coreStep s P = .ok t) : Memory.wf t = true := by
  unfold coreStep at e
  split at e
  · exact Except.ok.inj e ▸ w
  · exact Except.ok.inj e ▸ w
  · exact Except.ok.inj e ▸ w
  · exact Except.ok.inj e ▸ stepEHdr_memory_wf w
  · exact stepEInit_memory_wf w e
  · exact stepEPrime_memory_wf w e
  · exact stepEEmit_memory_wf w e
  · exact stepEAdvIn_memory_wf w e
  · exact stepEAdvDrain_memory_wf w e
  · exact Except.ok.inj e ▸ stepEFlush_memory_wf w
  · exact stepDHdr_memory_wf w e
  · exact Except.ok.inj e ▸ stepDInit_memory_wf w
  · exact stepDSymbol_memory_wf w e
  · exact stepDCopy_memory_wf w e

/-- A whole command is its steps, over any property every step keeps. -/
theorem runCommand_inv {T : PosTable} {P : State → Prop} (hP : ∀ s t, P s → coreStep s T = .ok t → P t) {fuel : Nat}
    {s t : State} (h : P s) (e : runCommand fuel s T = .ok t) : P t := by
  induction fuel generalizing s with
  | zero =>
    unfold runCommand at e
    split_ifs at e
    exact Except.ok.inj e ▸ h
  | succ n ih =>
    unfold runCommand at e
    split_ifs at e
    · obtain ⟨s1, e1, e⟩ := bind_eq_ok.1 e
      exact ih (hP s s1 h e1) e
    · exact Except.ok.inj e ▸ h

theorem startCommand_memory_wf {p : Phase} {s : State} : Memory.wf (startCommand p s) = Memory.wf s := by
  unfold startCommand
  split_ifs
  · rfl
  · simp only [Memory.wf]

theorem wholeCommand_memory_wf {T : PosTable} {p : Phase} {s t : State} (w : Memory.wf s = true)
    (e : wholeCommand p s T = .ok t) :
    Memory.wf t = true := by
  unfold wholeCommand at e
  split_ifs at e
  · exact Except.ok.inj e ▸ w
  · exact runCommand_inv (P := fun s => Memory.wf s = true) (fun _ _ w e => coreStep_memory_wf w e)
      (startCommand_memory_wf.trans w) e

/-! ### The stream elements -/

theorem takeSymbolCode_memory_wf {c : Nat} {s t : State} (w : Memory.wf s = true) (e : takeSymbolCode c s = .ok t) :
    Memory.wf t = true := by
  unfold takeSymbolCode at e
  obtain ⟨⟨l, code⟩, -, e⟩ := bind_eq_ok.1 e
  obtain ⟨h, e1, e⟩ := bind_eq_ok.1 e
  rw [← Except.ok.inj e, setSym_memory_wf]
  exact setHuff_memory_wf ((memory_wf_congr rfl rfl rfl rfl rfl).trans w) (update_wf (memory_wf_iff.1 w).2.2.2.2 e1)

theorem copyAll_memory_wf {n : Nat} {s t : State} (w : Memory.wf s = true) (e : copyAll n s = .ok t) :
    Memory.wf t = true := by
  induction n generalizing s with
  | zero => simp only [copyAll, Except.ok.injEq] at e; exact e ▸ w
  | succ n ih =>
    unfold copyAll at e
    split_ifs at e
    · obtain ⟨s1, e1, e⟩ := bind_eq_ok.1 e
      exact ih (stepDCopy_memory_wf w e1) e
    · exact Except.ok.inj e ▸ w

theorem takePosCode_memory_wf {T : PosTable} {i : Nat} {low : BitVec 6} {s : State} :
    Memory.wf (takePosCode i low s T) = Memory.wf s := by
  simp only [Memory.wf, takePosCode, setRet, skipBits]

end Sys2Proof.Machine
end

