-- ==== Sys2Proof/Laws/PerInstr.lean ====
section
/-! SUPPORT. One lemma per constructor of `Instr`: the encoded word agrees with the row that spec/opcode_table.json gives the
instruction. -/

namespace Sys2Proof.Laws.TableRow

open Sys2Proof

set_option maxRecDepth 20000

/-- The first byte of the word has the row's `match` under the row's `mask`, and no word is longer than six bytes. -/
def Statement (i : Instr) : Prop :=
  (encode i).2.head?.map (fun b => b.toNat &&& (tableRow i).2) = some (tableRow i).1 ∧ (encode i).2.length ≤ 6

theorem posWord_row {i mask val : Nat}
    (h : ∀ low : BitVec 6, (posWord i low).head?.map (fun b => b.toNat &&& mask) = some val) (low : BitVec 6) :
    (posWord i low).head?.map (fun b => b.toNat &&& mask) = some val ∧ (posWord i low).length ≤ 6 :=
  ⟨h low, by simp [posWord]⟩

theorem initTree : Statement .initTree :=
  ⟨rfl, by decide⟩

theorem insertNode (r : BitVec 12) : Statement (.insertNode r) :=
  ⟨by simp [encode, tableRow], by simp [encode, bytes16]⟩

theorem deleteNode (p : BitVec 12) : Statement (.deleteNode p) :=
  ⟨by simp [encode, tableRow], by simp [encode, bytes16]⟩

theorem startHuff : Statement .startHuff :=
  ⟨rfl, by decide⟩

theorem update (c : BitVec 9) : Statement (.update c) :=
  ⟨by simp [encode, tableRow], by simp [encode, bytes16]⟩

theorem reconst : Statement .reconst :=
  ⟨rfl, by decide⟩

theorem encodeChar (c : BitVec 9) : Statement (.encodeChar c) :=
  ⟨by simp [encode, tableRow], by simp [encode, bytes16]⟩

theorem decodeChar : Statement .decodeChar :=
  ⟨rfl, by decide⟩

theorem encodePosition (o : BitVec 12) : Statement (.encodePosition o) :=
  ⟨by simp [encode, tableRow], by simp [encode, bytes16]⟩

theorem decodePosition : Statement .decodePosition :=
  ⟨rfl, by decide⟩

theorem putCode (l : BitVec 6) (v : BitVec 32) : Statement (.putCode l v) :=
  ⟨by simp [encode, tableRow], by simp [encode, bytes32]⟩

theorem flush : Statement .flush :=
  ⟨rfl, by decide⟩

theorem getBit : Statement .getBit :=
  ⟨rfl, by decide⟩

theorem getByte : Statement .getByte :=
  ⟨rfl, by decide⟩

theorem compress : Statement .compress :=
  ⟨rfl, by decide⟩

theorem decompress : Statement .decompress :=
  ⟨rfl, by decide⟩

theorem cmdCompress : Statement .cmdCompress :=
  ⟨rfl, by decide⟩

theorem cmdDecompress : Statement .cmdDecompress :=
  ⟨rfl, by decide⟩

theorem cmdReserved0 : Statement .cmdReserved0 :=
  ⟨rfl, by decide⟩

theorem cmdReserved3 : Statement .cmdReserved3 :=
  ⟨rfl, by decide⟩

theorem hdr (n : BitVec 32) : Statement (.hdr n) :=
  ⟨by simp [encode, tableRow, bytes32], by simp [encode, bytes32]⟩

theorem lit (b : Byte) : Statement (.lit b) :=
  ⟨by simp [encode, tableRow], by simp [encode]⟩

theorem matchTok (m : BitVec 6) (o : BitVec 12) : Statement (.matchTok m o) :=
  ⟨by simp [encode, tableRow], by simp [encode, bytes16]⟩

theorem pad (k : BitVec 3) : Statement (.pad k) :=
  ⟨by simp [encode, tableRow], by simp [encode]⟩

theorem poscode0 (low : BitVec 6) : Statement (.poscode0 low) :=
  posWord_row (val := 0x00) (mask := 0xE0) (by decide) low

theorem poscode1 (low : BitVec 6) : Statement (.poscode1 low) :=
  posWord_row (val := 0x20) (mask := 0xF0) (by decide) low

theorem poscode2 (low : BitVec 6) : Statement (.poscode2 low) :=
  posWord_row (val := 0x30) (mask := 0xF0) (by decide) low

theorem poscode3 (low : BitVec 6) : Statement (.poscode3 low) :=
  posWord_row (val := 0x40) (mask := 0xF0) (by decide) low

theorem poscode4 (low : BitVec 6) : Statement (.poscode4 low) :=
  posWord_row (val := 0x50) (mask := 0xF8) (by decide) low

theorem poscode5 (low : BitVec 6) : Statement (.poscode5 low) :=
  posWord_row (val := 0x58) (mask := 0xF8) (by decide) low

theorem poscode6 (low : BitVec 6) : Statement (.poscode6 low) :=
  posWord_row (val := 0x60) (mask := 0xF8) (by decide) low

theorem poscode7 (low : BitVec 6) : Statement (.poscode7 low) :=
  posWord_row (val := 0x68) (mask := 0xF8) (by decide) low

theorem poscode8 (low : BitVec 6) : Statement (.poscode8 low) :=
  posWord_row (val := 0x70) (mask := 0xF8) (by decide) low

theorem poscode9 (low : BitVec 6) : Statement (.poscode9 low) :=
  posWord_row (val := 0x78) (mask := 0xF8) (by decide) low

theorem poscode10 (low : BitVec 6) : Statement (.poscode10 low) :=
  posWord_row (val := 0x80) (mask := 0xF8) (by decide) low

theorem poscode11 (low : BitVec 6) : Statement (.poscode11 low) :=
  posWord_row (val := 0x88) (mask := 0xF8) (by decide) low

theorem poscode12 (low : BitVec 6) : Statement (.poscode12 low) :=
  posWord_row (val := 0x90) (mask := 0xFC) (by decide) low

theorem poscode13 (low : BitVec 6) : Statement (.poscode13 low) :=
  posWord_row (val := 0x94) (mask := 0xFC) (by decide) low

theorem poscode14 (low : BitVec 6) : Statement (.poscode14 low) :=
  posWord_row (val := 0x98) (mask := 0xFC) (by decide) low

theorem poscode15 (low : BitVec 6) : Statement (.poscode15 low) :=
  posWord_row (val := 0x9C) (mask := 0xFC) (by decide) low

theorem poscode16 (low : BitVec 6) : Statement (.poscode16 low) :=
  posWord_row (val := 0xA0) (mask := 0xFC) (by decide) low

theorem poscode17 (low : BitVec 6) : Statement (.poscode17 low) :=
  posWord_row (val := 0xA4) (mask := 0xFC) (by decide) low

theorem poscode18 (low : BitVec 6) : Statement (.poscode18 low) :=
  posWord_row (val := 0xA8) (mask := 0xFC) (by decide) low

theorem poscode19 (low : BitVec 6) : Statement (.poscode19 low) :=
  posWord_row (val := 0xAC) (mask := 0xFC) (by decide) low

theorem poscode20 (low : BitVec 6) : Statement (.poscode20 low) :=
  posWord_row (val := 0xB0) (mask := 0xFC) (by decide) low

theorem poscode21 (low : BitVec 6) : Statement (.poscode21 low) :=
  posWord_row (val := 0xB4) (mask := 0xFC) (by decide) low

theorem poscode22 (low : BitVec 6) : Statement (.poscode22 low) :=
  posWord_row (val := 0xB8) (mask := 0xFC) (by decide) low

theorem poscode23 (low : BitVec 6) : Statement (.poscode23 low) :=
  posWord_row (val := 0xBC) (mask := 0xFC) (by decide) low

theorem poscode24 (low : BitVec 6) : Statement (.poscode24 low) :=
  posWord_row (val := 0xC0) (mask := 0xFE) (by decide) low

theorem poscode25 (low : BitVec 6) : Statement (.poscode25 low) :=
  posWord_row (val := 0xC2) (mask := 0xFE) (by decide) low

theorem poscode26 (low : BitVec 6) : Statement (.poscode26 low) :=
  posWord_row (val := 0xC4) (mask := 0xFE) (by decide) low

theorem poscode27 (low : BitVec 6) : Statement (.poscode27 low) :=
  posWord_row (val := 0xC6) (mask := 0xFE) (by decide) low

theorem poscode28 (low : BitVec 6) : Statement (.poscode28 low) :=
  posWord_row (val := 0xC8) (mask := 0xFE) (by decide) low

theorem poscode29 (low : BitVec 6) : Statement (.poscode29 low) :=
  posWord_row (val := 0xCA) (mask := 0xFE) (by decide) low

theorem poscode30 (low : BitVec 6) : Statement (.poscode30 low) :=
  posWord_row (val := 0xCC) (mask := 0xFE) (by decide) low

theorem poscode31 (low : BitVec 6) : Statement (.poscode31 low) :=
  posWord_row (val := 0xCE) (mask := 0xFE) (by decide) low

theorem poscode32 (low : BitVec 6) : Statement (.poscode32 low) :=
  posWord_row (val := 0xD0) (mask := 0xFE) (by decide) low

theorem poscode33 (low : BitVec 6) : Statement (.poscode33 low) :=
  posWord_row (val := 0xD2) (mask := 0xFE) (by decide) low

theorem poscode34 (low : BitVec 6) : Statement (.poscode34 low) :=
  posWord_row (val := 0xD4) (mask := 0xFE) (by decide) low

theorem poscode35 (low : BitVec 6) : Statement (.poscode35 low) :=
  posWord_row (val := 0xD6) (mask := 0xFE) (by decide) low

theorem poscode36 (low : BitVec 6) : Statement (.poscode36 low) :=
  posWord_row (val := 0xD8) (mask := 0xFE) (by decide) low

theorem poscode37 (low : BitVec 6) : Statement (.poscode37 low) :=
  posWord_row (val := 0xDA) (mask := 0xFE) (by decide) low

theorem poscode38 (low : BitVec 6) : Statement (.poscode38 low) :=
  posWord_row (val := 0xDC) (mask := 0xFE) (by decide) low

theorem poscode39 (low : BitVec 6) : Statement (.poscode39 low) :=
  posWord_row (val := 0xDE) (mask := 0xFE) (by decide) low

theorem poscode40 (low : BitVec 6) : Statement (.poscode40 low) :=
  posWord_row (val := 0xE0) (mask := 0xFE) (by decide) low

theorem poscode41 (low : BitVec 6) : Statement (.poscode41 low) :=
  posWord_row (val := 0xE2) (mask := 0xFE) (by decide) low

theorem poscode42 (low : BitVec 6) : Statement (.poscode42 low) :=
  posWord_row (val := 0xE4) (mask := 0xFE) (by decide) low

theorem poscode43 (low : BitVec 6) : Statement (.poscode43 low) :=
  posWord_row (val := 0xE6) (mask := 0xFE) (by decide) low

theorem poscode44 (low : BitVec 6) : Statement (.poscode44 low) :=
  posWord_row (val := 0xE8) (mask := 0xFE) (by decide) low

theorem poscode45 (low : BitVec 6) : Statement (.poscode45 low) :=
  posWord_row (val := 0xEA) (mask := 0xFE) (by decide) low

theorem poscode46 (low : BitVec 6) : Statement (.poscode46 low) :=
  posWord_row (val := 0xEC) (mask := 0xFE) (by decide) low

theorem poscode47 (low : BitVec 6) : Statement (.poscode47 low) :=
  posWord_row (val := 0xEE) (mask := 0xFE) (by decide) low

theorem poscode48 (low : BitVec 6) : Statement (.poscode48 low) :=
  posWord_row (val := 0xF0) (mask := 0xFF) (by decide) low

theorem poscode49 (low : BitVec 6) : Statement (.poscode49 low) :=
  posWord_row (val := 0xF1) (mask := 0xFF) (by decide) low

theorem poscode50 (low : BitVec 6) : Statement (.poscode50 low) :=
  posWord_row (val := 0xF2) (mask := 0xFF) (by decide) low

theorem poscode51 (low : BitVec 6) : Statement (.poscode51 low) :=
  posWord_row (val := 0xF3) (mask := 0xFF) (by decide) low

theorem poscode52 (low : BitVec 6) : Statement (.poscode52 low) :=
  posWord_row (val := 0xF4) (mask := 0xFF) (by decide) low

theorem poscode53 (low : BitVec 6) : Statement (.poscode53 low) :=
  posWord_row (val := 0xF5) (mask := 0xFF) (by decide) low

theorem poscode54 (low : BitVec 6) : Statement (.poscode54 low) :=
  posWord_row (val := 0xF6) (mask := 0xFF) (by decide) low

theorem poscode55 (low : BitVec 6) : Statement (.poscode55 low) :=
  posWord_row (val := 0xF7) (mask := 0xFF) (by decide) low

theorem poscode56 (low : BitVec 6) : Statement (.poscode56 low) :=
  posWord_row (val := 0xF8) (mask := 0xFF) (by decide) low

theorem poscode57 (low : BitVec 6) : Statement (.poscode57 low) :=
  posWord_row (val := 0xF9) (mask := 0xFF) (by decide) low

theorem poscode58 (low : BitVec 6) : Statement (.poscode58 low) :=
  posWord_row (val := 0xFA) (mask := 0xFF) (by decide) low

theorem poscode59 (low : BitVec 6) : Statement (.poscode59 low) :=
  posWord_row (val := 0xFB) (mask := 0xFF) (by decide) low

theorem poscode60 (low : BitVec 6) : Statement (.poscode60 low) :=
  posWord_row (val := 0xFC) (mask := 0xFF) (by decide) low

theorem poscode61 (low : BitVec 6) : Statement (.poscode61 low) :=
  posWord_row (val := 0xFD) (mask := 0xFF) (by decide) low

theorem poscode62 (low : BitVec 6) : Statement (.poscode62 low) :=
  posWord_row (val := 0xFE) (mask := 0xFF) (by decide) low

theorem poscode63 (low : BitVec 6) : Statement (.poscode63 low) :=
  posWord_row (val := 0xFF) (mask := 0xFF) (by decide) low

theorem lookup (b : Byte) : Statement (.lookup b) :=
  ⟨by simp [encode, tableRow], by simp [encode]⟩

theorem offset (r p : BitVec 12) : Statement (.offset r p) :=
  ⟨by simp [encode, tableRow], by simp [encode, bytes16]⟩

theorem symOfLen (m : BitVec 6) : Statement (.symOfLen m) :=
  ⟨by simp [encode, tableRow], by simp [encode]⟩

theorem lenOfSym (c : BitVec 9) : Statement (.lenOfSym c) :=
  ⟨by simp [encode, tableRow], by simp [encode, bytes16]⟩

end Sys2Proof.Laws.TableRow
end

