-- ==== Sys2Proof/Laws/Units.lean ====
section
/-! SUPPORT. What the shared operations of the units can do, once each: every array reads back what was written last, each unit
writes its own state and no other, and the walks only read. -/

namespace Sys2Proof.Machine

open Sys2Proof

/-! ### The position code -/

theorem codesAfter_succ (c l : Nat) (rest : PosTable) (i : Nat) (h : i < rest.length) :
    (c :: codesAfter c l rest).getD (i + 1) 0 =
      ((c :: codesAfter c l rest).getD i 0 + 1) * 2 ^ ((l :: rest).getD (i + 1) 8 - (l :: rest).getD i 8) := by
  induction rest generalizing c l i with
  | nil => simp at h
  | cons m rest ih =>
    cases i with
    | zero => simp [codesAfter]
    | succ i => simpa [codesAfter] using ih ((c + 1) * 2 ^ (m - l)) m i (by simpa using h)

/-- The recurrence of R46: `code[i] = (code[i-1] + 1) << (POS_LEN[i] - POS_LEN[i-1])`. -/
theorem canonicalCodes_succ (P : PosTable) (i : Nat) (h : i + 1 < P.length) :
    (canonicalCodes P).getD (i + 1) 0 = ((canonicalCodes P).getD i 0 + 1) * 2 ^ (posLen (i + 1) P - posLen i P) := by
  cases P with
  | nil => simp at h
  | cons l rest => exact codesAfter_succ 0 l rest i (by simpa using h)

/-! ### The bit channel writes `wr`, `OUT` and `OUT_LEN`, or `rd_bitpos` -/

theorem putBit_frame (b : Bool) (s : State) :
    putBit b s = { s with wr := (putBit b s).wr, outBuf := (putBit b s).outBuf, outLen := (putBit b s).outLen } := by
  simp only [putBit, outAppend]
  split <;> rfl

theorem putBits_frame (f : Nat → Bool) (n i : Nat) (s : State) :
    forUp (fun k => putBit (f k)) n i s = { s with
      wr := (forUp (fun k => putBit (f k)) n i s).wr
      outBuf := (forUp (fun k => putBit (f k)) n i s).outBuf
      outLen := (forUp (fun k => putBit (f k)) n i s).outLen } := by
  induction n generalizing i s with
  | zero => rfl
  | succ n ih =>
    rw [forUp, ih, putBit_frame (f i) s]

theorem putCode_frame (l : Nat) (v : BitVec 32) (s : State) :
    putCode l v s = { s with
      wr := (putCode l v s).wr, outBuf := (putCode l v s).outBuf, outLen := (putCode l v s).outLen } :=
  putBits_frame _ l 0 s

theorem encodePosition_frame (P : PosTable) (o : BitVec 12) (s : State) :
    encodePosition o s P = { s with
      wr := (encodePosition o s P).wr, outBuf := (encodePosition o s P).outBuf, outLen := (encodePosition o s P).outLen } := by
  simp only [encodePosition]
  rw [putCode_frame 6, putCode_frame (posLen _ _)]

theorem flushBits_frame (s : State) :
    flushBits s = { s with wr := (flushBits s).wr, outBuf := (flushBits s).outBuf, outLen := (flushBits s).outLen } := by
  simp only [flushBits, outAppend]
  split <;> rfl

theorem getBits_state (n : Nat) (v : BitVec 8) (s : State) :
    (getBits n v s).2 = { s with rdBitpos := s.rdBitpos + BitVec.ofNat 64 n } := by
  induction n generalizing v s with
  | zero => simp [getBits]
  | succ n ih =>
    rw [getBits, ih]
    simp only [getBit, State.mk.injEq, and_self, true_and, and_true]
    rw [BitVec.add_assoc, Nat.add_comm n 1, BitVec.ofNat_add]
    rfl

theorem getByte_state (s : State) : (getByte s).2 = { s with rdBitpos := s.rdBitpos + 8 } := getBits_state 8 0 s

theorem moreBits_state (n : Nat) (v : BitVec 16) (s : State) :
    (moreBits n v s).2 = { s with rdBitpos := s.rdBitpos + BitVec.ofNat 64 n } := by
  induction n generalizing v s with
  | zero => simp [moreBits]
  | succ n ih =>
    rw [moreBits, ih]
    simp only [getBit, State.mk.injEq, and_self, true_and, and_true]
    rw [BitVec.add_assoc, Nat.add_comm n 1, BitVec.ofNat_add]
    rfl

theorem decodePosition_state (P : PosTable) (s : State) :
    (decodePosition s P).2 = { s with rdBitpos := (decodePosition s P).2.rdBitpos } := by
  simp only [decodePosition, moreBits_state, getByte_state]

/-! ### The Huffman arrays read back what was written last -/

theorem freqAt_setFreq {h : Huffman} (w : h.wf = true) (i j : Nat) (f : BitVec 16) :
    freqAt (setFreq i f h) j = if j = i then f else freqAt h j :=
  sparseGet_sparseSet (Huffman.wf_iff.mp w).1

theorem sonAt_setSon {h : Huffman} (w : h.wf = true) (i j v : Nat) :
    sonAt (setSon i v h) j = if j = i then Fin.ofNat 941 v else sonAt h j :=
  sparseGet_sparseSet (Huffman.wf_iff.mp w).2.1

theorem prntAt_setPrnt {h : Huffman} (w : h.wf = true) (i j v : Nat) :
    prntAt (setPrnt i v h) j = if j = i then Fin.ofNat 627 v else prntAt h j :=
  sparseGet_sparseSet (Huffman.wf_iff.mp w).2.2

@[simp] theorem sonAt_setFreq (i j : Nat) (f : BitVec 16) (h : Huffman) : sonAt (setFreq i f h) j = sonAt h j := rfl

@[simp] theorem prntAt_setFreq (i j : Nat) (f : BitVec 16) (h : Huffman) : prntAt (setFreq i f h) j = prntAt h j := rfl

@[simp] theorem freqAt_setSon (i j v : Nat) (h : Huffman) : freqAt (setSon i v h) j = freqAt h j := rfl

@[simp] theorem prntAt_setSon (i j v : Nat) (h : Huffman) : prntAt (setSon i v h) j = prntAt h j := rfl

@[simp] theorem freqAt_setPrnt (i j v : Nat) (h : Huffman) : freqAt (setPrnt i v h) j = freqAt h j := rfl

@[simp] theorem sonAt_setPrnt (i j v : Nat) (h : Huffman) : sonAt (setPrnt i v h) j = sonAt h j := rfl

/-! ### The match finder's accessors, in range -/

theorem offsetOf_ne {r p : BitVec 12} (h : r ≠ p) : offsetOf r p = r - p - 1 := if_neg h

theorem lsonAt_eq {m : MatchFinder} {i : Nat} (h : i ≤ 4096) : lsonAt m i = .ok (sparseGet treeDefault m.lson i) := if_pos h

theorem rsonAt_eq {m : MatchFinder} {i : Nat} (h : i ≤ 4352) : rsonAt m i = .ok (sparseGet treeDefault m.rson i) := if_pos h

theorem dadAt_eq {m : MatchFinder} {i : Nat} (h : i ≤ 4096) : dadAt m i = .ok (sparseGet treeDefault m.dad i) := if_pos h

theorem setLson_eq {m : MatchFinder} {i : Nat} {v : Idx} (h : i ≤ 4096) :
    setLson i v m = .ok { m with lson := sparseSet treeDefault m.lson i v } := if_pos h

theorem setRson_eq {m : MatchFinder} {i : Nat} {v : Idx} (h : i ≤ 4352) :
    setRson i v m = .ok { m with rson := sparseSet treeDefault m.rson i v } := if_pos h

theorem setDad_eq {m : MatchFinder} {i : Nat} {v : Idx} (h : i ≤ 4096) :
    setDad i v m = .ok { m with dad := sparseSet treeDefault m.dad i v } := if_pos h

theorem lsonOf_sparseSet {m : MatchFinder} (w : m.wf = true) (i j : Nat) (v : Idx) :
    lsonOf { m with lson := sparseSet treeDefault m.lson i v } j = if j = i then v.val else lsonOf m j := by
  simp only [lsonOf, sparseGet_sparseSet (MatchFinder.wf_iff.mp w).1]
  split <;> rfl

theorem rsonOf_sparseSet {m : MatchFinder} (w : m.wf = true) (i j : Nat) (v : Idx) :
    rsonOf { m with rson := sparseSet treeDefault m.rson i v } j = if j = i then v.val else rsonOf m j := by
  simp only [rsonOf, sparseGet_sparseSet (MatchFinder.wf_iff.mp w).2.1]
  split <;> rfl

theorem dadOf_sparseSet {m : MatchFinder} (w : m.wf = true) (i j : Nat) (v : Idx) :
    dadOf { m with dad := sparseSet treeDefault m.dad i v } j = if j = i then v.val else dadOf m j := by
  simp only [dadOf, sparseGet_sparseSet (MatchFinder.wf_iff.mp w).2.2]
  split <;> rfl

/-! ### The walks only read -/

theorem noteCandidate_frame (o : BitVec 12) (i : Nat) (m : MatchFinder) :
    noteCandidate o i m = { m with
      matchLength := (noteCandidate o i m).matchLength, matchPosition := (noteCandidate o i m).matchPosition } := by
  simp only [noteCandidate]
  split_ifs <;> rfl

theorem insertWalk_frame {tb : List Host.Cell} {r : BitVec 12} {fuel : Nat} {cmp : Int} {p : Idx} {m m' : MatchFinder}
    {site : InsertSite} (e : insertWalk tb r fuel cmp p m = .ok (site, m')) :
    m' = { m with matchLength := m'.matchLength, matchPosition := m'.matchPosition } := by
  induction fuel generalizing cmp p m with
  | zero => simp [insertWalk] at e
  | succ fuel ih =>
    simp only [insertWalk] at e
    obtain ⟨child, -, e⟩ := bind_eq_ok.mp e
    split at e
    · simp only [Except.ok.injEq, Prod.mk.injEq] at e
      rw [← e.2]
    · obtain ⟨⟨cmp', i⟩, -, e⟩ := bind_eq_ok.mp e
      simp only at e
      split at e
      · simp only [Except.ok.injEq, Prod.mk.injEq] at e
        rw [← e.2]
        exact noteCandidate_frame ..
      · have h := ih e
        rw [noteCandidate_frame] at h
        exact h

theorem decodeWalk_frame {fuel c c' : Nat} {s t : State} (e : decodeWalk fuel c s = .ok (c', t)) :
    t = { s with rdBitpos := t.rdBitpos } := by
  induction fuel generalizing c s with
  | zero => simp [decodeWalk] at e
  | succ fuel ih =>
    simp only [decodeWalk] at e
    split at e
    · split at e
      · have h := ih e
        simp only [getBit] at h
        exact h
      · simp at e
    · simp only [Except.ok.injEq, Prod.mk.injEq] at e
      rw [← e.2]

/-! ### ENCODE_CHAR and DECODE_CHAR -/

theorem encodeChar_eq_ok {c : Nat} {s t : State} : encodeChar c s = .ok t ↔ ∃ l code h,
    codeOf s.huff c = .ok (l, code) ∧ update c s.huff = .ok h ∧ t = setHuff h (putCode l code s) := by
  have hp : ∀ l code, (putCode l code s).huff = s.huff := fun l code => by rw [putCode_frame]
  constructor
  · intro e
    simp only [encodeChar] at e
    obtain ⟨⟨l, code⟩, e1, e⟩ := bind_eq_ok.mp e
    obtain ⟨h, e2, e⟩ := bind_eq_ok.mp e
    exact ⟨l, code, h, e1, hp l code ▸ e2, (Except.ok.inj e).symm⟩
  · rintro ⟨l, code, h, e1, e2, rfl⟩
    simp [encodeChar, e1, hp, e2]

theorem decodeChar_eq_ok {c : Nat} {s t : State} : decodeChar s = .ok (c, t) ↔ ∃ u h,
    decodeWalk (Config.T + 1) (sonAt s.huff Config.ROOT).val s = .ok (c, u) ∧ update c s.huff = .ok h ∧ t = setHuff h u := by
  constructor
  · intro e
    simp only [decodeChar] at e
    obtain ⟨⟨c', u⟩, e1, e⟩ := bind_eq_ok.mp e
    have hu : u.huff = s.huff := by rw [decodeWalk_frame e1]
    obtain ⟨h, e2, e⟩ := bind_eq_ok.mp e
    simp only [Except.ok.injEq, Prod.mk.injEq] at e
    obtain ⟨rfl, rfl⟩ := e
    exact ⟨u, h, e1, hu ▸ e2, rfl⟩
  · rintro ⟨u, h, e1, e2, rfl⟩
    have hu : u.huff = s.huff := by rw [decodeWalk_frame e1]
    have e2' : update c u.huff = .ok h := by rw [hu]; exact e2
    simp [decodeChar, e1, e2']

/-! ### The orchestrator's steps on the match finder touch the match finder alone -/

theorem insertAt_eq_ok {r : BitVec 12} {s t : State} :
    insertAt r s = .ok t ↔ ∃ m, insertNode s.textBuf r s.mf = .ok m ∧ t = setMf m s := by
  simp only [insertAt, bind_eq_ok, Except.ok.injEq]
  exact ⟨fun ⟨m, h, e⟩ => ⟨m, h, e.symm⟩, fun ⟨m, h, e⟩ => ⟨m, h, e.symm⟩⟩

theorem deleteAt_eq_ok {p : BitVec 12} {s t : State} :
    deleteAt p s = .ok t ↔ ∃ m, deleteNode p s.mf = .ok m ∧ t = setMf m s := by
  simp only [deleteAt, bind_eq_ok, Except.ok.injEq]
  exact ⟨fun ⟨m, h, e⟩ => ⟨m, h, e.symm⟩, fun ⟨m, h, e⟩ => ⟨m, h, e.symm⟩⟩

/-! ### The exchange partner of UPDATE (R69) -/

/-- A node has at most one exchange partner. -/
theorem LastEqual.unique {h : Huffman} {c l l' : Nat} (hl : LastEqual h c l) (hl' : LastEqual h c l') : l = l' := by
  have above {a b : Nat} (ha : LastEqual h c a) (hb : LastEqual h c b) : ¬ a < b := fun hab => by
    have := ha.last b hab (le_trans hb.range.2 (by decide))
    rw [hb.equal] at this
    exact lt_irrefl _ this
  exact le_antisymm (not_lt.mp (above hl' hl)) (not_lt.mp (above hl hl'))

/-- A level at which the node is the last of its frequency moves nothing. -/
theorem OneLevel.son_of_last {h g : Huffman} {c i : Nat} (hg : OneLevel h g c c) (hi : i < Config.T) :
    sonAt g i = sonAt h i := by
  rw [hg.son i hi]
  split_ifs with hic
  · rw [hic]
  · rfl

end Sys2Proof.Machine
end

