-- ==== Sys2Proof/Tests/Slice0.lean ====
section
/-! SUPPORT. The model's own tests: ill-formed terms are refused; words written out from the spec's encodings decode to what they
stand for; one small step per instruction, its expected result from spec/95_test_vectors.md or worked by hand from the rule
named. -/

namespace Sys2Proof.Tests

open Sys2Proof Sys2Proof.Machine

set_option maxRecDepth 100000

/-! ### Well-formedness: ill-formed terms are refused, the ends of every range accepted -/

theorem test_wf_symbol : (Instr.update 314).wf = false ∧ (Instr.update 313).wf = true ∧ (Instr.encodeChar 314).wf = false
    ∧ (Instr.encodeChar 511).wf = false ∧ (Instr.encodeChar 0).wf = true := by decide

theorem test_wf_bit_count : (Instr.putCode 33 0).wf = false ∧ (Instr.putCode 63 0).wf = false
    ∧ (Instr.putCode 32 0).wf = true ∧ (Instr.putCode 0 0).wf = true := by decide

theorem test_wf_match_length : (Instr.matchTok 2 0).wf = false ∧ (Instr.matchTok 61 0).wf = false
    ∧ (Instr.matchTok 3 0).wf = true ∧ (Instr.matchTok 60 4095).wf = true 
    := by decide

-- R54: an expansion is a formula, so every operand of a pseudo-operation is well formed.
theorem test_wf_pseudo : (Instr.lenOfSym 511).wf = true ∧ (Instr.lenOfSym 0).wf = true ∧ (Instr.symOfLen 63).wf = true
    ∧ (Instr.offset 7 7).wf = true := by decide

/-! ### Decoding: every constructor, from words written out from the spec -/

/-- Every word decodes to its instruction with nothing left over. -/
abbrev decodesTo (sp : Space) (rows : List (List Byte × Instr)) : Prop :=
  ∀ row, row ∈ rows → decode sp row.1 = .ok (row.2, [])

/-- What is refused, and why. -/
abbrev refuses (sp : Space) (rows : List (List Byte × DecodeError)) : Prop :=
  ∀ row, row ∈ rows → decode sp row.1 = .error row.2

-- R55: the ids of the operations; operands low byte first.
theorem test_decode_match_finder : decodesTo .op [([0x01], .initTree), ([0x02, 0xC5, 0x0F], .insertNode 4037),
    ([0x03, 0xFF, 0x0F], .deleteNode 4095)] := by decide

theorem test_decode_huffman : decodesTo .op [([0x04], .startHuff), ([0x05, 0x39, 0x01], .update 313), ([0x06], .reconst),
    ([0x07, 0x00, 0x01], .encodeChar 256), ([0x08], .decodeChar)] := by decide

theorem test_decode_position_coder : decodesTo .op [([0x09, 0x64, 0x00], .encodePosition 100),
    ([0x0A], .decodePosition)] := by decide

theorem test_decode_bit_channel : decodesTo .op [([0x0B, 0x20, 0xEF, 0xBE, 0xAD, 0xDE], .putCode 32 0xDEADBEEF),
    ([0x0C], .flush), ([0x0D], .getBit), ([0x0E], .getByte)] := by decide

theorem test_decode_commands : decodesTo .op [([0x0F], .compress), ([0x10], .decompress)] := by decide

-- R23, R52: the four values of CMD.
theorem test_decode_cmd : decodesTo .cmd [([0x00], .cmdReserved0), ([0x01], .cmdCompress), ([0x02], .cmdDecompress),
    ([0x03], .cmdReserved3)] := by decide

-- R41, V-W2: the header, least significant byte first.
theorem test_decode_header : decodesTo .hdr [([0x70, 0x11, 0x01, 0x00], .hdr 70000),
    ([0x78, 0x56, 0x34, 0x12], .hdr 0x12345678), ([0xFF, 0xFF, 0xFF, 0xFF], .hdr 4294967295)] := by decide

theorem test_decode_tokens : decodesTo .token [([0x00, 0x41], .lit 0x41), ([0x01, 0x3C, 0xFF, 0x0F], .matchTok 60 4095),
    ([0x01, 0x03, 0x00, 0x00], .matchTok 3 0), ([0x02, 0x06], .pad 6)] := by decide

theorem test_decode_pseudo : decodesTo .pseudo [([0x00, 0xFF], .lookup 0xFF),
    ([0x01, 0x05, 0x00, 0xA0, 0x0F], .offset 5 4000), ([0x02, 0x2F], .symOfLen 47), ([0x03, 0x2C, 0x01], .lenOfSym 300)] := by
  decide

-- R46: the prefix code and six low bits, left-justified in two bytes.
theorem test_decode_poscode_0_15 : decodesTo .pos [
    ([0x14, 0x80], .poscode0 41), ([0x25, 0x80], .poscode1 22), ([0x3F, 0xC0], .poscode2 63), ([0x40, 0x00], .poscode3 0),
    ([0x55, 0x20], .poscode4 41), ([0x5A, 0xC0], .poscode5 22), ([0x67, 0xE0], .poscode6 63), ([0x68, 0x00], .poscode7 0),
    ([0x75, 0x20], .poscode8 41), ([0x7A, 0xC0], .poscode9 22), ([0x87, 0xE0], .poscode10 63),
    ([0x88, 0x00], .poscode11 0), ([0x92, 0x90], .poscode12 41), ([0x95, 0x60], .poscode13 22),
    ([0x9B, 0xF0], .poscode14 63), ([0x9C, 0x00], .poscode15 0)] := by decide

-- R46: the prefix code and six low bits, left-justified in two bytes.
theorem test_decode_poscode_16_31 : decodesTo .pos [
    ([0xA2, 0x90], .poscode16 41), ([0xA5, 0x60], .poscode17 22), ([0xAB, 0xF0], .poscode18 63),
    ([0xAC, 0x00], .poscode19 0), ([0xB2, 0x90], .poscode20 41), ([0xB5, 0x60], .poscode21 22),
    ([0xBB, 0xF0], .poscode22 63), ([0xBC, 0x00], .poscode23 0), ([0xC1, 0x48], .poscode24 41),
    ([0xC2, 0xB0], .poscode25 22), ([0xC5, 0xF8], .poscode26 63), ([0xC6, 0x00], .poscode27 0),
    ([0xC9, 0x48], .poscode28 41), ([0xCA, 0xB0], .poscode29 22), ([0xCD, 0xF8], .poscode30 63),
    ([0xCE, 0x00], .poscode31 0)] := by decide

-- R46: the prefix code and six low bits, left-justified in two bytes.
theorem test_decode_poscode_32_47 : decodesTo .pos [
    ([0xD1, 0x48], .poscode32 41), ([0xD2, 0xB0], .poscode33 22), ([0xD5, 0xF8], .poscode34 63),
    ([0xD6, 0x00], .poscode35 0), ([0xD9, 0x48], .poscode36 41), ([0xDA, 0xB0], .poscode37 22),
    ([0xDD, 0xF8], .poscode38 63), ([0xDE, 0x00], .poscode39 0), ([0xE1, 0x48], .poscode40 41),
    ([0xE2, 0xB0], .poscode41 22), ([0xE5, 0xF8], .poscode42 63), ([0xE6, 0x00], .poscode43 0),
    ([0xE9, 0x48], .poscode44 41), ([0xEA, 0xB0], .poscode45 22), ([0xED, 0xF8], .poscode46 63),
    ([0xEE, 0x00], .poscode47 0)] := by decide

-- R46: the prefix code and six low bits, left-justified in two bytes.
theorem test_decode_poscode_48_63 : decodesTo .pos [
    ([0xF0, 0xA4], .poscode48 41), ([0xF1, 0x58], .poscode49 22), ([0xF2, 0xFC], .poscode50 63),
    ([0xF3, 0x00], .poscode51 0), ([0xF4, 0xA4], .poscode52 41), ([0xF5, 0x58], .poscode53 22),
    ([0xF6, 0xFC], .poscode54 63), ([0xF7, 0x00], .poscode55 0), ([0xF8, 0xA4], .poscode56 41),
    ([0xF9, 0x58], .poscode57 22), ([0xFA, 0xFC], .poscode58 63), ([0xFB, 0x00], .poscode59 0),
    ([0xFC, 0xA4], .poscode60 41), ([0xFD, 0x58], .poscode61 22), ([0xFE, 0xFC], .poscode62 63),
    ([0xFF, 0x00], .poscode63 0)] := by decide

-- R55, R42, R49: ids that name no operation, operands out of range, words cut short.
theorem test_refused_operations : refuses .op [([0x00], .noOperation), ([0x11], .noOperation), ([0x1F], .noOperation),
    ([0x05, 0x3A, 0x01], .operandRange), ([0x0B, 0x21, 0, 0, 0, 0], .operandRange),
    ([0x02, 0x00], .truncated), ([], .truncated)] := by decide

theorem test_refused_tokens : refuses .token [([0x01, 0x02, 0, 0], .operandRange), ([0x01, 0x3D, 0, 0], .operandRange),
    ([0x03], .noToken)] := by decide

theorem test_refused_pseudo : refuses .pseudo [([0x04], .noPseudo), ([0x01, 5, 0, 5], .truncated)] := by decide

/-- A table of D12's shape other than the default: 64 lengths of 6 bits. -/
theorem test_other_table : LegalTable (List.replicate 64 6) ∧ posCode 9 (List.replicate 64 6) = 0x24
    ∧ dCode 0x27 (List.replicate 64 6) = 9 ∧ dLen 0x27 (List.replicate 64 6) = 6 := by
  refine ⟨⟨by decide, by decide, by decide, by decide⟩, by decide, by decide, by decide⟩

/-- The default has the shape D12 gives. -/
theorem default_table_legal : LegalTable Config.POS_LEN := ⟨by decide, by decide, by decide, by decide⟩

/-! ### Small steps -/

/-- One thing of the next state, where there is one. -/
def got {α : Type} (o : Out) (f : State → α) : Option α :=
  match o with
  | .next s => some (f s)
  | _ => none

/-- A state in phase `p` with these bytes as its input, waiting for nothing from outside. -/
def inPhase (p : Phase) (input : List Byte) : State :=
  { State.reset with
    phase := p
    inLen := BitVec.ofNat 64 input.length
    inBuf := (input.zipIdx.map fun e => (e.2, e.1)).filter fun c => c.2 ≠ 0 }

/-- The reading state of V-B3: payload `A5 3C`. -/
def payloadA53C : State := inPhase .dSymbol [0, 0, 0, 0, 0xA5, 0x3C]

/-- A window of spaces but for these bytes. -/
def window (cells : List Host.Cell) : State := { State.reset with textBuf := cells }

/-- The tree of R57's example: position 4036 alone in bucket 0x41, "AAAA" from there on. -/
def oneNode : State :=
  { window [(4036, 0x41), (4037, 0x41), (4038, 0x41), (4039, 0x41)] with
    mf := { lson := [], rson := [(4162, 4036)], dad := [(4036, 4162)], matchLength := 0, matchPosition := 0 } }

-- V-M0
theorem test_init_tree : got (exec .initTree oneNode) (fun s => (rsonOf s.mf 4162, dadOf s.mf 4036)) = some (4096, 4096) := by
  decide

-- R57's worked example
theorem test_insert_node : got (exec (.insertNode 4037) oneNode) (fun s => (s.mf.matchLength, s.mf.matchPosition,
    lsonOf s.mf 4036, dadOf s.mf 4037)) = some (3, 0, 4037, 4036) := by decide

-- V-M4: a full-length match replaces the old node
theorem test_insert_node_replaces : got (exec (.insertNode 20) { window [] with mf := { State.reset.mf with
    rson := [(4129, 10)], dad := [(10, 4129)] } }) (fun s => (s.mf.matchLength, s.mf.matchPosition, rsonOf s.mf 4129,
    dadOf s.mf 20, dadOf s.mf 10)) = some (60, 9, 20, 4129, 4096) := by decide

/-- The three keys of V-M3, each "XYZ" and then the byte given, at 200, 300 and 400. -/
def tieKeys (a b c : Byte) : State :=
  window [(200, 0x58), (201, 0x59), (202, 0x5A), (203, a), (300, 0x58), (301, 0x59), (302, 0x5A), (303, b),
    (400, 0x58), (401, 0x59), (402, 0x5A), (403, c)]

/-- V-M3 (A) before its third insertion: 300 hangs on the right of 200. -/
def tieFarFirst : State := { tieKeys 0x41 0x43 0x42 with
  mf := { State.reset.mf with rson := [(200, 300), (4185, 200)], dad := [(200, 4185), (300, 200)] } }

/-- V-M3 (B) before its third insertion: 200 hangs on the right of 300. -/
def tieNearFirst : State := { tieKeys 0x43 0x41 0x42 with
  mf := { State.reset.mf with rson := [(300, 200), (4185, 300)], dad := [(200, 300), (300, 4185)] } }

-- V-M3 (A), (B): of two candidates of equal length the nearer is the match, visited first or last
theorem test_insert_node_tie : got (exec (.insertNode 400) tieFarFirst) (fun s => (s.mf.matchLength, s.mf.matchPosition,
      lsonOf s.mf 300, dadOf s.mf 400)) = some (3, 99, 400, 300)
    ∧ got (exec (.insertNode 400) tieNearFirst) (fun s => (s.mf.matchLength, s.mf.matchPosition,
      lsonOf s.mf 200, dadOf s.mf 400)) = some (3, 99, 400, 200) := by decide

/-- The tree of V-M2 after its six insertions. -/
def sixNodes : State :=
  { State.reset with
    mf := {
      lson := [(100, 200), (200, 400), (500, 600)]
      rson := [(100, 300), (200, 500), (4172, 100)]
      dad := [(100, 4172), (200, 100), (300, 100), (400, 200), (500, 200), (600, 500)]
      matchLength := 0, matchPosition := 0 } }

-- V-M2: two children, the predecessor deeper in the left subtree
theorem test_delete_node : got (exec (.deleteNode 100) sixNodes) (fun s => (s.mf.lson, s.mf.rson, s.mf.dad)) =
    some ([(100, 200), (200, 400), (500, 200)], [(100, 300), (200, 600), (500, 300), (4172, 500)],
      [(200, 500), (300, 500), (400, 200), (500, 4172), (600, 200)]) := by decide

-- V-M2: a position that is not in the tree
theorem test_delete_node_absent : got (exec (.deleteNode 101) sixNodes) (fun s => s) = some sixNodes := by decide

-- V-H1
theorem test_start_huff : got (exec .startHuff { State.reset with huff := { freq := [(5, 9)], son := [(626, 1)], prnt := [] } })
    (fun s => (s.huff.freq, s.huff.son, freqAt s.huff 608, sonAt s.huff 626, prntAt s.huff 940)) =
    some ([], [], 26, 624, 313) := by decide

-- V-H2, call 1
theorem test_update : got (exec (.update 65) State.reset) (fun s => (s.huff.freq, s.huff.son, s.huff.prnt)) =
    some ([(313, 2), (470, 3), (549, 7), (588, 11), (608, 27), (618, 59), (623, 123), (625, 187), (626, 315)],
      [(65, 940), (313, 692)], [(692, 313), (940, 65)]) := by decide

-- R70 by hand: every 1 stays 1, so the initial tree is rebuilt as it was
theorem test_reconst : got (exec .reconst State.reset) (fun s => s.huff) = some { freq := [], son := [], prnt := [] } := by
  decide

-- V-H7, R71: 111001101 = E6 and one bit pending
theorem test_encode_char : got (exec (.encodeChar 65) State.reset) (fun s => (outAt s 0, s.outLen, s.wr)) =
    some (0xE6, 1, { acc := 0x80000000, cnt := 1 }) := by decide

-- R72's worked example
theorem test_decode_char : got (exec .decodeChar (inPhase .dSymbol [0, 0, 0, 0, 0xE6, 0x80]))
    (fun s => (s.ret, s.rdBitpos, s.huff.son)) = some (65, 9, [(65, 940), (313, 692)]) := by decide

-- V-P1, o = 100 and o = 4095
theorem test_encode_position : got (exec (.encodePosition 100) State.reset) (fun s => (outAt s 0, s.outLen, s.wr)) =
      some (0x29, 1, { acc := 0, cnt := 2 })
    ∧ got (exec (.encodePosition 4095) State.reset) (fun s => (outAt s 0, s.wr)) =
      some (0xFF, { acc := 0xFC000000, cnt := 6 }) := by decide

-- V-P2: 9A BC and the empty payload
theorem test_decode_position : got (exec .decodePosition (inPhase .dSymbol [0, 0, 0, 0, 0x9A, 0xBC]))
      (fun s => (s.ret, s.rdBitpos)) = some (939, 12)
    ∧ got (exec .decodePosition (inPhase .dSymbol [])) (fun s => (s.ret, s.rdBitpos)) = some (0, 9) := by decide

-- V-B1, third call
theorem test_put_code : got (exec (.putCode 21 0xAAAAA800) { State.reset with outLen := 5, wr := { acc := 0, cnt := 2 } })
    (fun s => (outAt s 5, outAt s 6, s.outLen, s.wr)) = some (0x2A, 0xAA, 7, { acc := 0xAA000000, cnt := 7 }) := by decide

-- V-B2, and nothing pending
theorem test_flush : got (exec .flush { State.reset with wr := { acc := 0x78000000, cnt := 5 } })
      (fun s => (outAt s 0, s.outLen, s.wr)) = some (0x78, 1, { acc := 0, cnt := 0 })
    ∧ got (exec .flush State.reset) (fun s => s) = some State.reset := by decide

-- V-B3: the third bit, and the first past the end
theorem test_get_bit : got (exec .getBit { payloadA53C with rdBitpos := 2 }) (fun s => (s.ret, s.rdBitpos)) = some (1, 3)
    ∧ got (exec .getBit { payloadA53C with rdBitpos := 16 }) (fun s => (s.ret, s.rdBitpos)) = some (0, 17) := by decide

-- V-B3: bits 3..10
theorem test_get_byte : got (exec .getByte { payloadA53C with rdBitpos := 3 }) (fun s => (s.ret, s.rdBitpos)) =
    some (0x29, 11) := by decide

-- V-O1, V-D1: the empty input both ways
theorem test_compress_empty : got (exec .compress State.reset) (fun s => (s.phase, s.outLen, s.outBuf)) =
    some (.done, 4, []) := by decide

theorem test_decompress_empty : got (exec .decompress (inPhase .idle [0, 0, 0, 0, 0xFF])) (fun s => (s.phase, s.outLen)) =
    some (.done, 0) := by decide

-- V-E3, R23
theorem test_cmd : got (exec .cmdCompress State.reset) (fun s => s.phase) = some .eHdr
    ∧ got (exec .cmdDecompress (inPhase .fault [])) (fun s => s.phase) = some .dHdr
    ∧ got (exec .cmdCompress (inPhase .dCopy [])) (fun s => s.phase) = some .dCopy
    ∧ got (exec .cmdReserved0 State.reset) (fun s => s) = some State.reset
    ∧ got (exec .cmdReserved3 State.reset) (fun s => s) = some State.reset := by decide

-- R41, R111
theorem test_hdr : got (exec (.hdr 70000) State.reset) (fun s => (s.phase, s.dec.origLen)) = some (.dInit, 70000) := by decide

-- R115's worked example, its first token
theorem test_lit : got (exec (.lit 0x41) { inPhase .dSymbol [] with dec := { State.reset.dec with origLen := 4 } })
    (fun s => (outAt s 0, winAt s.textBuf 4036, s.r, s.rdBitpos, s.phase)) = some (0x41, 0x41, 4037, 9, .dSymbol) := by decide

-- R114's worked example (the code of symbol 256 in the initial tree has 8 bits)
theorem test_match : got (exec (.matchTok 3 0) { window [(4036, 0x41)] with
    r := 4037, dec := { State.reset.dec with origLen := 4, outCnt := 1 } })
    (fun s => (s.outBuf, s.textBuf, s.r, s.rdBitpos, s.phase)) =
    some ([(1, 0x41), (2, 0x41), (3, 0x41)], [(4036, 0x41), (4037, 0x41), (4038, 0x41), (4039, 0x41)], 4040, 17, .done) := by
  decide

-- R114, R125: room for one byte of three, and for none
theorem test_match_overrun : got (exec (.matchTok 3 0) { window [(4035, 0x41)] with
    r := 4036, dec := { State.reset.dec with origLen := 1 } })
    (fun s => (s.outBuf, s.textBuf, s.outLen, s.faultInfo, s.r)) =
    some ([(0, 0x41)], [(4035, 0x41), (4036, 0x41)], 1, 2, 4037) := by decide

theorem test_match_no_room : got (exec (.matchTok 3 0) { window [] with
    outLen := 1, dec := { State.reset.dec with origLen := 1, outCnt := 1 } })
    (fun s => (s.phase, s.faultCode, s.faultInfo, s.outLen)) = some (.fault, .outOverrun, 3, 1) := by decide

theorem test_pad : got (exec (.pad 6) State.reset) (fun s => s) = some State.reset := by decide

-- R46: offset 64 * 12 + 43, 12 bits
theorem test_poscode : got (exec (.poscode12 43) State.reset) (fun s => (s.ret, s.rdBitpos)) = some (811, 12)
    ∧ got (exec (.poscode63 3) State.reset) (fun s => (s.ret, s.rdBitpos)) = some (4035, 14) := by decide

-- R30, R54, R57 (V-M5), R42 (V-E1)
theorem test_pseudo : got (exec (.lookup 0x4B) State.reset) (fun s => s.ret) = some 4172
    ∧ got (exec (.offset 5 4000) State.reset) (fun s => s.ret) = some 100
    ∧ got (exec (.symOfLen 60) State.reset) (fun s => s.ret) = some 313
    ∧ got (exec (.lenOfSym 300) State.reset) (fun s => s.ret) = some 47 := by decide

-- R54 where its formula is negative: the instruction runs, and the value is a free one
theorem test_pseudo_free : (∃ v, exec (.offset 7 7) State.reset = .next { State.reset with ret := v })
    ∧ ∃ v, exec (.lenOfSym 252) State.reset = .next { State.reset with ret := v } := ⟨⟨_, rfl⟩, _, rfl⟩

/-! ### The core's own steps, the registers, the port -/

-- R23: DONE reads 0x2C, FAULT 0x4D, E_HDR 0x11, IDLE 0x00
theorem test_status : statusReg .done = 0x2C ∧ statusReg .fault = 0x4D ∧ statusReg .eHdr = 0x11 ∧ statusReg .idle = 0 := by
  decide

-- V-W1
theorem test_win_write : winWrite 0 0x41 [] = [(0, 0x41), (4096, 0x41)] ∧ winWrite 58 0x42 [] = [(58, 0x42), (4154, 0x42)]
    ∧ winWrite 59 0x43 [] = [(59, 0x43)] ∧ winWrite 4095 0x44 [] = [(4095, 0x44)] := by decide

-- R106, R122
theorem test_step_header : got (step (inPhase .eHdr [7])) (fun s => (s.outBuf, s.outLen, s.phase)) = some ([(0, 1)], 4, .eInit)
    ∧ got (step { inPhase .eHdr [] with inLen := 0x100000000 }) (fun s => (s.phase, s.faultCode, s.faultInfo, s.outLen)) =
      some (.fault, .lenRange, 0x100000000, 0) := by decide

-- R108, R109: a clamped match becomes a literal
theorem test_step_emit : got (step { inPhase .eEmit [] with
    textBuf := [(4036, 0x41)], mf := { State.reset.mf with matchLength := 60 }, enc := { State.reset.enc with len := 2 } })
    (fun s => (outAt s 0, s.mf.matchLength, s.enc.lastMatchLength, s.phase)) = some (0xE6, 1, 1, .eAdvDrain) := by decide

-- R111, R115: a symbol step; R123: a header cut short
theorem test_step_symbol : got (step { inPhase .dSymbol [1, 0, 0, 0, 0xE6, 0x80] with
      dec := { State.reset.dec with origLen := 1 } }) (fun s => (outAt s 0, s.outLen, s.phase)) = some (0x41, 1, .done)
    ∧ got (step (inPhase .dHdr [1, 0, 0])) (fun s => (s.faultCode, s.faultInfo)) = some (.hdrShort, 3) := by decide

-- R140, R23: the port, in the order in which things come
theorem test_port : got (step { State.reset with inputs := [.writeIn 3 0x41, .writeReg 0 1] }) (fun s => (inAt s 3, s.inputs)) =
      some (0x41, [.writeReg 0 1])
    ∧ got (step { State.reset with inputs := [.writeReg 0 6] }) (fun s => s.phase) = some .dHdr
    ∧ got (step { inPhase .dCopy [] with inputs := [.resetLine] }) (fun s => s) = some State.reset := by decide

-- log entry 3: a table word comes next, and is run
theorem test_fetch_word : got (step (State.reset.withFetchWord 8 0x04)) (fun s => s) = some State.reset
    ∧ decodeTableWord 8 0x04 = some .startHuff ∧ decodeTableWord 2 0x02 = some .cmdDecompress
    ∧ decodeTableWord 8 0xFF = some (.poscode63 0) := by decide

/-! ### Witnesses: concrete states and operands that meet the hypotheses of each statement together -/

/-- The initial Huffman tree is well formed. -/
theorem startTree_ok : HuffOk { freq := [], son := [], prnt := [] } where
  order := by decide
  guard := by decide
  shape := by decide
  parent := by decide
  parentRight := by decide
  rootMark := by decide
  child := by decide
  sum := by decide
  leaf := by decide
  rootInternal := by decide
  leafPos := by decide
  rootMax := by decide
  rootSum := by decide

theorem writer_empty {s : State} (h : s.wr = { acc := 0, cnt := 0 }) : WriterOk s := by
  refine ⟨by rw [h]; decide, fun k _ => by rw [h]; simp⟩

theorem safe_of_start {s : State} (hm : Memory.wf s = true) (hw : s.wr = { acc := 0, cnt := 0 })
    (hh : s.huff = { freq := [], son := [], prnt := [] }) (hl : s.mf.matchLength.toNat ≤ Config.F) : Safe s where
  memory := hm
  writer := writer_empty hw
  huffman := hh ▸ startTree_ok
  matchBound := hl

/-- A decoding state: header 4, payload `E6 C6` (V-E2), one output byte still to come at `out_cnt`. -/
def decoding : State :=
  { inPhase .dSymbol [4, 0, 0, 0, 0xE6, 0xC6, 0, 0] with dec := { State.reset.dec with origLen := 4 } }

theorem decoding_safe : Safe decoding := safe_of_start (by decide) rfl rfl (by decide)

theorem witness_ResetClearsPhaseAndResults :
    ({ inPhase .dCopy [] with inputs := [.resetLine] } : State).inputs = .resetLine :: [] := rfl

theorem witness_EveryStepKeepsMemoryCanonical : ∃ s t, Memory.wf s = true ∧ step s = .next t :=
  ⟨decoding, _, by decide, rfl⟩

/-- COMPRESS of `AAAA` after E_INIT (R110's example): four bytes in the lookahead, empty trees. -/
def encoding : State :=
  { inPhase .ePrime [0x41, 0x41, 0x41, 0x41] with
    textBuf := [(4036, 0x41), (4037, 0x41), (4038, 0x41), (4039, 0x41)]
    enc := { State.reset.enc with len := 4, inPos := 4 } }

theorem encoding_fill {i : Nat} (h : i < 4036) : winAt encoding.textBuf i = 0x20 := by
  simp [winAt, encoding, sparseGet, windowDefault, h]

theorem encoding_encoderOk : EncoderOk encoding := by
  have nt : ∀ p, ¬ InTree encoding.mf p := fun p h => h.2 rfl
  exact {
    inLen := by decide
    cursors := by decide
    len := by decide
    taken := by decide
    full := by decide
    mirror := by decide
    lookahead := by decide
    history := by
      intro j h1 h2
      have hr : (encoding.r - BitVec.ofNat 12 j).toNat = 4036 - j := by
        have e : encoding.r = 4036 := rfl
        rw [e, BitVec.toNat_sub, BitVec.toNat_ofNat, Nat.mod_eq_of_lt (by omega : j < 2 ^ 12)]
        have : (4036 : BitVec 12).toNat = 4036 := rfl
        omega
      rw [hr, encoding_fill (by omega), if_neg (by have : covered encoding = 0 := rfl; omega)]
    finder := {
      right := fun q _ h => absurd rfl h
      left := fun q h => absurd h (nt q)
      once := fun q h => absurd h (nt q)
      above := fun p h => absurd h (nt p)
      hung := fun p h => absurd h (nt p)
      bucket := fun p h => absurd h (nt p)
      orderLeft := fun q p h => absurd h (nt q)
      orderRight := fun q p h => absurd h (nt q) }
    range := fun p h => absurd h (nt _)
    prime := fun _ => nt
    emit := by decide
    advance := by decide }

theorem witness_EveryStepKeepsSafeStates : (∃ s t, Safe s ∧ step s = .next t)
    ∧ (∃ s t, Safe s ∧ EncoderOk s ∧ s.inputs = [] ∧ s.phase = .eInit ∧ step s = .next t)
    ∧ Safe encoding ∧ EncoderOk encoding ∧ encoding.inputs = [] :=
  ⟨⟨{ decoding with phase := .eFlush }, _, safe_of_start (by decide) rfl rfl (by decide), rfl⟩,
    ⟨inPhase .eInit [0x41], _, safe_of_start (by decide) rfl rfl (by decide), ⟨by decide, by decide⟩, rfl, rfl, rfl⟩,
    safe_of_start (by decide) rfl rfl (by decide), encoding_encoderOk, rfl⟩

theorem witness_StepRunsTheDecodedWord : decode .op [0x05, 0x41, 0x00] = .ok (.update 65, [])
    ∧ decode .op [0x00] = .error .noOperation ∧ decodeTableWord 8 0x10 = some .decompress := by decide

theorem witness_CoreWaitsOutsideCommands : (∃ s : State, s.inputs = [] ∧ s.phase = .idle)
    ∧ (∃ s : State, s.inputs = [] ∧ s.phase = .done) ∧ ∃ s : State, s.inputs = [] ∧ s.phase = .fault :=
  ⟨⟨State.reset, rfl, rfl⟩, ⟨inPhase .done [], rfl, rfl⟩, inPhase .fault [], rfl, rfl⟩

theorem witness_CommandWritesStartOrAreIgnored : (0xFFFFFFFFFFFFFFFD : BitVec 64).toNat % 4 = 1
    ∧ (2 : BitVec 64).toNat % 4 = 2 ∧ (0 : BitVec 64).toNat % 4 = 0 ∧ (3 : BitVec 64).toNat % 4 = 3
    ∧ busy (inPhase .dCopy []) = true ∧ busy (inPhase .eHdr []) = true ∧ busy State.reset = false := by decide

theorem witness_HostReadsEachRegister : (5 : BitVec 3).toNat = 5 ∧ 5 < (6 : BitVec 3).toNat ∧ (0 : BitVec 3).toNat = 0
    ∧ busy (inPhase .fault []) = false ∧ busy (inPhase .dCopy []) = true := by decide

theorem witness_HostReachesBuffersOutsideCommands : busy (inPhase .done []) = false ∧ Memory.wf (inPhase .done [7]) = true
    ∧ ({ inPhase .done [] with inputs := [.writeReg 5 1] } : State).inputs = .writeReg 5 1 :: []
    ∧ 2 ≤ (2 : BitVec 3).toNat ∧ (5 : BitVec 3).toNat ≤ 5 ∧ 5 < (6 : BitVec 3).toNat
    ∧ (0 : BitVec 64).toNat < ({ inPhase .done [] with outLen := 1 } : State).outLen.toNat
    ∧ (0xFFFFFFFFFFFFFFFE : BitVec 64).toNat < ({ inPhase .done [] with outLen := 0xFFFFFFFFFFFFFFFF } : State).outLen.toNat := by
  decide

theorem witness_DecodeOfEncodeIsTheInstruction : (Instr.matchTok 60 4095).wf = true ∧ (Instr.update 313).wf = true
    ∧ (Instr.putCode 32 0xFFFFFFFF).wf = true ∧ (Instr.poscode63 63).wf = true ∧ (Instr.lenOfSym 313).wf = true
    ∧ LegalTable Config.POS_LEN ∧ LegalTable (List.replicate 64 6) :=
  ⟨by decide, by decide, by decide, by decide, by decide, default_table_legal, test_other_table.1⟩

theorem witness_DecodedInstructionsAreWellFormed :
    decode .token [0x01, 0x3C, 0xFF, 0x0F, 0xAA] = .ok (.matchTok 60 4095, [0xAA]) := by decide

theorem witness_EveryByteBeginsWithOneCode : topBits (posLen 63) (0xFF : Byte) = topBits (posLen 63) (posCode 63)
    ∧ topBits (posLen 0) (0x1F : Byte) = topBits (posLen 0) (posCode 0)
    ∧ topBits (posLen 1) (0x1F : Byte) ≠ topBits (posLen 1) (posCode 1) ∧ LegalTable Config.POS_LEN :=
  ⟨by decide, by decide, by decide, default_table_legal⟩

theorem witness_PutCodeAppendsTheTopBits : ∃ s : State, Memory.wf s = true ∧ WriterOk s ∧ Room 4 s
    ∧ (32 : BitVec 6).toNat ≤ 32 ∧ (0 : BitVec 6).toNat ≤ 32 :=
  ⟨{ State.reset with outLen := 0xFFFFFFFFFFFFFFFB }, by decide, writer_empty rfl, by decide, by decide, by decide⟩

theorem witness_FlushWritesThePendingBits : (∃ s : State, Memory.wf s = true ∧ WriterOk s ∧ Room 1 s ∧ s.wr.cnt = 0)
    ∧ ∃ s : State, Memory.wf s = true ∧ WriterOk s ∧ Room 1 s ∧ s.wr.cnt = 7 := by
  refine ⟨⟨State.reset, by decide, writer_empty rfl, by decide, rfl⟩,
    { State.reset with wr := { acc := 0xFE000000, cnt := 7 } }, by decide, ⟨by decide, ?_⟩, by decide, rfl⟩
  intro k hk
  have h : ∀ k, k < 32 → 7 ≤ k → (0xFE000000 : BitVec 32).getMsbD k = false := by decide
  by_cases h32 : k < 32
  · exact h k h32 hk
  · exact BitVec.getMsbD_of_ge _ _ (by omega)

theorem witness_FlushedOutputReadsBackAsWritten : ∃ s u : State, Memory.wf s = true ∧ WriterOk s ∧ Room 1 s
    ∧ 4 ≤ s.outLen.toNat ∧ exec .flush s = .next u :=
  ⟨{ State.reset with outLen := 4 }, _, by decide, writer_empty rfl, by decide, by decide, rfl⟩

theorem witness_ShiftRegisterDeliversTheSameBits : (∃ s : State, s.rdBitpos = 0)
    ∧ ∃ (s : State) (g : ReadReg), g.Holds s ∧ s.rdBitpos.toNat + 8 < 2 ^ 64 ∧ g.cnt = 5 :=
  ⟨⟨State.reset, rfl⟩, { payloadA53C with rdBitpos := 3 }, { acc := 0x2800, cnt := 5, ptr := 5 },
    ⟨by decide, by decide, by decide, by decide⟩, by decide, rfl⟩

theorem witness_EncodePositionEmitsItsCode : (∃ s : State, Memory.wf s = true ∧ WriterOk s ∧ Room 4 s)
    ∧ LegalTable Config.POS_LEN :=
  ⟨⟨State.reset, by decide, writer_empty rfl, by decide⟩, default_table_legal⟩

theorem witness_DecodePositionReadsOneCode : Spells (inPhase .dSymbol [0, 0, 0, 0, 0xFF, 0xFC]) (posBits 4095)
    ∧ Spells (inPhase .dSymbol []) (posBits 0) ∧ Spells (inPhase .dSymbol [0, 0, 0, 0, 0x9A, 0xBC]) (posBits 939)
    ∧ Spells (inPhase .dSymbol [0, 0, 0, 0, 0xFF, 0xF0]) (posBits 4095 (List.replicate 64 6)) ∧ LegalTable (List.replicate 64 6) :=
  ⟨by decide, by decide, by decide, by decide, test_other_table.1⟩

theorem witness_PositionWordsCompleteWithTheirOffset : poscodeOf 0 0 = .poscode0 0 ∧ poscodeOf 63 63 = .poscode63 63
    ∧ (63 : Nat) < 64 := by decide

theorem witness_StartHuffBuildsTheInitialTree : ∃ s : State, Memory.wf s = true ∧ s.huff.freq ≠ [] :=
  ⟨{ State.reset with huff := { freq := [(5, 9)], son := [(626, 1)], prnt := [] } }, by decide, by decide⟩

theorem witness_StartHuffTreeIsWellFormed : ∃ s t : State, Memory.wf s = true ∧ exec .startHuff s = .next t :=
  ⟨State.reset, _, by decide, rfl⟩

theorem witness_UpdateCountsOneSymbol : ∃ s : State, Memory.wf s = true ∧ HuffOk s.huff ∧ (0 : BitVec 9).toNat < 314
    ∧ (313 : BitVec 9).toNat < 314 :=
  ⟨State.reset, by decide, startTree_ok, by decide, by decide⟩

theorem witness_ReconstHalvesEveryLeaf : ∃ s : State, Memory.wf s = true ∧ HuffOk s.huff
    ∧ (prntAt s.huff (0 + 627)).val < (prntAt s.huff (313 + 627)).val :=
  ⟨State.reset, by decide, startTree_ok, by decide⟩

-- D14, by hand: RECONST of the initial tree leaves it, so its first two internal nodes, 314 and 315, join entries 0 and 2
theorem witness_ReconstHalvesEveryLeaf_pairs : ∃ t : State, exec .reconst State.reset = .next t
    ∧ (sonAt t.huff 314).val < 627 ∧ (sonAt t.huff 315).val < 627 ∧ freqAt t.huff 314 = freqAt t.huff 315 :=
  ⟨_, rfl, by decide, by decide, by decide⟩

theorem witness_SymbolCodesAreACompletePrefixCode : ∃ h : Huffman, HuffOk h
    ∧ IsCode h 65 [true, true, true, false, false, true, true, false, true] :=
  ⟨_, startTree_ok, by decide⟩

theorem witness_EncodeCharEmitsTheCode : ∃ s : State, Safe s ∧ Room 4 s ∧ (0 : BitVec 9).toNat < 314
    ∧ (313 : BitVec 9).toNat < 314 :=
  ⟨decoding, decoding_safe, by decide, by decide, by decide⟩

theorem witness_DecodeCharReadsOneCode : Safe decoding
    ∧ IsCode decoding.huff (65 : BitVec 9).toNat [true, true, true, false, false, true, true, false, true]
    ∧ Spells decoding [true, true, true, false, false, true, true, false, true] :=
  ⟨decoding_safe, by decide, by decide⟩

theorem witness_InitTreeEmptiesEveryBucket : ∃ s : State, Memory.wf s = true ∧ InTree s.mf 4036 :=
  ⟨oneNode, by decide, by decide⟩

theorem witness_EmptyTreesAreSearchTrees : ∃ s t : State, Memory.wf s = true ∧ exec .initTree s = .next t :=
  ⟨oneNode, _, by decide, rfl⟩

theorem oneNode_dad (p : Nat) : dadOf oneNode.mf p = if p = 4036 then 4162 else 4096 := by
  simp only [dadOf, oneNode, sparseGet, treeDefault]
  split_ifs <;> first | rfl | omega

theorem oneNode_rson (q : Nat) : rsonOf oneNode.mf q = if q = 4162 then 4036 else 4096 := by
  simp only [rsonOf, oneNode, sparseGet, treeDefault]
  split_ifs <;> first | rfl | omega

theorem oneNode_lson (q : Nat) : lsonOf oneNode.mf q = 4096 := rfl

theorem oneNode_inTree {p : Nat} (h : InTree oneNode.mf p) : p = 4036 := by
  by_contra hp
  exact h.2 (by rw [oneNode_dad, if_neg hp])

/-- The tree of R57's example meets the invariants of R61. -/
theorem oneNode_ok : FinderOk oneNode.textBuf oneNode.mf where
  right q _ hq := by
    rw [oneNode_rson] at hq ⊢
    split_ifs at hq ⊢ with h
    · exact ⟨by decide, by rw [oneNode_dad, if_pos rfl, h]⟩
    · exact absurd rfl hq
  left q _ hq := absurd (oneNode_lson q) hq
  once q _ hq := absurd (oneNode_lson q) hq
  above p hp := by
    rw [oneNode_inTree hp, oneNode_dad, if_pos rfl]
    exact .inr (by decide)
  hung p hp := by
    rw [oneNode_inTree hp, oneNode_dad, if_pos rfl, oneNode_rson, if_pos rfl]
    exact .inl rfl
  bucket p hp := by
    rw [oneNode_inTree hp]
    exact ⟨1, by decide⟩
  orderLeft q _ _ _ hq := absurd (oneNode_lson q) hq
  orderRight q _ hq _ hr := by
    rw [oneNode_inTree hq, oneNode_rson] at hr
    exact absurd rfl hr

/-- A position not in the tree, and a position in it. -/
theorem witness_InsertNodeKeepsTheSearchTrees : ∃ s : State, Memory.wf s = true ∧ FinderOk s.textBuf s.mf
    ∧ ¬ InTree s.mf (4037 : BitVec 12).toNat ∧ InTree s.mf 4036 :=
  ⟨oneNode, by decide, oneNode_ok, by decide, by decide⟩

theorem witness_InsertNodeMatchIsReal : ∃ s t : State, Memory.wf s = true ∧ FinderOk s.textBuf s.mf
    ∧ ¬ InTree s.mf (4037 : BitVec 12).toNat ∧ exec (.insertNode 4037) s = .next t
    ∧ t.mf.matchLength = 3 ∧ InTree s.mf (4036 : BitVec 12).toNat ∧ Below t.mf (4036 : BitVec 12).toNat (4037 : BitVec 12).toNat
    ∧ SharePrefix s.textBuf (4036 : BitVec 12).toNat (4037 : BitVec 12).toNat t.mf.matchLength.toNat :=
  ⟨oneNode, _, by decide, oneNode_ok, by decide, rfl, by decide, by decide, ⟨1, by decide⟩, by decide⟩

theorem witness_InsertNodeFindsTheLongestMatch : ∃ s t : State, Memory.wf s = true ∧ FinderOk s.textBuf s.mf
    ∧ ¬ InTree s.mf (4037 : BitVec 12).toNat ∧ exec (.insertNode 4037) s = .next t ∧ InTree s.mf 4036
    ∧ SharePrefix s.textBuf 4036 (4037 : BitVec 12).toNat 3 :=
  ⟨oneNode, _, by decide, oneNode_ok, by decide, rfl, by decide, by decide⟩

theorem witness_DeleteNodeRemovesExactlyItsPosition : ∃ s : State, Memory.wf s = true ∧ FinderOk s.textBuf s.mf
    ∧ InTree s.mf (4036 : BitVec 12).toNat ∧ ¬ InTree s.mf (0 : BitVec 12).toNat :=
  ⟨oneNode, by decide, oneNode_ok, by decide, by decide⟩

theorem witness_CompressWritesTheHeader : ∃ s : State, s.inputs = [] ∧ s.phase = .eHdr
    ∧ 2 ^ 32 ≤ ({ s with inLen := 0x100000000 } : State).inLen.toNat
    ∧ ({ s with inLen := 0xFFFFFFFF } : State).inLen.toNat < 2 ^ 32 ∧ s.inLen = 0 :=
  ⟨inPhase .eHdr [], rfl, rfl, by decide, by decide, rfl⟩

theorem witness_CompressInitialisesAndPreloads : ∃ s : State, Memory.wf s = true ∧ s.inputs = [] ∧ s.phase = .eInit
    ∧ s.inLen = 4 :=
  ⟨inPhase .eInit [0x41, 0x41, 0x41, 0x41], by decide, rfl, rfl, rfl⟩

theorem witness_CompressPrimes : ∃ s t : State, s.inputs = [] ∧ s.phase = .ePrime ∧ step s = .next t ∧ t.phase = .eEmit :=
  ⟨inPhase .ePrime [], _, rfl, rfl, rfl, rfl⟩

/-- A state at a token, with a match of length `m` and `n` bytes of lookahead. -/
def atToken (m n : BitVec 6) : State :=
  { inPhase .eEmit [] with mf := { State.reset.mf with matchLength := m }, enc := { State.reset.enc with len := n } }

theorem witness_EmitWritesOneToken : (Safe (atToken 60 2) ∧ Room 8 (atToken 60 2) ∧ (atToken 60 2).inputs = []
      ∧ (atToken 60 2).phase = .eEmit ∧ min (atToken 60 2).mf.matchLength.toNat (atToken 60 2).enc.len.toNat ≤ 2)
    ∧ Safe (atToken 3 60) ∧ Room 8 (atToken 3 60) ∧ (atToken 3 60).inputs = [] ∧ (atToken 3 60).phase = .eEmit
      ∧ 2 < min (atToken 3 60).mf.matchLength.toNat (atToken 3 60).enc.len.toNat :=
  ⟨⟨safe_of_start (by decide) rfl rfl (by decide), by decide, rfl, rfl, by decide⟩,
    safe_of_start (by decide) rfl rfl (by decide), by decide, rfl, rfl, by decide⟩

theorem witness_AdvanceMovesBothCursors :
    (∃ s t : State, Memory.wf s = true ∧ s.inputs = [] ∧ step s = .next t ∧ s.phase = .eAdvIn ∧ s.enc.s = s.r + 60)
    ∧ (∃ s t : State, Memory.wf s = true ∧ s.inputs = [] ∧ step s = .next t ∧ s.phase = .eAdvDrain ∧ s.enc.s = s.r + 60
        ∧ t.enc.len = 1)
    ∧ (∃ s t : State, Memory.wf s = true ∧ s.inputs = [] ∧ step s = .next t ∧ s.phase = .eAdvDrain ∧ s.enc.s = s.r + 60
        ∧ t.enc.len = 0)
    ∧ ∃ s t : State, s.inputs = [] ∧ s.phase = .eFlush ∧ step s = .next t :=
  ⟨⟨inPhase .eAdvIn [0x41], _, by decide, rfl, rfl, rfl, by decide⟩,
    ⟨{ inPhase .eAdvDrain [] with enc := { State.reset.enc with len := 2 } }, _, by decide, rfl, rfl, rfl, by decide, rfl⟩,
    ⟨{ inPhase .eAdvDrain [] with enc := { State.reset.enc with len := 1 } }, _, by decide, rfl, rfl, rfl, by decide, rfl⟩,
    inPhase .eFlush [], _, rfl, rfl, rfl⟩

theorem witness_DecompressReadsTheHeader : (inPhase .dHdr [1, 0, 0]).inLen.toNat < 4 ∧ 4 ≤ (inPhase .dHdr [0, 0, 0, 0]).inLen.toNat
    ∧ (inPhase .dHdr [1, 0, 0]).inputs = [] ∧ (inPhase .dHdr [1, 0, 0]).phase = .dHdr := by decide

theorem witness_DecompressInitialises : ∃ s : State, Memory.wf s = true ∧ s.inputs = [] ∧ s.phase = .dInit :=
  ⟨inPhase .dInit [1, 0, 0, 0], by decide, rfl, rfl⟩

theorem witness_SymbolStepReadsOneToken :
    (Safe decoding ∧ decoding.inputs = [] ∧ decoding.phase = .dSymbol ∧ (65 : Nat) < 256
      ∧ IsCode decoding.huff 65 [true, true, true, false, false, true, true, false, true]
      ∧ Spells decoding [true, true, true, false, false, true, true, false, true])
    ∧ ∃ s : State, Safe s ∧ s.inputs = [] ∧ s.phase = .dSymbol
      ∧ IsCode s.huff 256 [true, false, false, false, true, true, false, false]
      ∧ Spells s [true, false, false, false, true, true, false, false]
      ∧ Spells { s with rdBitpos := s.rdBitpos + BitVec.ofNat 64 8 } (posBits 100) :=
  ⟨⟨decoding_safe, rfl, rfl, by decide, by decide, by decide⟩,
    inPhase .dSymbol [4, 0, 0, 0, 0x8C, 0x29], safe_of_start (by decide) rfl rfl (by decide), rfl, rfl, by decide, by decide,
    by decide⟩

theorem witness_CopyStepMovesOneByteOrFaults : ∃ s : State, Memory.wf s = true ∧ s.inputs = [] ∧ s.phase = .dCopy
    ∧ s.dec.outCnt = s.dec.origLen ∧ ({ s with dec := { s.dec with origLen := 1 } } : State).dec.outCnt ≠ 1 :=
  ⟨inPhase .dCopy [], by decide, rfl, rfl, rfl, by decide⟩

theorem witness_LiteralTokenProducesItsByte : Safe decoding := decoding_safe

theorem witness_MatchTokenCopiesForward : Safe decoding
    ∧ ({ decoding with dec := { decoding.dec with outCnt := 1 } } : State).dec.outCnt.toNat + (3 : BitVec 6).toNat ≤
      decoding.dec.origLen.toNat ∧ (60 : BitVec 6).toNat ≤ 60 :=
  ⟨decoding_safe, by decide, by decide⟩

/-- Room for all bytes but one, and for none. -/
theorem witness_MatchPastTheEndFaults : (Safe decoding
      ∧ decoding.dec.outCnt.toNat + (4 : BitVec 32).toNat = decoding.dec.origLen.toNat
      ∧ (4 : BitVec 32).toNat < (5 : BitVec 6).toNat ∧ (4 : BitVec 32) ≠ 0)
    ∧ Safe { decoding with dec := { decoding.dec with outCnt := 4 } }
      ∧ ({ decoding with dec := { decoding.dec with outCnt := 4 } } : State).dec.outCnt.toNat + (0 : BitVec 32).toNat =
        decoding.dec.origLen.toNat
      ∧ (0 : BitVec 32).toNat < (60 : BitVec 6).toNat :=
  ⟨⟨decoding_safe, by decide, by decide, by decide⟩, safe_of_start (by decide) rfl rfl (by decide), by decide, by decide⟩

theorem witness_PseudoOperationsReturnTheirExpansion : (0 : BitVec 12) ≠ 4095 ∧ 253 ≤ (253 : BitVec 9).toNat
    ∧ 253 ≤ (511 : BitVec 9).toNat := by decide

theorem witness_PhaseMovesAsTheTableSays : (∃ s t : State, s.inputs = [] ∧ step s = .next t ∧ s.phase = .eHdr)
    ∧ (∃ s t : State, s.inputs = [] ∧ step s = .next t ∧ s.phase = .eAdvIn
        ∧ t.enc.advI.toNat ≤ t.enc.lastMatchLength.toNat)
    ∧ ∃ s t : State, s.inputs = [] ∧ step s = .next t ∧ s.phase = .eAdvDrain
        ∧ t.enc.advI.toNat ≤ t.enc.lastMatchLength.toNat :=
  ⟨⟨inPhase .eHdr [], _, rfl, rfl, rfl⟩,
    ⟨{ inPhase .eAdvIn [0x41] with enc := { State.reset.enc with lastMatchLength := 1 } }, _, rfl, rfl, rfl, by decide⟩,
    { inPhase .eAdvDrain [] with enc := { State.reset.enc with lastMatchLength := 1, len := 1 } }, _, rfl, rfl, rfl, by decide⟩

theorem witness_OnlyThreeRowsRaiseFaults : ∃ s t : State, s.inputs = [] ∧ step s = .next t ∧ s.phase ≠ .fault ∧ t.phase = .fault :=
  ⟨inPhase .dCopy [], _, rfl, rfl, by decide, by decide⟩

theorem witness_CoreNeverWritesItsInput : ∃ s t u : State, exec (.putCode 9 0xE6800000) s = .next t ∧ s.inputs = []
    ∧ step s = .next u ∧ s.phase = .eEmit :=
  ⟨inPhase .eEmit [], _, _, rfl, rfl, rfl, rfl⟩

theorem witness_CommandsKeepApart : (∃ s t : State, busy s = false ∧ exec .decompress s = .next t)
    ∧ ∃ s t : State, busy s = false ∧ exec .compress s = .next t :=
  ⟨⟨inPhase .idle [0, 0, 0, 0], _, rfl, rfl⟩, inPhase .idle [], _, rfl, rfl⟩

theorem witness_WholeCommandIsItsSteps : busy (inPhase .eEmit []) = true ∧ busy (inPhase .fault []) = false := by decide

theorem witness_EmptyInputBothWays : (inPhase .idle []).inLen = 0 ∧ 4 ≤ (inPhase .idle [0, 0, 0, 0, 9]).inLen.toNat
    ∧ ∀ k, k < 4 → inAt (inPhase .idle [0, 0, 0, 0, 9]) k = 0 := by decide

theorem witness_CompressEndsOnEveryInput : Memory.wf (inPhase .fault [0x41]) = true ∧ busy (inPhase .fault [0x41]) = false
    ∧ (inPhase .fault [0x41]).inLen.toNat < 2 ^ 32 ∧ 2 ^ 32 ≤ (0x100000000 : BitVec 64).toNat := by decide

theorem witness_DecompressEndsOnEveryInput : Memory.wf (inPhase .done [1, 0, 0]) = true ∧ busy (inPhase .done [1, 0, 0]) = false
    ∧ (inPhase .done [1, 0, 0]).inLen.toNat < 4 ∧ 4 ≤ (inPhase .done [1, 0, 0, 0]).inLen.toNat := by decide

/-- Two states that offer the same input and differ in what lies past it and in what an earlier command left. -/
theorem witness_DecompressDependsOnItsInputAlone : ∃ s s' t t' : State, Memory.wf s = true ∧ Memory.wf s' = true
    ∧ busy s = false ∧ busy s' = false ∧ SameInput s s' ∧ s.inBuf ≠ s'.inBuf ∧ s.r ≠ s'.r
    ∧ exec .decompress s = .next t ∧ exec .decompress s' = .next t' :=
  ⟨inPhase .idle [0, 0, 0, 0], { inPhase .fault [0, 0, 0, 0, 9] with inLen := 4, r := 7 }, _, _, by decide, by decide, rfl, rfl,
    ⟨rfl, by decide⟩, by decide, by decide, rfl, rfl⟩

theorem witness_CompressDependsOnItsInputAlone : ∃ s s' t t' : State, Memory.wf s = true ∧ Memory.wf s' = true
    ∧ busy s = false ∧ busy s' = false ∧ SameInput s s' ∧ s.inBuf ≠ s'.inBuf ∧ s.r ≠ s'.r
    ∧ exec .compress s = .next t ∧ exec .compress s' = .next t' :=
  ⟨inPhase .idle [], { inPhase .fault [9] with inLen := 0, r := 7 }, _, _, by decide, by decide, rfl, rfl,
    ⟨rfl, by decide⟩, by decide, by decide, rfl, rfl⟩

theorem witness_RoundTripRestoresTheInput : Memory.wf (inPhase .idle [0x41, 0x41, 0x41, 0x41]) = true
    ∧ busy (inPhase .idle [0x41, 0x41, 0x41, 0x41]) = false
    ∧ (inPhase .idle [0x41, 0x41, 0x41, 0x41]).inLen.toNat < 2 ^ 32 ∧ LegalTable Config.POS_LEN
    ∧ LegalTable (List.replicate 64 6) :=
  ⟨by decide, by decide, by decide, default_table_legal, test_other_table.1⟩

end Sys2Proof.Tests
end

/-! PROOFS. The search trees of R61 and what the walk of INSERT_NODE reads of them (R57, R58): descent in a search tree, the
comparison of two keys, the best candidate, and the longest match. -/

namespace Sys2Proof.Machine

open Sys2Proof

/-! ### Ancestors (R61, I2 and I3) -/

/-- Climbing `a` steps and then `b` is climbing `a + b`. -/
theorem ancestor_add (m : MatchFinder) (a b p : Nat) : ancestor m (a + b) p = ancestor m b (ancestor m a p) := by
  induction a generalizing p with
  | zero => simp [ancestor]
  | succ a ih => rw [Nat.succ_add, ancestor, ancestor, ih]

/-- The climb stays at a sentinel. -/
theorem ancestor_of_not_position {m : MatchFinder} {x : Nat} (hx : Config.N ≤ x) (n : Nat) : ancestor m n x = x := by
  induction n with
  | zero => rfl
  | succ n ih => rw [ancestor, if_neg (Nat.not_lt.2 hx), ih]

theorem Below.refl (m : MatchFinder) (x : Nat) : Below m x x := ⟨0, rfl⟩

/-- What is above the parent of a position is above the position. -/
theorem Below.of_dad {m : MatchFinder} {x p : Nat} (hp : p < Config.N) (h : Below m x (dadOf m p)) : Below m x p := by
  obtain ⟨n, hn⟩ := h
  exact ⟨n + 1, by rw [ancestor, if_pos hp, hn]⟩

/-- A node is below one sentinel only. -/
theorem Below.sentinel_unique {m : MatchFinder} {x y p : Nat} (hx : Config.N ≤ x) (hy : Config.N ≤ y)
    (h : Below m x p) (h' : Below m y p) : x = y := by
  obtain ⟨a, rfl⟩ := h
  obtain ⟨b, rfl⟩ := h'
  calc ancestor m a p = ancestor m (a + b) p := by rw [ancestor_add, ancestor_of_not_position hx]
    _ = ancestor m b p := by rw [Nat.add_comm, ancestor_add, ancestor_of_not_position hy]

/-! ### Keys (R58) -/

theorem SharePrefix.symm {tb : List Host.Cell} {p q n : Nat} (h : SharePrefix tb p q n) : SharePrefix tb q p n :=
  fun i hi => (h i hi).symm

theorem KeyLt.asymm {tb : List Host.Cell} {p q : Nat} (h : KeyLt tb p q) : ¬ KeyLt tb q p := by
  obtain ⟨i, _, hi, lt⟩ := h
  rintro ⟨j, _, hj, lt'⟩
  rcases Nat.lt_trichotomy i j with hij | rfl | hij
  · exact absurd (hj i hij) (by omega)
  · omega
  · exact absurd (hi j hij) (by omega)

/-! ### Descent in a search tree (R61) -/

/-- The child of node `p` in the direction of `cmp` (R57). -/
def childOf (m : MatchFinder) (cmp : Int) (p : Nat) : Nat := if 0 ≤ cmp then rsonOf m p else lsonOf m p

/-- Position `q` hangs below the child of `p` in the direction of `cmp`: a walk that goes on that way can meet it. -/
def Ahead (m : MatchFinder) (cmp : Int) (p q : Nat) : Prop :=
  childOf m cmp p ≠ Config.NIL ∧ Below m (childOf m cmp p) q

/-- The walk stands at a position of the tree, or at a sentinel and goes to the root on its right. -/
def WalkNode (m : MatchFinder) (cmp : Int) (p : Nat) : Prop := InTree m p ∨ (IsSentinel p ∧ 0 ≤ cmp)

/-- The child the walk goes to is in the tree, and the walk's node is its parent (I2). -/
theorem FinderOk.child_inTree {tb : List Host.Cell} {m : MatchFinder} {cmp : Int} {p : Nat} (ok : FinderOk tb m)
    (hp : WalkNode m cmp p) (hc : childOf m cmp p ≠ Config.NIL) :
    InTree m (childOf m cmp p) ∧ dadOf m (childOf m cmp p) = p := by
  have hpos : childOf m cmp p < Config.N ∧ dadOf m (childOf m cmp p) = p := by
    unfold childOf at hc ⊢
    split_ifs at hc ⊢ with h
    · exact ok.right p (hp.imp_right And.left) hc
    · exact ok.left p (hp.resolve_right fun hs => h hs.2) hc
  obtain ⟨hlt, hdad⟩ := hpos
  refine ⟨⟨hlt, ?_⟩, hdad⟩
  rw [hdad]
  rcases hp with hp | ⟨hs, -⟩
  · exact Nat.ne_of_lt hp.1
  · exact Nat.ne_of_gt hs.1

/-- A position in the tree hangs from its parent on one of the two sides (I2). -/
theorem FinderOk.hangs {tb : List Host.Cell} {m : MatchFinder} {q : Nat} (ok : FinderOk tb m) (hq : InTree m q) :
    childOf m 1 (dadOf m q) = q ∨ (InTree m (dadOf m q) ∧ childOf m (-1) (dadOf m q) = q) :=
  ok.hung q hq

/-- A position below `x` is `x` itself, or ahead on the right, or ahead on the left of a position. -/
theorem FinderOk.below_cases {tb : List Host.Cell} {m : MatchFinder} {x q : Nat} (ok : FinderOk tb m) (hq : InTree m q)
    (h : Below m x q) : q = x ∨ Ahead m 1 x q ∨ (InTree m x ∧ Ahead m (-1) x q) := by
  obtain ⟨n, hn⟩ := h
  induction n generalizing q with
  | zero => exact .inl hn
  | succ n ih =>
    rw [ancestor, if_pos hq.1] at hn
    have hchild : x = dadOf m q → Ahead m 1 x q ∨ (InTree m x ∧ Ahead m (-1) x q) := by
      have hself (cmp : Int) (e : childOf m cmp (dadOf m q) = q) : Ahead m cmp (dadOf m q) q := by
        rw [Ahead, e]
        exact ⟨Nat.ne_of_lt hq.1, .refl m q⟩
      rintro rfl
      exact (ok.hangs hq).imp (hself 1) (And.imp_right (hself (-1)))
    rcases ok.above q hq with hd | hd
    · have lift (cmp : Int) (ha : Ahead m cmp x (dadOf m q)) : Ahead m cmp x q := ⟨ha.1, .of_dad hq.1 ha.2⟩
      rcases ih hd hn with e | ha | ⟨hx, ha⟩
      · exact .inr (hchild e.symm)
      · exact .inr (.inl (lift 1 ha))
      · exact .inr (.inr ⟨hx, lift (-1) ha⟩)
    · rw [ancestor_of_not_position (Nat.le_of_succ_le hd.1)] at hn
      exact .inr (hchild hn.symm)

/-- The order of the tree (I4) on the right. -/
theorem FinderOk.key_right {tb : List Host.Cell} {m : MatchFinder} {c q : Nat} (ok : FinderOk tb m) (hc : InTree m c)
    (hq : InTree m q) (h : Ahead m 1 c q) : KeyLt tb c q :=
  ok.orderRight c q hc hq h.1 h.2

/-- The order of the tree (I4) on the left. -/
theorem FinderOk.key_left {tb : List Host.Cell} {m : MatchFinder} {c q : Nat} (ok : FinderOk tb m) (hc : InTree m c)
    (hq : InTree m q) (h : Ahead m (-1) c q) : KeyLt tb q c :=
  ok.orderLeft c q hc hq h.1 h.2

theorem ahead_congr_sign {m : MatchFinder} {a b : Int} {p q : Nat} (hab : 0 ≤ a ↔ 0 ≤ b) :
    Ahead m a p q ↔ Ahead m b p q := by
  simp only [Ahead, childOf, hab]

/-- What the search rests on (I4): where a position `q` below `c` has more leading bytes in common with `r` than `c` has, it hangs
on the side of `c` that the first differing byte points to. -/
theorem FinderOk.ahead_of_longer {tb : List Host.Cell} {m : MatchFinder} {c q r i n : Nat} {cmp : Int} (ok : FinderOk tb m)
    (hc : InTree m c) (hq : InTree m q) (hb : Below m c q) (hcr : SharePrefix tb c r i) (hqr : SharePrefix tb q r n)
    (hin : i < n) (hi : i < Config.F) (hcmp : cmp = (keyByte tb r i : Int) - keyByte tb c i) (hne : cmp ≠ 0) :
    Ahead m cmp c q := by
  have hri : keyByte tb q i = keyByte tb r i := hqr i hin
  have hcq : SharePrefix tb c q i := fun k hk => (hcr k hk).trans (hqr k (hk.trans hin)).symm
  rcases ok.below_cases hq hb with rfl | hR | ⟨-, hL⟩
  · omega
  · refine (ahead_congr_sign ?_).1 hR
    by_contra hneg
    have : KeyLt tb q c := ⟨i, hi, hcq.symm, by omega⟩
    exact this.asymm (ok.key_right hc hq hR)
  · refine (ahead_congr_sign ?_).1 hL
    by_contra hpos
    have : KeyLt tb c q := ⟨i, hi, hcq, by omega⟩
    exact this.asymm (ok.key_left hc hq hL)

/-! ### The comparison of two keys (R57, R58) -/

theorem winRead_eq_ok {tb : List Host.Cell} {i : Nat} {b : Byte} (h : winRead tb i = .ok b) : b = winAt tb i := by
  unfold winRead at h
  split_ifs at h
  exact (Except.ok.inj h).symm

/-- Where the first `i` bytes agree, the loop of R57 from `i` on finds how many do, and the difference of the first pair that
does not. -/
theorem keyCompare_eq_ok {tb : List Host.Cell} {r p n i j : Nat} {cmp cmp' : Int}
    (h : keyCompare tb r p n i cmp = .ok (cmp', j)) (hs : SharePrefix tb p r i) :
    j ≤ i + n ∧ SharePrefix tb p r j
      ∧ (j < i + n → cmp' = (keyByte tb r j : Int) - keyByte tb p j ∧ cmp' ≠ 0) := by
  induction n generalizing i cmp with
  | zero =>
    cases h
    exact ⟨Nat.le_refl _, hs, fun hlt => absurd hlt (Nat.lt_irrefl _)⟩
  | succ n ih =>
    obtain ⟨a, ha, h⟩ := bind_eq_ok.1 h
    obtain ⟨b, hb, h⟩ := bind_eq_ok.1 h
    have hdiff : (a.toNat : Int) - (b.toNat : Int) = (keyByte tb r i : Int) - keyByte tb p i := by
      rw [winRead_eq_ok ha, winRead_eq_ok hb]; rfl
    simp only [hdiff] at h
    split_ifs at h with hne
    · cases h
      exact ⟨Nat.le_add_right .., hs, fun _ => ⟨rfl, hne⟩⟩
    · rw [not_not] at hne
      have hs' : SharePrefix tb p r (i + 1) := fun k hk => by
        rcases Nat.lt_succ_iff_lt_or_eq.1 hk with hk | rfl
        · exact hs k hk
        · omega
      have := ih h hs'
      rwa [Nat.add_right_comm, Nat.add_assoc] at this

/-! ### The best candidate (R57) -/

@[simp] theorem noteCandidate_lson (o : BitVec 12) (i : Nat) (m : MatchFinder) : (noteCandidate o i m).lson = m.lson := by
  unfold noteCandidate
  split_ifs <;> rfl

@[simp] theorem noteCandidate_rson (o : BitVec 12) (i : Nat) (m : MatchFinder) : (noteCandidate o i m).rson = m.rson := by
  unfold noteCandidate
  split_ifs <;> rfl

/-- Noting a candidate of `i` common bytes leaves the longest length so far, 2 or less counting as none. -/
theorem noteCandidate_matchLength {o : BitVec 12} {i : Nat} {m : MatchFinder} (hi : i ≤ Config.F) :
    (noteCandidate o i m).matchLength.toNat =
      if Config.THRESHOLD < i then max m.matchLength.toNat i else m.matchLength.toNat := by
  have hmod : (BitVec.ofNat 6 i).toNat = i := Nat.mod_eq_of_lt (Nat.lt_of_le_of_lt hi (by decide))
  unfold noteCandidate
  split_ifs with h1 h2 h3
  · exact hmod.trans (Nat.max_eq_right h2.le).symm
  · exact (Nat.max_eq_left (Nat.not_lt.1 h2)).symm
  · exact (Nat.max_eq_left (Nat.not_lt.1 h2)).symm
  · rfl

/-! ### The walk of INSERT_NODE (R57) -/

/-- At the nodes of the tree of `m0` and at the sentinels `m` has the child links of `m0`. -/
def SameLinks (m0 m : MatchFinder) : Prop :=
  ∀ x, InTree m0 x ∨ IsSentinel x → lsonOf m x = lsonOf m0 x ∧ rsonOf m x = rsonOf m0 x

theorem SameLinks.after_noteCandidate {m0 m : MatchFinder} (h : SameLinks m0 m) (o : BitVec 12) (i : Nat) :
    SameLinks m0 (noteCandidate o i m) := fun x hx => by
  simpa [lsonOf, rsonOf] using h x hx

theorem lsonAt_eq_ok {m : MatchFinder} {i : Nat} {c : Idx} (h : lsonAt m i = .ok c) : c.val = lsonOf m i := by
  unfold lsonAt at h
  split_ifs at h
  cases h; rfl

theorem rsonAt_eq_ok {m : MatchFinder} {i : Nat} {c : Idx} (h : rsonAt m i = .ok c) : c.val = rsonOf m i := by
  unfold rsonAt at h
  split_ifs at h
  cases h; rfl

theorem SameLinks.childAt_eq_ok {m0 m : MatchFinder} {cmp : Int} {p c : Idx} (hl : SameLinks m0 m)
    (hp : WalkNode m0 cmp p.val) (h : childAt m cmp p = .ok c) : c.val = childOf m0 cmp p.val := by
  obtain ⟨hlson, hrson⟩ := hl p.val (hp.imp_right And.left)
  unfold childAt at h
  unfold childOf
  split_ifs at h ⊢
  · rw [rsonAt_eq_ok h, hrson]
  · rw [lsonAt_eq_ok h, hlson]

/-- What one answer of the walk can be: it ends at an empty slot, or it visits the child, compares its key and ends there or
goes on. -/
theorem insertWalk_cases {tb : List Host.Cell} {r : BitVec 12} {fuel : Nat} {cmp : Int} {p : Idx} {m m' : MatchFinder}
    {site : InsertSite} (h : insertWalk tb r (fuel + 1) cmp p m = .ok (site, m')) :
    ∃ child, childAt m cmp p = .ok child ∧
      ((child = nilIdx ∧ site = (if 0 ≤ cmp then .rightOf p else .leftOf p) ∧ m' = m) ∨
       (child ≠ nilIdx ∧ ∃ cmp' i o, keyCompare tb r.toNat child.val (Config.F - 1) 1 cmp = .ok (cmp', i)
          ∧ o = offsetOf r (BitVec.ofNat 12 child.val)
          ∧ ((Config.F ≤ i ∧ site = .replaces child ∧ m' = noteCandidate o i m) ∨
             insertWalk tb r fuel cmp' child (noteCandidate o i m) = .ok (site, m')))) := by
  unfold insertWalk at h
  obtain ⟨child, hchild, h⟩ := bind_eq_ok.1 h
  refine ⟨child, hchild, ?_⟩
  by_cases hnil : child = nilIdx
  · rw [if_pos hnil, Except.ok.injEq, Prod.mk.injEq] at h
    exact .inl ⟨hnil, h.1.symm, h.2.symm⟩
  · rw [if_neg hnil] at h
    obtain ⟨⟨cmp', i⟩, hcmp, h⟩ := bind_eq_ok.1 h
    refine .inr ⟨hnil, cmp', i, _, hcmp, rfl, ?_⟩
    simp only at h
    split_ifs at h with hfull
    · cases h
      exact .inl ⟨hfull.2.2, rfl, rfl⟩
    · exact .inr h

/-- What the walk keeps while it looks for position `q`, which has `n` leading bytes in common with `r`: it stands at a node of
`r`'s bucket, and either the best length so far is `n` at least or `q` is ahead. -/
structure Searching (tb : List Host.Cell) (m0 : MatchFinder) (r q n : Nat) (cmp : Int) (p : Nat) (m : MatchFinder) : Prop where
  links : SameLinks m0 m
  node : WalkNode m0 cmp p
  bucket : Below m0 (Config.N + 1 + keyByte tb r 0) p
  found : n ≤ m.matchLength.toNat ∨ Ahead m0 cmp p q

section Search

variable {tb : List Host.Cell} {m0 m m' : MatchFinder} {r : BitVec 12} {q n : Nat} {cmp cmp' : Int} {i : Nat}

/-- The nodes of `r`'s bucket have `r`'s first byte (I3). -/
theorem FinderOk.first_byte {c r : Nat} (ok : FinderOk tb m0) (hc : InTree m0 c)
    (hb : Below m0 (Config.N + 1 + keyByte tb r 0) c) : SharePrefix tb c r 1 := fun k hk => by
  have : Config.N + 1 + keyByte tb c 0 = Config.N + 1 + keyByte tb r 0 :=
    Below.sentinel_unique (by omega) (by omega) (ok.bucket c hc) hb
  obtain rfl : k = 0 := by omega
  omega

/-- A visit to the child keeps what the walk keeps, and a child with `n` bytes in common at least settles the search. -/
theorem Searching.visit {p : Nat} {o : BitVec 12} (ok : FinderOk tb m0) (hq : InTree m0 q)
    (hqr : SharePrefix tb q r.toNat n) (hn : Config.THRESHOLD < n) (hnF : n ≤ Config.F)
    (hs : Searching tb m0 r.toNat q n cmp p m) (hne : childOf m0 cmp p ≠ Config.NIL)
    (hcmp : keyCompare tb r.toNat (childOf m0 cmp p) (Config.F - 1) 1 cmp = .ok (cmp', i)) :
    Searching tb m0 r.toNat q n cmp' (childOf m0 cmp p) (noteCandidate o i m)
      ∧ (n ≤ i → n ≤ (noteCandidate o i m).matchLength.toNat) := by
  obtain ⟨hlinks, hnode, hbucket, hfound⟩ := hs
  obtain ⟨hc, hdad⟩ := ok.child_inTree hnode hne
  have hbucket' := Below.of_dad hc.1 (hdad.symm ▸ hbucket)
  obtain ⟨hiF, hcr, hdiff⟩ := keyCompare_eq_ok hcmp (ok.first_byte hc hbucket')
  have hlen := noteCandidate_matchLength (o := o) (m := m) hiF
  have hlong : n ≤ i → n ≤ (noteCandidate o i m).matchLength.toNat := fun hni => by
    rw [hlen, if_pos (hn.trans_le hni)]
    exact le_max_of_le_right hni
  refine ⟨⟨hlinks.after_noteCandidate o i, .inl hc, hbucket', ?_⟩, hlong⟩
  rcases hfound with hle | ⟨-, hbelow⟩
  · exact .inl (by rw [hlen]; split_ifs <;> omega)
  · by_cases hni : n ≤ i
    · exact .inl (hlong hni)
    · have hin := Nat.not_le.1 hni
      have hi : i < Config.F := hin.trans_le hnF
      obtain ⟨hval, hne'⟩ := hdiff hi
      exact .inr (ok.ahead_of_longer hc hq hbelow hcr hqr hin hi hval hne')

/-- The walk does not end before it has found `n` common bytes. -/
theorem Searching.finds {fuel : Nat} {p : Idx} {site : InsertSite} (ok : FinderOk tb m0) (hq : InTree m0 q)
    (hqr : SharePrefix tb q r.toNat n) (hn : Config.THRESHOLD < n) (hnF : n ≤ Config.F)
    (hs : Searching tb m0 r.toNat q n cmp p.val m) (h : insertWalk tb r fuel cmp p m = .ok (site, m')) :
    n ≤ m'.matchLength.toNat := by
  induction fuel generalizing cmp p m with
  | zero => cases h
  | succ fuel ih =>
    obtain ⟨child, hchild, hcase⟩ := insertWalk_cases h
    have hval := hs.links.childAt_eq_ok hs.node hchild
    rcases hcase with ⟨rfl, -, rfl⟩ | ⟨hnil, cmp', i, o, hcmp, -, hcase⟩
    · exact hs.found.resolve_right fun ha => ha.1 hval.symm
    · have hne : childOf m0 cmp p.val ≠ Config.NIL := fun e => hnil (Fin.ext (hval.trans e))
      rw [hval] at hcmp
      obtain ⟨hs', hlong⟩ := hs.visit (o := o) ok hq hqr hn hnF hne hcmp
      rcases hcase with ⟨hfull, -, rfl⟩ | h
      · exact hlong (hnF.trans hfull)
      · exact ih (hval ▸ hs') h

/-- At the root of `r`'s bucket every position with a byte in common with `r` is ahead. -/
theorem Searching.start {b : Byte} (ok : FinderOk tb m0) (hq : InTree m0 q) (hqr : SharePrefix tb q r.toNat n) (hn : 0 < n)
    (hl : SameLinks m0 m) (hb : winRead tb r.toNat = .ok b) :
    Searching tb m0 r.toNat q n 1 (lookupIdx b).val m := by
  have hroot : (lookupIdx b).val = Config.N + 1 + keyByte tb r.toNat 0 := by
    rw [winRead_eq_ok hb]
    exact Nat.mod_eq_of_lt (by have := (winAt tb r.toNat).isLt; omega)
  have hbyte : keyByte tb r.toNat 0 < 256 := (winAt tb (r.toNat + 0)).isLt
  have hbelow : Below m0 (Config.N + 1 + keyByte tb r.toNat 0) q := hqr 0 hn ▸ ok.bucket q hq
  rw [hroot]
  refine ⟨hl, .inr ⟨⟨by omega, by omega⟩, by decide⟩, .refl .., .inr ?_⟩
  rcases ok.below_cases hq hbelow with e | ha | ⟨hx, -⟩
  · exact absurd (e ▸ hq.1) (by omega)
  · exact ha
  · exact absurd hx.1 (by omega)

end Search

/-! ### What INSERT_NODE writes (R57, R60) -/

/-- A write of a child link outside the tree leaves the links of the tree. -/
theorem setRson_sameLinks {m0 m m' : MatchFinder} {i : Nat} {v : Idx} (w : m.wf = true) (hi : i < Config.N)
    (hin : ¬ InTree m0 i) (hl : SameLinks m0 m) (h : setRson i v m = .ok m') : SameLinks m0 m' := fun x hx => by
  have hne : x ≠ i := by rintro rfl; exact hx.elim hin fun hs => absurd hs.1 (by omega)
  unfold setRson at h
  split_ifs at h
  cases h
  exact ⟨(hl x hx).1, by rw [rsonOf_sparseSet w, if_neg hne, (hl x hx).2]⟩

theorem setLson_sameLinks {m0 m m' : MatchFinder} {i : Nat} {v : Idx} (w : m.wf = true) (hi : i < Config.N)
    (hin : ¬ InTree m0 i) (hl : SameLinks m0 m) (h : setLson i v m = .ok m') : SameLinks m0 m' := fun x hx => by
  have hne : x ≠ i := by rintro rfl; exact hx.elim hin fun hs => absurd hs.1 (by omega)
  unfold setLson at h
  split_ifs at h
  cases h
  exact ⟨by rw [lsonOf_sparseSet w, if_neg hne, (hl x hx).1], (hl x hx).2⟩

theorem posIdx_val (r : BitVec 12) : (posIdx r).val = r.toNat :=
  Nat.mod_eq_of_lt (r.isLt.trans (by decide))

/-- Clearing a position that is not in the tree leaves the links of the tree. -/
theorem clearNode_sameLinks {m m' : MatchFinder} {r : BitVec 12} (w : m.wf = true) (hr : ¬ InTree m r.toNat)
    (h : clearNode (posIdx r) m = .ok m') : SameLinks m m' := by
  obtain ⟨m1, h1, h⟩ := bind_eq_ok.1 h
  obtain ⟨m2, h2, h⟩ := bind_eq_ok.1 h
  cases h
  have w1 := setRson_wf w h1
  rw [posIdx_val] at h1 h2
  have hrson : SameLinks m m1 := setRson_sameLinks w r.isLt hr (fun _ _ => ⟨rfl, rfl⟩) h1
  have hlson : SameLinks m m2 := setLson_sameLinks w1 r.isLt hr hrson h2
  exact fun x hx => hlson x hx

theorem setLson_matchLength {m m' : MatchFinder} {i : Nat} {v : Idx} (h : setLson i v m = .ok m') :
    m'.matchLength = m.matchLength := by
  unfold setLson at h
  split_ifs at h
  cases h; rfl

theorem setRson_matchLength {m m' : MatchFinder} {i : Nat} {v : Idx} (h : setRson i v m = .ok m') :
    m'.matchLength = m.matchLength := by
  unfold setRson at h
  split_ifs at h
  cases h; rfl

theorem setDad_matchLength {m m' : MatchFinder} {i : Nat} {v : Idx} (h : setDad i v m = .ok m') :
    m'.matchLength = m.matchLength := by
  unfold setDad at h
  split_ifs at h
  cases h; rfl

theorem hangInPlace_matchLength {m m' : MatchFinder} {q p x : Idx} (h : hangInPlace q p x m = .ok m') :
    m'.matchLength = m.matchLength := by
  obtain ⟨c, -, h⟩ := bind_eq_ok.1 h
  split_ifs at h
  · exact setRson_matchLength h
  · exact setLson_matchLength h

theorem replaceNode_matchLength {m m' : MatchFinder} {r p : Idx} (h : replaceNode r p m = .ok m') :
    m'.matchLength = m.matchLength := by
  obtain ⟨_, -, h⟩ := bind_eq_ok.1 h
  obtain ⟨_, h1, h⟩ := bind_eq_ok.1 h
  obtain ⟨_, -, h⟩ := bind_eq_ok.1 h
  obtain ⟨_, h2, h⟩ := bind_eq_ok.1 h
  obtain ⟨_, -, h⟩ := bind_eq_ok.1 h
  obtain ⟨_, h3, h⟩ := bind_eq_ok.1 h
  obtain ⟨_, -, h⟩ := bind_eq_ok.1 h
  obtain ⟨_, h4, h⟩ := bind_eq_ok.1 h
  obtain ⟨_, -, h⟩ := bind_eq_ok.1 h
  obtain ⟨_, h5, h⟩ := bind_eq_ok.1 h
  obtain ⟨_, -, h⟩ := bind_eq_ok.1 h
  obtain ⟨_, h6, h⟩ := bind_eq_ok.1 h
  rw [setDad_matchLength h, hangInPlace_matchLength h6, setDad_matchLength h5, setDad_matchLength h4,
    setRson_matchLength h3, setLson_matchLength h2, setDad_matchLength h1]

/-- Linking the new node in does not touch the match found. -/
theorem linkAt_matchLength {m m' : MatchFinder} {r : Idx} {site : InsertSite} (h : linkAt r site m = .ok m') :
    m'.matchLength = m.matchLength := by
  cases site with
  | rightOf p =>
    obtain ⟨_, h1, h⟩ := bind_eq_ok.1 h
    rw [setDad_matchLength h, setRson_matchLength h1]
  | leftOf p =>
    obtain ⟨_, h1, h⟩ := bind_eq_ok.1 h
    rw [setDad_matchLength h, setLson_matchLength h1]
  | replaces p => exact replaceNode_matchLength h

/-! ### The longest match (R2, R57) -/

theorem execInsertNode_eq_next {r : BitVec 12} {s t : State} :
    exec (.insertNode r) s = .next t ↔ ∃ m, insertNode s.textBuf r s.mf = .ok m ∧ t = setMf m s := by
  rw [show exec (.insertNode r) s = outcome ((insertNode s.textBuf r s.mf).map fun m => setMf m s) from rfl,
    outcome_eq_next, map_eq_ok]
  simp only [eq_comm]

/-- INSERT_NODE finds a match as long as any position in the tree offers, where that is above THRESHOLD. -/
theorem insertNode_longest {tb : List Host.Cell} {m m' : MatchFinder} {r : BitVec 12} {q n : Nat} (w : m.wf = true)
    (ok : FinderOk tb m) (hr : ¬ InTree m r.toNat) (h : insertNode tb r m = .ok m') (hq : InTree m q) (hnF : n ≤ Config.F)
    (hqr : SharePrefix tb q r.toNat n) (hn : Config.THRESHOLD < n) : n ≤ m'.matchLength.toNat := by
  obtain ⟨b, hb, h⟩ := bind_eq_ok.1 h
  obtain ⟨m1, hclear, h⟩ := bind_eq_ok.1 h
  obtain ⟨⟨site, m2⟩, hwalk, hlink⟩ := bind_eq_ok.1 h
  have hstart := Searching.start ok hq hqr (Nat.zero_lt_of_lt hn) (clearNode_sameLinks w hr hclear) hb
  rw [linkAt_matchLength hlink]
  exact hstart.finds ok hq hqr hn hnF hwalk

/-- Settles O35: the walk descends to the side on which a position with more bytes in common must hang. -/
theorem insertNodeFindsTheLongestMatch : Obligations.InsertNodeFindsTheLongestMatch := by
  intro s t r q n w ok hr hexec hq hnF hqr
  obtain ⟨-, -, -, wmf, -⟩ := memory_wf_iff.1 w
  obtain ⟨m, hm, rfl⟩ := execInsertNode_eq_next.1 hexec
  rcases Nat.lt_or_ge Config.THRESHOLD n with hn | hn
  · exact .inr (insertNode_longest wmf ok hr hm hq hnF hqr hn)
  · exact .inl hn

end Sys2Proof.Machine

/-! PROOFS. The interface: the values of `CMD`, the registers and the buffers as the host reaches them (R23, R24, R37), and that no
instruction writes what belongs to the host (R24, R130). -/

namespace Sys2Proof.Machine

open Sys2Proof

/-! ### What comes from outside (log entry 5) -/

theorem step_of_input {s : State} {a : Input} {rest : List Input} (h : s.inputs = a :: rest) :
    step s = takeInput a { s with inputs := rest } := by
  rw [step, h]

theorem step_of_no_input {s : State} (h : s.inputs = []) : step s = outcome (coreStep s) := by
  rw [step, h]

/-- A write of register 0 runs the instruction of the two low bits. -/
theorem hostWriteReg_cmd (v : BitVec 64) (s : State) : hostWriteReg 0 v s = exec (decodeCmd (v.toNat % 4)) s := by
  simp [hostWriteReg, runWord, decode]

/-- Settles O7: the start tests BUSY, and the port takes the value mod 4. -/
theorem commandWritesStartOrAreIgnored : Obligations.CommandWritesStartOrAreIgnored := by
  refine ⟨fun _ => rfl, fun _ => rfl, fun s v rest h => ?_⟩
  have hstep : step s = exec (decodeCmd (v.toNat % 4)) { s with inputs := rest } :=
    (step_of_input h).trans (hostWriteReg_cmd v _)
  refine ⟨fun hv => ?_, fun hv => ?_, fun hv => ?_, fun hv => ?_⟩ <;> rw [hstep, hv] <;> rfl

/-- Settles O8: both instructions answer the state itself, and `phase` has 14 values. -/
theorem reservedCommandsChangeNothing : Obligations.ReservedCommandsChangeNothing := by
  refine ⟨fun _ => rfl, fun _ => rfl, fun p => ?_⟩
  cases p <;> decide

/-! ### The registers (R23) -/

theorem step_readReg {s : State} {n : BitVec 3} {rest : List Input} (h : s.inputs = .readReg n :: rest) :
    step s = hostReadReg n { s with inputs := rest } := step_of_input h

/-- A readable register is read where the port lets the host read it. -/
theorem hostReadReg_of_value {n : BitVec 3} {s : State} {v : BitVec 64} (hv : registerValue n.toNat s = some v)
    (hn : n.toNat ≤ 5) (hb : n.toNat = 5 → busy s = false) : hostReadReg n s = .next { s with hostData := v } := by
  rw [hostReadReg, if_neg (Nat.not_lt.2 hn), if_neg (fun h => by simp [hb h.1] at h), hv]

/-- The register `STATUS`, field by field. -/
theorem statusReg_fields (p : Phase) : ((statusReg p).setWidth 64).extractLsb' 0 4 = p.bits
    ∧ ((statusReg p).setWidth 64).getLsbD 4 = decide (1 ≤ p.bits.toNat ∧ p.bits.toNat ≤ 11)
    ∧ ((statusReg p).setWidth 64).getLsbD 5 = decide (p.bits = 12)
    ∧ ((statusReg p).setWidth 64).getLsbD 6 = decide (p.bits = 13)
    ∧ ((statusReg p).setWidth 64).getLsbD 7 = false := by
  cases p <;> decide

/-- `STATUS` reads 0 above FAULT. -/
theorem statusReg_above (p : Phase) {k : Nat} (hk : 7 ≤ k) : ((statusReg p).setWidth 64).getLsbD k = false := by
  obtain ⟨-, -, -, -, h7⟩ := statusReg_fields p
  rcases hk.eq_or_lt with rfl | hk
  · exact h7
  · rw [BitVec.getLsbD_setWidth, BitVec.getLsbD_of_ge _ _ hk, Bool.and_false]

/-- Settles O9: register by register. -/
theorem hostReadsEachRegister : Obligations.HostReadsEachRegister := by
  intro s n rest h
  rw [step_readReg h]
  refine ⟨fun hn => ?_, fun hn => ?_, fun hn => ?_, fun hn => ?_, fun hn => ?_, fun hn hb => ?_, fun hn hb => ?_, fun hn => ?_⟩
  · simp [hostReadReg, registerValue, hn]
  · exact hostReadReg_of_value (by rw [hn]; rfl) (by omega) (by omega)
  · obtain ⟨h0, h4, h5, h6, -⟩ := statusReg_fields s.phase
    exact ⟨_, hostReadReg_of_value (by rw [hn]; rfl) (by omega) (by omega), rfl, h0, h4, h5, h6,
      fun k hk => statusReg_above s.phase hk⟩
  · exact hostReadReg_of_value (by rw [hn]; rfl) (by omega) (by omega)
  · exact hostReadReg_of_value (by rw [hn]; rfl) (by omega) (by omega)
  · exact hostReadReg_of_value (by rw [hn]; rfl) (by omega) fun _ => hb
  · have hb' : busy { s with inputs := rest } = true := hb
    rw [hostReadReg, if_neg (by omega), if_pos ⟨hn, hb'⟩]
  · rw [hostReadReg, if_pos hn]

/-! ### The buffers (R24) -/

/-- A write of `IN` writes one byte. -/
theorem inAt_write {s : State} (w : Memory.wf s = true) (k : BitVec 64) (b : Byte) (j : Nat) :
    sparseGet bufferDefault (sparseSet bufferDefault s.inBuf k.toNat b) j = if j = k.toNat then b else inAt s j :=
  sparseGet_sparseSet (memory_wf_iff.1 w).1

/-- Settles O10: the ports test BUSY, then reach one byte or one register. -/
theorem hostReachesBuffersOutsideCommands : Obligations.HostReachesBuffersOutsideCommands := by
  refine ⟨fun s k b rest h => ?_, fun s v rest h => ?_, fun s n v rest h => ?_, fun s k rest h => ?_⟩ <;>
    rw [step_of_input h]
  · refine ⟨fun hb => if_pos hb, fun hb w => ⟨_, if_neg (Bool.eq_false_iff.1 hb), rfl, inAt_write w k b⟩⟩
  · exact ⟨fun hb => if_pos hb, fun hb => if_neg (Bool.eq_false_iff.1 hb)⟩
  · refine ⟨fun h2 h5 => ?_, fun h5 => if_pos h5⟩
    rw [takeInput, hostWriteReg, if_neg (by omega), if_neg (by omega), if_neg (by omega)]
  · refine ⟨fun hb => if_pos hb, fun hb hk => ?_⟩
    exact (if_neg (Bool.eq_false_iff.1 hb)).trans (if_pos hk)

end Sys2Proof.Machine

/-! PROOFS. Who writes what: the host's part, the decoder's part and the encoder's part of the state, and which operations leave
each alone (R15, R24, R27, R90, R130). -/

namespace Sys2Proof.Machine

open Sys2Proof

/-- The input and what else only the host changes. -/
def hostPart (s : State) : List Host.Cell × BitVec 64 × List Input × BitVec 64 := (s.inBuf, s.inLen, s.inputs, s.hostData)

/-- The part of the state that is the decoder's alone. -/
def decoderPart (s : State) : DecodeRegs × BitVec 64 × BitVec 16 := (s.dec, s.rdBitpos, s.ret)

/-- The part of the state that is the encoder's alone. -/
def encoderPart (s : State) : MatchFinder × EncodeRegs × BitWriter × BitVec 16 := (s.mf, s.enc, s.wr, s.ret)

/-- What no step of COMPRESS writes. -/
def CompressKeeps (s t : State) : Prop := hostPart t = hostPart s ∧ decoderPart t = decoderPart s

/-- What no step of DECOMPRESS writes. -/
def DecompressKeeps (s t : State) : Prop := hostPart t = hostPart s ∧ encoderPart t = encoderPart s

theorem compressKeeps_iff {s t : State} : CompressKeeps s t ↔ (t.inBuf = s.inBuf ∧ t.inLen = s.inLen ∧ t.inputs = s.inputs
    ∧ t.hostData = s.hostData) ∧ t.dec = s.dec ∧ t.rdBitpos = s.rdBitpos ∧ t.ret = s.ret := by
  simp only [CompressKeeps, hostPart, decoderPart, Prod.mk.injEq]

theorem decompressKeeps_iff {s t : State} : DecompressKeeps s t ↔ (t.inBuf = s.inBuf ∧ t.inLen = s.inLen
    ∧ t.inputs = s.inputs ∧ t.hostData = s.hostData) ∧ t.mf = s.mf ∧ t.enc = s.enc ∧ t.wr = s.wr ∧ t.ret = s.ret := by
  simp only [DecompressKeeps, hostPart, encoderPart, Prod.mk.injEq]

theorem CompressKeeps.refl (s : State) : CompressKeeps s s := ⟨rfl, rfl⟩

theorem DecompressKeeps.refl (s : State) : DecompressKeeps s s := ⟨rfl, rfl⟩

theorem CompressKeeps.trans {s t u : State} (h : CompressKeeps s t) (h' : CompressKeeps t u) : CompressKeeps s u :=
  ⟨h'.1.trans h.1, h'.2.trans h.2⟩

theorem DecompressKeeps.trans {s t u : State} (h : DecompressKeeps s t) (h' : DecompressKeeps t u) :
    DecompressKeeps s u :=
  ⟨h'.1.trans h.1, h'.2.trans h.2⟩

/-! ### The rows of COMPRESS -/

theorem putCode_keeps (l : Nat) (v : BitVec 32) (s : State) : CompressKeeps s (putCode l v s) := by
  rw [putCode_frame]; simp [compressKeeps_iff]

theorem encodePosition_keeps (P : PosTable) (o : BitVec 12) (s : State) : CompressKeeps s (encodePosition o s P) := by
  rw [encodePosition_frame]; simp [compressKeeps_iff]

theorem flushBits_keeps (s : State) : CompressKeeps s (flushBits s) := by
  rw [flushBits_frame]; simp [compressKeeps_iff]

theorem encodeChar_keeps {c : Nat} {s t : State} (e : encodeChar c s = .ok t) : CompressKeeps s t := by
  obtain ⟨l, code, h, -, -, rfl⟩ := encodeChar_eq_ok.1 e
  exact putCode_keeps l code s

theorem insertAt_keeps {r : BitVec 12} {s t : State} (e : insertAt r s = .ok t) : CompressKeeps s t := by
  obtain ⟨m, -, rfl⟩ := insertAt_eq_ok.1 e
  exact .refl s

theorem deleteAt_keeps {p : BitVec 12} {s t : State} (e : deleteAt p s = .ok t) : CompressKeeps s t := by
  obtain ⟨m, -, rfl⟩ := deleteAt_eq_ok.1 e
  exact .refl s

theorem foldl_outAppend_keeps (l : List Byte) (s : State) : CompressKeeps s (l.foldl (fun t v => outAppend v t) s) := by
  induction l generalizing s with
  | nil => exact .refl s
  | cons v l ih => exact ih (outAppend v s)

theorem stepEHdr_keeps (s : State) : CompressKeeps s (stepEHdr s) := by
  simp only [stepEHdr]
  split
  · exact .refl s
  · exact foldl_outAppend_keeps _ (clearResults s)

theorem preload_keeps {n : Nat} {s t : State} (e : preload n s = .ok t) : CompressKeeps s t := by
  induction n generalizing s with
  | zero =>
    obtain rfl := Except.ok.inj e
    exact .refl _
  | succ n ih =>
    unfold preload at e
    split at e
    · obtain ⟨c, -, e⟩ := bind_eq_ok.1 e
      have h := ih e
      exact h
    · obtain rfl := Except.ok.inj e
      exact .refl _

theorem stepEInit_keeps {s t : State} (e : stepEInit s = .ok t) : CompressKeeps s t := by
  obtain ⟨u, hu, e⟩ := bind_eq_ok.1 e
  have hinit : CompressKeeps s (initEncode s) := by simp [compressKeeps_iff]
  have h := hinit.trans (preload_keeps hu)
  obtain rfl := Except.ok.inj e
  exact h

theorem stepEPrime_keeps {s t : State} (e : stepEPrime s = .ok t) : CompressKeeps s t := by
  obtain ⟨u, hu, e⟩ := bind_eq_ok.1 e
  obtain ⟨v, hv, e⟩ := bind_eq_ok.1 e
  have hsu : CompressKeeps s u := forUpM_inv (P := CompressKeeps s) (fun _ _ _ _ _ h e => h.trans (insertAt_keeps e)) (.refl s) hu
  have h := hsu.trans (insertAt_keeps hv)
  obtain rfl := Except.ok.inj e
  exact h

theorem clamp_keeps (s : State) : CompressKeeps s (clamp s) := by
  unfold clamp
  split <;> exact .refl s

theorem emitToken_keeps {P : PosTable} {s t : State} (e : emitToken s P = .ok t) : CompressKeeps s t := by
  unfold emitToken at e
  split_ifs at e
  · obtain ⟨b, -, e⟩ := bind_eq_ok.1 e
    have h := encodeChar_keeps e
    exact h
  · obtain ⟨u, hu, e⟩ := bind_eq_ok.1 e
    rw [← Except.ok.inj e]
    exact (encodeChar_keeps hu).trans (encodePosition_keeps ..)

theorem stepEEmit_keeps {P : PosTable} {s t : State} (e : stepEEmit s P = .ok t) : CompressKeeps s t := by
  obtain ⟨u, hu, e⟩ := bind_eq_ok.1 e
  have h := (clamp_keeps s).trans (emitToken_keeps hu)
  obtain rfl := Except.ok.inj e
  exact h

theorem stepEAdvIn_keeps {s t : State} (e : stepEAdvIn s = .ok t) : CompressKeeps s t := by
  obtain ⟨c, -, e⟩ := bind_eq_ok.1 e
  obtain ⟨u, hu, e⟩ := bind_eq_ok.1 e
  obtain ⟨v, hv, e⟩ := bind_eq_ok.1 e
  have hsu := deleteAt_keeps hu
  have huv := insertAt_keeps hv
  have h : CompressKeeps s v := CompressKeeps.trans (t := u) hsu huv
  obtain rfl := Except.ok.inj e
  exact h

theorem insertWhileAny_keeps {s t : State} (e : insertWhileAny s = .ok t) : CompressKeeps s t := by
  unfold insertWhileAny at e
  split at e
  · exact insertAt_keeps e
  · obtain rfl := Except.ok.inj e
    exact .refl _

theorem stepEAdvDrain_keeps {s t : State} (e : stepEAdvDrain s = .ok t) : CompressKeeps s t := by
  obtain ⟨u, hu, e⟩ := bind_eq_ok.1 e
  obtain ⟨v, hv, e⟩ := bind_eq_ok.1 e
  have hsu := deleteAt_keeps hu
  have huv := insertWhileAny_keeps hv
  have h : CompressKeeps s v := CompressKeeps.trans (t := u) hsu huv
  obtain rfl := Except.ok.inj e
  exact h

theorem stepEFlush_keeps (s : State) : CompressKeeps s (stepEFlush s) := flushBits_keeps s

/-! ### The rows of DECOMPRESS -/

theorem decodeChar_keeps {c : Nat} {s t : State} (e : decodeChar s = .ok (c, t)) : DecompressKeeps s t := by
  obtain ⟨u, h, hu, -, rfl⟩ := decodeChar_eq_ok.1 e
  have : DecompressKeeps s u := by rw [decodeWalk_frame hu]; simp [decompressKeeps_iff]
  exact this

theorem decodePosition_keeps (P : PosTable) (s : State) : DecompressKeeps s (decodePosition s P).2 := by
  rw [decodePosition_state]; simp [decompressKeeps_iff]

theorem stepDHdr_keeps {s t : State} (e : stepDHdr s = .ok t) : DecompressKeeps s t := by
  unfold stepDHdr at e
  simp only at e
  split at e
  · obtain rfl := Except.ok.inj e
    exact .refl _
  · obtain ⟨n, -, e⟩ := bind_eq_ok.1 e
    cases e; exact .refl s

theorem stepDInit_keeps (s : State) : DecompressKeeps s (stepDInit s) := by
  simp [decompressKeeps_iff]

theorem stepDSymbol_keeps {P : PosTable} {s t : State} (e : stepDSymbol s P = .ok t) : DecompressKeeps s t := by
  obtain ⟨⟨c, u⟩, hu, e⟩ := bind_eq_ok.1 e
  simp only at e
  split at e
  · have h := decodeChar_keeps hu
    obtain rfl := Except.ok.inj e
    exact h
  · exact Except.ok.inj e ▸ (decodeChar_keeps hu).trans (decodePosition_keeps P (setSym c u))

theorem stepDCopy_keeps {s t : State} (e : stepDCopy s = .ok t) : DecompressKeeps s t := by
  unfold stepDCopy at e
  split at e
  · obtain rfl := Except.ok.inj e
    exact .refl _
  · obtain ⟨c, -, e⟩ := bind_eq_ok.1 e
    cases e; exact .refl s

/-! ### The core's step and the whole commands -/

/-- A step of the core is a waiting step, a row of COMPRESS or a row of DECOMPRESS. -/
theorem coreStep_keeps {P : PosTable} {s t : State} (e : coreStep s P = .ok t) : CompressKeeps s t ∨ DecompressKeeps s t := by
  unfold coreStep at e
  split at e
  · exact Except.ok.inj e ▸ .inl (.refl s)
  · exact Except.ok.inj e ▸ .inl (.refl s)
  · exact Except.ok.inj e ▸ .inl (.refl s)
  · exact Except.ok.inj e ▸ .inl (stepEHdr_keeps s)
  · exact .inl (stepEInit_keeps e)
  · exact .inl (stepEPrime_keeps e)
  · exact .inl (stepEEmit_keeps e)
  · exact .inl (stepEAdvIn_keeps e)
  · exact .inl (stepEAdvDrain_keeps e)
  · exact Except.ok.inj e ▸ .inl (stepEFlush_keeps s)
  · exact .inr (stepDHdr_keeps e)
  · exact Except.ok.inj e ▸ .inr (stepDInit_keeps s)
  · exact .inr (stepDSymbol_keeps e)
  · exact .inr (stepDCopy_keeps e)

theorem coreStep_hostPart {P : PosTable} {s t : State} (e : coreStep s P = .ok t) : hostPart t = hostPart s :=
  (coreStep_keeps e).elim And.left And.left

theorem startCommand_hostPart (p : Phase) (s : State) : hostPart (startCommand p s) = hostPart s := by
  unfold startCommand
  split <;> rfl

theorem wholeCommand_hostPart {P : PosTable} {p : Phase} {s t : State} (e : wholeCommand p s P = .ok t) :
    hostPart t = hostPart s := by
  unfold wholeCommand at e
  split at e
  · obtain rfl := Except.ok.inj e
    rfl
  · exact runCommand_inv (P := fun u => hostPart u = hostPart s) (fun _ _ h e => (coreStep_hostPart e).trans h)
      (startCommand_hostPart p s) e

/-! ### The stream's elements and the instructions -/

theorem takeSymbolCode_hostPart {c : Nat} {s t : State} (e : takeSymbolCode c s = .ok t) : hostPart t = hostPart s := by
  obtain ⟨⟨l, code⟩, -, e⟩ := bind_eq_ok.1 e
  obtain ⟨h, -, e⟩ := bind_eq_ok.1 e
  cases e; rfl

theorem copyAll_hostPart {n : Nat} {s t : State} (e : copyAll n s = .ok t) : hostPart t = hostPart s := by
  induction n generalizing s with
  | zero =>
    obtain rfl := Except.ok.inj e
    rfl
  | succ n ih =>
    unfold copyAll at e
    split at e
    · obtain ⟨u, hu, e⟩ := bind_eq_ok.1 e
      exact (ih e).trans (stepDCopy_keeps hu).1
    · obtain rfl := Except.ok.inj e
      rfl

theorem setRet_hostPart (v : BitVec 16) (s : State) : hostPart (setRet v s) = hostPart s := rfl

theorem setMf_hostPart (m : MatchFinder) (s : State) : hostPart (setMf m s) = hostPart s := rfl

theorem setHuff_hostPart (h : Huffman) (s : State) : hostPart (setHuff h s) = hostPart s := rfl

theorem getByte_hostPart (s : State) : hostPart (setRet ((getByte s).1.setWidth 16) (getByte s).2) = hostPart s := by
  simp [hostPart, getByte_state]

theorem takePosCode_hostPart (i : Nat) (low : BitVec 6) (s : State) : hostPart (takePosCode i low s) = hostPart s := by
  simp [hostPart, takePosCode]

/-! What the instructions are, where a later proof takes their meaning apart. -/

theorem next_inj {s t : State} (e : (.next s : Out) = .next t) : s = t := by cases e; rfl

theorem exec_initTree (s : State) : exec .initTree s = .next (setMf (initTree s.mf) s) := rfl

theorem exec_deleteNode (p : BitVec 12) (s : State) :
    exec (.deleteNode p) s = outcome ((deleteNode p s.mf).map fun m => setMf m s) := rfl

theorem exec_startHuff (s : State) : exec .startHuff s = .next (setHuff (startHuff s.huff) s) := rfl

theorem exec_update (c : BitVec 9) (s : State) :
    exec (.update c) s = outcome ((update c.toNat s.huff).map fun h => setHuff h s) := rfl

theorem exec_reconst (s : State) : exec .reconst s = .next (setHuff (reconst s.huff) s) := rfl

theorem exec_decodeChar (s : State) :
    exec .decodeChar s = outcome ((decodeChar s).map fun cs => setRet (BitVec.ofNat 16 cs.1) cs.2) := rfl

theorem exec_encodePosition (o : BitVec 12) (s : State) :
    exec (.encodePosition o) s = .next (encodePosition o s) := rfl

theorem exec_decodePosition (s : State) :
    exec .decodePosition s = .next (setRet ((decodePosition s).1.setWidth 16) (decodePosition s).2) := rfl

theorem exec_lit (b : Byte) (s : State) : exec (.lit b) s = outcome ((takeSymbolCode b.toNat s).map takeLiteral) := rfl

/-- No instruction writes the host's part. -/
theorem exec_hostPart {i : Instr} {s t : State} (e : exec i s = .next t) : hostPart t = hostPart s := by
  cases i
  case initTree => rw [exec_initTree] at e; rw [← next_inj e, setMf_hostPart]
  case insertNode r =>
    obtain ⟨m, -, rfl⟩ := execInsertNode_eq_next.1 e
    rfl
  case deleteNode p =>
    rw [exec_deleteNode, outcome_eq_next, map_eq_ok] at e
    obtain ⟨m, -, rfl⟩ := e
    rfl
  case startHuff => rw [exec_startHuff] at e; rw [← next_inj e, setHuff_hostPart]
  case update c =>
    rw [exec_update, outcome_eq_next, map_eq_ok] at e
    obtain ⟨h, -, rfl⟩ := e
    rfl
  case reconst => rw [exec_reconst] at e; rw [← next_inj e, setHuff_hostPart]
  case encodeChar c => exact (encodeChar_keeps (outcome_eq_next.1 e)).1
  case decodeChar =>
    rw [exec_decodeChar, outcome_eq_next, map_eq_ok] at e
    obtain ⟨⟨c, u⟩, hu, rfl⟩ := e
    exact (decodeChar_keeps hu).1
  case encodePosition o => rw [exec_encodePosition] at e; exact next_inj e ▸ (encodePosition_keeps ..).1
  case decodePosition =>
    rw [exec_decodePosition] at e
    rw [← next_inj e, setRet_hostPart]
    exact (decodePosition_keeps _ s).1
  case putCode l v => exact next_inj e ▸ (putCode_keeps ..).1
  case flush => exact next_inj e ▸ (flushBits_keeps s).1
  case getByte => exact next_inj e ▸ getByte_hostPart s
  case compress => exact wholeCommand_hostPart (outcome_eq_next.1 e)
  case decompress => exact wholeCommand_hostPart (outcome_eq_next.1 e)
  case cmdCompress => exact next_inj e ▸ startCommand_hostPart _ s
  case cmdDecompress => exact next_inj e ▸ startCommand_hostPart _ s
  case lit b =>
    rw [exec_lit, outcome_eq_next, map_eq_ok] at e
    obtain ⟨u, hu, rfl⟩ := e
    have hsu := takeSymbolCode_hostPart hu
    exact hsu
  case matchTok m o =>
    obtain ⟨u, hu, e⟩ := bind_eq_ok.1 (outcome_eq_next.1 e)
    have hsu := takeSymbolCode_hostPart hu
    exact (copyAll_hostPart e).trans hsu
  case hdr | pad | cmdReserved0 | cmdReserved3 | getBit | lookup | offset | symOfLen | lenOfSym => exact next_inj e ▸ rfl
  all_goals exact next_inj e ▸ takePosCode_hostPart ..

theorem hostPart_eq_iff {s t : State} : hostPart t = hostPart s ↔
    t.inBuf = s.inBuf ∧ t.inLen = s.inLen ∧ t.inputs = s.inputs ∧ t.hostData = s.hostData := by
  simp only [hostPart, Prod.mk.injEq]

/-- Settles O52: operation by operation, none of them writes the host's part. -/
theorem coreNeverWritesItsInput : Obligations.CoreNeverWritesItsInput := by
  refine ⟨fun i s t e => hostPart_eq_iff.1 (exec_hostPart e), fun s t hs e => hostPart_eq_iff.1 ?_⟩
  rw [step_of_no_input hs] at e
  exact coreStep_hostPart (outcome_eq_next.1 e)

/-! ### The commands keep apart (R15, R27, R90) -/

/-- A phase of COMPRESS, from its start to its end. -/
def Phase.ofCompress : Phase → Bool
  | .eHdr | .eInit | .ePrime | .eEmit | .eAdvIn | .eAdvDrain | .eFlush | .done | .fault => true
  | .idle | .dHdr | .dInit | .dSymbol | .dCopy => false

/-- A phase of DECOMPRESS, from its start to its end. -/
def Phase.ofDecompress : Phase → Bool
  | .dHdr | .dInit | .dSymbol | .dCopy | .done | .fault => true
  | .idle | .eHdr | .eInit | .ePrime | .eEmit | .eAdvIn | .eAdvDrain | .eFlush => false

/-- A row of DECOMPRESS goes to a row of DECOMPRESS or ends it. -/
theorem stepDHdr_phase {s t : State} (e : stepDHdr s = .ok t) : t.phase = .fault ∨ t.phase = .done ∨ t.phase = .dInit := by
  unfold stepDHdr at e
  simp only at e
  split at e
  · exact .inl (Except.ok.inj e ▸ rfl)
  · obtain ⟨n, -, e⟩ := bind_eq_ok.1 e
    rw [← Except.ok.inj e, takeHeader_phase]
    split <;> simp

theorem afterOutput_cases (s : State) : afterOutput s = .dSymbol ∨ afterOutput s = .done := by
  unfold afterOutput
  split <;> simp

theorem stepDSymbol_phase {P : PosTable} {s t : State} (e : stepDSymbol s P = .ok t) :
    t.phase = .dCopy ∨ t.phase = .dSymbol ∨ t.phase = .done := by
  obtain ⟨⟨c, u⟩, -, e⟩ := bind_eq_ok.1 e
  simp only at e
  split at e
  · exact .inr (Except.ok.inj e ▸ afterOutput_cases _)
  · exact .inl (Except.ok.inj e ▸ rfl)

theorem stepDCopy_phase {s t : State} (e : stepDCopy s = .ok t) :
    t.phase = .fault ∨ t.phase = .dCopy ∨ t.phase = .dSymbol ∨ t.phase = .done := by
  unfold stepDCopy at e
  split at e
  · exact .inl (Except.ok.inj e ▸ rfl)
  · obtain ⟨c, -, e⟩ := bind_eq_ok.1 e
    rw [← Except.ok.inj e, setPhase_phase]
    split
    · simp
    · exact .inr (.inr (afterOutput_cases _))

theorem stepEHdr_phase (s : State) :
    (stepEHdr s).phase = if 2 ^ 32 ≤ s.inLen.toNat then .fault else if s.inLen = 0 then .done else .eInit := by
  obtain ⟨⟨-, hlen, -⟩, -⟩ := compressKeeps_iff.1 (foldl_outAppend_keeps (headerBytes (s.inLen.setWidth 32)) (clearResults s))
  simp only [stepEHdr, clearResults_inLen, hlen]
  by_cases h : 2 ^ 32 ≤ s.inLen.toNat
  · simp only [if_pos h, raiseFault_phase]
  · simp only [if_neg h, setPhase_phase]

theorem stepEInit_phase {s t : State} (e : stepEInit s = .ok t) : t.phase = .ePrime := by
  obtain ⟨u, -, e⟩ := bind_eq_ok.1 e
  exact Except.ok.inj e ▸ rfl

theorem stepEPrime_phase {s t : State} (e : stepEPrime s = .ok t) : t.phase = .eEmit := by
  obtain ⟨u, -, e⟩ := bind_eq_ok.1 e
  obtain ⟨v, -, e⟩ := bind_eq_ok.1 e
  exact Except.ok.inj e ▸ rfl

theorem stepEEmit_phase {P : PosTable} {s t : State} (e : stepEEmit s P = .ok t) :
    t.phase = if t.enc.inPos.toNat < t.inLen.toNat then .eAdvIn else .eAdvDrain := by
  obtain ⟨u, -, e⟩ := bind_eq_ok.1 e
  exact Except.ok.inj e ▸ rfl

theorem stepEAdvIn_phase {s t : State} (e : stepEAdvIn s = .ok t) :
    t.phase = if t.enc.lastMatchLength.toNat ≤ t.enc.advI.toNat then .eEmit
      else if t.enc.inPos.toNat < t.inLen.toNat then .eAdvIn else .eAdvDrain := by
  obtain ⟨c, -, e⟩ := bind_eq_ok.1 e
  obtain ⟨u, -, e⟩ := bind_eq_ok.1 e
  obtain ⟨v, -, e⟩ := bind_eq_ok.1 e
  exact Except.ok.inj e ▸ rfl

theorem stepEAdvDrain_phase {s t : State} (e : stepEAdvDrain s = .ok t) :
    t.phase = if t.enc.advI.toNat < t.enc.lastMatchLength.toNat then .eAdvDrain
      else if 0 < t.enc.len.toNat then .eEmit else .eFlush := by
  obtain ⟨u, -, e⟩ := bind_eq_ok.1 e
  obtain ⟨v, -, e⟩ := bind_eq_ok.1 e
  exact Except.ok.inj e ▸ rfl

/-- A step in a phase of COMPRESS stays in COMPRESS and leaves the decoder's part. -/
theorem coreStep_ofCompress {P : PosTable} {s t : State} (hs : s.phase.ofCompress = true) (e : coreStep s P = .ok t) :
    t.phase.ofCompress = true ∧ CompressKeeps s t := by
  unfold coreStep at e
  split at e
  case h_1 h | h_11 h | h_12 h | h_13 h | h_14 h => rw [h] at hs; exact absurd hs (by decide)
  case h_2 | h_3 => exact Except.ok.inj e ▸ ⟨hs, .refl s⟩
  case h_4 =>
    rw [← Except.ok.inj e]
    refine ⟨?_, stepEHdr_keeps s⟩
    rw [stepEHdr_phase]; split_ifs <;> rfl
  case h_5 => exact ⟨stepEInit_phase e ▸ rfl, stepEInit_keeps e⟩
  case h_6 => exact ⟨stepEPrime_phase e ▸ rfl, stepEPrime_keeps e⟩
  case h_7 =>
    refine ⟨?_, stepEEmit_keeps e⟩
    rw [stepEEmit_phase e]; split <;> rfl
  case h_8 =>
    refine ⟨?_, stepEAdvIn_keeps e⟩
    rw [stepEAdvIn_phase e]; split_ifs <;> rfl
  case h_9 =>
    refine ⟨?_, stepEAdvDrain_keeps e⟩
    rw [stepEAdvDrain_phase e]; split_ifs <;> rfl
  case h_10 => exact Except.ok.inj e ▸ ⟨rfl, stepEFlush_keeps s⟩

/-- A step in a phase of DECOMPRESS stays in DECOMPRESS and leaves the encoder's part. -/
theorem coreStep_ofDecompress {P : PosTable} {s t : State} (hs : s.phase.ofDecompress = true) (e : coreStep s P = .ok t) :
    t.phase.ofDecompress = true ∧ DecompressKeeps s t := by
  unfold coreStep at e
  split at e
  case h_1 h | h_4 h | h_5 h | h_6 h | h_7 h | h_8 h | h_9 h | h_10 h => rw [h] at hs; exact absurd hs (by decide)
  case h_2 | h_3 => exact Except.ok.inj e ▸ ⟨hs, .refl s⟩
  case h_11 =>
    refine ⟨?_, stepDHdr_keeps e⟩
    rcases stepDHdr_phase e with h | h | h <;> rw [h] <;> rfl
  case h_12 =>
    rw [← Except.ok.inj e]
    exact ⟨by rw [stepDInit_phase]; rfl, stepDInit_keeps s⟩
  case h_13 =>
    refine ⟨?_, stepDSymbol_keeps e⟩
    rcases stepDSymbol_phase e with h | h | h <;> rw [h] <;> rfl
  case h_14 =>
    refine ⟨?_, stepDCopy_keeps e⟩
    rcases stepDCopy_phase e with h | h | h | h <;> rw [h] <;> rfl

/-- A command that runs is its steps from its first phase on. -/
theorem wholeCommand_of_not_busy {P : PosTable} {p : Phase} {s : State} (hb : busy s = false) :
    wholeCommand p s P = runCommand commandFuel (setPhase p s) P := by
  have hb' : ¬ busy s = true := Bool.eq_false_iff.1 hb
  rw [wholeCommand, if_neg hb', startCommand, if_neg hb', setPhase]

theorem compress_keeps {P : PosTable} {s t : State} (hb : busy s = false) (e : wholeCommand .eHdr s P = .ok t) :
    CompressKeeps s t := by
  rw [wholeCommand_of_not_busy hb] at e
  have h := runCommand_inv (P := fun u => u.phase.ofCompress = true ∧ CompressKeeps s u) (s := setPhase .eHdr s)
    (fun u v ⟨hp, hk⟩ e => (coreStep_ofCompress hp e).imp_right hk.trans) ⟨rfl, .refl s⟩ e
  exact h.2

theorem decompress_keeps {P : PosTable} {s t : State} (hb : busy s = false) (e : wholeCommand .dHdr s P = .ok t) :
    DecompressKeeps s t := by
  rw [wholeCommand_of_not_busy hb] at e
  have h := runCommand_inv (P := fun u => u.phase.ofDecompress = true ∧ DecompressKeeps s u) (s := setPhase .dHdr s)
    (fun u v ⟨hp, hk⟩ e => (coreStep_ofDecompress hp e).imp_right hk.trans) ⟨rfl, .refl s⟩ e
  exact h.2

/-- Settles O53: a command's steps stay in its own rows, and each row leaves the other side's part alone. -/
theorem commandsKeepApart : Obligations.CommandsKeepApart := by
  refine ⟨fun s t hb e => ?_, fun s t hb e => ?_⟩
  · obtain ⟨-, hmf, henc, hwr, hret⟩ := decompressKeeps_iff.1 (decompress_keeps hb (outcome_eq_next.1 e))
    exact ⟨hmf, henc, hwr, hret⟩
  · obtain ⟨-, hdec, hrd, hret⟩ := compressKeeps_iff.1 (compress_keeps hb (outcome_eq_next.1 e))
    exact ⟨hdec, hrd, hret⟩

end Sys2Proof.Machine

/-! PROOFS. The initial Huffman tree (R66, R68): what START_HUFF leaves, whatever it finds, and that it meets R67. -/

namespace Sys2Proof.Machine

open Sys2Proof

/-! ### The tree that reads as unlisted everywhere -/

/-- The initial tree: every entry as an unlisted one reads. -/
abbrev initialTree : Huffman := { freq := [], son := [], prnt := [] }

theorem freqAt_initialTree (i : Nat) : freqAt initialTree i = freqDefault i := rfl

theorem sonAt_initialTree (i : Nat) : sonAt initialTree i = sonDefault i := rfl

theorem prntAt_initialTree (i : Nat) : prntAt initialTree i = prntDefault i := rfl

theorem eq_initialTree {h : Huffman} (hf : h.freq = []) (hs : h.son = []) (hp : h.prnt = []) : h = initialTree := by
  obtain ⟨_, _, _⟩ := h
  cases hf; cases hs; cases hp; rfl

theorem sonDefault_leaf {i : Nat} (h : i < 314) : (sonDefault i).val = i + 627 := by
  rw [sonDefault, if_pos h]
  exact Nat.mod_eq_of_lt (by omega)

theorem sonDefault_internal {i : Nat} (h : 314 ≤ i) (h' : i < 627) : (sonDefault i).val = 2 * (i - 314) := by
  rw [sonDefault, if_neg (by omega)]
  exact Nat.mod_eq_of_lt (by omega)

theorem prntDefault_node {i : Nat} (h : i < 626) : (prntDefault i).val = 314 + i / 2 := by
  rw [prntDefault, if_pos h]
  exact Nat.mod_eq_of_lt (by omega)

theorem prntDefault_leaf {c : Nat} (h : c < 314) : (prntDefault (c + 627)).val = c := by
  rw [prntDefault, if_neg (by omega), if_neg (by omega), Nat.add_sub_cancel]
  exact Nat.mod_eq_of_lt (by omega)

set_option maxRecDepth 10000 in
theorem freqDefault_order : ∀ i, i < 627 → (freqDefault i).toNat ≤ (freqDefault (i + 1)).toNat := by decide

set_option maxRecDepth 10000 in
/-- The frequencies of the internal nodes are sums (R67, H4). -/
theorem freqDefault_sum : ∀ j, j < 313 → freqDefault (314 + j) = freqDefault (2 * j) + freqDefault (2 * j + 1)
    ∧ (freqDefault (314 + j)).toNat = (freqDefault (2 * j)).toNat + (freqDefault (2 * j + 1)).toNat := by decide

theorem freqDefault_leaf {i : Nat} (h : i < 314) : freqDefault i = 1 := by rw [freqDefault, if_pos h]

/-- The initial tree meets R67: its leaves are the nodes below 314. -/
theorem initialTree_huffOk : HuffOk initialTree := by
  have hleaf : ∀ c, c < 314 → leafFreq initialTree c = 1 := fun c hc => by
    rw [leafFreq, prntAt_initialTree, prntDefault_leaf hc, freqAt_initialTree, freqDefault_leaf hc]
    rfl
  have hinternal : ∀ i, i < 627 → (sonDefault i).val < 627 → 314 ≤ i := fun i hi hs => by
    by_contra hlt
    rw [sonDefault_leaf (by omega)] at hs
    omega
  constructor
  case order => exact freqDefault_order
  case guard => rfl
  case shape =>
    intro i (hi : i < 627) (hs : (sonDefault i).val < 627)
    have h := hinternal i hi hs
    rw [sonAt_initialTree, sonDefault_internal h hi]
    omega
  case parent =>
    intro i (hi : i < 627)
    rcases Nat.lt_or_ge i 314 with h | h
    · rw [sonAt_initialTree, sonDefault_leaf h, prntAt_initialTree, prntDefault_leaf h]
    · rw [sonAt_initialTree, sonDefault_internal h hi, prntAt_initialTree, prntDefault_node (by omega)]
      omega
  case parentRight =>
    intro i (hi : i < 627) (hs : (sonDefault i).val < 627)
    have h := hinternal i hi hs
    rw [sonAt_initialTree, sonDefault_internal h hi, prntAt_initialTree, prntDefault_node (by omega)]
    omega
  case rootMark => rfl
  case child =>
    intro i (hi : i < 626)
    rw [prntAt_initialTree, prntDefault_node hi, sonAt_initialTree, sonDefault_internal (by omega) (by omega)]
    omega
  case sum =>
    intro i (hi : i < 627) (hs : (sonDefault i).val < 627)
    have h := hinternal i hi hs
    obtain ⟨-, hsum⟩ := freqDefault_sum (i - 314) (by omega)
    rw [Nat.add_sub_cancel' h] at hsum
    rw [sonAt_initialTree, sonDefault_internal h hi]
    exact hsum
  case leaf =>
    intro c (hc : c < 314)
    rw [prntAt_initialTree, prntDefault_leaf hc, sonAt_initialTree, sonDefault_leaf hc]
  case rootInternal => decide
  case leafPos => exact fun c hc => (hleaf c hc).ge
  case rootMax => decide
  case rootSum =>
    rw [List.map_congr_left (g := fun _ => 1) fun c hc => hleaf c (List.mem_range.1 hc), List.map_const', List.sum_replicate,
      List.length_range]
    rfl

/-! ### START_HUFF (R68) -/

/-- A value in range is stored as it is. -/
theorem val_ofNat {n v : Nat} [NeZero n] (h : v < n) : (Fin.ofNat n v).val = v := Nat.mod_eq_of_lt h

/-- The leaves below node `n` are those of the initial tree. -/
structure LeavesStarted (n : Nat) (h : Huffman) : Prop where
  wf : h.wf = true
  freq : ∀ i, i < n → freqAt h i = freqDefault i
  son : ∀ i, i < n → sonAt h i = sonDefault i
  prnt : ∀ c, c < n → prntAt h (c + 627) = prntDefault (c + 627)

theorem LeavesStarted.startLeaf {i : Nat} {h : Huffman} (hs : LeavesStarted i h) (hi : i < 314) :
    LeavesStarted (i + 1) (startLeaf i h) := by
  have hfreq : ∀ j, freqAt (Machine.startLeaf i h) j = if j = i then 1 else freqAt h j := fun j => freqAt_setFreq hs.wf i j 1
  have hson : ∀ j, sonAt (Machine.startLeaf i h) j = if j = i then Fin.ofNat 941 (i + 627) else sonAt h j := fun j =>
    sonAt_setSon (setFreq_wf hs.wf (by omega)) i j (i + 627)
  have hprnt : ∀ j, prntAt (Machine.startLeaf i h) j = if j = i + 627 then Fin.ofNat 627 i else prntAt h j := fun j =>
    prntAt_setPrnt (setSon_wf (setFreq_wf hs.wf (by omega)) (by omega)) (i + 627) j i
  refine ⟨startLeaf_wf hi hs.wf, fun j hj => ?_, fun j hj => ?_, fun c hc => ?_⟩
  · rw [hfreq]
    split_ifs with h1
    · rw [h1, freqDefault_leaf hi]
    · exact hs.freq j (by omega)
  · rw [hson]
    split_ifs with h1
    · rw [h1, sonDefault, if_pos hi]
    · exact hs.son j (by omega)
  · rw [hprnt]
    split_ifs with h1
    · obtain rfl : c = i := by omega
      exact Fin.ext ((val_ofNat (by omega)).trans (prntDefault_leaf hi).symm)
    · exact hs.prnt c (by omega)

/-- The nodes below `n`, and the parents of what they join, are those of the initial tree. -/
structure NodesStarted (n : Nat) (h : Huffman) : Prop where
  wf : h.wf = true
  freq : ∀ i, i < n → freqAt h i = freqDefault i
  son : ∀ i, i < n → sonAt h i = sonDefault i
  prntLeaf : ∀ c, c < 314 → prntAt h (c + 627) = prntDefault (c + 627)
  prntNode : ∀ i, i < 2 * (n - 314) → prntAt h i = prntDefault i

theorem NodesStarted.startInternal {j : Nat} {h : Huffman} (hs : NodesStarted j h) (hj : 314 ≤ j) (hj' : j < 627) :
    NodesStarted (j + 1) (startInternal j h) := by
  have hfreq : ∀ k, freqAt (Machine.startInternal j h) k =
      if k = j then freqAt h (2 * (j - 314)) + freqAt h (2 * (j - 314) + 1) else freqAt h k := fun k => freqAt_setFreq hs.wf j k _
  have hson : ∀ k, sonAt (Machine.startInternal j h) k = if k = j then Fin.ofNat 941 (2 * (j - 314)) else sonAt h k := fun k =>
    sonAt_setSon (setFreq_wf hs.wf (by omega)) j k _
  have w1 := setSon_wf (v := 2 * (j - 314))
    (setFreq_wf (i := j) (f := freqAt h (2 * (j - 314)) + freqAt h (2 * (j - 314) + 1)) hs.wf (by omega)) hj'
  have hprnt : ∀ k, prntAt (Machine.startInternal j h) k =
      if k = 2 * (j - 314) + 1 then Fin.ofNat 627 j else if k = 2 * (j - 314) then Fin.ofNat 627 j else prntAt h k := fun k =>
    (prntAt_setPrnt (setPrnt_wf (i := 2 * (j - 314)) (v := j) w1 (by omega)) _ k j).trans (by rw [prntAt_setPrnt w1]; rfl)
  refine ⟨startInternal_wf hj' hs.wf, fun k hk => ?_, fun k hk => ?_, fun c hc => ?_, fun k hk => ?_⟩
  · rw [hfreq]
    split_ifs with h1
    · obtain ⟨hsum, -⟩ := freqDefault_sum (j - 314) (by omega)
      rw [h1, hs.freq _ (by omega), hs.freq _ (by omega), ← hsum, Nat.add_sub_cancel' hj]
    · exact hs.freq k (by omega)
  · rw [hson]
    split_ifs with h1
    · rw [h1, sonDefault, if_neg (by omega)]
    · exact hs.son k (by omega)
  · rw [hprnt, if_neg (by omega), if_neg (by omega)]
    exact hs.prntLeaf c hc
  · rw [hprnt]
    split_ifs with h1 h2
    · exact Fin.ext (by rw [val_ofNat hj', prntDefault_node (by omega)]; omega)
    · exact Fin.ext (by rw [val_ofNat hj', prntDefault_node (by omega)]; omega)
    · rw [Nat.succ_sub hj] at hk
      exact hs.prntNode k (by omega)

/-- With the root's parent and the guard the tree is complete. -/
theorem NodesStarted.complete {h : Huffman} (hs : NodesStarted 627 h) :
    setPrnt 626 0 (setFreq 627 Config.FREQ_SENTINEL h) = initialTree := by
  have w1 := setFreq_wf (i := 627) (f := Config.FREQ_SENTINEL) hs.wf (by omega)
  obtain ⟨wfreq, wson, wprnt⟩ := Huffman.wf_iff.1 (setPrnt_wf (i := 626) (v := 0) w1 (by omega))
  have hfreq := sparse_ext wfreq (n := []) rfl fun i _ hi => by
    refine (freqAt_setFreq hs.wf 627 i Config.FREQ_SENTINEL).trans ?_
    split_ifs with h1
    · rw [h1]; rfl
    · exact hs.freq i (by omega)
  have hson := sparse_ext wson (n := []) rfl fun i _ hi => hs.son i hi
  have hprnt := sparse_ext wprnt (n := []) rfl fun i _ hi => by
    refine (prntAt_setPrnt w1 626 i 0).trans ?_
    split_ifs with h1
    · rw [h1]; rfl
    · rcases Nat.lt_or_ge i 626 with h2 | h2
      · exact hs.prntNode i (by omega)
      · have := hs.prntLeaf (i - 627) (by omega)
        rwa [Nat.sub_add_cancel (by omega)] at this
  exact eq_initialTree hfreq hson hprnt

/-- START_HUFF writes every entry of the three arrays: it leaves the initial tree. -/
theorem startHuff_eq {h : Huffman} (w : h.wf = true) : startHuff h = initialTree := by
  have hleaves := forUp_indexed (P := LeavesStarted) (f := startLeaf) (n := 314) (i := 0) (s := h)
    (fun j g _ h2 hs => hs.startLeaf (by omega)) ⟨w, by omega, by omega, by omega⟩
  have hnodes := forUp_indexed (P := NodesStarted) (f := startInternal) (n := 313) (i := 314)
    (fun j g h1 h2 hs => hs.startInternal h1 (by omega))
    ⟨hleaves.wf, hleaves.freq, hleaves.son, hleaves.prnt, by omega⟩
  exact hnodes.complete

theorem startHuff_huffOk {h : Huffman} (w : h.wf = true) : HuffOk (startHuff h) := by
  rw [startHuff_eq w]
  exact initialTree_huffOk

/-! ### Reset -/

theorem reset_writerOk : WriterOk State.reset := ⟨by decide, fun k _ => BitVec.getMsbD_zero⟩

/-- Settles O2: nothing is listed at reset, so the tree is the initial one. -/
theorem resetStateIsSafe : Obligations.ResetStateIsSafe :=
  ⟨⟨reset_memory_wf, reset_writerOk, initialTree_huffOk, by decide⟩, trivial⟩

end Sys2Proof.Machine

/-! PROOFS. The Huffman tree between operations and inside UPDATE (R67, R69): its links, its frequencies, and one level of the
climb. -/

namespace Sys2Proof.Machine

open Sys2Proof

/-! ### The links (R67, H2, H3, H5) -/

/-- `freq[i]` as a number. -/
def freqNat (h : Huffman) (i : Nat) : Nat := (freqAt h i).toNat

/-- `son[i]` as a number. -/
def sonNat (h : Huffman) (i : Nat) : Nat := (sonAt h i).val

/-- `prnt[i]` as a number. -/
def prntNat (h : Huffman) (i : Nat) : Nat := (prntAt h i).val

theorem sonNat_lt (h : Huffman) (i : Nat) : sonNat h i < 941 := (sonAt h i).isLt

theorem prntNat_lt (h : Huffman) (i : Nat) : prntNat h i < 627 := (prntAt h i).isLt

theorem hangsFrom_iff {h : Huffman} {i k : Nat} :
    HangsFrom h i k ↔ k = sonNat h i ∨ (sonNat h i < 627 ∧ k = sonNat h i + 1) := Iff.rfl

/-- The arrays `son` and `prnt` are one binary tree of 627 nodes whose leaves are the symbols. -/
structure LinksOk (h : Huffman) : Prop where
  /-- The children of an internal node are an even and the next node, both below it. -/
  shape : ∀ i, i < 627 → sonNat h i < 627 → sonNat h i % 2 = 0 ∧ sonNat h i + 1 < i
  /-- What hangs under a node has it as its parent. -/
  parent : ∀ i k, i < 627 → HangsFrom h i k → prntNat h k = i
  /-- What is no root hangs under its parent. -/
  child : ∀ k, k < 941 → k ≠ 626 → HangsFrom h (prntNat h k) k
  rootMark : prntNat h 626 = 0
  rootInternal : sonNat h 626 < 627

section Links

variable {h : Huffman}

theorem LinksOk.ne_root (hl : LinksOk h) {i k : Nat} (hi : i < 627) (hk : HangsFrom h i k) : k ≠ 626 := by
  rintro rfl
  have hs : sonNat h i < 627 := by rcases hangsFrom_iff.1 hk with hs | ⟨hs, -⟩ <;> omega
  obtain ⟨-, hlt⟩ := hl.shape i hi hs
  rcases hangsFrom_iff.1 hk with hk | ⟨-, hk⟩ <;> omega

/-- Two nodes have nothing in common under them. -/
theorem LinksOk.hangs_unique (hl : LinksOk h) {i j k : Nat} (hi : i < 627) (hj : j < 627) (hik : HangsFrom h i k)
    (hjk : HangsFrom h j k) : i = j :=
  (hl.parent i k hi hik).symm.trans (hl.parent j k hj hjk)

/-- The parent of a node is internal. -/
theorem LinksOk.prnt_internal (hl : LinksOk h) {k : Nat} (hk : k < 626) : sonNat h (prntNat h k) < 627 := by
  rcases hangsFrom_iff.1 (hl.child k (by omega) (by omega)) with hs | ⟨hs, -⟩ <;> omega

/-- A parent is above its child. -/
theorem LinksOk.lt_prnt (hl : LinksOk h) {k : Nat} (hk : k < 626) : k < prntNat h k := by
  obtain ⟨-, hlt⟩ := hl.shape _ (prntNat_lt h k) (hl.prnt_internal hk)
  rcases hangsFrom_iff.1 (hl.child k (by omega) (by omega)) with hs | ⟨-, hs⟩ <;> omega

/-- The node a symbol's entry names is its leaf. -/
theorem LinksOk.leaf (hl : LinksOk h) {c : Nat} (hc : c < 314) : sonNat h (prntNat h (c + 627)) = c + 627 := by
  rcases hangsFrom_iff.1 (hl.child (c + 627) (by omega) (by omega)) with hs | ⟨hs, hs'⟩
  · exact hs.symm
  · obtain ⟨-, hlt⟩ := hl.shape _ (prntNat_lt h (c + 627)) hs
    have := prntNat_lt h (c + 627)
    omega

/-- A leaf is not the root. -/
theorem LinksOk.leaf_lt_root (hl : LinksOk h) {c : Nat} (hc : c < 314) : prntNat h (c + 627) < 626 := by
  have hleaf := hl.leaf hc
  have hlt := prntNat_lt h (c + 627)
  have hne : prntNat h (c + 627) ≠ 626 := fun e => by
    have hroot := hl.rootInternal
    rw [e] at hleaf
    omega
  omega

/-- Node 0 is a leaf. -/
theorem LinksOk.zero_leaf (hl : LinksOk h) : 627 ≤ sonNat h 0 := by
  by_contra hlt
  have := hl.shape 0 (by omega) (by omega)
  omega

end Links

/-! ### The frequencies in the midst of UPDATE -/

/-- The tree while UPDATE is at node `c`: what is below `c` has been counted, `c` and what is above it not yet (R69). -/
structure Climbing (h : Huffman) (c : Nat) : Prop where
  links : LinksOk h
  order : ∀ i j, i ≤ j → j ≤ 627 → freqNat h i ≤ freqNat h j
  guard : freqAt h 627 = Config.FREQ_SENTINEL
  pos : ∀ i, i ≤ 627 → 1 ≤ freqNat h i
  sum : ∀ i, i < 627 → sonNat h i < 627 →
    freqNat h (sonNat h i) + freqNat h (sonNat h i + 1) = freqNat h i + if i = c then 1 else 0

theorem monotone_of_step {f : Nat → Nat} {n : Nat} (h : ∀ i, i < n → f i ≤ f (i + 1)) {i j : Nat} (hij : i ≤ j) (hj : j ≤ n) :
    f i ≤ f j := by
  induction j, hij using Nat.le_induction with
  | base => exact Nat.le_refl _
  | succ j _ ih => exact (ih (by omega)).trans (h j (by omega))

theorem HuffOk.monotone {h : Huffman} (ok : HuffOk h) {i j : Nat} (hij : i ≤ j) (hj : j ≤ 627) : freqNat h i ≤ freqNat h j :=
  monotone_of_step (f := freqNat h) (n := 627) (fun k hk => ok.order k hk) hij hj

/-- No node has frequency 0: node 0 is a leaf and the others are no less. -/
theorem HuffOk.freq_pos {h : Huffman} (ok : HuffOk h) {i : Nat} (hi : i ≤ 627) : 1 ≤ freqNat h i := by
  have h0 : 627 ≤ sonNat h 0 := by
    by_contra hlt
    exact absurd (ok.shape 0 (by decide) (Nat.not_le.1 hlt)).2 (Nat.not_lt_zero _)
  have hs := sonNat_lt h 0
  have hc : sonNat h 0 - 627 + 627 = sonNat h 0 := Nat.sub_add_cancel h0
  have hleaf : leafFreq h (sonNat h 0 - 627) = freqNat h 0 := by
    have hp : prntNat h (sonNat h 0) = 0 := ok.parent 0 (by decide)
    rw [show leafFreq h (sonNat h 0 - 627) = freqNat h (prntNat h (sonNat h 0 - 627 + 627)) from rfl, hc, hp]
  have hpos := ok.leafPos (sonNat h 0 - 627) (show sonNat h 0 - 627 < 314 by omega)
  exact (hleaf ▸ hpos).trans (ok.monotone (Nat.zero_le i) hi)

theorem HuffOk.linksOk {h : Huffman} (ok : HuffOk h) : LinksOk h where
  shape i hi hs := by
    obtain ⟨heven, hlt⟩ : sonNat h i % 2 = 0 ∧ sonNat h i < i := ok.shape i hi hs
    refine ⟨heven, lt_of_le_of_ne hlt fun heq => ?_⟩
    have hsum : freqNat h i = freqNat h (sonNat h i) + freqNat h (sonNat h i + 1) := ok.sum i hi hs
    have hpos := ok.freq_pos (i := sonNat h i) (by omega)
    rw [heq] at hsum
    omega
  parent i k hi hk := by
    rcases hk with rfl | ⟨hs, rfl⟩
    · exact ok.parent i hi
    · exact ok.parentRight i hi hs
  child k hk h626 := by
    rw [hangsFrom_iff]
    rcases Nat.lt_or_ge k 627 with hlt | hge
    · have hc : sonNat h (prntNat h k) = k - k % 2 := ok.child k (show k < 626 by omega)
      omega
    · have hc : sonNat h (prntNat h (k - 627 + 627)) = k - 627 + 627 := ok.leaf (k - 627) (show k - 627 < 314 by omega)
      rw [Nat.sub_add_cancel hge] at hc
      exact .inl hc.symm
  rootMark := ok.rootMark
  rootInternal := ok.rootInternal

/-- Before UPDATE counts a symbol, at its leaf, the tree is a well-formed one. -/
theorem HuffOk.climbing {h : Huffman} (ok : HuffOk h) {c : Nat} (hc : 627 ≤ sonNat h c) : Climbing h c where
  links := ok.linksOk
  order _ _ hij hj := ok.monotone hij hj
  guard := ok.guard
  pos _ hi := ok.freq_pos hi
  sum i hi hs := by
    have hne : i ≠ c := by rintro rfl; omega
    rw [if_neg hne]
    exact (ok.sum i hi hs).symm

section Climb

variable {h g : Huffman} {c l i j : Nat}

/-- A child that is counted is less frequent than its parent. -/
theorem Climbing.child_lt (hc : Climbing h c) (hi : i < 627) (hne : i ≠ c) (hs : sonNat h i < 627) :
    freqNat h (sonNat h i + 1) < freqNat h i := by
  have hsum := hc.sum i hi hs
  rw [if_neg hne] at hsum
  have := hc.pos (sonNat h i) (by omega)
  omega

/-- A less frequent node is below. -/
theorem Climbing.lt_of_freq_lt (hc : Climbing h c) (hj : j ≤ 627) (hf : freqNat h j < freqNat h i) : j < i := by
  by_contra hge
  have := hc.order i j (Nat.not_lt.1 hge) hj
  omega

/-! ### One level of the climb (R69) -/

theorem OneLevel.son_swap (hg : OneLevel h g c l) (hi : i < 627) : sonNat g i = sonNat h (Equiv.swap c l i) := by
  rw [sonNat, hg.son i hi, Equiv.swap_apply_def]
  split_ifs <;> rfl

theorem OneLevel.prnt_swap (hg : OneLevel h g c l) (hl : LinksOk h) (hc : c < 627) (hi : i < 941) (h626 : i ≠ 626) :
    prntNat g i = Equiv.swap c l (prntNat h i) := by
  have hself := hl.child i hi h626
  have hun : ∀ x, x < 627 → (HangsFrom h x i ↔ prntNat h i = x) := fun x hx =>
    ⟨hl.parent x i hx, fun e => e ▸ hself⟩
  rw [prntNat, hg.prntOf i hi, Equiv.swap_apply_def]
  simp only [hun c hc, hun l (Nat.lt_succ_of_le hg.partner.range.2)]
  rfl

theorem OneLevel.freq_eq (hg : OneLevel h g c l) (hi : i ≤ 627) : freqNat g i = freqNat h i + if i = l then 1 else 0 := by
  rw [freqNat, hg.freq i hi]
  split_ifs with hil
  · rw [hil, freqNat, hg.partner.equal]
  · rfl

/-- The partner of a node below the root is below the root. -/
theorem LastEqual.root_iff (hp : LastEqual h c l) (hc : Climbing h c) : l = 626 ↔ c = 626 := by
  obtain ⟨hcl, hl⟩ : c ≤ l ∧ l ≤ 626 := hp.range
  refine ⟨fun e => ?_, fun e => by omega⟩
  by_contra hne
  have hlt : freqNat h (sonNat h 626 + 1) < freqNat h 626 := hc.child_lt (by omega) (Ne.symm hne) hc.links.rootInternal
  have hson : sonNat h 626 + 1 = 625 := by
    have hp : prntNat h 625 = 626 := by
      have := hc.links.lt_prnt (k := 625) (by omega)
      have := prntNat_lt h 625
      omega
    have hhang := hangsFrom_iff.1 (hc.links.child 625 (by omega) (by omega))
    obtain ⟨heven, -⟩ := hc.links.shape 626 (by omega) hc.links.rootInternal
    rw [hp] at hhang
    omega
  have hge := hc.order c 625 (by omega) (by omega)
  have heq : freqNat h l = freqNat h c := congrArg BitVec.toNat hp.equal
  rw [hson] at hlt
  rw [e] at heq
  omega

/-- Changing two subtrees of the same frequency keeps the links in order. -/
theorem OneLevel.linksOk (hg : OneLevel h g c l) (hc : Climbing h c) : LinksOk g := by
  obtain ⟨hcl, hl⟩ : c ≤ l ∧ l ≤ 626 := hg.partner.range
  have heq : freqNat h l = freqNat h c := congrArg BitVec.toNat hg.partner.equal
  have hswap : ∀ i, i < 627 → Equiv.swap c l i < 627 := fun i hi => by
    rw [Equiv.swap_apply_def]; split_ifs <;> omega
  have hhangs : ∀ i k, i < 627 → (HangsFrom g i k ↔ HangsFrom h (Equiv.swap c l i) k) := fun i k hi => by
    rw [hangsFrom_iff, hangsFrom_iff, hg.son_swap hi]
  constructor
  case shape =>
    intro i hi hs
    rw [hg.son_swap hi] at hs ⊢
    obtain ⟨heven, hlt⟩ := hc.links.shape _ (hswap i hi) hs
    refine ⟨heven, ?_⟩
    rw [Equiv.swap_apply_def] at hs hlt ⊢
    split_ifs at hs hlt ⊢ with h1 h2
    · rcases eq_or_ne l c with e | hne
      · omega
      · have := hc.child_lt (by omega) hne hs
        exact h1 ▸ hc.lt_of_freq_lt (by omega) (heq ▸ this)
    · omega
    · exact hlt
  case parent =>
    intro i k hi hk
    rw [hhangs i k hi] at hk
    have hk626 := hc.links.ne_root (hswap i hi) hk
    have hk941 : k < 941 := by
      have := sonNat_lt h (Equiv.swap c l i)
      rcases hangsFrom_iff.1 hk with hk | ⟨_, hk⟩ <;> omega
    rw [hg.prnt_swap hc.links (by omega) hk941 hk626, hc.links.parent _ k (hswap i hi) hk, Equiv.swap_apply_self]
  case child =>
    intro k hk h626
    rw [hhangs _ _ (prntNat_lt g k), hg.prnt_swap hc.links (by omega) hk h626, Equiv.swap_apply_self]
    exact hc.links.child k hk h626
  case rootMark =>
    have hnot : ∀ x, x < 627 → ¬ HangsFrom h x 626 := fun x hx hh => hc.links.ne_root hx hh rfl
    rw [prntNat, hg.prntOf 626 (by decide), if_neg (hnot c (by omega)), if_neg (hnot l (by omega))]
    exact hc.links.rootMark
  case rootInternal =>
    have hroot := hg.partner.root_iff hc
    have : Equiv.swap c l 626 = 626 := by
      rw [Equiv.swap_apply_def]; split_ifs <;> omega
    rw [hg.son_swap (by omega), this]
    exact hc.links.rootInternal

/-- One level up, everything but the parent's frequency is as it should be. -/
theorem OneLevel.climbing (hg : OneLevel h g c l) (hc : Climbing h c) : Climbing g (prntNat g l) := by
  obtain ⟨hcl, hl⟩ : c ≤ l ∧ l ≤ 626 := hg.partner.range
  have heq : freqNat h l = freqNat h c := congrArg BitVec.toNat hg.partner.equal
  have hlinks := hg.linksOk hc
  constructor
  case links => exact hlinks
  case order =>
    intro i j hij hj
    have hmono := hc.order i j hij hj
    rw [hg.freq_eq (by omega), hg.freq_eq hj]
    split_ifs with h1 h2
    · omega
    · have : freqNat h c < freqNat h j := hg.partner.last j (by omega) hj
      rw [h1]
      omega
    · omega
    · omega
  case guard =>
    have := hg.freq_eq (i := 627) (by omega)
    rw [if_neg (by omega)] at this
    exact (BitVec.eq_of_toNat_eq this).trans hc.guard
  case pos =>
    intro i hi
    have := hc.pos i hi
    rw [hg.freq_eq hi]
    omega
  case sum =>
    intro i hi hs
    have hup : i = prntNat g l ↔ l = sonNat g i ∨ l = sonNat g i + 1 := by
      constructor
      · rintro rfl
        have hne : l ≠ 626 := fun e => by
          rw [e, hlinks.rootMark] at hs
          exact absurd hlinks.zero_leaf (by omega)
        exact (hangsFrom_iff.1 (hlinks.child l (by omega) hne)).imp_right And.right
      · exact fun h => (hlinks.parent i l hi (hangsFrom_iff.2 (h.imp_right (And.intro hs)))).symm
    have hsame : freqNat h (Equiv.swap c l i) = freqNat h i := by
      rw [Equiv.swap_apply_def]; split_ifs with h1 h2
      · rw [heq, h1]
      · rw [← heq, h2]
      · rfl
    have hat : Equiv.swap c l i = c ↔ i = l := by rw [Equiv.swap_apply_eq_iff, Equiv.swap_apply_left]
    have hlt : Equiv.swap c l i < 627 := by
      rw [Equiv.swap_apply_def]; split_ifs <;> omega
    have hson := hg.son_swap hi
    have hsum := hc.sum _ hlt (hson ▸ hs)
    rw [← hson, hsame] at hsum
    rw [hg.freq_eq (by omega), hg.freq_eq (by omega), hg.freq_eq (by omega)]
    simp only [hat] at hsum
    simp only [hup]
    split_ifs at hsum ⊢ <;> omega

/-- One level up, the leaf that was at `c`, if one was, has been counted. -/
theorem OneLevel.leafFreq_eq (hg : OneLevel h g c l) (hc : Climbing h c) {d : Nat} (hd : d < 314) :
    leafFreq g d = leafFreq h d + if prntNat h (d + 627) = c then 1 else 0 := by
  obtain ⟨hcl, hl⟩ : c ≤ l ∧ l ≤ 626 := hg.partner.range
  have heq : freqNat h l = freqNat h c := congrArg BitVec.toNat hg.partner.equal
  have hp := prntNat_lt h (d + 627)
  have hle : Equiv.swap c l (prntNat h (d + 627)) ≤ 627 := by
    rw [Equiv.swap_apply_def]; split_ifs <;> omega
  have hfreq : leafFreq g d = freqNat g (Equiv.swap c l (prntNat h (d + 627))) :=
    congrArg (freqNat g) (hg.prnt_swap (i := d + 627) hc.links (by omega) (by omega) (by omega))
  rw [hfreq, hg.freq_eq hle, show leafFreq h d = freqNat h (prntNat h (d + 627)) from rfl]
  simp only [Equiv.swap_apply_eq_iff, Equiv.swap_apply_right]
  rw [Equiv.swap_apply_def]
  split_ifs with h1 h2
  · rw [h1, heq]
  · rw [h2, heq]
  · rfl

/-! ### The body of the climb (R69) -/

/-- The scan ends above the nodes less frequent than `k`, at the guard at the latest (R66). -/
theorem scanUp_spec {k : BitVec 16} {fuel : Nat} (hguard : k.toNat ≤ freqNat h 627) (hfuel : 627 ≤ fuel + l) (hl : l ≤ 626)
    (hk : freqNat h l < k.toNat) :
    ∃ l', scanUp h k fuel l = .ok l' ∧ l ≤ l' ∧ l' ≤ 626 ∧ freqNat h l' < k.toNat ∧ k.toNat ≤ freqNat h (l' + 1) := by
  induction fuel generalizing l with
  | zero => omega
  | succ fuel ih =>
    have hT : ¬ Config.T < l + 1 := show ¬ 627 < l + 1 by omega
    rw [scanUp, if_neg hT]
    by_cases hlt : freqNat h (l + 1) < k.toNat
    · have hne : l + 1 ≠ 627 := fun e => by rw [e] at hlt; omega
      obtain ⟨l', e, hle, h'⟩ := ih (l := l + 1) (by omega) (by omega) hlt
      exact ⟨l', (if_pos hlt).trans e, by omega, h'⟩
    · exact ⟨l, if_neg hlt, Nat.le_refl l, hl, hk, Nat.not_lt.1 hlt⟩

/-- `adopt` writes the parent of what a `son` entry names. -/
theorem prntAt_adopt (w : h.wf = true) (k : SonVal) (v j : Nat) : prntAt (adopt k v h) j =
    if j = k.val ∨ (k.val < 627 ∧ j = k.val + 1) then Fin.ofNat 627 v else prntAt h j := by
  unfold adopt
  by_cases hT : k.val < Config.T
  · rw [if_pos hT, prntAt_setPrnt (setPrnt_wf w k.isLt), prntAt_setPrnt w]
    have hT' : k.val < 627 := hT
    by_cases h1 : j = k.val + 1
    · rw [if_pos h1, if_pos (.inr ⟨hT', h1⟩)]
    · rw [if_neg h1]
      simp only [h1, and_false, or_false]
  · have hT' : ¬ k.val < 627 := hT
    rw [if_neg hT, prntAt_setPrnt w]
    simp only [hT', false_and, or_false]

@[simp] theorem freqAt_adopt (k : SonVal) (v j : Nat) (h : Huffman) : freqAt (adopt k v h) j = freqAt h j := by
  unfold adopt; split <;> rfl

@[simp] theorem sonAt_adopt (k : SonVal) (v j : Nat) (h : Huffman) : sonAt (adopt k v h) j = sonAt h j := by
  unfold adopt; split <;> rfl

theorem fin_ofNat_val {n : Nat} [NeZero n] (a : Fin n) : Fin.ofNat n a.val = a := Fin.ext (Nat.mod_eq_of_lt a.isLt)

/-- The exchange of two nodes, array by array. -/
theorem exchange_reads (w : h.wf = true) (hc : c < 627) (hl : l < 627) (k : BitVec 16) :
    (∀ x, freqAt (exchange c l k h) x = if x = l then k else if x = c then freqAt h l else freqAt h x)
    ∧ (∀ x, sonAt (exchange c l k h) x = if x = c then sonAt h l else if x = l then sonAt h c else sonAt h x)
    ∧ ∀ x, prntAt (exchange c l k h) x =
        if HangsFrom h l x then Fin.ofNat 627 c else if HangsFrom h c x then Fin.ofNat 627 l else prntAt h x := by
  have w1 := setFreq_wf (i := c) (f := freqAt h l) w (by omega)
  have w2 := setFreq_wf (i := l) (f := k) w1 (by omega)
  have w3 := adopt_wf (k := sonAt h c) (v := l) w2
  have w4 := setSon_wf (i := l) (v := (sonAt h c).val) w3 hl
  have w5 := adopt_wf (k := sonAt h l) (v := c) w4
  have hex : exchange c l k h = setSon c (sonAt h l).val (adopt (sonAt h l) c (setSon l (sonAt h c).val
      (adopt (sonAt h c) l (setFreq l k (setFreq c (freqAt h l) h))))) := by
    simp only [exchange, sonAt_adopt, sonAt_setFreq]
  rw [hex]
  refine ⟨fun x => ?_, fun x => ?_, fun x => ?_⟩
  · rw [freqAt_setSon, freqAt_adopt, freqAt_setSon, freqAt_adopt, freqAt_setFreq w1, freqAt_setFreq w]
  · rw [sonAt_setSon w5, sonAt_adopt, sonAt_setSon w3, sonAt_adopt, sonAt_setFreq, sonAt_setFreq, fin_ofNat_val, fin_ofNat_val]
  · rw [prntAt_setSon, prntAt_adopt w4, prntAt_setSon, prntAt_adopt w2, prntAt_setFreq, prntAt_setFreq]

/-- The last node of the frequency of `c` is the one above which they are more frequent. -/
theorem Climbing.lastEqual (hc : Climbing h c) (hcl : c ≤ l) (hl : l ≤ 626) (hle : freqNat h l ≤ freqNat h c)
    (hlt : freqNat h c < freqNat h (l + 1)) : LastEqual h c l where
  range := ⟨hcl, hl⟩
  equal := BitVec.eq_of_toNat_eq (le_antisymm hle (hc.order c l hcl (by omega)))
  last m hm hm' := hlt.trans_le (hc.order (l + 1) m hm hm')

/-- The increment alone, where the order holds with it. -/
theorem Climbing.oneLevel_setFreq (hc : Climbing h c) (w : h.wf = true) (hp : LastEqual h c c) {k : BitVec 16}
    (hk : k.toNat = freqNat h c + 1) : OneLevel h (setFreq c k h) c c where
  partner := hp
  freq i _ := by
    rw [freqAt_setFreq w]
    split_ifs
    · exact hk
    · rfl
  son i _ := by
    split_ifs with h1
    · rw [h1, sonAt_setFreq]
    · rfl
  prntOf i _ := by
    split_ifs with h1
    · exact hc.links.parent c i (Nat.lt_succ_of_le hp.range.2) h1
    · rfl

/-- The increment with the exchange. -/
theorem Climbing.oneLevel_exchange (hc : Climbing h c) (w : h.wf = true) (hp : LastEqual h c l) (hne : c ≠ l) {k : BitVec 16}
    (hk : k.toNat = freqNat h c + 1) : OneLevel h (exchange c l k (setFreq c k h)) c l := by
  obtain ⟨hcl, hl⟩ : c ≤ l ∧ l ≤ 626 := hp.range
  have w1 := setFreq_wf (i := c) (f := k) w (by omega)
  obtain ⟨hfreq, hson, hprnt⟩ := exchange_reads (l := l) w1 (show c < 627 by omega) (by omega) k
  refine ⟨hp, fun i _ => ?_, fun i _ => ?_, fun i _ => ?_⟩
  · rw [hfreq, freqAt_setFreq w, freqAt_setFreq w, if_neg (Ne.symm hne)]
    split_ifs with h1 h2
    · exact hk
    · rw [h2, hp.equal]
    · rfl
  · rw [hson]; rfl
  · rw [hprnt]
    have hdisj : HangsFrom h c i → ¬ HangsFrom h l i := fun h1 h2 =>
      hne (hc.links.hangs_unique (by omega) (by omega) h1 h2)
    have hl' : HangsFrom (setFreq c k h) l i ↔ HangsFrom h l i := Iff.rfl
    have hc' : HangsFrom (setFreq c k h) c i ↔ HangsFrom h c i := Iff.rfl
    simp only [hl', hc']
    by_cases h1 : HangsFrom h c i
    · rw [if_neg (hdisj h1), if_pos h1, if_pos h1]
      exact val_ofNat (by omega)
    · rw [if_neg h1, if_neg h1]
      split_ifs
      · exact val_ofNat (by omega)
      · rfl

/-- The body of UPDATE's loop is one level of the climb: the partner is found and takes the increment. -/
theorem Climbing.bump_ok (hc : Climbing h c) (w : h.wf = true) (hlt : c < 627) (hroom : freqNat h 626 < 0x8000) :
    ∃ l g, bump c h = .ok (l, g) ∧ OneLevel h g c l ∧ g.wf = true := by
  have hfc := hc.order c 626 (by omega) (by omega)
  have hguard : freqNat h 627 = 0xFFFF := congrArg BitVec.toNat hc.guard
  obtain ⟨k, hkdef⟩ : ∃ k, k = freqAt h c + 1 := ⟨_, rfl⟩
  have hk : k.toNat = freqNat h c + 1 := by
    rw [hkdef]
    exact (BitVec.toNat_add ..).trans (Nat.mod_eq_of_lt (show freqNat h c + 1 < 2 ^ 16 by omega))
  have w1 := setFreq_wf (i := c) (f := k) w (by omega)
  have hother : ∀ x, x ≠ c → freqNat (setFreq c k h) x = freqNat h x := fun x hx => by
    rw [freqNat, freqAt_setFreq w, if_neg hx]; rfl
  unfold bump
  rw [← hkdef]
  by_cases hstep : freqNat (setFreq c k h) (c + 1) < k.toNat
  · have hne : c ≠ 626 := by
      rintro rfl
      rw [hother 627 (by omega)] at hstep
      omega
    obtain ⟨l, hscan, hcl, hl, hl1, hl2⟩ := scanUp_spec (fuel := 627) (by rw [hother 627 (by omega)]; omega)
      (by omega) (show c + 1 ≤ 626 by omega) hstep
    rw [hother l (by omega)] at hl1
    rw [hother (l + 1) (by omega)] at hl2
    have hp := hc.lastEqual (show c ≤ l by omega) hl (by omega) (by omega)
    refine ⟨l, _, (if_pos hstep).trans ?_, hc.oneLevel_exchange w hp (by omega) hk, exchange_wf hlt (by omega) w1⟩
    exact congrArg (· >>= _) hscan
  · rw [hother (c + 1) (by omega)] at hstep
    have hp := hc.lastEqual (Nat.le_refl c) (by omega) (Nat.le_refl _) (by omega)
    refine ⟨c, _, if_neg ?_, hc.oneLevel_setFreq w hp hk, w1⟩
    rwa [← hother (c + 1) (by omega)] at hstep

/-! ### The climb (R69) -/

/-- UPDATE's loop ends at the root, a level at a time. -/
theorem Climbing.climb_ok {fuel : Nat} (hc : Climbing h c) (w : h.wf = true) (hlt : c < 627)
    (hroom : freqNat h 626 < 0x8000) (hfuel : 627 ≤ fuel + c) :
    ∃ g, climb fuel c h = .ok g ∧ Climbs c h g ∧ g.wf = true := by
  induction fuel generalizing c h with
  | zero => omega
  | succ fuel ih =>
    obtain ⟨l, g, hbump, hg, wg⟩ := hc.bump_ok w hlt hroom
    obtain ⟨hcl, hl⟩ : c ≤ l ∧ l ≤ 626 := hg.partner.range
    have hg' := hg.climbing hc
    have hstep : climb (fuel + 1) c h = if (prntAt g l).val = 0 then .ok g else climb fuel (prntAt g l).val g := by
      rw [climb, hbump]; rfl
    by_cases hup : prntNat g l = 0
    · exact ⟨g, hstep.trans (if_pos hup), .root hg hup, wg⟩
    · have hne : l ≠ 626 := fun e => hup (e ▸ hg'.links.rootMark)
      have habove := hg'.links.lt_prnt (k := l) (by omega)
      have hroot := hg.freq_eq (i := 626) (by omega)
      rw [if_neg (Ne.symm hne)] at hroot
      obtain ⟨t, ht, hclimbs, wt⟩ := ih hg' wg (prntNat_lt g l) (by omega) (by omega)
      exact ⟨t, (hstep.trans (if_neg hup)).trans ht, .level hg hup hclimbs, wt⟩

end Climb

/-- What the climb has done when it is through: the tree is in order again, the root counts one more, and so does the leaf
it began at. -/
theorem Climbs.result {h t : Huffman} {c : Nat} (ht : Climbs c h t) (hc : Climbing h c) :
    Climbing t 0 ∧ freqNat t 626 = freqNat h 626 + 1
      ∧ ∀ d, d < 314 → leafFreq t d = leafFreq h d + if prntNat h (d + 627) = c then 1 else 0 := by
  induction ht with
  | @root c l h t hg hup =>
    have hg' := hg.climbing hc
    have hl : l = 626 := by
      by_contra hne
      have hlr : l ≤ 626 := hg.partner.range.2
      have := hg'.links.lt_prnt (k := l) (by omega)
      have : prntNat t l = 0 := hup
      omega
    refine ⟨?_, ?_, fun d hd => hg.leafFreq_eq hc hd⟩
    · have : prntNat t l = 0 := hup
      rwa [this] at hg'
    · rw [hg.freq_eq (by omega), if_pos hl.symm]
  | @level c l h g t hg hup _ ih =>
    have hg' := hg.climbing hc
    have hl : l ≠ 626 := fun e => hup (e ▸ hg'.links.rootMark)
    have hlr : l ≤ 626 := hg.partner.range.2
    obtain ⟨hlast, hroot, hleaf⟩ := ih hg'
    refine ⟨hlast, ?_, fun d hd => ?_⟩
    · rw [hroot, hg.freq_eq (by omega), if_neg (Ne.symm hl)]
    · have hinternal := hg'.links.prnt_internal (k := l) (by omega)
      have hnot : prntNat g (d + 627) ≠ (prntAt g l).val := fun e => by
        have := hg'.links.leaf hd
        rw [e] at this
        exact absurd this (show sonNat g (prntNat g l) ≠ d + 627 by omega)
      rw [hleaf d hd, if_neg hnot, Nat.add_zero, hg.leafFreq_eq hc hd]

end Sys2Proof.Machine

/-! PROOFS. A tree whose links and sums are in order is a well-formed one: the root is the sum of the leaves (R67, H4, H6). -/

namespace Sys2Proof.Machine

open Sys2Proof

section Sums

variable {h : Huffman}

/-- The symbols are the leaves: what is summed over the ones is summed over the others. -/
theorem LinksOk.sum_leaves (hl : LinksOk h) (f : Nat → Nat) :
    ∑ i ∈ (Finset.range 627).filter (fun i => 627 ≤ sonNat h i), f i = ∑ c ∈ Finset.range 314, f (prntNat h (c + 627)) := by
  have hback : ∀ i, i < 627 → 627 ≤ sonNat h i → prntNat h (sonNat h i - 627 + 627) = i := fun i hi hs => by
    rw [Nat.sub_add_cancel hs]
    exact hl.parent i _ hi (.inl rfl)
  refine Finset.sum_nbij' (fun i => sonNat h i - 627) (fun c => prntNat h (c + 627)) ?_ ?_ ?_ ?_ ?_ <;>
    simp only [Finset.mem_filter, Finset.mem_range]
  · exact fun i hi => by have := sonNat_lt h i; omega
  · exact fun c hc => ⟨prntNat_lt h _, by rw [hl.leaf hc]; omega⟩
  · exact fun i hi => hback i hi.1 hi.2
  · exact fun c hc => by rw [hl.leaf hc, Nat.add_sub_cancel]
  · exact fun i hi => by rw [hback i hi.1 hi.2]

/-- Every node but the root is a child of one internal node. -/
theorem LinksOk.sum_children (hl : LinksOk h) (f : Nat → Nat) :
    ∑ i ∈ (Finset.range 627).filter (fun i => ¬ 627 ≤ sonNat h i), (f (sonNat h i) + f (sonNat h i + 1)) =
      ∑ k ∈ Finset.range 626, f k := by
  have hmaps : ∀ k ∈ Finset.range 626, prntNat h k ∈ (Finset.range 627).filter fun i => ¬ 627 ≤ sonNat h i := by
    intro k hk
    simp only [Finset.mem_filter, Finset.mem_range, Nat.not_le] at hk ⊢
    exact ⟨prntNat_lt h k, hl.prnt_internal hk⟩
  refine Eq.trans ?_ (Finset.sum_fiberwise_of_maps_to hmaps f)
  refine Finset.sum_congr rfl fun i hi => ?_
  simp only [Finset.mem_filter, Finset.mem_range, Nat.not_le] at hi
  obtain ⟨hi, hs⟩ := hi
  have hshape := hl.shape i hi hs
  have hfiber : (Finset.range 626).filter (fun k => prntNat h k = i) = {sonNat h i, sonNat h i + 1} := by
    ext k
    simp only [Finset.mem_filter, Finset.mem_range, Finset.mem_insert, Finset.mem_singleton]
    constructor
    · rintro ⟨hk, rfl⟩
      exact (hangsFrom_iff.1 (hl.child k (by omega) (by omega))).imp_right And.right
    · exact fun hk => ⟨by omega, hl.parent i k hi (hangsFrom_iff.2 (hk.imp_right (And.intro hs)))⟩
  rw [hfiber, Finset.sum_pair (by omega)]

/-- The root is the sum of the leaves: every other node is counted once as a child and once for itself. -/
theorem Climbing.root_sum (hc : Climbing h 0) : freqNat h 626 = ∑ c ∈ Finset.range 314, leafFreq h c := by
  have hall : ∑ i ∈ Finset.range 627, freqNat h i = ∑ i ∈ Finset.range 626, freqNat h i + freqNat h 626 :=
    Finset.sum_range_succ ..
  have hinternal : ∑ i ∈ (Finset.range 627).filter (fun i => ¬ 627 ≤ sonNat h i), freqNat h i = ∑ k ∈ Finset.range 626, freqNat h k := by
    rw [← hc.links.sum_children]
    refine Finset.sum_congr rfl fun i hi => ?_
    simp only [Finset.mem_filter, Finset.mem_range, Nat.not_le] at hi
    have hne : i ≠ 0 := by
      rintro rfl
      exact absurd hc.links.zero_leaf (Nat.not_le.2 hi.2)
    rw [hc.sum i hi.1 hi.2, if_neg hne, Nat.add_zero]
  have hleaf := hc.links.sum_leaves (freqNat h)
  rw [← Finset.sum_filter_add_sum_filter_not (Finset.range 627) (fun i => 627 ≤ sonNat h i), hinternal, hleaf] at hall
  have : ∑ c ∈ Finset.range 314, freqNat h (prntNat h (c + 627)) = ∑ c ∈ Finset.range 314, leafFreq h c := rfl
  omega

/-- A tree that waits for no count and whose root is in range is well formed. -/
theorem Climbing.huffOk (hc : Climbing h 0) (hroot : freqNat h 626 ≤ 0x8000) : HuffOk h where
  order i hi := hc.order i (i + 1) (by omega) (Nat.succ_le_of_lt hi)
  guard := hc.guard
  shape i hi hs := by
    obtain ⟨heven, hlt⟩ := hc.links.shape i hi hs
    exact ⟨heven, Nat.lt_of_succ_lt hlt⟩
  parent i hi := hc.links.parent i _ hi (.inl rfl)
  parentRight i hi hs := hc.links.parent i _ hi (.inr ⟨hs, rfl⟩)
  rootMark := hc.links.rootMark
  child i hi := by
    have hi' : i < 626 := hi
    have hs := hc.links.prnt_internal hi'
    obtain ⟨heven, -⟩ := hc.links.shape _ (prntNat_lt h i) hs
    have hhang := hangsFrom_iff.1 (hc.links.child i (by omega) (by omega))
    exact show sonNat h (prntNat h i) = i - i % 2 by omega
  sum i hi hs := by
    have hi' : i < 627 := hi
    have hne : i ≠ 0 := by
      rintro rfl
      exact absurd hc.links.zero_leaf (Nat.not_le.2 hs)
    have := hc.sum i hi' hs
    rw [if_neg hne, Nat.add_zero] at this
    exact this.symm
  leaf c hc' := hc.links.leaf hc'
  rootInternal := hc.links.rootInternal
  leafPos c _ := hc.pos _ (prntNat_lt h _).le
  rootMax := hroot
  rootSum := hc.root_sum

end Sums

end Sys2Proof.Machine

/-! PROOFS. RECONST (R70): the leaves are collected with half their frequencies, the internal nodes joined one by one, the parents
linked again; a well-formed tree stays one (R67). -/

namespace Sys2Proof.Machine

open Sys2Proof

/-! ### Step 1: the leaves are collected -/

/-- How many leaves there are below node `i`. -/
def leavesBelow (h : Huffman) (i : Nat) : Nat := Nat.count (fun k => 627 ≤ sonNat h k) i

section Collect

variable {h : Huffman}

theorem leavesBelow_le (h : Huffman) (i : Nat) : leavesBelow h i ≤ i := Nat.count_le _

theorem leavesBelow_strict {i k : Nat} (hk : 627 ≤ sonNat h k) (hki : k < i) : leavesBelow h k < leavesBelow h i :=
  Nat.count_strict_mono hk hki

/-- Every number below the count is the place of a leaf. -/
theorem exists_leaf_at {i a : Nat} (ha : a < leavesBelow h i) : ∃ k, k < i ∧ 627 ≤ sonNat h k ∧ leavesBelow h k = a := by
  induction i with
  | zero => simp [leavesBelow] at ha
  | succ i ih =>
    rw [leavesBelow, Nat.count_succ] at ha
    by_cases hlt : a < leavesBelow h i
    · obtain ⟨k, hk, h'⟩ := ih hlt
      exact ⟨k, by omega, h'⟩
    · rw [leavesBelow] at hlt
      split_ifs at ha with hi
      · exact ⟨i, by omega, hi, by rw [leavesBelow]; omega⟩
      · omega

/-- There are 314 leaves, one for each symbol. -/
theorem LinksOk.leaves (hl : LinksOk h) : leavesBelow h 627 = 314 := by
  rw [leavesBelow, Nat.count_eq_card_filter_range, Finset.card_eq_sum_ones, hl.sum_leaves fun _ => 1, ← Finset.card_eq_sum_ones,
    Finset.card_range]

/-- The leaves below node `i` are collected; what is from `i` on is as it was. -/
structure Collected (h : Huffman) (i : Nat) (jg : Nat × Huffman) : Prop where
  wf : jg.2.wf = true
  count : jg.1 = leavesBelow h i
  prnt : ∀ k, prntAt jg.2 k = prntAt h k
  rest : ∀ k, i ≤ k → sonAt jg.2 k = sonAt h k ∧ freqAt jg.2 k = freqAt h k
  done : ∀ k, k < i → 627 ≤ sonNat h k →
    sonNat jg.2 (leavesBelow h k) = sonNat h k ∧ freqNat jg.2 (leavesBelow h k) = (freqNat h k + 1) / 2

theorem Collected.collectLeaf {i : Nat} {jg : Nat × Huffman} (hc : Collected h i jg) (hi : i < 627) :
    Collected h (i + 1) (collectLeaf i jg) := by
  obtain ⟨hson, hfreq⟩ := hc.rest i (Nat.le_refl i)
  have hle : jg.1 ≤ i := hc.count ▸ leavesBelow_le h i
  by_cases hleaf : 627 ≤ sonNat h i
  · have hleaf' : Config.T ≤ (sonAt jg.2 i).val := hson ▸ hleaf
    have hcount : leavesBelow h (i + 1) = jg.1 + 1 := by
      rw [hc.count, leavesBelow, Nat.count_succ, if_pos hleaf]; rfl
    have hhalf : (BitVec.ofNat 16 (((freqAt jg.2 i).toNat + 1) / 2)).toNat = (freqNat h i + 1) / 2 := by
      rw [hfreq]
      refine Nat.mod_eq_of_lt ?_
      have := (freqAt h i).isLt
      omega
    have w1 := setFreq_wf (i := jg.1) (f := BitVec.ofNat 16 (((freqAt jg.2 i).toNat + 1) / 2)) hc.wf (by omega)
    have hs : ∀ k, sonAt (Machine.collectLeaf i jg).2 k = if k = jg.1 then sonAt h i else sonAt jg.2 k := fun k => by
      rw [Machine.collectLeaf, if_pos hleaf', sonAt_setSon w1, fin_ofNat_val, hson, sonAt_setFreq]
    have hf : ∀ k, freqAt (Machine.collectLeaf i jg).2 k =
        if k = jg.1 then BitVec.ofNat 16 (((freqAt jg.2 i).toNat + 1) / 2) else freqAt jg.2 k := fun k => by
      rw [Machine.collectLeaf, if_pos hleaf', freqAt_setSon, freqAt_setFreq hc.wf]
    refine ⟨?_, ?_, fun k => ?_, fun k hk => ?_, fun k hk hkl => ?_⟩
    · rw [Machine.collectLeaf, if_pos hleaf']
      exact setSon_wf w1 (by omega)
    · rw [Machine.collectLeaf, if_pos hleaf', hcount]
    · rw [Machine.collectLeaf, if_pos hleaf', prntAt_setSon, prntAt_setFreq, hc.prnt]
    · rw [hs, hf, if_neg (by omega), if_neg (by omega)]
      exact hc.rest k (by omega)
    · rw [sonNat, freqNat, hs, hf]
      rcases Nat.lt_succ_iff_lt_or_eq.1 hk with hlt | rfl
      · have := leavesBelow_strict hkl hlt
        rw [if_neg (by rw [hc.count]; omega), if_neg (by rw [hc.count]; omega)]
        exact hc.done k hlt hkl
      · rw [if_pos hc.count.symm, if_pos hc.count.symm]
        exact ⟨rfl, hhalf⟩
  · have hleaf' : ¬ Config.T ≤ (sonAt jg.2 i).val := hson ▸ hleaf
    rw [Machine.collectLeaf, if_neg hleaf']
    refine ⟨hc.wf, ?_, hc.prnt, fun k hk => hc.rest k (by omega), fun k hk hkl => ?_⟩
    · rw [hc.count, leavesBelow, leavesBelow, Nat.count_succ, if_neg hleaf, Nat.add_zero]
    · have hne : k ≠ i := by rintro rfl; exact hleaf hkl
      exact hc.done k (by omega) hkl

/-- After step 1 every leaf stands at its place among the leaves. -/
theorem collected_all (w : h.wf = true) : Collected h 627 (forUp collectLeaf Config.T 0 (0, h)) := by
  have hstart : Collected h 0 (0, h) := ⟨w, by simp [leavesBelow], fun _ => rfl, fun _ _ => ⟨rfl, rfl⟩, by omega⟩
  have hall := forUp_indexed (P := Collected h) (n := Config.T) (i := 0)
    (fun i _ _ h2 hc => hc.collectLeaf (show i < 627 by rwa [Nat.zero_add] at h2)) hstart
  rwa [Nat.zero_add] at hall

end Collect

/-! ### Step 2: the internal nodes are joined -/

/-- The frequency of a symbol after RECONST. -/
def halvedFreq (h : Huffman) (c : Nat) : Nat := (leafFreq h c + 1) / 2

/-- Over the leaves of `h`, collected, the first `n` internal nodes stand: the entries are in order, each symbol and each of the
first `n` pairs of entries has its node, and what is not joined yet sums to the total. -/
structure Joined (h : Huffman) (n : Nat) (g : Huffman) : Prop where
  wf : g.wf = true
  prnt : ∀ k, prntAt g k = prntAt h k
  guard : freqAt g 627 = Config.FREQ_SENTINEL
  order : ∀ a b, a ≤ b → b < 314 + n → freqNat g a ≤ freqNat g b
  pos : ∀ a, a < 314 + n → 1 ≤ freqNat g a
  leaf : ∀ a, a < 314 + n → 627 ≤ sonNat g a → freqNat g a = halvedFreq h (sonNat g a - 627)
  internal : ∀ a, a < 314 + n → sonNat g a < 627 → sonNat g a % 2 = 0 ∧ sonNat g a < 2 * n ∧ sonNat g a + 1 < a
    ∧ freqNat g a = freqNat g (sonNat g a) + freqNat g (sonNat g a + 1)
  located : ∀ v, (627 ≤ v ∧ v < 941) ∨ (v % 2 = 0 ∧ v < 2 * n) → ∃ a, a < 314 + n ∧ sonNat g a = v
  injective : ∀ a b, a < 314 + n → b < 314 + n → sonNat g a = sonNat g b → a = b
  total : ∑ a ∈ Finset.Ico (2 * n) (314 + n), freqNat g a = ∑ c ∈ Finset.range 314, halvedFreq h c

section Join

variable {h g : Huffman} {n : Nat}

/-- The collected leaves, no internal node among them yet. -/
theorem Collected.joined {jg : Nat × Huffman} (ok : HuffOk h) (hc : Collected h 627 jg) : Joined h 0 jg.2 := by
  have hl := ok.linksOk
  have hentry : ∀ a, a < 314 → ∃ k, k < 627 ∧ 627 ≤ sonNat h k ∧ leavesBelow h k = a ∧ sonNat jg.2 a = sonNat h k
      ∧ freqNat jg.2 a = (freqNat h k + 1) / 2 := fun a ha => by
    obtain ⟨k, hk, hkl, rfl⟩ := exists_leaf_at (h := h) (i := 627) (by rwa [hl.leaves])
    exact ⟨k, hk, hkl, rfl, hc.done k hk hkl⟩
  have hleaf : ∀ a, a < 314 → 627 ≤ sonNat jg.2 a ∧ freqNat jg.2 a = halvedFreq h (sonNat jg.2 a - 627) := fun a ha => by
    obtain ⟨k, hk, hkl, -, hs, hf⟩ := hentry a ha
    have hp : leafFreq h (sonNat h k - 627) = freqNat h k := by
      rw [show leafFreq h (sonNat h k - 627) = freqNat h (prntNat h (sonNat h k - 627 + 627)) from rfl, Nat.sub_add_cancel hkl,
        hl.parent k (sonNat h k) hk (.inl rfl)]
    rw [hs, hf, halvedFreq, hp]
    exact ⟨hkl, rfl⟩
  have hlocated : ∀ v, 627 ≤ v → v < 941 → ∃ a, a < 314 ∧ sonNat jg.2 a = v := fun v h1 h2 => by
    have hv := hl.leaf (c := v - 627) (by omega)
    rw [Nat.sub_add_cancel h1] at hv
    obtain ⟨hs, -⟩ := hc.done _ (prntNat_lt h v) (by omega)
    refine ⟨leavesBelow h (prntNat h v), ?_, hs.trans hv⟩
    rw [← hl.leaves]
    exact leavesBelow_strict (by omega) (prntNat_lt h v)
  have hinj : ∀ a b, a < 314 → b < 314 → sonNat jg.2 a = sonNat jg.2 b → a = b := fun a b ha hb hab => by
    obtain ⟨i, hi, -, rfl, hsi, -⟩ := hentry a ha
    obtain ⟨k, hk, -, rfl, hsk, -⟩ := hentry b hb
    rw [hsi, hsk] at hab
    have := hl.parent k _ hk (.inl rfl)
    rw [← hl.parent i _ hi (.inl rfl), ← this]
    exact congrArg (fun v => leavesBelow h (prntNat h v)) hab
  constructor
  case wf => exact hc.wf
  case prnt => exact hc.prnt
  case guard => exact (hc.rest 627 (Nat.le_refl _)).2.trans ok.guard
  case order =>
    intro a b hab hb
    obtain ⟨i, hi, hil, rfl, -, hfi⟩ := hentry a (by omega)
    obtain ⟨k, hk, hkl, rfl, -, hfk⟩ := hentry b (by omega)
    have hik : i ≤ k := by
      by_contra hlt
      have := leavesBelow_strict hkl (Nat.not_le.1 hlt)
      omega
    have := ok.monotone hik hk.le
    omega
  case pos =>
    intro a ha
    obtain ⟨k, hk, -, -, -, hf⟩ := hentry a (by omega)
    have := ok.freq_pos hk.le
    omega
  case leaf => exact fun a ha _ => (hleaf a (by omega)).2
  case internal => exact fun a ha hs => absurd (hleaf a (by omega)).1 (by omega)
  case located =>
    rintro v (⟨h1, h2⟩ | ⟨-, hv⟩)
    · exact hlocated v h1 h2
    · omega
  case injective => exact fun a b ha hb => hinj a b (by omega) (by omega)
  case total =>
    rw [Nat.mul_zero, Nat.add_zero, ← Finset.range_eq_Ico]
    refine Finset.sum_nbij (fun a => sonNat jg.2 a - 627) (fun a ha => ?_) (fun a ha b hb hab => ?_) (fun c hc' => ?_) (fun a ha => ?_)
    · have := sonNat_lt jg.2 a
      simp only [Finset.mem_range] at ha ⊢
      have := hleaf a ha
      omega
    · simp only [Finset.coe_range, Set.mem_Iio] at ha hb hab
      have := hleaf a ha
      have := hleaf b hb
      exact hinj a b ha hb (by omega)
    · simp only [Finset.coe_range, Set.mem_Iio] at hc'
      obtain ⟨a, ha, hs⟩ := hlocated (c + 627) (by omega) (by omega)
      exact ⟨a, by simpa using ha, by simp only [hs, Nat.add_sub_cancel]⟩
    · exact (hleaf a (Finset.mem_range.1 ha)).2

/-- The place of the next internal node: all less frequent entries and those of its own frequency stay below it. -/
theorem insertionIndex_spec (g : Huffman) (f : Nat) : ∀ k, (insertionIndex g f k = 0 ∨ freqNat g (insertionIndex g f k - 1) ≤ f)
    ∧ ∀ a, insertionIndex g f k ≤ a → a < k → f < freqNat g a := by
  intro k
  induction k with
  | zero => exact ⟨.inl rfl, by omega⟩
  | succ k ih =>
    rw [insertionIndex]
    split_ifs with hlt
    · refine ⟨ih.1, fun a ha hak => ?_⟩
      rcases Nat.lt_succ_iff_lt_or_eq.1 hak with h1 | rfl
      · exact ih.2 a ha h1
      · exact hlt
    · exact ⟨.inr (Nat.not_lt.1 hlt), fun a ha hak => absurd hak (by omega)⟩

/-- The entries from `k` on move up by one. -/
theorem shiftUp_reads {m j : Nat} (w : g.wf = true) (hmj : m ≤ j) (hj : j < 627) :
    (∀ x, freqAt (shiftUp m j g) x = if j - m < x ∧ x ≤ j then freqAt g (x - 1) else freqAt g x)
    ∧ (∀ x, sonAt (shiftUp m j g) x = if j - m < x ∧ x ≤ j then sonAt g (x - 1) else sonAt g x)
    ∧ ∀ x, prntAt (shiftUp m j g) x = prntAt g x := by
  induction m generalizing j g with
  | zero => exact ⟨fun x => (if_neg (by omega)).symm, fun x => (if_neg (by omega)).symm, fun _ => rfl⟩
  | succ m ih =>
    have w1 := setFreq_wf (i := j) (f := freqAt g (j - 1)) w (by omega)
    have w2 := setSon_wf (i := j) (v := (sonAt g (j - 1)).val) w1 hj
    obtain ⟨hf, hs, hp⟩ := ih w2 (j := j - 1) (by omega) (by omega)
    have hset : ∀ x, sonAt (setSon j (sonAt g (j - 1)).val (setFreq j (freqAt g (j - 1)) g)) x =
        if x = j then sonAt g (j - 1) else sonAt g x := fun x => by
      rw [sonAt_setSon w1, fin_ofNat_val, sonAt_setFreq]
    refine ⟨fun x => ?_, fun x => ?_, fun x => ?_⟩
    · rw [shiftUp, hf, freqAt_setSon, freqAt_setSon, freqAt_setFreq w, freqAt_setFreq w]
      rcases lt_trichotomy x j with h1 | rfl | h1
      · simp only [show x - 1 ≠ j by omega, show x ≠ j by omega, if_false, show x ≤ j - 1 by omega, show x ≤ j by omega,
          show j - 1 - m = j - (m + 1) by omega]
      · rw [if_neg (by omega), if_pos rfl, if_pos (by omega)]
      · rw [if_neg (by omega), if_neg (by omega), if_neg (by omega)]
    · rw [shiftUp, hs, hset, hset]
      rcases lt_trichotomy x j with h1 | rfl | h1
      · simp only [show x - 1 ≠ j by omega, show x ≠ j by omega, if_false, show x ≤ j - 1 by omega, show x ≤ j by omega,
          show j - 1 - m = j - (m + 1) by omega]
      · rw [if_neg (by omega), if_pos rfl, if_pos (by omega)]
      · rw [if_neg (by omega), if_neg (by omega), if_neg (by omega)]
    · rw [shiftUp, hp, prntAt_setSon, prntAt_setFreq]

/-- Where entry `a` is after an insertion at `k`. -/
def movedUp (k a : Nat) : Nat := if a < k then a else a + 1

theorem movedUp_of_lt {k a : Nat} (h : a < k) : movedUp k a = a := if_pos h

theorem movedUp_cases (k a : Nat) : (a < k ∧ movedUp k a = a) ∨ (k ≤ a ∧ movedUp k a = a + 1) := by
  unfold movedUp
  split_ifs with h
  · exact .inl ⟨h, rfl⟩
  · exact .inr ⟨Nat.not_lt.1 h, rfl⟩

theorem exists_movedUp {k j b : Nat} (hkj : k ≤ j) (hb : b < j + 1) : b = k ∨ ∃ a, a < j ∧ movedUp k a = b := by
  rcases lt_trichotomy b k with h | h | h
  · exact .inr ⟨b, by omega, movedUp_of_lt h⟩
  · exact .inl h
  · refine .inr ⟨b - 1, by omega, ?_⟩
    rcases movedUp_cases k (b - 1) with ⟨h1, -⟩ | ⟨-, h1⟩ <;> omega

theorem sum_movedUp {k m j : Nat} (hm : m ≤ k) (hj : k ≤ j) (f : Nat → Nat) :
    ∑ b ∈ Finset.Ico m (j + 1), f b = f k + ∑ a ∈ Finset.Ico m j, f (movedUp k a) := by
  rw [← Finset.add_sum_erase _ f (Finset.mem_Ico.2 ⟨hm, Nat.lt_succ_of_le hj⟩)]
  congr 1
  refine (Finset.sum_nbij (movedUp k) (fun a ha => ?_) (fun a _ b _ hab => ?_) (fun b hb => ?_) fun a _ => rfl).symm
  · rw [Finset.mem_Ico] at ha
    rw [Finset.mem_erase, Finset.mem_Ico]
    rcases movedUp_cases k a with h | h <;> omega
  · rcases movedUp_cases k a with h | h <;> rcases movedUp_cases k b with h' | h' <;> omega
  · rw [Finset.mem_coe, Finset.mem_erase, Finset.mem_Ico] at hb
    obtain ⟨a, ha, rfl⟩ := (exists_movedUp hj hb.2.2).resolve_left hb.1
    refine ⟨a, ?_, rfl⟩
    rw [Finset.mem_coe, Finset.mem_Ico]
    rcases movedUp_cases k a with h | h <;> omega

/-- Entry `(f, v)` was inserted at `k` below entry `j`. -/
structure Inserted (g g' : Huffman) (j k f v : Nat) : Prop where
  wf : g'.wf = true
  prnt : ∀ x, prntAt g' x = prntAt g x
  guard : freqAt g' 627 = freqAt g 627
  new : freqNat g' k = f ∧ sonNat g' k = v
  old : ∀ a, a < j → freqNat g' (movedUp k a) = freqNat g a ∧ sonNat g' (movedUp k a) = sonNat g a

theorem inserted {j k f v : Nat} (w : g.wf = true) (hkj : k ≤ j) (hj : j < 627) (hf : f < 2 ^ 16) (hv : v < 941) :
    Inserted g (setSon k v (setFreq k (BitVec.ofNat 16 f) (shiftUp (j - k) j g))) j k f v := by
  obtain ⟨hsf, hss, hsp⟩ := shiftUp_reads w (Nat.sub_le j k) hj
  rw [Nat.sub_sub_self hkj] at hsf hss
  have w1 := shiftUp_wf (n := j - k) hj w
  have w2 := setFreq_wf (i := k) (f := BitVec.ofNat 16 f) w1 (by omega)
  have hfreq : ∀ x, freqAt (setSon k v (setFreq k (BitVec.ofNat 16 f) (shiftUp (j - k) j g))) x =
      if x = k then BitVec.ofNat 16 f else if k < x ∧ x ≤ j then freqAt g (x - 1) else freqAt g x := fun x => by
    rw [freqAt_setSon, freqAt_setFreq w1, hsf]
  have hson : ∀ x, sonAt (setSon k v (setFreq k (BitVec.ofNat 16 f) (shiftUp (j - k) j g))) x =
      if x = k then Fin.ofNat 941 v else if k < x ∧ x ≤ j then sonAt g (x - 1) else sonAt g x := fun x => by
    rw [sonAt_setSon w2, sonAt_setFreq, hss]
  refine ⟨setSon_wf w2 (by omega), fun x => by rw [prntAt_setSon, prntAt_setFreq, hsp], ?_, ⟨?_, ?_⟩, fun a ha => ?_⟩
  · rw [hfreq, if_neg (by omega), if_neg (by omega)]
  · rw [freqNat, hfreq, if_pos rfl]
    exact Nat.mod_eq_of_lt hf
  · rw [sonNat, hson, if_pos rfl]
    exact val_ofNat hv
  · rw [freqNat, sonNat, hfreq, hson]
    rcases movedUp_cases k a with ⟨h1, h2⟩ | ⟨h1, h2⟩
    · rw [h2, if_neg (by omega), if_neg (by omega), if_neg (by omega), if_neg (by omega)]
      exact ⟨rfl, rfl⟩
    · rw [h2, if_neg (by omega), if_pos (by omega), if_neg (by omega), if_pos (by omega)]
      exact ⟨rfl, rfl⟩

/-- One more internal node joined. -/
theorem Joined.insert {g' : Huffman} {k : Nat} (hg : Joined h n g) (hn : n < 313)
    (hi : Inserted g g' (314 + n) k (freqNat g (2 * n) + freqNat g (2 * n + 1)) (2 * n)) (hk : 2 * n + 1 < k) (hkj : k ≤ 314 + n)
    (hbelow : ∀ a, a < k → freqNat g a ≤ freqNat g (2 * n) + freqNat g (2 * n + 1))
    (habove : ∀ a, k ≤ a → a < 314 + n → freqNat g (2 * n) + freqNat g (2 * n + 1) < freqNat g a) : Joined h (n + 1) g' := by
  obtain ⟨hnewf, hnews⟩ := hi.new
  have hlow : ∀ a, a < k → a < 314 + n → freqNat g' a = freqNat g a := fun a h1 h2 => by
    have := (hi.old a h2).1
    rwa [movedUp_of_lt h1] at this
  have hcase : ∀ b, b < 314 + (n + 1) → b = k ∨ ∃ a, a < 314 + n ∧ movedUp k a = b := fun b hb => exists_movedUp hkj hb
  constructor
  case wf => exact hi.wf
  case prnt => exact fun x => (hi.prnt x).trans (hg.prnt x)
  case guard => exact hi.guard.trans hg.guard
  case order =>
    intro a b hab hb
    rcases hcase a (by omega) with rfl | ⟨a, ha, rfl⟩ <;> rcases hcase b hb with rfl | ⟨b, hb', rfl⟩
    · exact Nat.le_refl _
    · rw [hnewf, (hi.old b hb').1]
      refine (habove b ?_ hb').le
      rcases movedUp_cases a b with h1 | h1 <;> omega
    · rw [hnewf, (hi.old a ha).1]
      refine hbelow a ?_
      rcases movedUp_cases b a with h1 | h1 <;> omega
    · rw [(hi.old a ha).1, (hi.old b hb').1]
      refine hg.order a b ?_ hb'
      rcases movedUp_cases k a with h1 | h1 <;> rcases movedUp_cases k b with h2 | h2 <;> omega
  case pos =>
    intro a ha
    rcases hcase a ha with rfl | ⟨a, ha', rfl⟩
    · have := hg.pos (2 * n) (by omega)
      omega
    · rw [(hi.old a ha').1]
      exact hg.pos a ha'
  case leaf =>
    intro a ha hs
    rcases hcase a ha with rfl | ⟨a, ha', rfl⟩
    · omega
    · rw [(hi.old a ha').2] at hs ⊢
      rw [(hi.old a ha').1]
      exact hg.leaf a ha' hs
  case internal =>
    intro a ha hs
    rcases hcase a ha with rfl | ⟨a, ha', rfl⟩
    · rw [hnews, hnewf, hlow _ (by omega) (by omega), hlow _ hk (by omega)]
      exact ⟨by omega, by omega, hk, rfl⟩
    · rw [(hi.old a ha').2] at hs ⊢
      obtain ⟨h1, h2, h3, h4⟩ := hg.internal a ha' hs
      rw [(hi.old a ha').1, hlow _ (by omega) (by omega), hlow _ (by omega) (by omega)]
      refine ⟨h1, by omega, ?_, h4⟩
      rcases movedUp_cases k a with h5 | h5 <;> omega
  case located =>
    intro v hv
    by_cases hvn : v = 2 * n
    · exact ⟨k, by omega, hnews.trans hvn.symm⟩
    · obtain ⟨a, ha, hs⟩ := hg.located v (by omega)
      refine ⟨movedUp k a, ?_, (hi.old a ha).2.trans hs⟩
      rcases movedUp_cases k a with h1 | h1 <;> omega
  case injective =>
    have hfresh : ∀ a, a < 314 + n → sonNat g a ≠ 2 * n := fun a ha e => by
      have := hg.internal a ha (by omega)
      omega
    intro a b ha hb hab
    rcases hcase a ha with rfl | ⟨a, ha', rfl⟩ <;> rcases hcase b hb with rfl | ⟨b, hb', rfl⟩
    · rfl
    · rw [hnews, (hi.old b hb').2] at hab
      exact absurd hab.symm (hfresh b hb')
    · rw [hnews, (hi.old a ha').2] at hab
      exact absurd hab (hfresh a ha')
    · rw [(hi.old a ha').2, (hi.old b hb').2] at hab
      rw [hg.injective a b ha' hb' hab]
  case total =>
    have hsum := hg.total
    rw [Finset.sum_eq_sum_Ico_succ_bot (by omega), Finset.sum_eq_sum_Ico_succ_bot (by omega), ← Nat.add_assoc] at hsum
    rw [← hsum, show 314 + (n + 1) = 314 + n + 1 from rfl, sum_movedUp (k := k) (by omega) hkj, hnewf]
    congr 1
    exact Finset.sum_congr rfl fun a ha => (hi.old a (Finset.mem_Ico.1 ha).2).1

/-- What is left to join sums to no more than the root. -/
theorem sum_halved_le (ok : HuffOk h) : ∑ c ∈ Finset.range 314, halvedFreq h c ≤ 16541 := by
  have hroot : freqNat h 626 ≤ 32768 := ok.rootMax
  have hsum : freqNat h 626 = ∑ c ∈ Finset.range 314, leafFreq h c := ok.rootSum
  have hle : ∑ c ∈ Finset.range 314, 2 * halvedFreq h c ≤ ∑ c ∈ Finset.range 314, (leafFreq h c + 1) :=
    Finset.sum_le_sum fun c _ => by rw [halvedFreq]; omega
  rw [← Finset.mul_sum, Finset.sum_add_distrib, Finset.sum_const, Finset.card_range, ← hsum] at hle
  simp only [smul_eq_mul] at hle
  omega

/-- A round of step 2 joins the next pair. -/
theorem Joined.insertInternal (ok : HuffOk h) (hg : Joined h n g) (hn : n < 313) : Joined h (n + 1) (insertInternal (314 + n) g) := by
  have hfit : freqNat g (2 * n) + freqNat g (2 * n + 1) ≤ 16541 := by
    have hsum := hg.total
    rw [Finset.sum_eq_sum_Ico_succ_bot (by omega), Finset.sum_eq_sum_Ico_succ_bot (by omega)] at hsum
    have := sum_halved_le ok
    omega
  obtain ⟨hbelow, habove⟩ := insertionIndex_spec g (freqNat g (2 * n) + freqNat g (2 * n + 1)) (314 + n)
  have hkj := insertionIndex_le (h := g) (f := freqNat g (2 * n) + freqNat g (2 * n + 1)) (k := 314 + n)
  have heq : Machine.insertInternal (314 + n) g = setSon (insertionIndex g (freqNat g (2 * n) + freqNat g (2 * n + 1)) (314 + n)) (2 * n)
      (setFreq (insertionIndex g (freqNat g (2 * n) + freqNat g (2 * n + 1)) (314 + n))
        (BitVec.ofNat 16 (freqNat g (2 * n) + freqNat g (2 * n + 1)))
        (shiftUp (314 + n - insertionIndex g (freqNat g (2 * n) + freqNat g (2 * n + 1)) (314 + n)) (314 + n) g)) := by
    simp only [Machine.insertInternal, Nat.add_sub_cancel_left]; rfl
  rw [heq]
  generalize insertionIndex g (freqNat g (2 * n) + freqNat g (2 * n + 1)) (314 + n) = k at *
  have hk : 2 * n + 1 < k := by
    by_contra hle
    have := habove (2 * n + 1) (by omega) (by omega)
    have := hg.pos (2 * n) (by omega)
    omega
  refine hg.insert hn (inserted hg.wf hkj (by omega) (by omega) (by omega)) hk hkj (fun a ha => ?_) habove
  exact (hg.order a (k - 1) (by omega) (by omega)).trans (hbelow.resolve_left (by omega))

/-- After step 2 every pair is joined. -/
theorem joined_all (ok : HuffOk h) (hg : Joined h 0 g) :
    Joined h 313 (forUp Machine.insertInternal (Config.T - Config.N_CHAR) Config.N_CHAR g) := by
  have hall := forUp_indexed (P := fun j g => Joined h (j - 314) g) (f := Machine.insertInternal) (n := Config.T - Config.N_CHAR)
    (i := Config.N_CHAR)
    (fun j g (h1 : 314 ≤ j) (h2 : j < 627) hg => by
      have := hg.insertInternal ok (by omega)
      rwa [Nat.add_sub_cancel' h1, ← Nat.sub_add_comm h1] at this) hg
  exact hall

end Join

/-! ### Step 3: the parents are linked -/

section Relink

variable {h g : Huffman}

/-- The nodes below `i` are the parents of what hangs under them. -/
structure Relinked (g : Huffman) (i : Nat) (t : Huffman) : Prop where
  wf : t.wf = true
  freq : ∀ k, freqAt t k = freqAt g k
  son : ∀ k, sonAt t k = sonAt g k
  root : prntAt t 626 = prntAt g 626
  parent : ∀ a k, a < i → HangsFrom g a k → prntNat t k = a

/-- The links of a joined tree: what hangs under a node is below it, and hangs under no other. -/
theorem Joined.hangs_unique (hg : Joined h 313 g) {a b k : Nat} (ha : a < 627) (hb : b < 627) (hak : HangsFrom g a k)
    (hbk : HangsFrom g b k) : a = b := by
  have hea := hg.internal a ha
  have heb := hg.internal b hb
  refine hg.injective a b ha hb ?_
  rcases hangsFrom_iff.1 hak with h1 | ⟨h1, h1'⟩ <;> rcases hangsFrom_iff.1 hbk with h2 | ⟨h2, h2'⟩
  · omega
  · have := heb h2
    have := hea (by omega)
    omega
  · have := hea h1
    have := heb (by omega)
    omega
  · omega

theorem Joined.ne_root (hg : Joined h 313 g) {a k : Nat} (ha : a < 627) (hk : HangsFrom g a k) : k ≠ 626 := by
  rintro rfl
  have hs : sonNat g a < 627 := by rcases hangsFrom_iff.1 hk with hs | ⟨hs, -⟩ <;> omega
  obtain ⟨h1, h2, -⟩ := hg.internal a ha hs
  rcases hangsFrom_iff.1 hk with hk | ⟨-, hk⟩ <;> omega

theorem Relinked.relinkNode {i : Nat} {t : Huffman} (hg : Joined h 313 g) (ht : Relinked g i t) (hi : i < 627) :
    Relinked g (i + 1) (relinkNode i t) := by
  have hprnt : ∀ k, prntAt (Machine.relinkNode i t) k = if HangsFrom g i k then Fin.ofNat 627 i else prntAt t k := fun k => by
    have := prntAt_adopt ht.wf (sonAt t i) i k
    rw [ht.son i] at this
    rw [Machine.relinkNode, ht.son i]
    exact this
  refine ⟨adopt_wf ht.wf, fun k => ?_, fun k => ?_, ?_, fun a k ha hk => ?_⟩
  · rw [Machine.relinkNode, freqAt_adopt, ht.freq]
  · rw [Machine.relinkNode, sonAt_adopt, ht.son]
  · rw [hprnt, if_neg fun hk => hg.ne_root hi hk rfl, ht.root]
  · rw [prntNat, hprnt]
    split_ifs with hik
    · rw [val_ofNat hi]
      exact hg.hangs_unique hi (by omega) hik hk
    · have hne : a ≠ i := by rintro rfl; exact hik hk
      exact ht.parent a k (by omega) hk

theorem relinked_all (hg : Joined h 313 g) : Relinked g 627 (forUp relinkNode Config.T 0 g) := by
  have hstart : Relinked g 0 g := ⟨hg.wf, fun _ => rfl, fun _ => rfl, rfl, by omega⟩
  have hall := forUp_indexed (P := Relinked g) (f := relinkNode) (n := Config.T) (i := 0)
    (fun i t _ h2 ht => ht.relinkNode hg (show i < 627 by rwa [Nat.zero_add] at h2)) hstart
  rwa [Nat.zero_add] at hall

/-- The joined tree with its parents linked is in order (R67). -/
theorem Relinked.climbing {t : Huffman} (ok : HuffOk h) (hg : Joined h 313 g) (ht : Relinked g 627 t) : Climbing t 0 := by
  have hson : ∀ i, sonNat t i = sonNat g i := fun i => congrArg Fin.val (ht.son i)
  have hfreq : ∀ i, freqNat t i = freqNat g i := fun i => congrArg BitVec.toNat (ht.freq i)
  have hhangs : ∀ i k, HangsFrom t i k ↔ HangsFrom g i k := fun i k => by rw [hangsFrom_iff, hangsFrom_iff, hson]
  have hguard : freqNat g 627 = 65535 := congrArg BitVec.toNat hg.guard
  constructor
  case links =>
    constructor
    case shape =>
      intro i hi hs
      rw [hson] at hs ⊢
      obtain ⟨heven, -, hlt, -⟩ := hg.internal i hi hs
      exact ⟨heven, hlt⟩
    case parent => exact fun i k hi hk => ht.parent i k hi ((hhangs i k).1 hk)
    case child =>
      intro k hk h626
      obtain ⟨a, ha, hs⟩ := hg.located (if k < 627 then k - k % 2 else k) (by split_ifs <;> omega)
      have hak : HangsFrom g a k := by
        rw [hangsFrom_iff, hs]
        split_ifs <;> omega
      rw [ht.parent a k ha hak, hhangs]
      exact hak
    case rootMark => exact (congrArg Fin.val (ht.root.trans (hg.prnt 626))).trans ok.rootMark
    case rootInternal =>
      obtain ⟨a, ha, hs⟩ := hg.located 624 (by omega)
      obtain ⟨-, -, hlt, -⟩ := hg.internal a ha (by omega)
      obtain rfl : a = 626 := by omega
      rw [hson, hs]
      omega
  case order =>
    intro i j hij hj
    rw [hfreq, hfreq]
    rcases Nat.lt_or_ge j 627 with h1 | h1
    · exact hg.order i j hij h1
    · obtain rfl : j = 627 := by omega
      rw [hguard]
      exact Nat.le_of_lt_succ (freqAt g i).isLt
  case guard => exact (ht.freq 627).trans hg.guard
  case pos =>
    intro i hi
    rw [hfreq]
    rcases Nat.lt_or_ge i 627 with h1 | h1
    · exact hg.pos i h1
    · obtain rfl : i = 627 := by omega
      omega
  case sum =>
    intro i hi hs
    have hne : i ≠ 0 := by
      rintro rfl
      rw [hson] at hs
      exact absurd (hg.internal 0 hi hs).2.2.1 (Nat.not_lt_zero _)
    rw [hson] at hs
    obtain ⟨-, -, -, hsum⟩ := hg.internal i hi hs
    rw [hson, hfreq, hfreq, hfreq, if_neg hne]
    omega

theorem leafFreq_eq (h : Huffman) (c : Nat) : leafFreq h c = freqNat h (prntNat h (c + 627)) := rfl

/-- Each symbol counts half of what it did. -/
theorem Relinked.leafFreq_eq {t : Huffman} (ht : Relinked g 627 t) (hl : LinksOk t) (hg : Joined h 313 g) {c : Nat} (hc : c < 314) :
    leafFreq t c = halvedFreq h c := by
  have hfreq : ∀ i, freqNat t i = freqNat g i := fun i => congrArg BitVec.toNat (ht.freq i)
  have hson : ∀ i, sonNat t i = sonNat g i := fun i => congrArg Fin.val (ht.son i)
  have hs := hl.leaf hc
  rw [hson] at hs
  have hleaf := hg.leaf _ (prntNat_lt t (c + 627)) (by omega)
  rw [hs, Nat.add_sub_cancel] at hleaf
  rw [Machine.leafFreq_eq, hfreq, hleaf]

theorem reconst_eq (h : Huffman) : reconst h = forUp relinkNode Config.T 0
    (forUp insertInternal (Config.T - Config.N_CHAR) Config.N_CHAR (forUp collectLeaf Config.T 0 (0, h)).2) := by
  rw [reconst]

/-- RECONST keeps R67, halves every leaf, rounding up, and leaves the root at most half and half a symbol each. -/
theorem reconst_spec (ok : HuffOk h) (w : h.wf = true) : HuffOk (reconst h) ∧ freqNat (reconst h) 626 ≤ 16541
    ∧ ∀ c, c < 314 → leafFreq (reconst h) c = halvedFreq h c := by
  have hg := joined_all ok ((collected_all w).joined ok)
  rw [reconst_eq]
  generalize forUp insertInternal (Config.T - Config.N_CHAR) Config.N_CHAR (forUp collectLeaf Config.T 0 (0, h)).2 = g at hg ⊢
  have ht := relinked_all hg
  generalize forUp relinkNode Config.T 0 g = t at ht ⊢
  have hc := ht.climbing ok hg
  have hroot : freqNat t 626 ≤ 16541 := by
    have htotal := hg.total
    rw [Finset.sum_eq_sum_Ico_succ_bot (by omega), Finset.Ico_self, Finset.sum_empty, Nat.add_zero] at htotal
    have := sum_halved_le ok
    rw [freqNat, ht.freq]
    exact htotal.trans_le this
  refine ⟨hc.huffOk (by omega), hroot, fun c hc' => ?_⟩
  exact ht.leafFreq_eq hc.links hg hc'

end Relink

end Sys2Proof.Machine

/-! PROOFS. The Huffman coder completes on a well-formed tree and keeps it one (R67, R69, R71, R72). -/

namespace Sys2Proof.Machine

open Sys2Proof

section Coder

variable {h : Huffman} {c : Nat}

/-- What UPDATE finds is a well-formed tree with room for one more count (R74). -/
theorem renormalised_spec (ok : HuffOk h) (w : h.wf = true) :
    HuffOk (renormalised h) ∧ (renormalised h).wf = true ∧ freqNat (renormalised h) 626 < 0x8000 := by
  unfold renormalised
  split_ifs with hmax
  · obtain ⟨ok', hroot, -⟩ := reconst_spec ok w
    exact ⟨ok', reconst_wf w, by omega⟩
  · refine ⟨ok, w, lt_of_le_of_ne ok.rootMax fun e => hmax (BitVec.eq_of_toNat_eq e)⟩

/-- UPDATE completes and keeps R67. -/
theorem update_ok (ok : HuffOk h) (w : h.wf = true) (hc : c < 314) : ∃ g, update c h = .ok g ∧ HuffOk g ∧ g.wf = true
    ∧ Climbs (prntNat (renormalised h) (c + 627)) (renormalised h) g := by
  obtain ⟨ok', w', hroom⟩ := renormalised_spec ok w
  have hstart : Climbing (renormalised h) (prntNat (renormalised h) (c + 627)) :=
    ok'.climbing (by rw [ok'.linksOk.leaf hc]; omega)
  obtain ⟨g, hg, hclimbs, wg⟩ := hstart.climb_ok (fuel := 627) w' (prntNat_lt _ _) hroom (by omega)
  obtain ⟨hend, hroot, -⟩ := hclimbs.result hstart
  exact ⟨g, hg, hend.huffOk (by omega), wg, hclimbs⟩

theorem update_huffOk {g : Huffman} (ok : HuffOk h) (w : h.wf = true) (hc : c < 314) (e : update c h = .ok g) : HuffOk g := by
  obtain ⟨g', hg', ok', -⟩ := update_ok ok w hc
  rwa [Except.ok.inj (e.symm.trans hg')]

/-- The path from a node below the root ends at the root. -/
theorem codeLoop_ok (hl : LinksOk h) {fuel k l : Nat} {code : BitVec 32} (hk : k < 626) (hfuel : 627 ≤ fuel + k) :
    ∃ r, codeLoop h fuel k l code = .ok r := by
  induction fuel generalizing k l code with
  | zero => omega
  | succ fuel ih =>
    unfold codeLoop
    have hup := hl.lt_prnt hk
    have hlt := prntNat_lt h k
    by_cases hroot : prntNat h k = 626
    · exact ⟨_, if_pos hroot⟩
    · obtain ⟨r, hr⟩ := ih (k := prntNat h k) (l := l + 1)
        (code := if k % 2 = 1 then (code >>> 1) ||| 0x80000000 else code >>> 1) (by omega) (by omega)
      exact ⟨r, (if_neg hroot).trans hr⟩

theorem codeOf_ok (hl : LinksOk h) (hc : c < 314) : ∃ l code, codeOf h c = .ok (l, code) := by
  obtain ⟨⟨l, code⟩, hr⟩ := codeLoop_ok hl (fuel := 627) (l := 0) (code := 0) (hl.leaf_lt_root hc) (by omega)
  exact ⟨l, code, hr⟩

/-- The walk of DECODE_CHAR ends at a leaf. -/
theorem decodeWalk_ok {fuel : Nat} {s : State} (hl : LinksOk s.huff) (hc : c < 941) (hnode : c < 627 → c + 1 < 627)
    (hfuel : c < 627 → c + 2 ≤ fuel) (hfuel' : 1 ≤ fuel) : ∃ d u, decodeWalk fuel c s = .ok (d, u) ∧ d < 314 := by
  induction fuel generalizing c s with
  | zero => omega
  | succ fuel ih =>
    unfold decodeWalk
    by_cases hT : c < 627
    · have hb : (getBit s).1.toNat ≤ 1 := Bool.toNat_le _
      have hc' := hnode hT
      have hin : c + (getBit s).1.toNat < 627 := by omega
      have hnext := hl.shape _ hin
      have hs := sonNat_lt s.huff (c + (getBit s).1.toNat)
      obtain ⟨d, u, hd, hlt⟩ := ih (c := sonNat s.huff (c + (getBit s).1.toNat)) (s := (getBit s).2) hl hs
        (fun h => by have := hnext h; omega) (fun h => by have := hnext h; have := hfuel hT; omega) (by have := hfuel hT; omega)
      exact ⟨d, u, (if_pos hT).trans ((if_pos hin).trans hd), hlt⟩
    · exact ⟨c - 627, s, if_neg hT, by omega⟩

/-- DECODE_CHAR completes, with a symbol. -/
theorem decodeChar_ok {s : State} (ok : HuffOk s.huff) (w : s.huff.wf = true) :
    ∃ c u, decodeChar s = .ok (c, u) ∧ c < 314 ∧ HuffOk u.huff := by
  have hl := ok.linksOk
  have hroot := hl.rootInternal
  have hshape := hl.shape 626 (by omega) hroot
  obtain ⟨c, u, hwalk, hc⟩ := decodeWalk_ok (fuel := 628) (c := sonNat s.huff 626) hl (by omega) (by omega) (by omega) (by omega)
  obtain ⟨g, hg, okg, -, -⟩ := update_ok ok w hc
  exact ⟨c, setHuff g u, decodeChar_eq_ok.2 ⟨u, g, hwalk, hg, rfl⟩, hc, okg⟩

/-- ENCODE_CHAR completes. -/
theorem encodeChar_ok {s : State} (ok : HuffOk s.huff) (w : s.huff.wf = true) (hc : c < 314) :
    ∃ t, encodeChar c s = .ok t := by
  obtain ⟨l, code, hcode⟩ := codeOf_ok ok.linksOk hc
  obtain ⟨g, hg, -⟩ := update_ok ok w hc
  exact ⟨_, encodeChar_eq_ok.2 ⟨l, code, g, hcode, hg, rfl⟩⟩

end Coder

end Sys2Proof.Machine

/-! PROOFS. Every step keeps a safe state safe (R14, R16, R18, R28, R67, R91), operation by operation. -/

namespace Sys2Proof.Machine

open Sys2Proof

/-! ### What is safe stays safe where nothing of it is written -/

theorem Safe.of_same {s t : State} (h : Safe s) (hm : Memory.wf t = true) (hw : t.wr = s.wr) (hh : t.huff = s.huff)
    (hf : t.mf.matchLength = s.mf.matchLength) : Safe t where
  memory := hm
  writer := by
    have := h.writer
    rwa [WriterOk, ← hw] at this
  huffman := hh ▸ h.huffman
  matchBound := hf ▸ h.matchBound

theorem Safe.mf_wf {s : State} (h : Safe s) : s.mf.wf = true := (memory_wf_iff.1 h.memory).2.2.2.1

theorem Safe.huff_wf {s : State} (h : Safe s) : s.huff.wf = true := (memory_wf_iff.1 h.memory).2.2.2.2

theorem Safe.setPhase {s : State} (h : Safe s) (p : Phase) : Safe (setPhase p s) :=
  h.of_same (setPhase_memory_wf.trans h.memory) rfl rfl rfl

theorem Safe.setEnc {s : State} (h : Safe s) (e : EncodeRegs) : Safe (setEnc e s) :=
  h.of_same (setEnc_memory_wf.trans h.memory) rfl rfl rfl

theorem Safe.setDec {s : State} (h : Safe s) (d : DecodeRegs) : Safe (setDec d s) :=
  h.of_same (setDec_memory_wf.trans h.memory) rfl rfl rfl

theorem Safe.setRet {s : State} (h : Safe s) (v : BitVec 16) : Safe (setRet v s) :=
  h.of_same ((memory_wf_congr rfl rfl rfl rfl rfl).trans h.memory) rfl rfl rfl

theorem Safe.raiseFault {s : State} (h : Safe s) (x : FaultCode) (info : BitVec 64) : Safe (raiseFault x info s) :=
  h.of_same (raiseFault_memory_wf.trans h.memory) rfl rfl rfl

theorem Safe.clearResults {s : State} (h : Safe s) : Safe (clearResults s) :=
  h.of_same (clearResults_memory_wf h.memory) rfl rfl rfl

theorem Safe.skipBits {s : State} (h : Safe s) (n : Nat) : Safe (skipBits n s) :=
  h.of_same ((memory_wf_congr rfl rfl rfl rfl rfl).trans h.memory) rfl rfl rfl

theorem Safe.outAppend {s : State} (h : Safe s) (v : Byte) : Safe (outAppend v s) :=
  h.of_same (outAppend_memory_wf h.memory) rfl rfl rfl

theorem Safe.produceByte {s : State} (h : Safe s) (v : Byte) : Safe (produceByte v s) :=
  h.of_same (produceByte_memory_wf h.memory) rfl rfl rfl

theorem Safe.startCommand {s : State} (h : Safe s) (p : Phase) : Safe (startCommand p s) := by
  unfold Machine.startCommand
  split
  · exact h
  · exact h.setPhase p

theorem Safe.setHuff {s : State} (h : Safe s) {g : Huffman} (ok : HuffOk g) (w : g.wf = true) : Safe (setHuff g s) where
  memory := setHuff_memory_wf h.memory w
  writer := h.writer
  huffman := ok
  matchBound := h.matchBound

theorem Safe.setMf {s : State} (h : Safe s) {m : MatchFinder} (w : m.wf = true) (hm : m.matchLength.toNat ≤ 60) : Safe (setMf m s) where
  memory := setMf_memory_wf h.memory w
  writer := h.writer
  huffman := h.huffman
  matchBound := hm

/-! ### The bit channel (R18, R91) -/

/-- A bit joins the pending ones at their end; what is below stays zero. -/
theorem getMsbD_putBit {acc : BitVec 32} {c k : Nat} (b : Bool) (hc : c < k) (hk : acc.getMsbD k = false) :
    (acc ||| ((BitVec.ofBool b).setWidth 32 <<< (31 - c))).getMsbD k = false := by
  rw [BitVec.getMsbD_or, hk, Bool.false_or]
  by_cases h32 : k < 32
  · rw [BitVec.getMsbD_eq_getLsbD, BitVec.getLsbD_shiftLeft]
    simp only [show 32 - 1 - k < 31 - c by omega, decide_true, Bool.not_true, Bool.and_false, Bool.false_and]
  · exact BitVec.getMsbD_of_ge _ _ (Nat.not_lt.1 h32)

theorem writerOk_empty (s : State) : WriterOk { s with wr := { acc := 0, cnt := 0 } } :=
  ⟨show (0 : BitVec 4).toNat < 8 by decide, fun k _ => BitVec.getMsbD_zero⟩

theorem putBit_writerOk {b : Bool} {s : State} (h : WriterOk s) : WriterOk (putBit b s) := by
  obtain ⟨hcnt, hzero⟩ := h
  unfold putBit
  simp only
  split_ifs with h8
  · exact writerOk_empty _
  · have hsucc : (s.wr.cnt + 1).toNat = s.wr.cnt.toNat + 1 := by bv_omega
    have hne : (s.wr.cnt + 1).toNat ≠ 8 := fun e => h8 (BitVec.eq_of_toNat_eq e)
    refine ⟨show (s.wr.cnt + 1).toNat < 8 by omega, fun k (hk : (s.wr.cnt + 1).toNat ≤ k) => ?_⟩
    exact getMsbD_putBit b (by omega) (hzero k (by omega))

theorem Safe.putCode {s : State} (h : Safe s) (l : Nat) (v : BitVec 32) : Safe (putCode l v s) := by
  have hw : WriterOk (Machine.putCode l v s) :=
    forUp_inv (P := WriterOk) (fun _ _ _ _ ht => putBit_writerOk ht) h.writer
  have hmem := putCode_memory_wf (l := l) (v := v) h.memory
  have hhuff : (Machine.putCode l v s).huff = s.huff := by rw [putCode_frame]
  have hmf : (Machine.putCode l v s).mf = s.mf := by rw [putCode_frame]
  exact ⟨hmem, hw, hhuff ▸ h.huffman, hmf ▸ h.matchBound⟩

theorem Safe.encodePosition {s : State} (h : Safe s) (P : PosTable) (o : BitVec 12) : Safe (encodePosition o s P) :=
  (h.putCode _ _).putCode _ _

theorem Safe.flushBits {s : State} (h : Safe s) : Safe (flushBits s) := by
  have hmem := flushBits_memory_wf h.memory
  unfold Machine.flushBits at hmem ⊢
  split_ifs at hmem ⊢
  · exact ⟨hmem, writerOk_empty _, h.huffman, h.matchBound⟩
  · exact h

/-! ### The Huffman coder (R67) -/

theorem Safe.encodeChar {s t : State} {c : Nat} (h : Safe s) (hc : c < 314) (e : encodeChar c s = .ok t) : Safe t := by
  obtain ⟨l, code, g, -, hg, rfl⟩ := encodeChar_eq_ok.1 e
  exact (h.putCode l code).setHuff (update_huffOk h.huffman h.huff_wf hc hg) (update_wf h.huff_wf hg)

theorem Safe.decodeChar {s t : State} {c : Nat} (h : Safe s) (e : decodeChar s = .ok (c, t)) : Safe t := by
  obtain ⟨c', u, hu, -, ok⟩ := decodeChar_ok h.huffman h.huff_wf
  obtain ⟨-, rfl⟩ := Prod.mk.inj (Except.ok.inj (e.symm.trans hu))
  obtain ⟨-, hmf, -, hwr, -⟩ := decompressKeeps_iff.1 (decodeChar_keeps e)
  refine ⟨decodeChar_memory_wf h.memory e, ?_, ok, hmf ▸ h.matchBound⟩
  have := h.writer
  rwa [WriterOk, ← hwr] at this

theorem Safe.decodePosition {s : State} (h : Safe s) (P : PosTable) : Safe (decodePosition s P).2 := by
  obtain ⟨-, hmf, -, hwr, -⟩ := decompressKeeps_iff.1 (decodePosition_keeps P s)
  refine h.of_same (decodePosition_memory_wf.trans h.memory) hwr ?_ (congrArg _ hmf)
  rw [decodePosition_state]

theorem Safe.takeSymbolCode {s t : State} {c : Nat} (h : Safe s) (hc : c < 314) (e : takeSymbolCode c s = .ok t) : Safe t := by
  obtain ⟨⟨l, code⟩, -, e⟩ := bind_eq_ok.1 e
  obtain ⟨g, hg, e⟩ := bind_eq_ok.1 e
  rw [← Except.ok.inj e]
  exact ((h.skipBits l).setHuff (update_huffOk h.huffman h.huff_wf hc hg) (update_wf h.huff_wf hg)).setDec _

/-! ### The match finder (R16) -/

theorem keyCompare_le {tb : List Host.Cell} {r p n i j : Nat} {cmp cmp' : Int} (h : keyCompare tb r p n i cmp = .ok (cmp', j)) :
    j ≤ i + n := by
  induction n generalizing i cmp with
  | zero => cases h; exact Nat.le_refl _
  | succ n ih =>
    obtain ⟨a, -, h⟩ := bind_eq_ok.1 h
    obtain ⟨b, -, h⟩ := bind_eq_ok.1 h
    simp only at h
    split_ifs at h
    · cases h; exact Nat.le_add_right ..
    · have := ih h
      omega

/-- A match is as long as a key at most. -/
theorem insertWalk_matchLength_le {tb : List Host.Cell} {r : BitVec 12} {fuel : Nat} {cmp : Int} {p : Idx} {m m' : MatchFinder}
    {site : InsertSite} (hm : m.matchLength.toNat ≤ 60) (h : insertWalk tb r fuel cmp p m = .ok (site, m')) :
    m'.matchLength.toNat ≤ 60 := by
  induction fuel generalizing cmp p m with
  | zero => cases h
  | succ fuel ih =>
    obtain ⟨child, -, hcase⟩ := insertWalk_cases h
    rcases hcase with ⟨-, -, rfl⟩ | ⟨-, cmp', i, o, hcmp, -, hcase⟩
    · exact hm
    · have hi : i ≤ 60 := keyCompare_le hcmp
      have hnote : (noteCandidate o i m).matchLength.toNat ≤ 60 := by
        rw [noteCandidate_matchLength hi]
        split_ifs <;> omega
      rcases hcase with ⟨-, -, rfl⟩ | h
      · exact hnote
      · exact ih hnote h

theorem clearNode_matchLength {r : Idx} {m m' : MatchFinder} (h : clearNode r m = .ok m') : m'.matchLength = 0 := by
  obtain ⟨m1, -, h⟩ := bind_eq_ok.1 h
  obtain ⟨m2, -, h⟩ := bind_eq_ok.1 h
  exact Except.ok.inj h ▸ rfl

theorem insertNode_matchLength_le {tb : List Host.Cell} {r : BitVec 12} {m m' : MatchFinder} (h : insertNode tb r m = .ok m') :
    m'.matchLength.toNat ≤ 60 := by
  obtain ⟨b, -, h⟩ := bind_eq_ok.1 h
  obtain ⟨m1, hclear, h⟩ := bind_eq_ok.1 h
  obtain ⟨⟨site, m2⟩, hwalk, hlink⟩ := bind_eq_ok.1 h
  rw [linkAt_matchLength hlink]
  exact insertWalk_matchLength_le (by rw [clearNode_matchLength hclear]; decide) hwalk

theorem detachPredecessor_matchLength {p q0 q : Idx} {m m' : MatchFinder} (h : detachPredecessor p q0 m = .ok (q, m')) :
    m'.matchLength = m.matchLength := by
  obtain ⟨c, -, h⟩ := bind_eq_ok.1 h
  split_ifs at h
  · cases h; rfl
  · obtain ⟨_, -, h⟩ := bind_eq_ok.1 h
    obtain ⟨_, -, h⟩ := bind_eq_ok.1 h
    obtain ⟨_, -, h⟩ := bind_eq_ok.1 h
    obtain ⟨_, h2, h⟩ := bind_eq_ok.1 h
    obtain ⟨_, -, h⟩ := bind_eq_ok.1 h
    obtain ⟨_, -, h⟩ := bind_eq_ok.1 h
    obtain ⟨_, h3, h⟩ := bind_eq_ok.1 h
    obtain ⟨_, -, h⟩ := bind_eq_ok.1 h
    obtain ⟨_, h4, h⟩ := bind_eq_ok.1 h
    obtain ⟨_, -, h⟩ := bind_eq_ok.1 h
    obtain ⟨_, h5, h⟩ := bind_eq_ok.1 h
    cases h
    rw [setDad_matchLength h5, setLson_matchLength h4, setDad_matchLength h3, setRson_matchLength h2]

theorem replacement_matchLength {p q : Idx} {m m' : MatchFinder} (h : replacement p m = .ok (q, m')) :
    m'.matchLength = m.matchLength := by
  obtain ⟨l, -, h⟩ := bind_eq_ok.1 h
  obtain ⟨r, -, h⟩ := bind_eq_ok.1 h
  split_ifs at h
  · cases h; rfl
  · cases h; rfl
  · obtain ⟨_, -, h⟩ := bind_eq_ok.1 h
    obtain ⟨⟨q1, m1⟩, h1, h⟩ := bind_eq_ok.1 h
    obtain ⟨_, -, h⟩ := bind_eq_ok.1 h
    obtain ⟨_, h2, h⟩ := bind_eq_ok.1 h
    obtain ⟨_, -, h⟩ := bind_eq_ok.1 h
    obtain ⟨_, h3, h⟩ := bind_eq_ok.1 h
    cases h
    rw [setDad_matchLength h3, setRson_matchLength h2, detachPredecessor_matchLength h1]

theorem deleteNode_matchLength {p : BitVec 12} {m m' : MatchFinder} (h : deleteNode p m = .ok m') :
    m'.matchLength = m.matchLength := by
  obtain ⟨d, -, h⟩ := bind_eq_ok.1 h
  split_ifs at h
  · cases h; rfl
  · obtain ⟨⟨q, m1⟩, h1, h⟩ := bind_eq_ok.1 h
    obtain ⟨_, -, h⟩ := bind_eq_ok.1 h
    obtain ⟨_, h2, h⟩ := bind_eq_ok.1 h
    obtain ⟨_, -, h⟩ := bind_eq_ok.1 h
    obtain ⟨_, h3, h⟩ := bind_eq_ok.1 h
    rw [setDad_matchLength h, hangInPlace_matchLength h3, setDad_matchLength h2, replacement_matchLength h1]

theorem Safe.insertAt {s t : State} {r : BitVec 12} (h : Safe s) (e : insertAt r s = .ok t) : Safe t := by
  obtain ⟨m, hm, rfl⟩ := insertAt_eq_ok.1 e
  exact h.setMf (insertNode_wf h.mf_wf hm) (insertNode_matchLength_le hm)

theorem Safe.deleteAt {s t : State} {p : BitVec 12} (h : Safe s) (e : deleteAt p s = .ok t) : Safe t := by
  obtain ⟨m, hm, rfl⟩ := deleteAt_eq_ok.1 e
  exact h.setMf (deleteNode_wf h.mf_wf hm) (deleteNode_matchLength hm ▸ h.matchBound)

/-! ### The rows of the phase table (R116) -/

theorem Safe.stepEHdr {s : State} (h : Safe s) : Safe (stepEHdr s) := by
  have hfold : ∀ (l : List Byte) (u : State), Safe u → Safe (l.foldl (fun t v => Machine.outAppend v t) u) := fun l => by
    induction l with
    | nil => exact fun u hu => hu
    | cons v l ih => exact fun u hu => ih _ (hu.outAppend v)
  simp only [Machine.stepEHdr]
  split
  · exact h.clearResults.raiseFault _ _
  · exact (hfold _ _ h.clearResults).setPhase _

theorem Safe.initEncode {s : State} (h : Safe s) : Safe (initEncode s) := by
  obtain ⟨win, wout, wtb, wmf, wh⟩ := memory_wf_iff.1 h.memory
  refine ⟨memory_wf_iff.2 ⟨?_, ?_, ?_, ?_, ?_⟩, ?_, ?_, ?_⟩
  · rw [initEncode_inBuf]; exact win
  · rw [initEncode_outBuf]; exact wout
  · rw [initEncode_textBuf]; exact winFill_wf wtb
  · rw [initEncode_mf, wf_matchResult (m := initTree s.mf)]; exact initTree_wf wmf
  · rw [initEncode_huff]; exact startHuff_wf wh
  · rw [WriterOk, initEncode_wr]; exact (writerOk_empty s)
  · rw [initEncode_huff]; exact startHuff_huffOk wh
  · rw [initEncode_mf]; exact Nat.zero_le _

/-- The preload writes the window and the encode registers alone. -/
theorem preload_same {n : Nat} {s t : State} (e : preload n s = .ok t) : t.wr = s.wr ∧ t.huff = s.huff ∧ t.mf = s.mf := by
  induction n generalizing s with
  | zero => exact Except.ok.inj e ▸ ⟨rfl, rfl, rfl⟩
  | succ n ih =>
    unfold preload at e
    split_ifs at e
    · obtain ⟨c, -, e⟩ := bind_eq_ok.1 e
      have := ih e
      exact this
    · exact Except.ok.inj e ▸ ⟨rfl, rfl, rfl⟩

theorem Safe.stepEInit {s t : State} (h : Safe s) (e : stepEInit s = .ok t) : Safe t := by
  have hmem := stepEInit_memory_wf h.memory e
  obtain ⟨u, hu, e⟩ := bind_eq_ok.1 e
  obtain ⟨hwr, hhuff, hmf⟩ := preload_same hu
  obtain rfl := Except.ok.inj e
  exact h.initEncode.of_same hmem hwr hhuff (congrArg _ hmf)

theorem Safe.stepEPrime {s t : State} (h : Safe s) (e : stepEPrime s = .ok t) : Safe t := by
  obtain ⟨u, hu, e⟩ := bind_eq_ok.1 e
  obtain ⟨v, hv, e⟩ := bind_eq_ok.1 e
  have hsafe : Safe u := forUpM_inv (P := Safe) (fun _ _ _ _ _ h e => h.insertAt e) h hu
  exact Except.ok.inj e ▸ (hsafe.insertAt hv).setPhase _

theorem Safe.withMatchLength {s : State} (h : Safe s) {l : BitVec 6} (hl : l.toNat ≤ 60) :
    Safe (Machine.setMf { s.mf with matchLength := l } s) :=
  h.setMf (matchLength_wf.trans h.mf_wf) hl

theorem Safe.clamp {s : State} (h : Safe s) : Safe (clamp s) := by
  unfold Machine.clamp
  split_ifs with hlt
  · exact h.withMatchLength (hlt.le.trans h.matchBound)
  · exact h

theorem Safe.emitToken {P : PosTable} {s t : State} (h : Safe s) (e : emitToken s P = .ok t) : Safe t := by
  unfold Machine.emitToken at e
  split_ifs at e
  · obtain ⟨b, -, e⟩ := bind_eq_ok.1 e
    have hs := h.withMatchLength (l := 1) (by decide)
    exact hs.encodeChar (show b.toNat < 314 by omega) e
  · obtain ⟨u, hu, e⟩ := bind_eq_ok.1 e
    have hb : s.mf.matchLength.toNat ≤ 60 := h.matchBound
    rw [← Except.ok.inj e]
    exact (h.encodeChar (show 253 + s.mf.matchLength.toNat < 314 by omega) hu).encodePosition P _

theorem Safe.stepEEmit {P : PosTable} {s t : State} (h : Safe s) (e : stepEEmit s P = .ok t) : Safe t := by
  obtain ⟨u, hu, e⟩ := bind_eq_ok.1 e
  exact Except.ok.inj e ▸ ((h.clamp.emitToken hu).setEnc _).setPhase _

theorem Safe.stepEAdvIn {s t : State} (h : Safe s) (e : stepEAdvIn s = .ok t) : Safe t := by
  obtain ⟨c, -, e⟩ := bind_eq_ok.1 e
  obtain ⟨u, hu, e⟩ := bind_eq_ok.1 e
  obtain ⟨v, hv, e⟩ := bind_eq_ok.1 e
  have hsu := (h.setEnc _).deleteAt hu
  obtain ⟨win, wout, wtb, wmf, wh⟩ := memory_wf_iff.1 hsu.memory
  have hslide : Safe (slideIn c u) :=
    hsu.of_same (memory_wf_iff.2 ⟨win, wout, winWrite_wf wtb u.enc.s.isLt, wmf, wh⟩) rfl rfl rfl
  exact Except.ok.inj e ▸ ((hslide.insertAt hv).setEnc _).setPhase _

theorem Safe.stepEAdvDrain {s t : State} (h : Safe s) (e : stepEAdvDrain s = .ok t) : Safe t := by
  obtain ⟨u, hu, e⟩ := bind_eq_ok.1 e
  obtain ⟨v, hv, e⟩ := bind_eq_ok.1 e
  have hsu := (h.setEnc _).deleteAt hu
  have hslide : Safe (slideDrain u) := hsu.of_same (memory_wf_iff.2 (memory_wf_iff.1 hsu.memory)) rfl rfl rfl
  have hsv : Safe v := by
    unfold insertWhileAny at hv
    split_ifs at hv
    · exact hslide.insertAt hv
    · exact Except.ok.inj hv ▸ hslide
  exact Except.ok.inj e ▸ hsv.setPhase _

theorem Safe.takeHeader {s : State} (h : Safe s) (n : BitVec 32) : Safe (takeHeader n s) := (h.setDec _).setPhase _

theorem Safe.stepDHdr {s t : State} (h : Safe s) (e : stepDHdr s = .ok t) : Safe t := by
  unfold Machine.stepDHdr at e
  simp only at e
  split_ifs at e
  · exact Except.ok.inj e ▸ h.clearResults.raiseFault _ _
  · obtain ⟨n, -, e⟩ := bind_eq_ok.1 e
    exact Except.ok.inj e ▸ h.clearResults.takeHeader n

theorem Safe.stepDInit {s : State} (h : Safe s) : Safe (stepDInit s) := by
  refine ⟨stepDInit_memory_wf h.memory, ?_, ?_, ?_⟩
  · rw [WriterOk, stepDInit_wr]; exact h.writer
  · rw [stepDInit_huff]; exact startHuff_huffOk h.huff_wf
  · rw [stepDInit_mf]; exact h.matchBound

theorem Safe.takeLiteral {s : State} (h : Safe s) : Safe (takeLiteral s) := (h.produceByte _).setPhase _

theorem Safe.startCopy {s : State} (h : Safe s) (o : BitVec 12) : Safe (startCopy o s) := (h.setDec _).setPhase _

theorem Safe.stepDSymbol {P : PosTable} {s t : State} (h : Safe s) (e : stepDSymbol s P = .ok t) : Safe t := by
  obtain ⟨⟨c, u⟩, hu, e⟩ := bind_eq_ok.1 e
  have hsu : Safe (setSym c u) := (h.decodeChar hu).setDec _
  simp only at e
  split_ifs at e
  · exact Except.ok.inj e ▸ hsu.takeLiteral
  · exact Except.ok.inj e ▸ (hsu.decodePosition P).startCopy _

theorem Safe.stepDCopy {s t : State} (h : Safe s) (e : stepDCopy s = .ok t) : Safe t := by
  unfold Machine.stepDCopy at e
  split_ifs at e
  · exact Except.ok.inj e ▸ h.raiseFault _ _
  · obtain ⟨c, -, e⟩ := bind_eq_ok.1 e
    exact Except.ok.inj e ▸ ((h.produceByte c).setDec _).setPhase _

theorem Safe.coreStep {P : PosTable} {s t : State} (h : Safe s) (e : coreStep s P = .ok t) : Safe t := by
  unfold Machine.coreStep at e
  split at e
  case h_1 | h_2 | h_3 => exact Except.ok.inj e ▸ h
  case h_4 => exact Except.ok.inj e ▸ h.stepEHdr
  case h_5 => exact h.stepEInit e
  case h_6 => exact h.stepEPrime e
  case h_7 => exact h.stepEEmit e
  case h_8 => exact h.stepEAdvIn e
  case h_9 => exact h.stepEAdvDrain e
  case h_10 => exact Except.ok.inj e ▸ h.flushBits.setPhase _
  case h_11 => exact h.stepDHdr e
  case h_12 => exact Except.ok.inj e ▸ h.stepDInit
  case h_13 => exact h.stepDSymbol e
  case h_14 => exact h.stepDCopy e

theorem Safe.wholeCommand {P : PosTable} {p : Phase} {s t : State} (h : Safe s) (e : wholeCommand p s P = .ok t) : Safe t := by
  unfold Machine.wholeCommand at e
  split_ifs at e
  · exact Except.ok.inj e ▸ h
  · exact runCommand_inv (P := Safe) (fun _ _ h e => h.coreStep e) (h.startCommand p) e

theorem initTree_matchLength (m : MatchFinder) : (initTree m).matchLength = m.matchLength := by rw [initTree]

/-! ### The stream's elements and the instructions -/

theorem Safe.copyAll {n : Nat} {s t : State} (h : Safe s) (e : copyAll n s = .ok t) : Safe t := by
  induction n generalizing s with
  | zero => exact Except.ok.inj e ▸ h
  | succ n ih =>
    unfold Machine.copyAll at e
    split_ifs at e
    · obtain ⟨u, hu, e⟩ := bind_eq_ok.1 e
      exact ih (h.stepDCopy hu) e
    · exact Except.ok.inj e ▸ h

theorem Safe.takePosCode {s : State} (h : Safe s) (i : Nat) (low : BitVec 6) : Safe (takePosCode i low s) :=
  (h.skipBits _).setRet _

theorem Safe.getBits {s : State} (h : Safe s) (n : Nat) (v : BitVec 8) : Safe (getBits n v s).2 := by
  rw [getBits_state]
  exact h.of_same ((memory_wf_congr rfl rfl rfl rfl rfl).trans h.memory) rfl rfl rfl

/-- Every well-formed instruction keeps a safe state safe. -/
theorem Safe.exec {i : Instr} {s t : State} (h : Safe s) (hi : i.wf = true) (e : exec i s = .next t) : Safe t := by
  cases i
  case initTree =>
    rw [exec_initTree] at e
    rw [← next_inj e]
    exact h.setMf (initTree_wf h.mf_wf) (by rw [initTree_matchLength]; exact h.matchBound)
  case insertNode r =>
    obtain ⟨m, hm, rfl⟩ := execInsertNode_eq_next.1 e
    exact h.setMf (insertNode_wf h.mf_wf hm) (insertNode_matchLength_le hm)
  case deleteNode p =>
    rw [exec_deleteNode, outcome_eq_next, map_eq_ok] at e
    obtain ⟨m, hm, rfl⟩ := e
    exact h.setMf (deleteNode_wf h.mf_wf hm) (deleteNode_matchLength hm ▸ h.matchBound)
  case startHuff =>
    rw [exec_startHuff] at e
    exact next_inj e ▸ h.setHuff (startHuff_huffOk h.huff_wf) (startHuff_wf h.huff_wf)
  case update c =>
    rw [exec_update, outcome_eq_next, map_eq_ok] at e
    obtain ⟨g, hg, rfl⟩ := e
    exact h.setHuff (update_huffOk h.huffman h.huff_wf (of_decide_eq_true hi) hg) (update_wf h.huff_wf hg)
  case reconst =>
    rw [exec_reconst] at e
    exact next_inj e ▸ h.setHuff (reconst_spec h.huffman h.huff_wf).1 (reconst_wf h.huff_wf)
  case encodeChar c => exact h.encodeChar (of_decide_eq_true hi) (outcome_eq_next.1 e)
  case decodeChar =>
    rw [exec_decodeChar, outcome_eq_next, map_eq_ok] at e
    obtain ⟨⟨c, u⟩, hu, rfl⟩ := e
    exact (h.decodeChar hu).setRet _
  case encodePosition o => rw [exec_encodePosition] at e; exact next_inj e ▸ h.encodePosition _ o
  case decodePosition => rw [exec_decodePosition] at e; exact next_inj e ▸ (h.decodePosition _).setRet _
  case putCode l v => exact next_inj e ▸ h.putCode _ v
  case flush => exact next_inj e ▸ h.flushBits
  case getBit => exact next_inj e ▸ (h.skipBits 1).setRet _
  case getByte => exact next_inj e ▸ (h.getBits 8 0).setRet _
  case compress => exact h.wholeCommand (outcome_eq_next.1 e)
  case decompress => exact h.wholeCommand (outcome_eq_next.1 e)
  case cmdCompress => exact next_inj e ▸ h.startCommand _
  case cmdDecompress => exact next_inj e ▸ h.startCommand _
  case cmdReserved0 | cmdReserved3 | pad => exact next_inj e ▸ h
  case hdr n => exact next_inj e ▸ h.clearResults.takeHeader n
  case lit b =>
    rw [exec_lit, outcome_eq_next, map_eq_ok] at e
    obtain ⟨u, hu, rfl⟩ := e
    exact (h.takeSymbolCode (show b.toNat < 314 by omega) hu).takeLiteral
  case matchTok m o =>
    obtain ⟨hm3, hm60⟩ : 3 ≤ m.toNat ∧ m.toNat ≤ 60 := of_decide_eq_true hi
    obtain ⟨u, hu, e⟩ := bind_eq_ok.1 (outcome_eq_next.1 e)
    have hsu := h.takeSymbolCode (show 253 + m.toNat < 314 by omega) hu
    exact ((hsu.skipBits _).startCopy o).copyAll e
  case lookup | offset | symOfLen | lenOfSym => exact next_inj e ▸ h.setRet _
  all_goals exact next_inj e ▸ h.takePosCode _ _

/-! ### What decodes is well formed (R42, R92) -/

theorem poscodeOf_wf (i : Nat) (low : BitVec 6) : (poscodeOf i low).wf = true := by
  unfold poscodeOf
  split <;> rfl

theorem operand_of_map {α β : Type} {x : Except DecodeError α} {f : α → β} {b : β} (h : x.map f = .ok b) :
    ∃ a, x = .ok a ∧ f a = b := by
  cases x with
  | error => cases h
  | ok a => exact ⟨a, rfl, Except.ok.inj h⟩

theorem takeSymbol_isSymbol {bs rest : List Byte} {c : BitVec 9} (h : takeSymbol bs = .ok (c, rest)) : isSymbol c = true := by
  unfold takeSymbol at h
  split at h
  · split_ifs at h with hlt
    obtain ⟨rfl, -⟩ := Prod.mk.inj (Except.ok.inj h)
    have hlt : u16 _ _ < 314 := hlt
    refine decide_eq_true (?_ : _ < 314)
    rw [BitVec.toNat_ofNat]
    exact (Nat.mod_le ..).trans_lt hlt
  · cases h

theorem takeLength_isMatchLength {bs rest : List Byte} {m : BitVec 6} (h : takeLength bs = .ok (m, rest)) :
    isMatchLength m = true := by
  unfold takeLength at h
  split at h
  · split_ifs at h with hr
    obtain ⟨rfl, -⟩ := Prod.mk.inj (Except.ok.inj h)
    obtain ⟨h3, h60⟩ : 3 ≤ _ ∧ _ ≤ 60 := hr
    refine decide_eq_true (?_ : 3 ≤ _ ∧ _ ≤ 60)
    rw [BitVec.toNat_ofNat, Nat.mod_eq_of_lt (by omega)]
    exact ⟨h3, h60⟩
  · cases h

theorem decodeOp_wf {id : Nat} {bs rest : List Byte} {i : Instr} (h : decodeOp id bs = .ok (i, rest)) : i.wf = true := by
  unfold decodeOp at h
  split at h
  case h_5 | h_7 =>
    obtain ⟨⟨c, r⟩, hc, he⟩ := operand_of_map h
    obtain ⟨rfl, -⟩ := Prod.mk.inj he
    exact takeSymbol_isSymbol hc
  case h_2 | h_3 | h_9 =>
    obtain ⟨⟨c, r⟩, -, he⟩ := operand_of_map h
    obtain ⟨rfl, -⟩ := Prod.mk.inj he
    rfl
  case h_11 =>
    split at h
    · split_ifs at h with hle
      obtain ⟨rfl, -⟩ := Prod.mk.inj (Except.ok.inj h)
      refine decide_eq_true ?_
      rw [BitVec.toNat_ofNat]
      exact (Nat.mod_le ..).trans hle
    · cases h
  case h_17 => cases h
  all_goals
    obtain ⟨rfl, -⟩ := Prod.mk.inj (Except.ok.inj h)
    rfl

theorem decodeCmd_wf (v : Nat) : (decodeCmd v).wf = true := by
  unfold decodeCmd
  split <;> rfl

theorem decodeToken_wf {kind : Nat} {bs rest : List Byte} {i : Instr} (h : decodeToken kind bs = .ok (i, rest)) :
    i.wf = true := by
  unfold decodeToken at h
  split at h
  · split at h
    · obtain ⟨rfl, -⟩ := Prod.mk.inj (Except.ok.inj h)
      rfl
    · cases h
  · split at h
    next hm =>
      obtain ⟨_, -, he⟩ := operand_of_map h
      obtain ⟨rfl, -⟩ := Prod.mk.inj he
      exact takeLength_isMatchLength hm
    · cases h
  · split at h
    · obtain ⟨rfl, -⟩ := Prod.mk.inj (Except.ok.inj h)
      rfl
    · cases h
  · cases h

theorem decodePseudo_wf {id : Nat} {bs rest : List Byte} {i : Instr} (h : decodePseudo id bs = .ok (i, rest)) :
    i.wf = true := by
  unfold decodePseudo at h
  repeat' split at h
  all_goals cases h <;> rfl

theorem decode_wf {sp : Space} {bytes rest : List Byte} {i : Instr} (h : decode sp bytes = .ok (i, rest)) : i.wf = true := by
  unfold decode at h
  split at h
  · exact decodeOp_wf h
  · obtain ⟨rfl, -⟩ := Prod.mk.inj (Except.ok.inj h)
    exact decodeCmd_wf _
  · obtain ⟨rfl, -⟩ := Prod.mk.inj (Except.ok.inj h)
    rfl
  · exact decodeToken_wf h
  · obtain ⟨rfl, -⟩ := Prod.mk.inj (Except.ok.inj h)
    exact poscodeOf_wf _ _
  · exact decodePseudo_wf h
  · cases h

/-! ### Every act from outside -/

/-- A word that answers runs a well-formed instruction. -/
theorem runWord_eq_next {sp : Space} {bytes : List Byte} {s t : State} (e : runWord sp bytes s = .next t) :
    ∃ i rest, decode sp bytes = .ok (i, rest) ∧ exec i s = .next t := by
  unfold runWord at e
  split at e
  next i rest hd => exact ⟨i, rest, hd, e⟩
  · cases e

/-- A read of the host changes what it last read alone. -/
theorem hostReadReg_eq_next {n : BitVec 3} {s t : State} (e : hostReadReg n s = .next t) : ∃ v, t = { s with hostData := v } := by
  unfold hostReadReg at e
  split_ifs at e
  split at e
  · exact ⟨_, (next_inj e).symm⟩
  · cases e

theorem hostReadOut_eq_next {k : BitVec 64} {s t : State} (e : hostReadOut k s = .next t) : ∃ v, t = { s with hostData := v } := by
  unfold hostReadOut at e
  split_ifs at e
  exact ⟨_, (next_inj e).symm⟩

/-- A write of a register starts a command or, outside one, writes `IN_LEN`. -/
theorem hostWriteReg_eq_next {n : BitVec 3} {v : BitVec 64} {s t : State} (e : hostWriteReg n v s = .next t) :
    exec (decodeCmd (v.toNat % 4)) s = .next t ∨ busy s = false ∧ t = { s with inLen := v } := by
  by_cases h0 : n = 0
  · subst h0
    exact .inl (hostWriteReg_cmd v s ▸ e)
  · have h0' : n.toNat ≠ 0 := fun h => h0 (BitVec.eq_of_toNat_eq h)
    unfold hostWriteReg at e
    rw [if_neg h0'] at e
    split_ifs at e with h5 h1 hb
    exact .inr ⟨Bool.eq_false_iff.2 hb, (next_inj e).symm⟩

theorem hostWriteIn_eq_next {k : BitVec 64} {b : Byte} {s t : State} (e : hostWriteIn k b s = .next t) :
    busy s = false ∧ t = { s with inBuf := sparseSet bufferDefault s.inBuf k.toNat b } := by
  unfold hostWriteIn at e
  split_ifs at e with hb
  exact ⟨Bool.eq_false_iff.2 hb, (next_inj e).symm⟩

theorem Safe.withHostPart {s : State} (h : Safe s) (l : BitVec 64) (a : List Input) (v : BitVec 64) :
    Safe { s with inLen := l, inputs := a, hostData := v } :=
  h.of_same ((memory_wf_congr rfl rfl rfl rfl rfl).trans h.memory) rfl rfl rfl

theorem Safe.withInBuf {s : State} (h : Safe s) (k : BitVec 64) (b : Byte) :
    Safe { s with inBuf := sparseSet bufferDefault s.inBuf k.toNat b } := by
  obtain ⟨win, hrest⟩ := memory_wf_iff.1 h.memory
  exact h.of_same (memory_wf_iff.2 ⟨sparseWf_sparseSet win (Nat.zero_le _) k.isLt, hrest⟩) rfl rfl rfl

theorem Safe.resetInput (s : State) : Safe (resetInput s) := resetStateIsSafe.1.withHostPart _ s.inputs _

theorem Safe.takeInput {a : Input} {s t : State} (h : Safe s) (e : takeInput a s = .next t) : Safe t := by
  cases a with
  | word sp bytes =>
    obtain ⟨i, rest, hd, he⟩ := runWord_eq_next e
    exact h.exec (decode_wf hd) he
  | readReg n =>
    obtain ⟨v, rfl⟩ := hostReadReg_eq_next e
    exact h.withHostPart s.inLen s.inputs v
  | writeReg n v =>
    rcases hostWriteReg_eq_next e with he | ⟨-, rfl⟩
    · exact h.exec (decodeCmd_wf _) he
    · exact h.withHostPart v s.inputs s.hostData
  | writeIn k b =>
    obtain ⟨-, rfl⟩ := hostWriteIn_eq_next e
    exact h.withInBuf k b
  | readOut k =>
    obtain ⟨v, rfl⟩ := hostReadOut_eq_next e
    exact h.withHostPart s.inLen s.inputs v
  | resetLine => exact next_inj e ▸ Safe.resetInput s
  | letStep => exact h.coreStep (outcome_eq_next.1 e)

/-- Every step keeps a safe state safe. -/
theorem Safe.step {s t : State} (h : Safe s) (e : step s = .next t) : Safe t := by
  cases hi : s.inputs with
  | nil => exact h.coreStep (outcome_eq_next.1 ((step_of_no_input hi).symm.trans e))
  | cons a rest => exact (h.withHostPart s.inLen rest s.hostData).takeInput ((step_of_input hi).symm.trans e)

end Sys2Proof.Machine

/-! PROOFS. The search trees of R61 without the difference of left and right: one invariant over directions, which no climb
goes round in, and the three ways in which the instructions change a tree: a new leaf, a new name, a node taken out. -/

namespace Sys2Proof.Machine

open Sys2Proof

/-! ### Keys by direction (R58) -/

theorem KeyLt.irrefl {tb : List Host.Cell} {p : Nat} : ¬ KeyLt tb p p := fun h => h.asymm h

theorem KeyLt.trans {tb : List Host.Cell} {p q x : Nat} (h : KeyLt tb p q) (h' : KeyLt tb q x) : KeyLt tb p x := by
  obtain ⟨i, hi, hpq, hlt⟩ := h
  obtain ⟨j, hj, hqx, hlt'⟩ := h'
  rcases Nat.lt_trichotomy i j with hij | rfl | hij
  · exact ⟨i, hi, fun k hk => (hpq k hk).trans (hqx k (hk.trans hij)), hqx i hij ▸ hlt⟩
  · exact ⟨i, hi, fun k hk => (hpq k hk).trans (hqx k hk), hlt.trans hlt'⟩
  · exact ⟨j, hj, fun k hk => (hpq k (hk.trans hij)).trans (hqx k hk), (hpq j hij).symm ▸ hlt'⟩

/-- The key of `p` belongs on `cmp`'s side of the key of `q`. -/
def KeyOn (tb : List Host.Cell) (cmp : Int) (q p : Nat) : Prop := if 0 ≤ cmp then KeyLt tb q p else KeyLt tb p q

theorem KeyOn.irrefl {tb : List Host.Cell} {cmp : Int} {p : Nat} : ¬ KeyOn tb cmp p p := by
  unfold KeyOn
  split_ifs <;> exact KeyLt.irrefl

theorem KeyOn.trans {tb : List Host.Cell} {cmp : Int} {p q x : Nat} (h : KeyOn tb cmp p q) (h' : KeyOn tb cmp q x) :
    KeyOn tb cmp p x := by
  unfold KeyOn at *
  split_ifs at * with hc
  · exact h.trans h'
  · exact h'.trans h

theorem keyOn_congr_sign {tb : List Host.Cell} {a b : Int} {q p : Nat} (hab : 0 ≤ a ↔ 0 ≤ b) : KeyOn tb a q p ↔ KeyOn tb b q p := by
  simp only [KeyOn, hab]

/-- The order sees of a window nothing but the keys. -/
theorem keyOn_congr {tb tb' : List Host.Cell} {cmp : Int} {p q p' q' : Nat} (hp : ∀ i, i < 60 → keyByte tb p i = keyByte tb' p' i)
    (hq : ∀ i, i < 60 → keyByte tb q i = keyByte tb' q' i) (h : KeyOn tb cmp q p) : KeyOn tb' cmp q' p' := by
  have key {x y x' y' : Nat} (hx : ∀ i, i < 60 → keyByte tb x i = keyByte tb' x' i)
      (hy : ∀ i, i < 60 → keyByte tb y i = keyByte tb' y' i) (h : KeyLt tb x y) : KeyLt tb' x' y' := by
    obtain ⟨i, hi, hs, hlt⟩ := h
    have hi' : i < 60 := hi
    exact ⟨i, hi, fun k hk => by rw [← hx k (hk.trans hi'), ← hy k (hk.trans hi')]; exact hs k hk, by rwa [← hx i hi', ← hy i hi']⟩
  unfold KeyOn at *
  split_ifs at * with hc
  · exact key hq hp h
  · exact key hp hq h

/-! ### One invariant for both sides (R61) -/

theorem inTree_iff {m : MatchFinder} {p : Nat} : InTree m p ↔ p < 4096 ∧ dadOf m p ≠ 4096 := Iff.rfl

theorem isSentinel_iff {q : Nat} : IsSentinel q ↔ 4097 ≤ q ∧ q ≤ 4352 := Iff.rfl

/-- The nodes a climb can meet. -/
def TreeNode (m : MatchFinder) (x : Nat) : Prop := InTree m x ∨ IsSentinel x

theorem TreeNode.ne_nil {m : MatchFinder} {x : Nat} (h : TreeNode m x) : x ≠ 4096 := by
  rcases h with h | h
  · exact Nat.ne_of_lt h.1
  · exact Nat.ne_of_gt h.1

theorem TreeNode.inTree {m : MatchFinder} {x : Nat} (h : TreeNode m x) (hx : x < 4096) : InTree m x :=
  h.resolve_right fun hs => absurd (isSentinel_iff.1 hs).1 (by omega)

theorem WalkNode.isNode {m : MatchFinder} {cmp : Int} {x : Nat} (h : WalkNode m cmp x) : TreeNode m x := h.imp_right And.left

/-- R61 by directions (`finderOk_iff`). -/
structure DirOk (tb : List Host.Cell) (m : MatchFinder) : Prop where
  child : ∀ cmp q, WalkNode m cmp q → childOf m cmp q ≠ 4096 → childOf m cmp q < 4096 ∧ dadOf m (childOf m cmp q) = q
  side : ∀ a b q, InTree m q → childOf m a q = childOf m b q → childOf m a q ≠ 4096 → (0 ≤ a ↔ 0 ≤ b)
  hung : ∀ p, InTree m p → ∃ cmp, WalkNode m cmp (dadOf m p) ∧ childOf m cmp (dadOf m p) = p
  bucket : ∀ p, InTree m p → Below m (4097 + keyByte tb p 0) p
  order : ∀ cmp q p, InTree m q → InTree m p → childOf m cmp q ≠ 4096 → Below m (childOf m cmp q) p → KeyOn tb cmp q p

theorem childOf_right (m : MatchFinder) (q : Nat) : childOf m 1 q = rsonOf m q := if_pos (by decide)

theorem childOf_left (m : MatchFinder) (q : Nat) : childOf m (-1) q = lsonOf m q := if_neg (by decide)

theorem keyOn_right {tb : List Host.Cell} {q p : Nat} : KeyOn tb 1 q p ↔ KeyLt tb q p := iff_of_eq (if_pos (by decide))

theorem keyOn_left {tb : List Host.Cell} {q p : Nat} : KeyOn tb (-1) q p ↔ KeyLt tb p q := iff_of_eq (if_neg (by decide))

theorem finderOk_iff {tb : List Host.Cell} {m : MatchFinder} : FinderOk tb m ↔ DirOk tb m := by
  constructor
  · intro ok
    refine ⟨fun cmp q hq hc => ?_, fun a b q hq he hne => ?_, fun p hp => ?_, ok.bucket, fun cmp q p hq hp hc hb => ?_⟩
    · obtain ⟨hin, hdad⟩ := ok.child_inTree hq hc
      exact ⟨hin.1, hdad⟩
    · unfold childOf at he hne
      split_ifs at he hne with ha hb hb
      · exact iff_of_true ha hb
      · exact absurd he.symm (ok.once q hq (he ▸ hne))
      · exact absurd he (ok.once q hq hne)
      · exact iff_of_false ha hb
    · rcases ok.hung p hp with h | ⟨hd, h⟩
      · exact ⟨1, (ok.above p hp).imp_right fun hs => ⟨hs, by decide⟩, (childOf_right ..).trans h⟩
      · exact ⟨-1, .inl hd, (childOf_left ..).trans h⟩
    · unfold childOf at hc hb
      unfold KeyOn
      split_ifs at hc hb ⊢
      · exact ok.orderRight q p hq hp hc hb
      · exact ok.orderLeft q p hq hp hc hb
  · intro ok
    refine ⟨fun q hq => ?_, fun q hq => ?_, fun q hq hne he => ?_, fun p hp => ?_, fun p hp => ?_, ok.bucket,
      fun q p hq hp => ?_, fun q p hq hp => ?_⟩
    · rw [← childOf_right]
      exact ok.child 1 q (hq.imp_right fun hs => ⟨hs, by decide⟩)
    · rw [← childOf_left]
      exact ok.child (-1) q (.inl hq)
    · rw [← childOf_left, ← childOf_right] at he
      exact absurd (ok.side (-1) 1 q hq he (by rwa [childOf_left])) (by decide)
    · obtain ⟨cmp, hw, -⟩ := ok.hung p hp
      exact hw.isNode
    · obtain ⟨cmp, hw, hc⟩ := ok.hung p hp
      unfold childOf at hc
      split_ifs at hc with h0
      · exact .inl hc
      · exact .inr ⟨hw.resolve_right fun hs => h0 hs.2, hc⟩
    · rw [← childOf_left, ← keyOn_left]
      exact ok.order (-1) q p hq hp
    · rw [← childOf_right, ← keyOn_right]
      exact ok.order 1 q p hq hp

namespace DirOk

variable {tb : List Host.Cell} {m : MatchFinder} {cmp : Int} {p q x : Nat}

theorem child_inTree (ok : DirOk tb m) (hq : WalkNode m cmp q) (hc : childOf m cmp q ≠ 4096) : InTree m (childOf m cmp q) := by
  obtain ⟨hlt, hdad⟩ := ok.child cmp q hq hc
  exact inTree_iff.2 ⟨hlt, hdad.symm ▸ hq.isNode.ne_nil⟩

theorem dad_node (ok : DirOk tb m) (hp : InTree m p) : TreeNode m (dadOf m p) := by
  obtain ⟨cmp, hw, -⟩ := ok.hung p hp
  exact hw.isNode

/-! ### No climb goes round (I2, I4) -/

theorem ancestor_node (ok : DirOk tb m) (hp : TreeNode m p) (n : Nat) : TreeNode m (ancestor m n p) := by
  induction n generalizing p with
  | zero => exact hp
  | succ n ih =>
    rw [ancestor]
    split_ifs with hlt
    · exact ih (ok.dad_node (hp.inTree hlt))
    · exact ih hp

/-- A node below its own child would be less than itself. -/
theorem not_below_child (ok : DirOk tb m) (hp : InTree m p) (hc : childOf m cmp p ≠ 4096) : ¬ Below m (childOf m cmp p) p :=
  fun hb => KeyOn.irrefl (ok.order cmp p p hp hp hc hb)

theorem ancestor_ne (ok : DirOk tb m) (hp : InTree m p) {n : Nat} (hn : 0 < n) : ancestor m n p ≠ p := by
  obtain ⟨k, rfl⟩ := Nat.exists_eq_add_one.2 hn
  rw [ancestor_add, ancestor, ancestor]
  intro he
  split_ifs at he with hlt
  · obtain ⟨cmp, hw, hc⟩ := ok.hung _ ((ok.ancestor_node (.inl hp) k).inTree hlt)
    rw [he] at hc
    exact ok.not_below_child hp (cmp := cmp) (by rw [hc]; exact Nat.ne_of_lt hlt) ⟨k, hc.symm⟩
  · exact hlt (show _ < Config.N by rw [he]; exact hp.1)

theorem dad_ne (ok : DirOk tb m) (hp : InTree m p) : dadOf m p ≠ p := by
  have := ok.ancestor_ne hp Nat.one_pos
  rwa [ancestor, if_pos hp.1] at this

theorem child_ne (ok : DirOk tb m) (hp : InTree m p) : childOf m cmp p ≠ p := fun he =>
  ok.not_below_child hp (cmp := cmp) (by rw [he]; exact Nat.ne_of_lt hp.1) (by rw [he]; exact .refl ..)

end DirOk

/-- Position or sentinel `p` has at least `k` positions on its climb, itself among them. -/
def Deep (m : MatchFinder) (k p : Nat) : Prop := ∀ j, j < k → ancestor m j p < 4096

theorem Deep.zero (m : MatchFinder) (p : Nat) : Deep m 0 p := fun _ hj => absurd hj (Nat.not_lt_zero _)

theorem Deep.child {m : MatchFinder} {k p c : Nat} (h : Deep m k p) (hc : c < 4096) (hdad : dadOf m c = p) : Deep m (k + 1) c := by
  rintro (_ | j) hj
  · exact hc
  · rw [ancestor, if_pos (show c < Config.N from hc), hdad]
    exact h j (Nat.lt_of_succ_lt_succ hj)

/-- The positions on a climb are all different, so they are at most 4096 (R63). -/
theorem DirOk.deep_le {tb : List Host.Cell} {m : MatchFinder} {k p : Nat} (ok : DirOk tb m) (hp : TreeNode m p) (h : Deep m k p) :
    k ≤ 4096 := by
  have hne : ∀ i j, i < j → j < k → ancestor m i p ≠ ancestor m j p := fun i j hij hj he => by
    have hi : InTree m (ancestor m i p) := (ok.ancestor_node hp i).inTree (h i (hij.trans hj))
    refine ok.ancestor_ne hi (Nat.sub_pos_of_lt hij) ?_
    rw [← ancestor_add, Nat.add_sub_cancel' hij.le, he]
  have hinj : Set.InjOn (fun j => ancestor m j p) (Finset.range k) := fun i hi j hj he => by
    rcases Nat.lt_trichotomy i j with hij | rfl | hij
    · exact absurd he (hne i j hij (Finset.mem_range.1 hj))
    · rfl
    · exact absurd he.symm (hne j i hij (Finset.mem_range.1 hi))
  have := Finset.card_le_card_of_injOn (t := Finset.range 4096) _
    (fun j hj => Finset.mem_coe.2 (Finset.mem_range.2 (h j (Finset.mem_range.1 hj)))) hinj
  rwa [Finset.card_range, Finset.card_range] at this

theorem Below.trans {m : MatchFinder} {x y z : Nat} (h : Below m x y) (h' : Below m y z) : Below m x z := by
  obtain ⟨a, ha⟩ := h
  obtain ⟨b, hb⟩ := h'
  exact ⟨b + a, by rw [ancestor_add, hb, ha]⟩

theorem Below.of_child {m : MatchFinder} {p c : Nat} (hc : c < 4096) (hdad : dadOf m c = p) : Below m p c :=
  .of_dad hc (hdad.symm ▸ .refl m p)

/-- What is above a position is the position or above its parent. -/
theorem below_iff_dad {m : MatchFinder} {x y : Nat} (hy : y < 4096) : Below m x y ↔ x = y ∨ Below m x (dadOf m y) := by
  constructor
  · rintro ⟨_ | n, hn⟩
    · exact .inl hn.symm
    · exact .inr ⟨n, by rwa [ancestor, if_pos (show y < Config.N from hy)] at hn⟩
  · rintro (rfl | h)
    · exact .refl ..
    · exact .of_dad hy h

/-! ### A new leaf (R57) -/

/-- Position `r` is hung at the free slot of `p` on `side`. -/
structure Grafted (m m' : MatchFinder) (r p : Nat) (side : Int) : Prop where
  node : r < 4096
  new : ¬ InTree m r
  parent : WalkNode m side p
  free : childOf m side p = 4096
  dad : ∀ x, x < 4096 → dadOf m' x = if x = r then p else dadOf m x
  child : ∀ cmp x, WalkNode m cmp x → childOf m' cmp x = if x = p ∧ (0 ≤ cmp ↔ 0 ≤ side) then r else childOf m cmp x
  leaf : ∀ cmp, childOf m' cmp r = 4096

namespace Grafted

variable {tb : List Host.Cell} {m m' : MatchFinder} {r p : Nat} {side : Int}

theorem dad_new (h : Grafted m m' r p side) : dadOf m' r = p := (h.dad r h.node).trans (if_pos rfl)

theorem inTree_iff (h : Grafted m m' r p side) {x : Nat} : InTree m' x ↔ x = r ∨ InTree m x := by
  by_cases hx : x = r
  · subst hx
    exact iff_of_true (Machine.inTree_iff.2 ⟨h.node, by rw [h.dad_new]; exact h.parent.isNode.ne_nil⟩) (.inl rfl)
  · simp only [Machine.inTree_iff, hx, false_or]
    exact and_congr_right fun hlt => by rw [h.dad x hlt, if_neg hx]

theorem node_ne (h : Grafted m m' r p side) {x : Nat} (hx : TreeNode m x) : x ≠ r := by
  rintro rfl
  exact h.new (hx.inTree h.node)

theorem ancestor_eq (h : Grafted m m' r p side) (ok : DirOk tb m) {y : Nat} (hy : TreeNode m y) (n : Nat) :
    ancestor m' n y = ancestor m n y := by
  induction n generalizing y with
  | zero => rfl
  | succ n ih =>
    rw [ancestor, ancestor]
    split_ifs with hlt
    · rw [h.dad y hlt, if_neg (h.node_ne hy)]
      exact ih (ok.dad_node (hy.inTree hlt))
    · exact ih hy

theorem below_old (h : Grafted m m' r p side) (ok : DirOk tb m) {x y : Nat} (hy : TreeNode m y) : Below m' x y ↔ Below m x y :=
  exists_congr fun n => by rw [h.ancestor_eq ok hy]

theorem below_new (h : Grafted m m' r p side) (ok : DirOk tb m) {x : Nat} : Below m' x r ↔ x = r ∨ Below m x p := by
  rw [below_iff_dad h.node, h.dad_new, h.below_old ok h.parent.isNode]

theorem not_below_new (h : Grafted m m' r p side) (ok : DirOk tb m) {y : Nat} (hy : TreeNode m y) : ¬ Below m r y := by
  rintro ⟨n, hn⟩
  exact h.node_ne (ok.ancestor_node hy n) hn

theorem walkNode (h : Grafted m m' r p side) {cmp : Int} {x : Nat} (hx : WalkNode m' cmp x) : x = r ∨ WalkNode m cmp x :=
  hx.elim (fun hx => (h.inTree_iff.1 hx).imp_right .inl) fun hx => .inr (.inr hx)

theorem walkNode_of_old (h : Grafted m m' r p side) {cmp : Int} {x : Nat} (hx : WalkNode m cmp x) : WalkNode m' cmp x :=
  hx.imp_left fun hx => h.inTree_iff.2 (.inr hx)

/-- A new leaf where its key belongs keeps the search trees. -/
theorem dirOk (h : Grafted m m' r p side) (ok : DirOk tb m) (hb : Below m (4097 + keyByte tb r 0) p)
    (ho : ∀ cmp x, InTree m x → (childOf m cmp x ≠ 4096 ∧ Below m (childOf m cmp x) p) ∨ (x = p ∧ (0 ≤ cmp ↔ 0 ≤ side)) →
      KeyOn tb cmp x r) : DirOk tb m' where
  child cmp q hq hc := by
    rcases h.walkNode hq with rfl | hq
    · exact absurd (h.leaf cmp) hc
    · rw [h.child cmp q hq] at hc ⊢
      split_ifs at hc ⊢ with hat
      · exact ⟨h.node, h.dad_new.trans hat.1.symm⟩
      · obtain ⟨hlt, hdad⟩ := ok.child cmp q hq hc
        exact ⟨hlt, by rw [h.dad _ hlt, if_neg (h.node_ne (.inl (ok.child_inTree hq hc))), hdad]⟩
  side a b q hq he hne := by
    rcases h.inTree_iff.1 hq with rfl | hq
    · exact absurd (h.leaf a) hne
    · have hold (c : Int) (e : r = childOf m c q) : False := by
        by_cases hc : childOf m c q = 4096
        · exact absurd h.node (by omega)
        · exact h.node_ne (.inl (ok.child_inTree (.inl hq) hc)) e.symm
      rw [h.child a q (.inl hq)] at he hne
      rw [h.child b q (.inl hq)] at he
      split_ifs at he hne with ha hb
      · exact ha.2.trans hb.2.symm
      · exact (hold b he).elim
      · exact (hold a he.symm).elim
      · exact ok.side a b q hq he hne
  hung x hx := by
    rcases h.inTree_iff.1 hx with rfl | hx
    · exact ⟨side, by rw [h.dad_new]; exact h.walkNode_of_old h.parent, by
        rw [h.dad_new, h.child side p h.parent, if_pos ⟨rfl, Iff.rfl⟩]⟩
    · obtain ⟨cmp, hw, hc⟩ := ok.hung x hx
      have hdad : dadOf m' x = dadOf m x := by rw [h.dad x hx.1, if_neg (h.node_ne (.inl hx))]
      refine ⟨cmp, hdad ▸ h.walkNode_of_old hw, ?_⟩
      rw [hdad, h.child cmp _ hw, if_neg, hc]
      rintro ⟨he, hs⟩
      have hfree : childOf m cmp p = 4096 := by rw [← h.free]; simp only [childOf, hs]
      rw [he, hfree] at hc
      exact absurd hx.1 (hc ▸ Nat.lt_irrefl 4096)
  bucket x hx := by
    rcases h.inTree_iff.1 hx with rfl | hx
    · exact (h.below_new ok).2 (.inr hb)
    · exact (h.below_old ok (.inl hx)).2 (ok.bucket x hx)
  order cmp q y hq hy hc hbelow := by
    rcases h.inTree_iff.1 hq with rfl | hq
    · exact absurd (h.leaf cmp) hc
    · rw [h.child cmp q (.inl hq)] at hc hbelow
      split_ifs at hc hbelow with hat
      · rcases h.inTree_iff.1 hy with rfl | hy
        · exact ho cmp q hq (.inr hat)
        · exact absurd ((h.below_old ok (.inl hy)).1 hbelow) (h.not_below_new ok (.inl hy))
      · rcases h.inTree_iff.1 hy with rfl | hy
        · rcases (h.below_new ok).1 hbelow with e | hbelow
          · exact absurd e (h.node_ne (.inl (ok.child_inTree (.inl hq) hc)))
          · exact ho cmp q hq (.inl ⟨hc, hbelow⟩)
        · exact ok.order cmp q y hq hy hc ((h.below_old ok (.inl hy)).1 hbelow)

end Grafted

/-! ### A new name for a node (R57 (e), R59) -/

/-- The new name of node `x` where `r` takes the place of `p`. -/
def renamed (r p x : Nat) : Nat := if x = p then r else x

theorem renamed_self (r p : Nat) : renamed r p p = r := if_pos rfl

theorem renamed_ne {r p x : Nat} (h : x ≠ p) : renamed r p x = x := if_neg h

theorem renamed_inj {r p x y : Nat} (hx : x ≠ r) (hy : y ≠ r) (he : renamed r p x = renamed r p y) : x = y := by
  unfold renamed at he
  split_ifs at he with h1 h2 h2
  · exact h1.trans h2.symm
  · exact absurd he.symm hy
  · exact absurd he hx
  · exact he

/-- Position `r` takes the place of `p`, with all its links, and `p` leaves the tree. -/
structure Renamed (m m' : MatchFinder) (r p : Nat) : Prop where
  node : r < 4096
  new : ¬ InTree m r
  old : InTree m p
  gone : ∀ x, x < 4096 → x ≠ r → (x = p ∨ ¬ InTree m x) → dadOf m' x = 4096
  dad : ∀ x, InTree m x → dadOf m' (renamed r p x) = renamed r p (dadOf m x)
  child : ∀ cmp x, WalkNode m cmp x → childOf m' cmp (renamed r p x) = renamed r p (childOf m cmp x)

namespace Renamed

variable {tb : List Host.Cell} {m m' : MatchFinder} {r p : Nat}

theorem node_ne (h : Renamed m m' r p) {x : Nat} (hx : TreeNode m x) : x ≠ r := by
  rintro rfl
  exact h.new (hx.inTree h.node)

theorem ne (h : Renamed m m' r p) : p ≠ r := h.node_ne (.inl h.old)

theorem renamed_nil (h : Renamed m m' r p) : renamed r p 4096 = 4096 :=
  renamed_ne (Nat.ne_of_gt h.old.1)

theorem renamed_sentinel (h : Renamed m m' r p) {x : Nat} (hx : 4096 ≤ x) : renamed r p x = x :=
  renamed_ne (Nat.ne_of_gt (h.old.1.trans_le hx))

theorem renamed_ne_old (h : Renamed m m' r p) (x : Nat) : renamed r p x ≠ p := by
  unfold renamed
  split_ifs with hx
  · exact h.ne.symm
  · exact hx

theorem inTree_renamed (h : Renamed m m' r p) (ok : DirOk tb m) {x : Nat} (hx : InTree m x) : InTree m' (renamed r p x) := by
  refine inTree_iff.2 ⟨?_, ?_⟩
  · unfold renamed
    split_ifs
    · exact h.node
    · exact hx.1
  · rw [h.dad x hx]
    have hd := (ok.dad_node hx).ne_nil
    unfold renamed
    split_ifs
    · exact Nat.ne_of_lt h.node
    · exact hd

theorem inTree_iff (h : Renamed m m' r p) (ok : DirOk tb m) {y : Nat} : InTree m' y ↔ ∃ x, InTree m x ∧ renamed r p x = y := by
  refine ⟨fun hy => ?_, fun ⟨x, hx, e⟩ => e ▸ h.inTree_renamed ok hx⟩
  obtain ⟨hlt, hdad⟩ := Machine.inTree_iff.1 hy
  by_cases hr : y = r
  · exact ⟨p, h.old, (renamed_self r p).trans hr.symm⟩
  · have hnot : ¬ (y = p ∨ ¬ InTree m y) := fun hg => hdad (h.gone y hlt hr hg)
    rw [not_or, not_not] at hnot
    exact ⟨y, hnot.2, renamed_ne hnot.1⟩

theorem walkNode_renamed (h : Renamed m m' r p) (ok : DirOk tb m) {cmp : Int} {x : Nat} (hx : WalkNode m cmp x) :
    WalkNode m' cmp (renamed r p x) :=
  hx.elim (fun hx => .inl (h.inTree_renamed ok hx)) fun hx => by
    rw [h.renamed_sentinel (Nat.le_of_succ_le hx.1.1)]
    exact .inr hx

theorem walkNode (h : Renamed m m' r p) (ok : DirOk tb m) {cmp : Int} {y : Nat} (hy : WalkNode m' cmp y) :
    ∃ x, WalkNode m cmp x ∧ renamed r p x = y := by
  rcases hy with hy | hy
  · obtain ⟨x, hx, e⟩ := (h.inTree_iff ok).1 hy
    exact ⟨x, .inl hx, e⟩
  · exact ⟨y, .inr hy, h.renamed_sentinel (Nat.le_of_succ_le hy.1.1)⟩

theorem ancestor_eq (h : Renamed m m' r p) (ok : DirOk tb m) {y : Nat} (hy : TreeNode m y) (n : Nat) :
    ancestor m' n (renamed r p y) = renamed r p (ancestor m n y) := by
  induction n generalizing y with
  | zero => rfl
  | succ n ih =>
    by_cases hlt : y < 4096
    · have hin := hy.inTree hlt
      rw [ancestor, ancestor, if_pos (h.inTree_renamed ok hin).1, if_pos hin.1, h.dad y hin]
      exact ih (ok.dad_node hin)
    · have hge := Nat.not_lt.1 hlt
      rw [h.renamed_sentinel hge, ancestor_of_not_position hge, ancestor_of_not_position hge, h.renamed_sentinel hge]

theorem below_iff (h : Renamed m m' r p) (ok : DirOk tb m) {x y : Nat} (hx : x ≠ r) (hy : TreeNode m y) :
    Below m' (renamed r p x) (renamed r p y) ↔ Below m x y := by
  refine exists_congr fun n => ?_
  rw [h.ancestor_eq ok hy]
  exact ⟨renamed_inj (h.node_ne (ok.ancestor_node hy n)) hx, congrArg _⟩

/-- What is above the new name was above the old one. -/
theorem below_new (h : Renamed m m' r p) (ok : DirOk tb m) {x : Nat} (hx : x ≠ r) (hb : Below m' x r) : Below m x p := by
  have hxp : x ≠ p := by
    rintro rfl
    obtain ⟨n, hn⟩ := hb
    rw [← renamed_self r x, h.ancestor_eq ok (.inl h.old)] at hn
    exact h.renamed_ne_old _ hn
  rw [← h.below_iff ok hx (.inl h.old), renamed_self, renamed_ne hxp]
  exact hb

/-- A new name whose key fits in the old one's place keeps the search trees. -/
theorem dirOk (h : Renamed m m' r p) (ok : DirOk tb m) (hb : keyByte tb r 0 = keyByte tb p 0)
    (above : ∀ cmp x, InTree m x → childOf m cmp x ≠ 4096 → Below m (childOf m cmp x) p → KeyOn tb cmp x r)
    (below : ∀ cmp y, InTree m y → childOf m cmp p ≠ 4096 → Below m (childOf m cmp p) y → KeyOn tb cmp r y) : DirOk tb m' where
  child cmp q hq hc := by
    obtain ⟨x, hx, rfl⟩ := h.walkNode ok hq
    rw [h.child cmp x hx] at hc ⊢
    have hc0 : childOf m cmp x ≠ 4096 := fun e => hc (by rw [e, h.renamed_nil])
    have hin := ok.child_inTree hx hc0
    exact ⟨(h.inTree_renamed ok hin).1, by rw [h.dad _ hin, (ok.child cmp x hx hc0).2]⟩
  side a b q hq he hne := by
    obtain ⟨x, hx, rfl⟩ := (h.inTree_iff ok).1 hq
    rw [h.child a x (.inl hx)] at he hne
    rw [h.child b x (.inl hx)] at he
    have ha : childOf m a x ≠ 4096 := fun e => hne (by rw [e, h.renamed_nil])
    have hb : childOf m b x ≠ 4096 := fun e => hne (by rw [he, e, h.renamed_nil])
    have hin {c : Int} (hc : childOf m c x ≠ 4096) := h.node_ne (.inl (ok.child_inTree (.inl hx) hc))
    exact ok.side a b x hx (renamed_inj (hin ha) (hin hb) he) ha
  hung y hy := by
    obtain ⟨x, hx, rfl⟩ := (h.inTree_iff ok).1 hy
    obtain ⟨cmp, hw, hc⟩ := ok.hung x hx
    rw [h.dad x hx]
    exact ⟨cmp, h.walkNode_renamed ok hw, by rw [h.child cmp _ hw, hc]⟩
  bucket y hy := by
    obtain ⟨x, hx, rfl⟩ := (h.inTree_iff ok).1 hy
    have hkey : keyByte tb (renamed r p x) 0 = keyByte tb x 0 := by
      unfold renamed
      split_ifs with e
      · rw [hb, e]
      · rfl
    have hge : 4096 ≤ 4097 + keyByte tb x 0 := Nat.le_add_right_of_le (by decide)
    have := (h.below_iff ok (Nat.ne_of_gt (h.node.trans_le hge)) (.inl hx)).2 (ok.bucket x hx)
    rwa [h.renamed_sentinel hge, ← hkey] at this
  order cmp q y hq hy hc hbelow := by
    obtain ⟨x, hx, rfl⟩ := (h.inTree_iff ok).1 hq
    obtain ⟨z, hz, rfl⟩ := (h.inTree_iff ok).1 hy
    rw [h.child cmp x (.inl hx)] at hc hbelow
    have hc0 : childOf m cmp x ≠ 4096 := fun e => hc (by rw [e, h.renamed_nil])
    have hbelow0 := (h.below_iff ok (h.node_ne (.inl (ok.child_inTree (.inl hx) hc0))) (.inl hz)).1 hbelow
    by_cases hxp : x = p
    · have hzp : z ≠ p := by
        rintro rfl
        exact ok.not_below_child hz (hxp ▸ hc0) (hxp ▸ hbelow0)
      rw [hxp, renamed_self, renamed_ne hzp]
      exact below cmp z hz (hxp ▸ hc0) (hxp ▸ hbelow0)
    · rw [renamed_ne hxp]
      by_cases hzp : z = p
      · rw [hzp, renamed_self]
        exact above cmp x hx hc0 (hzp ▸ hbelow0)
      · rw [renamed_ne hzp]
        exact ok.order cmp x z hx hz hc0 hbelow0

end Renamed

/-! ### A node with one child at most is taken out (R59) -/

/-- Position `p`, of whose children one at most is there, `c`, leaves the tree, and `c` hangs where `p` hung. -/
structure Unlinked (m m' : MatchFinder) (p c : Nat) : Prop where
  old : InTree m p
  only : ∀ cmp, childOf m cmp p = 4096 ∨ childOf m cmp p = c
  own : c = 4096 ∨ ∃ cmp, childOf m cmp p = c
  gone : dadOf m' p = 4096
  dad : ∀ x, x < 4096 → x ≠ p → dadOf m' x = if dadOf m x = p then dadOf m p else dadOf m x
  child : ∀ cmp x, WalkNode m cmp x → x ≠ p → childOf m' cmp x = if childOf m cmp x = p then c else childOf m cmp x

namespace Unlinked

variable {tb : List Host.Cell} {m m' : MatchFinder} {p c : Nat}

theorem inTree_iff (h : Unlinked m m' p c) {x : Nat} : InTree m' x ↔ InTree m x ∧ x ≠ p := by
  have hp := (Machine.inTree_iff.1 h.old)
  by_cases hx : x = p
  · subst hx
    exact iff_of_false (fun hin => (Machine.inTree_iff.1 hin).2 h.gone) fun hin => hin.2 rfl
  · simp only [Machine.inTree_iff, hx, ne_eq, not_false_eq_true, and_true]
    refine and_congr_right fun hlt => ?_
    rw [h.dad x hlt hx]
    split_ifs with hd
    · exact iff_of_true hp.2 (by omega)
    · exact Iff.rfl

theorem walkNode (h : Unlinked m m' p c) {cmp : Int} {x : Nat} : WalkNode m' cmp x ↔ WalkNode m cmp x ∧ x ≠ p := by
  have hs : IsSentinel x → x ≠ p := fun hs => Nat.ne_of_gt (h.old.1.trans (Nat.lt_of_succ_le hs.1))
  simp only [WalkNode, h.inTree_iff, or_and_right]
  exact or_congr_right ⟨fun hx => ⟨hx, hs hx.1⟩, And.left⟩

theorem dad_child (h : Unlinked m m' p c) (ok : DirOk tb m) (hc : c ≠ 4096) : InTree m c ∧ dadOf m c = p := by
  obtain ⟨cmp, rfl⟩ := h.own.resolve_left hc
  exact ⟨ok.child_inTree (.inl h.old) hc, (ok.child cmp p (.inl h.old) hc).2⟩

theorem below_of_below (h : Unlinked m m' p c) (ok : DirOk tb m) {x y : Nat} (hy : TreeNode m y) (hyp : y ≠ p) (hb : Below m' x y) :
    Below m x y := by
  obtain ⟨n, hn⟩ := hb
  induction n generalizing y with
  | zero => exact ⟨0, hn⟩
  | succ n ih =>
    rw [ancestor] at hn
    split_ifs at hn with hlt
    · rw [h.dad y hlt hyp] at hn
      split_ifs at hn with hd
      · exact .of_dad hlt (hd ▸ .of_dad h.old.1 (ih (ok.dad_node h.old) (ok.dad_ne h.old) hn))
      · exact .of_dad hlt (ih (ok.dad_node (hy.inTree hlt)) hd hn)
    · exact ih hy hyp hn

theorem below_iff (h : Unlinked m m' p c) (ok : DirOk tb m) {x y : Nat} (hxp : x ≠ p) (hy : TreeNode m y) (hyp : y ≠ p) :
    Below m' x y ↔ Below m x y := by
  refine ⟨h.below_of_below ok hy hyp, ?_⟩
  rintro ⟨n, hn⟩
  induction n using Nat.strong_induction_on generalizing y with
  | _ n ih =>
    by_cases hlt : y < 4096
    · rcases n with _ | n
      · exact ⟨0, hn⟩
      · rw [ancestor, if_pos (show y < Config.N from hlt)] at hn
        refine .of_dad hlt ?_
        rw [h.dad y hlt hyp]
        split_ifs with hd
        · rcases n with _ | n
          · exact absurd (hn.symm.trans hd) hxp
          · rw [hd, ancestor, if_pos h.old.1] at hn
            exact ih n (by omega) (ok.dad_node h.old) (ok.dad_ne h.old) hn
        · exact ih n (by omega) (ok.dad_node (hy.inTree hlt)) hd hn
    · rw [ancestor_of_not_position (Nat.not_lt.1 hlt)] at hn
      exact hn ▸ .refl ..

/-- Taking out a node with one child at most keeps the search trees. -/
theorem dirOk (h : Unlinked m m' p c) (ok : DirOk tb m) : DirOk tb m' where
  child cmp q hq hne := by
    obtain ⟨hq, hqp⟩ := h.walkNode.1 hq
    rw [h.child cmp q hq hqp] at hne ⊢
    split_ifs at hne ⊢ with hat
    · obtain ⟨hin, hdad⟩ := h.dad_child ok hne
      have hpq : dadOf m p = q := hat ▸ (ok.child cmp q hq (hat ▸ Nat.ne_of_lt h.old.1)).2
      have hcp : c ≠ p := fun e => ok.dad_ne h.old (e ▸ hdad)
      exact ⟨hin.1, by rw [h.dad c hin.1 hcp, if_pos hdad, hpq]⟩
    · obtain ⟨hlt, hdad⟩ := ok.child cmp q hq hne
      exact ⟨hlt, by rw [h.dad _ hlt hat, hdad, if_neg hqp]⟩
  side a b q hq he hne := by
    obtain ⟨hq, hqp⟩ := h.inTree_iff.1 hq
    have hold (d : Int) (e : c = childOf m d q) (hc : c ≠ 4096) : False :=
      hqp ((ok.child d q (.inl hq) (e ▸ hc)).2.symm.trans (e ▸ (h.dad_child ok hc).2))
    rw [h.child a q (.inl hq) hqp] at he hne
    rw [h.child b q (.inl hq) hqp] at he
    split_ifs at he hne with ha hb hb
    · exact ok.side a b q hq (ha.trans hb.symm) (ha ▸ Nat.ne_of_lt h.old.1)
    · exact (hold b he hne).elim
    · exact (hold a he.symm (he ▸ hne)).elim
    · exact ok.side a b q hq he hne
  hung y hy := by
    obtain ⟨hy, hyp⟩ := h.inTree_iff.1 hy
    obtain ⟨cmp, hw, hc⟩ := ok.hung y hy
    rw [h.dad y hy.1 hyp]
    split_ifs with hd
    · obtain ⟨cmp', hw', hc'⟩ := ok.hung p h.old
      refine ⟨cmp', h.walkNode.2 ⟨hw', ok.dad_ne h.old⟩, ?_⟩
      rw [h.child cmp' _ hw' (ok.dad_ne h.old), if_pos hc']
      rw [hd] at hc
      exact ((h.only cmp).resolve_left (hc ▸ Nat.ne_of_lt hy.1)).symm.trans hc
    · exact ⟨cmp, h.walkNode.2 ⟨hw, hd⟩, by rw [h.child cmp _ hw hd, hc, if_neg hyp]⟩
  bucket y hy := by
    obtain ⟨hy, hyp⟩ := h.inTree_iff.1 hy
    exact (h.below_iff ok (Nat.ne_of_gt (Nat.lt_of_lt_of_le h.old.1 (Nat.le_add_right_of_le (by decide)))) (.inl hy) hyp).2 (ok.bucket y hy)
  order cmp q y hq hy hne hb := by
    obtain ⟨hq, hqp⟩ := h.inTree_iff.1 hq
    obtain ⟨hy, hyp⟩ := h.inTree_iff.1 hy
    rw [h.child cmp q (.inl hq) hqp] at hne hb
    have hb := h.below_of_below ok (.inl hy) hyp hb
    split_ifs at hne hb with hat
    · obtain ⟨hin, hdad⟩ := h.dad_child ok hne
      exact ok.order cmp q y hq hy (hat ▸ Nat.ne_of_lt h.old.1) (hat ▸ (Below.of_child hin.1 hdad).trans hb)
    · exact ok.order cmp q y hq hy hne hb

end Unlinked

end Sys2Proof.Machine

/-! PROOFS. INSERT_NODE (R57, R62): what its writes leave, where its walk ends, and the best of the candidates it visits. -/

namespace Sys2Proof.Machine

open Sys2Proof

/-! ### The writes of the three arrays -/

/-- The children with one slot written. -/
def putChild (f : Int → Nat → Nat) (side : Int) (i v : Nat) : Int → Nat → Nat :=
  fun cmp y => if y = i ∧ (0 ≤ cmp ↔ 0 ≤ side) then v else f cmp y

/-- The parents with one entry written. -/
def putDad (d : Nat → Nat) (i v : Nat) : Nat → Nat := fun y => if y = i then v else d y

/-- Writes of links take `m` to `m'`, whose children and parents are then these; the match result stays. -/
structure Writes (m m' : MatchFinder) (child : Int → Nat → Nat) (dad : Nat → Nat) : Prop where
  wf : m'.wf = true
  child : childOf m' = child
  dad : dadOf m' = dad
  length : m'.matchLength = m.matchLength
  position : m'.matchPosition = m.matchPosition

section Writes

variable {m m1 m2 : MatchFinder} {i : Nat} {v : Idx}

/-- Two runs of writes, one after the other. -/
theorem Writes.trans {c1 c2 : Int → Nat → Nat} {d1 d2 : Nat → Nat} (h : Writes m m1 c1 d1) (h' : Writes m1 m2 c2 d2) :
    Writes m m2 c2 d2 :=
  ⟨h'.wf, h'.child, h'.dad, h'.length.trans h.length, h'.position.trans h.position⟩

theorem setRson_writes (w : m.wf = true) (hi : i ≤ 4352) (v : Idx) :
    ∃ m', setRson i v m = .ok m' ∧ Writes m m' (putChild (childOf m) 1 i v.val) (dadOf m) := by
  have e := setRson_eq (m := m) (v := v) hi
  refine ⟨_, e, setRson_wf w e, ?_, rfl, rfl, rfl⟩
  funext cmp y
  rw [childOf, rsonOf_sparseSet w, putChild, childOf]
  by_cases hc : 0 ≤ cmp <;> simp [hc, lsonOf]

theorem setLson_writes (w : m.wf = true) (hi : i ≤ 4096) (v : Idx) :
    ∃ m', setLson i v m = .ok m' ∧ Writes m m' (putChild (childOf m) (-1) i v.val) (dadOf m) := by
  have e := setLson_eq (m := m) (v := v) hi
  refine ⟨_, e, setLson_wf w e, ?_, rfl, rfl, rfl⟩
  funext cmp y
  rw [childOf, lsonOf_sparseSet w, putChild, childOf]
  by_cases hc : 0 ≤ cmp <;> simp [hc, rsonOf]

theorem setDad_writes (w : m.wf = true) (hi : i ≤ 4096) (v : Idx) :
    ∃ m', setDad i v m = .ok m' ∧ Writes m m' (childOf m) (putDad (dadOf m) i v.val) := by
  have e := setDad_eq (m := m) (v := v) hi
  exact ⟨_, e, setDad_wf w e, rfl, funext fun y => dadOf_sparseSet w i y v, rfl, rfl⟩

theorem lsonAt_ok (m : MatchFinder) (hi : i ≤ 4096) : ∃ c : Idx, lsonAt m i = .ok c ∧ c.val = childOf m (-1) i :=
  ⟨_, lsonAt_eq hi, (childOf_left m i).symm⟩

theorem rsonAt_ok (m : MatchFinder) (hi : i ≤ 4352) : ∃ c : Idx, rsonAt m i = .ok c ∧ c.val = childOf m 1 i :=
  ⟨_, rsonAt_eq hi, (childOf_right m i).symm⟩

theorem dadAt_ok (m : MatchFinder) (hi : i ≤ 4096) : ∃ c : Idx, dadAt m i = .ok c ∧ c.val = dadOf m i :=
  ⟨_, dadAt_eq hi, rfl⟩

/-- The side of `q` on which `p` hangs, as `hangInPlace` tells it. -/
def sideOf (m : MatchFinder) (q p : Nat) : Int := if childOf m 1 q = p then 1 else -1

theorem hangInPlace_writes (w : m.wf = true) {q p : Idx} (hq : childOf m 1 q.val ≠ p.val → q.val ≤ 4096) (x : Idx) :
    ∃ m', hangInPlace q p x m = .ok m' ∧ Writes m m' (putChild (childOf m) (sideOf m q.val p.val) q.val x.val) (dadOf m) := by
  obtain ⟨c, hc, hcv⟩ := rsonAt_ok m (Nat.le_of_lt_succ q.isLt)
  unfold sideOf
  by_cases hcp : c = p
  · obtain ⟨m', hm, hw⟩ := setRson_writes w (Nat.le_of_lt_succ q.isLt) x
    exact ⟨m', by rw [hangInPlace, hc]; exact (if_pos hcp).trans hm, by rwa [if_pos (hcv.symm.trans (congrArg _ hcp))]⟩
  · have hne : childOf m 1 q.val ≠ p.val := fun e => hcp (Fin.ext (hcv.trans e))
    obtain ⟨m', hm, hw⟩ := setLson_writes w (hq hne) x
    exact ⟨m', by rw [hangInPlace, hc]; exact (if_neg hcp).trans hm, by rwa [if_neg hne]⟩

end Writes

/-! ### The tree at a node -/

theorem childOf_congr_sign {m : MatchFinder} {a b : Int} {q : Nat} (hab : 0 ≤ a ↔ 0 ≤ b) : childOf m a q = childOf m b q := by
  simp only [childOf, hab]

namespace DirOk

variable {tb : List Host.Cell} {m : MatchFinder} {side cmp : Int} {p x : Nat}

/-- A child is `p` at `p`'s parent, on `p`'s side, and nowhere else. -/
theorem child_eq_iff (ok : DirOk tb m) (hp : InTree m p) (hw : WalkNode m side (dadOf m p)) (hc : childOf m side (dadOf m p) = p)
    (hx : WalkNode m cmp x) : childOf m cmp x = p ↔ x = dadOf m p ∧ (0 ≤ cmp ↔ 0 ≤ side) := by
  constructor
  · intro he
    have hne : childOf m cmp x ≠ 4096 := he ▸ Nat.ne_of_lt hp.1
    obtain rfl : dadOf m p = x := he ▸ (ok.child cmp x hx hne).2
    refine ⟨rfl, ?_⟩
    rcases hx with hx | hx
    · exact ok.side cmp side _ hx (he.trans hc.symm) hne
    · exact iff_of_true hx.2 (hw.resolve_left fun hin => absurd (isSentinel_iff.1 hx.1).1 (by have := (inTree_iff.1 hin).1; omega)).2
  · rintro ⟨rfl, hs⟩
    exact (childOf_congr_sign hs).trans hc

theorem walkNode_right {p : Nat} (h : WalkNode m side p) : WalkNode m 1 p := h.imp_right fun hs => ⟨hs.1, by decide⟩

theorem sideOf_iff (ok : DirOk tb m) (hp : InTree m p) (hw : WalkNode m side (dadOf m p)) (hc : childOf m side (dadOf m p) = p) :
    0 ≤ sideOf m (dadOf m p) p ↔ 0 ≤ side := by
  have h := ok.child_eq_iff hp hw hc (walkNode_right hw)
  unfold sideOf
  split_ifs with h1
  · have := (h.1 h1).2
    simpa using this
  · have : ¬ 0 ≤ side := fun h0 => h1 (h.2 ⟨rfl, by simpa using h0⟩)
    simpa using Int.not_le.1 this

/-- Writing the slot where `p` hangs writes the child that is `p`. -/
theorem putChild_sideOf (ok : DirOk tb m) (hp : InTree m p) (hx : WalkNode m cmp x) (f : Int → Nat → Nat) (v : Nat) :
    putChild f (sideOf m (dadOf m p) p) (dadOf m p) v cmp x = if childOf m cmp x = p then v else f cmp x := by
  obtain ⟨side, hw, hc⟩ := ok.hung p hp
  have hiff : (x = dadOf m p ∧ (0 ≤ cmp ↔ 0 ≤ sideOf m (dadOf m p) p)) ↔ childOf m cmp x = p := by
    rw [ok.sideOf_iff hp hw hc, ok.child_eq_iff hp hw hc hx]
  unfold putChild
  simp only [hiff]

/-- Where `p` does not hang on the right, its parent is a position. -/
theorem dad_le (ok : DirOk tb m) (hp : InTree m p) (h : childOf m 1 (dadOf m p) ≠ p) : dadOf m p ≤ 4096 := by
  obtain ⟨side, hw, hc⟩ := ok.hung p hp
  rcases hw with hin | hs
  · exact (inTree_iff.1 hin).1.le
  · exact absurd ((ok.child_eq_iff hp (.inr hs) hc (walkNode_right (.inr hs))).2 ⟨rfl, iff_of_true (by decide) hs.2⟩) h

theorem child_lt_or (ok : DirOk tb m) (hx : WalkNode m cmp x) : childOf m cmp x < 4096 ∨ childOf m cmp x = 4096 := by
  by_cases hc : childOf m cmp x = 4096
  · exact .inr hc
  · exact .inl (ok.child cmp x hx hc).1

theorem child_le (ok : DirOk tb m) (hx : WalkNode m cmp x) : childOf m cmp x ≤ 4096 :=
  (ok.child_lt_or hx).elim Nat.le_of_lt Nat.le_of_eq

/-- The positions whose parent is `p` are its two children. -/
theorem dad_eq_iff (ok : DirOk tb m) (hp : InTree m p) (hx : x < 4096) :
    dadOf m x = p ↔ x = childOf m (-1) p ∨ x = childOf m 1 p := by
  constructor
  · intro he
    have hin : InTree m x := inTree_iff.2 ⟨hx, he ▸ Nat.ne_of_lt hp.1⟩
    obtain ⟨cmp, -, hc⟩ := ok.hung x hin
    rw [he, childOf] at hc
    rw [childOf_left, childOf_right]
    split_ifs at hc
    · exact .inr hc.symm
    · exact .inl hc.symm
  · rintro (rfl | rfl)
    · exact (ok.child (-1) p (.inl hp) (Nat.ne_of_lt hx)).2
    · exact (ok.child 1 p (.inl hp) (Nat.ne_of_lt hx)).2

end DirOk

/-! ### The ends of INSERT_NODE -/

/-- What stands when the walk has ended: `r` cleared, every other link that of the tree `m0`. -/
structure Cleared (m0 m : MatchFinder) (r : Nat) : Prop where
  wf : m.wf = true
  dad : dadOf m = dadOf m0
  child : ∀ cmp x, x ≠ r → childOf m cmp x = childOf m0 cmp x
  leaf : ∀ cmp, childOf m cmp r = 4096

/-- The site at an empty slot. -/
def slotSite (cmp : Int) (p : Idx) : InsertSite := if 0 ≤ cmp then .rightOf p else .leftOf p

theorem linkAt_slot_writes {m : MatchFinder} {r p : Idx} {cmp : Int} (w : m.wf = true) (hr : r.val ≤ 4096)
    (hp : 0 ≤ cmp ∨ p.val ≤ 4096) :
    ∃ m', linkAt r (slotSite cmp p) m = .ok m' ∧ Writes m m' (putChild (childOf m) cmp p.val r.val) (putDad (dadOf m) r.val p.val) := by
  unfold slotSite
  split_ifs with hc
  · obtain ⟨m1, h1, w1⟩ := setRson_writes w (Nat.le_of_lt_succ p.isLt) r
    obtain ⟨m2, h2, w2⟩ := setDad_writes w1.wf hr p
    have hw := w1.trans w2
    have hchild : putChild (childOf m) 1 p.val r.val = putChild (childOf m) cmp p.val r.val := by
      funext a y
      simp [putChild, hc]
    rw [w1.child, w1.dad, hchild] at hw
    exact ⟨m2, bind_eq_ok.2 ⟨m1, h1, h2⟩, hw⟩
  · obtain ⟨m1, h1, w1⟩ := setLson_writes w (hp.resolve_left hc) r
    obtain ⟨m2, h2, w2⟩ := setDad_writes w1.wf hr p
    have hw := w1.trans w2
    have hchild : putChild (childOf m) (-1) p.val r.val = putChild (childOf m) cmp p.val r.val := by
      funext a y
      simp [putChild, hc]
    rw [w1.child, w1.dad, hchild] at hw
    exact ⟨m2, bind_eq_ok.2 ⟨m1, h1, h2⟩, hw⟩

theorem linkAt_slot_grafted {m0 m : MatchFinder} {r p : Idx} {cmp : Int} (hcl : Cleared m0 m r.val) (hr : r.val < 4096)
    (hnew : ¬ InTree m0 r.val) (hp : WalkNode m0 cmp p.val) (hfree : childOf m0 cmp p.val = 4096) :
    ∃ m', linkAt r (slotSite cmp p) m = .ok m' ∧ m'.matchLength = m.matchLength ∧ m'.matchPosition = m.matchPosition
      ∧ Grafted m0 m' r.val p.val cmp := by
  obtain ⟨m', hm, hw⟩ := linkAt_slot_writes (cmp := cmp) (p := p) hcl.wf hr.le
    (hp.elim (fun h => .inr (inTree_iff.1 h).1.le) fun h => .inl h.2)
  have hne {x : Nat} (hx : TreeNode m0 x) : x ≠ r.val := by
    rintro rfl
    exact hnew (hx.inTree hr)
  refine ⟨m', hm, hw.length, hw.position, hr, hnew, hp, hfree, fun x _ => ?_, fun cmp' x hx => ?_, fun cmp' => ?_⟩
  · rw [hw.dad, putDad, hcl.dad]
  · rw [hw.child, putChild, hcl.child cmp' x (hne hx.isNode)]
  · rw [hw.child, putChild, if_neg fun h => hne hp.isNode h.1.symm, hcl.leaf]

theorem replaceNode_writes {m : MatchFinder} {r p : Idx} (w : m.wf = true) (hr : r.val ≤ 4096) (hp : p.val < 4096)
    (hrp : p.val ≠ r.val) (hl : childOf m (-1) p.val ≤ 4096) (hl' : childOf m (-1) p.val ≠ p.val) (hs : childOf m 1 p.val ≤ 4096)
    (hs' : childOf m 1 p.val ≠ p.val) (hd : dadOf m p.val ≠ r.val) (hd' : childOf m 1 (dadOf m p.val) ≠ p.val → dadOf m p.val ≤ 4096) :
    ∃ m', replaceNode r p m = .ok m' ∧ Writes m m'
      (putChild (putChild (putChild (childOf m) (-1) r.val (childOf m (-1) p.val)) 1 r.val (childOf m 1 p.val))
        (sideOf m (dadOf m p.val) p.val) (dadOf m p.val) r.val)
      (putDad (putDad (putDad (putDad (dadOf m) r.val (dadOf m p.val)) (childOf m (-1) p.val) r.val) (childOf m 1 p.val) r.val)
        p.val 4096) := by
  obtain ⟨d, hd1, hdv⟩ := dadAt_ok m hp.le
  obtain ⟨m1, h1, w1⟩ := setDad_writes w hr d
  obtain ⟨l, hl1, hlv⟩ := lsonAt_ok m1 hp.le
  obtain ⟨m2, h2, w2⟩ := setLson_writes w1.wf hr l
  obtain ⟨s, hs1, hsv⟩ := rsonAt_ok m2 (i := p.val) (by omega)
  obtain ⟨m3, h3, w3⟩ := setRson_writes w2.wf (i := r.val) (by omega) s
  have e1 : l.val = childOf m (-1) p.val := by rw [hlv, w1.child]
  have e2 : s.val = childOf m 1 p.val := by
    rw [hsv, w2.child, w1.child, putChild, if_neg (fun h => hrp h.1)]
  obtain ⟨l', hl2, hlv'⟩ := lsonAt_ok m3 hp.le
  have e3 : l'.val = childOf m (-1) p.val := by
    rw [hlv', w3.child, putChild, if_neg (fun h => hrp h.1), w2.child, putChild, if_neg (fun h => hrp h.1), w1.child]
  obtain ⟨m4, h4, w4⟩ := setDad_writes w3.wf (i := l'.val) (by omega) r
  obtain ⟨s', hs2, hsv'⟩ := rsonAt_ok m4 (i := p.val) (by omega)
  have e4 : s'.val = childOf m 1 p.val := by
    rw [hsv', w4.child, w3.child, putChild, if_neg (fun h => hrp h.1), w2.child, putChild, if_neg (fun h => hrp h.1), w1.child]
  obtain ⟨m5, h5, w5⟩ := setDad_writes w4.wf (i := s'.val) (by omega) r
  obtain ⟨d', hd2, hdv'⟩ := dadAt_ok m5 hp.le
  have e5 : dadOf m5 = putDad (putDad (putDad (dadOf m) r.val (dadOf m p.val)) (childOf m (-1) p.val) r.val) (childOf m 1 p.val) r.val := by
    rw [w5.dad, w4.dad, w3.dad, w2.dad, w1.dad, e3, e4, hdv]
  have e6 : d'.val = dadOf m p.val := by
    rw [hdv', e5, putDad, if_neg hs'.symm, putDad, if_neg hl'.symm, putDad, if_neg hrp]
  have e7 : childOf m5 = putChild (putChild (childOf m) (-1) r.val (childOf m (-1) p.val)) 1 r.val (childOf m 1 p.val) := by
    rw [w5.child, w4.child, w3.child, w2.child, w1.child, e1, e2]
  have e8 : childOf m5 1 (dadOf m p.val) = childOf m 1 (dadOf m p.val) := by
    rw [e7, putChild, if_neg (fun h => hd h.1), putChild, if_neg (fun h => hd h.1)]
  obtain ⟨m6, h6, w6⟩ := hangInPlace_writes w5.wf (q := d') (p := p) (fun h => by rw [e6] at h ⊢; exact hd' (e8 ▸ h)) r
  obtain ⟨m7, h7, w7⟩ := setDad_writes w6.wf hp.le nilIdx
  have hw := w1.trans (w2.trans (w3.trans (w4.trans (w5.trans (w6.trans w7)))))
  have hside : sideOf m5 (dadOf m p.val) p.val = sideOf m (dadOf m p.val) p.val := by rw [sideOf, e8, sideOf]
  rw [w6.child, w6.dad, e6, hside, e7, e5] at hw
  refine ⟨m7, ?_, hw⟩
  rw [replaceNode]
  simp only [hd1, h1, hl1, h2, hs1, h3, hl2, h4, hs2, h5, hd2, h6, h7, bind_ok]

theorem replaceNode_renamed {tb : List Host.Cell} {m0 m : MatchFinder} {r p : Idx} (ok : DirOk tb m0) (hcl : Cleared m0 m r.val)
    (hr : r.val < 4096) (hnew : ¬ InTree m0 r.val) (hp : InTree m0 p.val) :
    ∃ m', replaceNode r p m = .ok m' ∧ m'.matchLength = m.matchLength ∧ m'.matchPosition = m.matchPosition
      ∧ Renamed m0 m' r.val p.val := by
  have hne {x : Nat} (hx : TreeNode m0 x) : x ≠ r.val := by
    rintro rfl
    exact hnew (hx.inTree hr)
  have hpr := hne (.inl hp)
  have hdr := hne (ok.dad_node hp)
  have hc (cmp : Int) : childOf m cmp p.val = childOf m0 cmp p.val := hcl.child cmp _ hpr
  have hdad : dadOf m p.val = dadOf m0 p.val := congrFun hcl.dad _
  have hside : sideOf m (dadOf m0 p.val) p.val = sideOf m0 (dadOf m0 p.val) p.val := by
    rw [sideOf, hcl.child 1 _ hdr, sideOf]
  obtain ⟨m', hm, hw⟩ := replaceNode_writes (r := r) (p := p) hcl.wf hr.le hp.1 hpr (hc (-1) ▸ ok.child_le (.inl hp))
    (hc (-1) ▸ ok.child_ne hp) (hc 1 ▸ ok.child_le (.inl hp)) (hc 1 ▸ ok.child_ne hp) (hdad ▸ hdr)
    (by rw [hdad, hcl.child 1 _ hdr]; exact ok.dad_le hp)
  have wchild := hw.child
  have wdad := hw.dad
  rw [hdad, hc, hc, hside] at wchild
  rw [hdad, hc, hc, hcl.dad] at wdad
  have hrchild (cmp : Int) : childOf m0 cmp p.val ≠ r.val := by
    rcases ok.child_lt_or (cmp := cmp) (.inl hp) with h | h
    · exact hne (.inl (ok.child_inTree (.inl hp) (Nat.ne_of_lt h)))
    · exact h ▸ (Nat.ne_of_gt hr)
  have hp' := inTree_iff.1 hp
  refine ⟨m', hm, hw.length, hw.position, hr, hnew, hp, fun x hx hxr hx' => ?_, fun x hx => ?_, fun cmp x hx => ?_⟩
  · rw [wdad]
    simp only [putDad]
    split_ifs with h1 h2 h3
    · rfl
    · exact absurd (ok.child_inTree (.inl hp) (cmp := 1) (by omega)) (h2 ▸ hx'.resolve_left h1)
    · exact absurd (ok.child_inTree (.inl hp) (cmp := -1) (by omega)) (h3 ▸ hx'.resolve_left h1)
    · by_contra hd
      exact hx'.resolve_left h1 (inTree_iff.2 ⟨hx, hd⟩)
  · rw [wdad]
    by_cases hxp : x = p.val
    · subst hxp
      rw [renamed_self, renamed_ne (ok.dad_ne hp)]
      simp only [putDad]
      simp [hpr.symm, (hrchild 1).symm, (hrchild (-1)).symm]
    · rw [renamed_ne hxp, renamed]
      have hiff := ok.dad_eq_iff hp hx.1
      simp only [putDad, hiff, if_neg hxp, if_neg (hne (.inl hx))]
      by_cases h1 : x = childOf m0 1 p.val <;> by_cases h2 : x = childOf m0 (-1) p.val <;> simp [h1, h2]
  · rw [wchild]
    by_cases hxp : x = p.val
    · subst hxp
      rw [renamed_self, renamed_ne (ok.child_ne hp)]
      unfold putChild
      rw [if_neg fun h => hdr h.1.symm]
      by_cases h0 : 0 ≤ cmp <;> simp [h0, childOf]
    · rw [renamed_ne hxp, ok.putChild_sideOf hp hx, renamed]
      have hxr := hne hx.isNode
      simp only [putChild, hxr, false_and, if_false, hcl.child cmp x hxr]

end Sys2Proof.Machine

/-! PROOFS. The walk of INSERT_NODE (R57, R63): it ends, where the new key belongs, with the best of the positions it visited
(R16, R62, D25). -/

namespace Sys2Proof.Machine

open Sys2Proof

/-! ### The comparison answers -/

theorem winRead_ok {tb : List Host.Cell} {i : Nat} (h : i < 4155) : winRead tb i = .ok (winAt tb i) := if_pos h

theorem keyCompare_ok {tb : List Host.Cell} {r p n i : Nat} {cmp : Int} (hr : r + i + n ≤ 4155) (hp : p + i + n ≤ 4155) :
    ∃ a, keyCompare tb r p n i cmp = .ok a := by
  induction n generalizing i cmp with
  | zero => exact ⟨_, rfl⟩
  | succ n ih =>
    rw [keyCompare, winRead_ok (i := r + i) (by omega), winRead_ok (i := p + i) (by omega)]
    simp only [bind_ok]
    split_ifs
    · exact ⟨_, rfl⟩
    · exact ih (by omega) (by omega)

/-- The first byte that differs says on which side a key belongs. -/
theorem keyOn_of_diff {tb : List Host.Cell} {c r i : Nat} {cmp : Int} (hi : i < 60) (hs : SharePrefix tb c r i)
    (hcmp : cmp = (keyByte tb r i : Int) - keyByte tb c i) (hne : cmp ≠ 0) : KeyOn tb cmp c r := by
  unfold KeyOn
  split_ifs with h0
  · exact ⟨i, hi, hs, by omega⟩
  · exact ⟨i, hi, hs.symm, by omega⟩

/-! ### Where the walk goes on (R58) -/

/-- `r`'s key belongs below `p`: in its bucket, and on the right side of every position above. -/
structure FitsUnder (tb : List Host.Cell) (m : MatchFinder) (r p : Nat) : Prop where
  bucket : Below m (4097 + keyByte tb r 0) p
  above : ∀ cmp x, InTree m x → childOf m cmp x ≠ 4096 → Below m (childOf m cmp x) p → KeyOn tb cmp x r

/-- `r`'s key belongs below `p` on the side of `cmp`. -/
structure Fits (tb : List Host.Cell) (m : MatchFinder) (r : Nat) (cmp : Int) (p : Nat) : Prop extends FitsUnder tb m r p where
  node : WalkNode m cmp p
  here : InTree m p → KeyOn tb cmp p r

theorem Fits.child {tb : List Host.Cell} {m : MatchFinder} {r p : Nat} {cmp : Int} (h : Fits tb m r cmp p) (ok : DirOk tb m)
    (hc : childOf m cmp p ≠ 4096) : FitsUnder tb m r (childOf m cmp p) := by
  obtain ⟨hlt, hdad⟩ := ok.child cmp p h.node hc
  refine ⟨.of_dad hlt (hdad.symm ▸ h.bucket), fun d x hx hne hb => ?_⟩
  rcases (below_iff_dad hlt).1 hb with he | hb
  · obtain rfl : p = x := hdad.symm.trans (he ▸ (ok.child d x (.inl hx) hne).2)
    exact (keyOn_congr_sign (ok.side d cmp p hx he hne)).2 (h.here hx)
  · exact h.above d x hx hne (hdad ▸ hb)

theorem KeyOn.not_same {tb : List Host.Cell} {cmp : Int} {q r : Nat} (h : KeyOn tb cmp q r) : ¬ SharePrefix tb q r 60 := by
  intro hs
  unfold KeyOn at h
  split_ifs at h <;> obtain ⟨i, hi, -, hlt⟩ := h <;> have := hs i hi <;> omega

/-- No position above the place has `r`'s key. -/
theorem Fits.not_same {tb : List Host.Cell} {m : MatchFinder} {r p q : Nat} {cmp : Int} (h : Fits tb m r cmp p) (ok : DirOk tb m)
    (hp : InTree m p) (hq : InTree m q) (hb : Below m q p) : ¬ SharePrefix tb q r 60 := by
  rcases (finderOk_iff.2 ok).below_cases hp hb with rfl | ha | ⟨-, ha⟩
  · exact (h.here hp).not_same
  · exact (h.above 1 q hq ha.1 ha.2).not_same
  · exact (h.above (-1) q hq ha.1 ha.2).not_same

/-! ### The best of the visited candidates (R16, R57, R62) -/

/-- The walk that stands at `p` has visited `q`. -/
def Visited (m : MatchFinder) (p q : Nat) : Prop := InTree m q ∧ Below m q p

/-- The match result is a visited position with exactly `match_length` bytes in common (R62). -/
def RealMatch (tb : List Host.Cell) (m0 : MatchFinder) (r : BitVec 12) (p : Nat) (m : MatchFinder) : Prop :=
  3 ≤ m.matchLength.toNat ∧ m.matchLength.toNat ≤ 60 ∧ ∃ q : BitVec 12, Visited m0 p q.toNat ∧ m.matchPosition = r - q - 1
    ∧ SharePrefix tb q.toNat r.toNat m.matchLength.toNat
    ∧ (m.matchLength.toNat < 60 → keyByte tb q.toNat m.matchLength.toNat ≠ keyByte tb r.toNat m.matchLength.toNat)

/-- The match result is the best of the visited: none, or a real one, the longest there is, at the smallest offset. -/
structure Best (tb : List Host.Cell) (m0 : MatchFinder) (r : BitVec 12) (p : Nat) (m : MatchFinder) : Prop where
  real : (m.matchLength = 0 ∧ m.matchPosition = m0.matchPosition) ∨ RealMatch tb m0 r p m
  longest : ∀ q n, Visited m0 p q → SharePrefix tb q r.toNat n → 2 < n → n ≤ 60 → n ≤ m.matchLength.toNat
  nearest : ∀ q : BitVec 12, Visited m0 p q.toNat → m.matchLength ≠ 0 → SharePrefix tb q.toNat r.toNat m.matchLength.toNat →
    m.matchPosition.toNat ≤ (r - q - 1).toNat

/-- Nothing is visited at a sentinel. -/
theorem Best.start {tb : List Host.Cell} {m0 m : MatchFinder} {r : BitVec 12} {p : Nat} (hp : 4096 ≤ p)
    (hl : m.matchLength = 0) (hm : m.matchPosition = m0.matchPosition) : Best tb m0 r p m := by
  have hno : ∀ q, ¬ Visited m0 p q := by
    rintro q ⟨hq, n, hn⟩
    rw [ancestor_of_not_position hp] at hn
    exact absurd (inTree_iff.1 hq).1 (by omega)
  exact ⟨.inl ⟨hl, hm⟩, fun q n hq => absurd hq (hno q), fun q hq => absurd hq (hno _)⟩

theorem matchLength_ofNat {i : Nat} (hi : i ≤ 60) : (BitVec.ofNat 6 i).toNat = i := Nat.mod_eq_of_lt (by omega)

/-- The walk goes on from `p` to its child `c`, which has exactly `i` bytes in common with `r`. -/
structure Candidate (tb : List Host.Cell) (m0 : MatchFinder) (r : BitVec 12) (p : Nat) (c : BitVec 12) (i : Nat) : Prop where
  inTree : InTree m0 c.toNat
  dad : dadOf m0 c.toNat = p
  le : i ≤ 60
  shares : SharePrefix tb c.toNat r.toNat i
  differs : i < 60 → keyByte tb c.toNat i ≠ keyByte tb r.toNat i

section Candidate

variable {tb : List Host.Cell} {m0 m m' : MatchFinder} {r c : BitVec 12} {p i : Nat}

theorem Candidate.visited (h : Candidate tb m0 r p c i) {q : Nat} (hq : Visited m0 c.toNat q) : q = c.toNat ∨ Visited m0 p q :=
  ((below_iff_dad h.inTree.1).1 hq.2).imp_right fun hb => ⟨hq.1, h.dad ▸ hb⟩

theorem Candidate.exact (h : Candidate tb m0 r p c i) {n : Nat} (hn : SharePrefix tb c.toNat r.toNat n) (hn60 : n ≤ 60) : n ≤ i := by
  by_contra hlt
  exact h.differs (by omega) (hn i (by omega))

/-- A candidate that is neither longer nor as long and nearer leaves the best. -/
theorem Best.keep (h : Best tb m0 r p m) (hc : Candidate tb m0 r p c i) (hle : 2 < i → i ≤ m.matchLength.toNat)
    (htie : 2 < i → i = m.matchLength.toNat → m.matchPosition.toNat ≤ (r - c - 1).toNat) : Best tb m0 r c.toNat m := by
  refine ⟨h.real.imp_right fun ⟨h3, h60, q, hq, hrest⟩ => ⟨h3, h60, q, ⟨hq.1, .of_dad hc.inTree.1 (hc.dad.symm ▸ hq.2)⟩, hrest⟩,
    fun q n hq hqs hn hn60 => ?_, fun q hq hne hqs => ?_⟩
  · rcases hc.visited hq with rfl | hq
    · have hni := hc.exact hqs hn60
      exact hni.trans (hle (hn.trans_le hni))
    · exact h.longest q n hq hqs hn hn60
  · rcases hc.visited hq with e | hq
    · obtain rfl := BitVec.eq_of_toNat_eq e
      obtain ⟨h3, h60, -⟩ := h.real.resolve_left fun h0 => hne h0.1
      have hli := hc.exact hqs h60
      exact htie (by omega) (Nat.le_antisymm (hle (by omega)) hli)
    · exact h.nearest q hq hne hqs

/-- A candidate that is longer, or as long and nearer, is the best. -/
theorem Best.take (h : Best tb m0 r p m) (hc : Candidate tb m0 r p c i) (hi : 2 < i) (hle : m.matchLength.toNat ≤ i)
    (htie : i = m.matchLength.toNat → (r - c - 1).toNat ≤ m.matchPosition.toNat) (hl' : m'.matchLength.toNat = i)
    (hp' : m'.matchPosition = r - c - 1) : Best tb m0 r c.toNat m' := by
  refine ⟨.inr ?_, fun q n hq hqs hn hn60 => ?_, fun q hq _ hqs => ?_⟩
  · rw [RealMatch, hl']
    exact ⟨hi, hc.le, c, ⟨hc.inTree, .refl ..⟩, hp', hc.shares, hc.differs⟩
  · rw [hl']
    rcases hc.visited hq with rfl | hq
    · exact hc.exact hqs hn60
    · exact (h.longest q n hq hqs hn hn60).trans hle
  · rw [hl'] at hqs
    rw [hp']
    rcases hc.visited hq with e | hq
    · rw [BitVec.eq_of_toNat_eq e]
    · have hil : i = m.matchLength.toNat := Nat.le_antisymm (h.longest _ i hq hqs hi hc.le) hle
      have hne : m.matchLength ≠ 0 := fun h0 => by
        rw [h0] at hil
        exact absurd hi (by rw [hil]; decide)
      exact (htie hil).trans (h.nearest q hq hne (hil ▸ hqs))

theorem Best.note (h : Best tb m0 r p m) (hc : Candidate tb m0 r p c i) :
    Best tb m0 r c.toNat (noteCandidate (r - c - 1) i m) := by
  unfold noteCandidate
  simp only [show Config.THRESHOLD = 2 from rfl]
  split_ifs with h2 hlt htie
  · exact h.take hc h2 hlt.le (fun e => absurd hlt (by omega)) (matchLength_ofNat hc.le) rfl
  · exact h.take hc h2 htie.1.symm.le (fun _ => htie.2.le) htie.1.symm rfl
  · exact h.keep hc (fun _ => Nat.not_lt.1 hlt) fun _ e => Nat.not_lt.1 fun hless => htie ⟨e, hless⟩
  · exact h.keep hc (fun hi => absurd hi h2) fun hi => absurd hi h2

end Candidate

/-- While the walk goes on, no match is as long as a key. -/
theorem Best.length_lt {tb : List Host.Cell} {m0 m : MatchFinder} {r : BitVec 12} {p : Nat} {cmp : Int} (h : Best tb m0 r p m)
    (hf : Fits tb m0 r.toNat cmp p) (ok : DirOk tb m0) : m.matchLength.toNat < 60 := by
  rcases h.real with ⟨h0, -⟩ | ⟨-, h60, q, ⟨hq, hb⟩, -, hs, -⟩
  · rw [h0]
    decide
  · refine lt_of_le_of_ne h60 fun e => ?_
    rw [e] at hs
    rcases hf.node with hp | hp
    · exact hf.not_same ok hp hq hb hs
    · obtain ⟨n, hn⟩ := hb
      rw [ancestor_of_not_position (Nat.le_of_succ_le hp.1.1)] at hn
      exact absurd (inTree_iff.1 hq).1 (by have := (isSentinel_iff.1 hp.1).1; omega)

/-! ### The walk (R57, R63) -/

/-- What stands when the walk has ended at a site. -/
inductive WalkEnd (tb : List Host.Cell) (m0 : MatchFinder) (r : BitVec 12) (m : MatchFinder) : InsertSite → Prop
  | slot {cmp : Int} {p : Idx} : Fits tb m0 r.toNat cmp p.val → childOf m0 cmp p.val = 4096 → Best tb m0 r p.val m →
      WalkEnd tb m0 r m (slotSite cmp p)
  | same {p : Idx} : FitsUnder tb m0 r.toNat p.val → InTree m0 p.val → SharePrefix tb p.val r.toNat 60 → Best tb m0 r p.val m →
      m.matchLength.toNat = 60 → WalkEnd tb m0 r m (.replaces p)

theorem childAt_ok {m : MatchFinder} {cmp : Int} {p : Idx} (hp : 0 ≤ cmp ∨ p.val ≤ 4096) :
    ∃ c : Idx, childAt m cmp p = .ok c ∧ c.val = childOf m cmp p.val := by
  unfold childAt childOf
  split_ifs with hc
  · exact ⟨_, rsonAt_eq (Nat.le_of_lt_succ p.isLt), rfl⟩
  · exact ⟨_, lsonAt_eq (hp.resolve_left hc), rfl⟩

theorem insertWalk_ok {tb : List Host.Cell} {m0 m : MatchFinder} {r : BitVec 12} {fuel k : Nat} {cmp : Int} {p : Idx}
    (ok : DirOk tb m0) (hr : ¬ InTree m0 r.toNat) (hf : Fits tb m0 r.toNat cmp p.val) (hl : SameLinks m0 m) (hb : Best tb m0 r p.val m)
    (hk : Deep m0 k p.val) (hfuel : 4097 ≤ fuel + k) :
    ∃ site m', insertWalk tb r fuel cmp p m = .ok (site, m') ∧ WalkEnd tb m0 r m' site := by
  induction fuel generalizing k cmp p m with
  | zero => exact absurd (ok.deep_le hf.node.isNode hk) (by omega)
  | succ fuel ih =>
    have hp : 0 ≤ cmp ∨ p.val ≤ 4096 := hf.node.elim (fun h => .inr (inTree_iff.1 h).1.le) fun h => .inl h.2
    obtain ⟨child, hchild, -⟩ := childAt_ok (m := m) hp
    have hval := hl.childAt_eq_ok hf.node hchild
    rw [insertWalk, hchild]
    simp only [bind_ok]
    by_cases hnil : child = nilIdx
    · rw [if_pos hnil]
      exact ⟨_, _, rfl, .slot hf (by rw [← hval, hnil]; rfl) hb⟩
    · rw [if_neg hnil]
      have hne : childOf m0 cmp p.val ≠ 4096 := fun e => hnil (Fin.ext (hval.trans e))
      have hin := ok.child_inTree hf.node hne
      obtain ⟨hlt, hdad⟩ := ok.child cmp p.val hf.node hne
      have hunder := hf.child ok hne
      rw [← hval] at hin hlt hdad hunder
      have hcr : child.val ≠ r.toNat := fun e => hr (e ▸ hin)
      have hc12 : (BitVec.ofNat 12 child.val).toNat = child.val := Nat.mod_eq_of_lt hlt
      obtain ⟨⟨cmp', i⟩, hcmp⟩ := keyCompare_ok (tb := tb) (r := r.toNat) (p := child.val) (n := 59) (i := 1) (cmp := cmp)
        (by omega) (by omega)
      obtain ⟨hi, hs, hdiff⟩ := keyCompare_eq_ok hcmp ((finderOk_iff.2 ok).first_byte hin hunder.bucket)
      have hdiff' : i < 60 → keyByte tb child.val i ≠ keyByte tb r.toNat i := fun h60 => by
        obtain ⟨he, hne⟩ := hdiff h60
        omega
      have hnote : Best tb m0 r child.val (noteCandidate (offsetOf r (BitVec.ofNat 12 child.val)) i m) := by
        have hrc : r ≠ BitVec.ofNat 12 child.val := fun e => hcr (by rw [e, hc12])
        have hcand : Candidate tb m0 r p.val (BitVec.ofNat 12 child.val) i :=
          ⟨by rwa [hc12], by rwa [hc12], hi, by rwa [hc12], by rwa [hc12]⟩
        have := hb.note hcand
        rwa [hc12, ← offsetOf_ne hrc] at this
      rw [show Config.F - 1 = 59 from rfl, hcmp]
      simp only [bind_ok]
      split_ifs with hfull
      · obtain rfl : i = 60 := Nat.le_antisymm hi hfull.2.2
        refine ⟨_, _, rfl, .same hunder hin hs hnote ?_⟩
        rw [noteCandidate_matchLength hi, if_pos (by decide)]
        exact Nat.max_eq_right hfull.2.1.le
      · have h60 : i < 60 := by
          by_contra hge
          have hge' : 60 ≤ i := Nat.not_lt.1 hge
          exact hfull ⟨lt_of_lt_of_le (by decide) hge', (hb.length_lt hf ok).trans_le hge', hge'⟩
        obtain ⟨he, hne'⟩ := hdiff h60
        exact ih ⟨hunder, .inl hin, fun _ => keyOn_of_diff h60 hs he hne'⟩ (hl.after_noteCandidate _ _) hnote
          (hk.child hlt hdad) (by omega)

/-! ### INSERT_NODE -/

/-- What INSERT_NODE does to the tree: `r` is a new leaf below `p`, or takes the place of a `p` with its key. -/
inductive NodeInserted (tb : List Host.Cell) (m m' : MatchFinder) (r p : Nat) : Prop
  | leaf {cmp : Int} : Fits tb m r cmp p → Grafted m m' r p cmp → NodeInserted tb m m' r p
  | inPlace : FitsUnder tb m r p → SharePrefix tb p r 60 → m'.matchLength.toNat = 60 → Renamed m m' r p → NodeInserted tb m m' r p

theorem Best.congr {tb : List Host.Cell} {m0 m m' : MatchFinder} {r : BitVec 12} {p : Nat} (h : Best tb m0 r p m)
    (hl : m'.matchLength = m.matchLength) (hp : m'.matchPosition = m.matchPosition) : Best tb m0 r p m' := by
  obtain ⟨h1, h2, h3⟩ := h
  rw [RealMatch, ← hl] at h1
  rw [← hl] at h2 h3
  rw [← hp] at h1 h3
  exact ⟨h1, h2, h3⟩

theorem clearNode_ok {m : MatchFinder} {r : BitVec 12} (w : m.wf = true) :
    ∃ m', clearNode (posIdx r) m = .ok m' ∧ Cleared m m' r.toNat ∧ m'.matchLength = 0 ∧ m'.matchPosition = m.matchPosition := by
  have hr : (posIdx r).val < 4096 := by
    rw [posIdx_val]
    exact r.isLt
  obtain ⟨m1, h1, w1⟩ := setRson_writes w (i := (posIdx r).val) (by omega) nilIdx
  obtain ⟨m2, h2, w2⟩ := setLson_writes w1.wf (i := (posIdx r).val) hr.le nilIdx
  have hw := w1.trans w2
  rw [w1.child, w1.dad, posIdx_val] at hw
  have hchild : childOf { m2 with matchLength := 0 } = childOf m2 := rfl
  refine ⟨{ m2 with matchLength := 0 }, by rw [clearNode, h1, bind_ok, h2, bind_ok], ⟨matchLength_wf.trans hw.wf, hw.dad, ?_, ?_⟩, rfl,
    hw.position⟩
  · intro cmp x hx
    rw [hchild, hw.child]
    simp only [putChild, hx, false_and, if_false]
  · intro cmp
    rw [hchild, hw.child]
    by_cases h0 : 0 ≤ cmp <;> simp [putChild, h0, nilIdx]

theorem Cleared.of_frame {m0 m m' : MatchFinder} {r : Nat} (h : Cleared m0 m r)
    (e : m' = { m with matchLength := m'.matchLength, matchPosition := m'.matchPosition }) : Cleared m0 m' r := by
  rw [e]
  exact ⟨h.wf, h.dad, h.child, h.leaf⟩

theorem Cleared.sameLinks {m0 m : MatchFinder} {r : Nat} (h : Cleared m0 m r) (hr : r < 4096) (hnew : ¬ InTree m0 r) :
    SameLinks m0 m := fun x hx => by
  have hne : x ≠ r := by
    rintro rfl
    exact hnew (TreeNode.inTree hx hr)
  rw [← childOf_left, ← childOf_left, ← childOf_right, ← childOf_right]
  exact ⟨h.child _ x hne, h.child _ x hne⟩

/-- INSERT_NODE of a position that is not in the tree completes; what it does to the tree, and the match it finds. -/
theorem insertNode_ok {tb : List Host.Cell} {m : MatchFinder} {r : BitVec 12} (w : m.wf = true) (ok : DirOk tb m)
    (hr : ¬ InTree m r.toNat) : ∃ m' p, insertNode tb r m = .ok m' ∧ NodeInserted tb m m' r.toNat p ∧ Best tb m r p m' := by
  have hlt := r.isLt
  have hbyte : keyByte tb r.toNat 0 < 256 := (winAt tb (r.toNat + 0)).isLt
  obtain ⟨m1, h1, hcl, hl, hp⟩ := clearNode_ok (r := r) w
  have hroot : (lookupIdx (winAt tb r.toNat)).val = 4097 + keyByte tb r.toNat 0 := Nat.mod_eq_of_lt (by
    have := (winAt tb r.toNat).isLt
    omega)
  have hsent : IsSentinel (4097 + keyByte tb r.toNat 0) := isSentinel_iff.2 ⟨by omega, by omega⟩
  have hstart : Fits tb m r.toNat 1 (4097 + keyByte tb r.toNat 0) := by
    refine ⟨⟨.refl .., fun cmp x hx hne hb => ?_⟩, .inr ⟨hsent, by decide⟩, fun hin => absurd (inTree_iff.1 hin).1 (by omega)⟩
    obtain ⟨n, hn⟩ := hb
    rw [ancestor_of_not_position (Nat.le_of_succ_le hsent.1)] at hn
    exact absurd (ok.child cmp x (.inl hx) hne).1 (by omega)
  obtain ⟨site, m2, h2, hend⟩ := insertWalk_ok (fuel := walkFuel) (k := 0) (p := lookupIdx (winAt tb r.toNat)) ok hr
    (hroot ▸ hstart) (hcl.sameLinks hlt hr) (Best.start (by omega) hl hp) (Deep.zero m _) (by decide)
  have hcl2 : Cleared m m2 (posIdx r).val := (posIdx_val r).symm ▸ hcl.of_frame (insertWalk_frame h2)
  have hlt' : (posIdx r).val < 4096 := (posIdx_val r).symm ▸ hlt
  have hr' : ¬ InTree m (posIdx r).val := (posIdx_val r).symm ▸ hr
  have hrun : ∀ {m'}, linkAt (posIdx r) site m2 = .ok m' → insertNode tb r m = .ok m' := fun {m'} h => by
    rw [insertNode, winRead_ok (by omega), bind_ok, h1, bind_ok, h2, bind_ok]
    exact h
  cases hend with
  | slot hf hfree hb =>
    obtain ⟨m', hm, hl', hp', hg⟩ := linkAt_slot_grafted hcl2 hlt' hr' hf.node hfree
    exact ⟨m', _, hrun hm, .leaf hf (posIdx_val r ▸ hg), hb.congr hl' hp'⟩
  | same hf hin hs hb h60 =>
    obtain ⟨m', hm, hl', hp', hg⟩ := replaceNode_renamed ok hcl2 hlt' hr' hin
    exact ⟨m', _, hrun hm, .inPlace hf hs (hl' ▸ h60) (posIdx_val r ▸ hg), hb.congr hl' hp'⟩

section NodeInserted

variable {tb : List Host.Cell} {m m' : MatchFinder} {r p : Nat}

theorem NodeInserted.dirOk (h : NodeInserted tb m m' r p) (ok : DirOk tb m) : DirOk tb m' := by
  cases h with
  | leaf hf hg =>
    refine hg.dirOk ok hf.bucket fun cmp x hx hor => ?_
    rcases hor with ⟨hne, hb⟩ | ⟨rfl, hs⟩
    · exact hf.above cmp x hx hne hb
    · exact (keyOn_congr_sign hs).2 (hf.here hx)
  | inPlace hf hs _ hg =>
    refine hg.dirOk ok (hs 0 (by decide)).symm hf.above fun cmp y hy hne hb => ?_
    exact keyOn_congr (fun _ _ => rfl) hs (ok.order cmp p y hg.old hy hne hb)

/-- The inserted position is in the tree then, and no other that was not. -/
theorem NodeInserted.inTree (h : NodeInserted tb m m' r p) (ok : DirOk tb m) {q : Nat} (hq : InTree m' q) : q = r ∨ InTree m q := by
  cases h with
  | leaf _ hg => exact hg.inTree_iff.1 hq
  | inPlace _ _ _ hg =>
    obtain ⟨x, hx, rfl⟩ := (hg.inTree_iff ok).1 hq
    unfold renamed
    split_ifs
    · exact .inl rfl
    · exact .inr hx

/-- The positions of the old tree that are above the inserted one were visited. -/
theorem NodeInserted.visited (h : NodeInserted tb m m' r p) (ok : DirOk tb m) (hr : ¬ InTree m r) {q : Nat} (hq : InTree m q)
    (hb : Below m' q r) : Visited m p q := by
  have hqr : q ≠ r := fun e => hr (e ▸ hq)
  cases h with
  | leaf _ hg => exact ⟨hq, ((hg.below_new ok).1 hb).resolve_left hqr⟩
  | inPlace _ _ _ hg => exact ⟨hq, hg.below_new ok hqr hb⟩

/-- Where no key was replaced, the visited positions are above the inserted one. -/
theorem NodeInserted.below_of_visited (h : NodeInserted tb m m' r p) (ok : DirOk tb m) (hl : m'.matchLength.toNat < 60) {q : Nat}
    (hq : Visited m p q) : Below m' q r := by
  cases h with
  | leaf _ hg => exact (hg.below_new ok).2 (.inr hq.2)
  | inPlace _ _ h60 _ => exact absurd h60 (by omega)

end NodeInserted

/-- The position that an offset names. -/
theorem sub_offset (r q : BitVec 12) : r - (r - q - 1) - 1 = q := by bv_omega

theorem offset_le {r q : BitVec 12} (h : q ≠ r) : (r - q - 1).toNat ≤ 4094 := by bv_omega

/-- Settles O34: the walk keeps the best of the positions it visits, and these are the inserted one's ancestors. -/
theorem insertNodeMatchIsReal : Obligations.InsertNodeMatchIsReal := by
  intro s t r w ok hr hexec
  obtain ⟨-, -, -, wmf, -⟩ := memory_wf_iff.1 w
  rw [finderOk_iff] at ok
  obtain ⟨m', p, hm, hins, hbest⟩ := insertNode_ok wmf ok hr
  obtain ⟨m, hm', rfl⟩ := execInsertNode_eq_next.1 hexec
  obtain rfl : m' = m := Except.ok.inj (hm.symm.trans hm')
  refine ⟨fun h0 => ?_, fun hne => ?_⟩
  · rcases hbest.real with ⟨-, hp⟩ | ⟨h3, -⟩
    · exact hp
    · rw [show m'.matchLength = 0 from h0] at h3
      exact absurd h3 (by decide)
  · obtain ⟨h3, h60, q, hq, hpos, hs, hdiff⟩ := hbest.real.resolve_left fun h => hne h.1
    have hqr : q ≠ r := fun e => hr (e ▸ hq.1)
    have hnamed : r - m'.matchPosition - 1 = q := by rw [hpos, sub_offset]
    refine ⟨h3, h60, ?_, hnamed ▸ hq.1, hnamed ▸ hs, fun hlt => ⟨hnamed ▸ hdiff hlt, ?_⟩, fun q' hq' hb hs' => ?_⟩
    · show m'.matchPosition.toNat ≤ 4094
      rw [hpos]
      exact offset_le hqr
    · exact hnamed.symm ▸ hins.below_of_visited ok hlt hq
    · exact hbest.nearest q' (hins.visited ok hr hq' hb) hne hs'

end Sys2Proof.Machine

/-! PROOFS. DELETE_NODE (R59, R60): a node with one child at most is taken out; one with two gives its place to its in-order
predecessor, itself taken out first. -/

namespace Sys2Proof.Machine

open Sys2Proof

/-! ### The end of DELETE_NODE -/

theorem spliceOut_writes {m : MatchFinder} {p q : Idx} (w : m.wf = true) (hp : p.val < 4096) (hq : q.val ≤ 4096) (hpq : p.val ≠ q.val)
    (hd : childOf m 1 (dadOf m p.val) ≠ p.val → dadOf m p.val ≤ 4096) :
    ∃ m', spliceOut p q m = .ok m' ∧ Writes m m' (putChild (childOf m) (sideOf m (dadOf m p.val) p.val) (dadOf m p.val) q.val)
      (putDad (putDad (dadOf m) q.val (dadOf m p.val)) p.val 4096) := by
  obtain ⟨d, hd1, hdv⟩ := dadAt_ok m hp.le
  obtain ⟨m1, h1, w1⟩ := setDad_writes w hq d
  obtain ⟨d', hd2, hdv'⟩ := dadAt_ok m1 hp.le
  have e : d'.val = dadOf m p.val := by
    rw [hdv', w1.dad, putDad, if_neg hpq]
  obtain ⟨m2, h2, w2⟩ := hangInPlace_writes w1.wf (q := d') (p := p) (by rw [e, w1.child]; exact hd) q
  obtain ⟨m3, h3, w3⟩ := setDad_writes w2.wf hp.le nilIdx
  have hw := w1.trans (w2.trans w3)
  have hside : sideOf m1 (dadOf m p.val) p.val = sideOf m (dadOf m p.val) p.val := by rw [sideOf, w1.child, sideOf]
  rw [w2.child, w2.dad, w1.child, w1.dad, e, hside, hdv] at hw
  refine ⟨m3, ?_, hw⟩
  rw [spliceOut]
  simp only [hd1, h1, hd2, h2, h3, bind_ok]

/-- A node with one child at most is taken out. -/
theorem spliceOut_unlinked {tb : List Host.Cell} {m : MatchFinder} {p c : Idx} (w : m.wf = true) (ok : DirOk tb m)
    (hp : InTree m p.val) (only : ∀ cmp, childOf m cmp p.val = 4096 ∨ childOf m cmp p.val = c.val)
    (own : c.val = 4096 ∨ ∃ cmp, childOf m cmp p.val = c.val) :
    ∃ m', spliceOut p c m = .ok m' ∧ m'.wf = true ∧ Unlinked m m' p.val c.val := by
  have hc : c.val ≤ 4096 := own.elim Nat.le_of_eq fun ⟨cmp, e⟩ => e ▸ ok.child_le (.inl hp)
  have hpc : p.val ≠ c.val := by
    rcases own with e | ⟨cmp, e⟩
    · exact e ▸ Nat.ne_of_lt hp.1
    · exact fun h => ok.child_ne hp (cmp := cmp) (e.trans h.symm)
  obtain ⟨m', hm, hw⟩ := spliceOut_writes w hp.1 hc hpc (ok.dad_le hp)
  refine ⟨m', hm, hw.wf, hp, only, own, ?_, fun x hx hxp => ?_, fun cmp x hx hxp => ?_⟩
  · rw [hw.dad, putDad, if_pos rfl]
  · rw [hw.dad, putDad, if_neg hxp, putDad]
    have hiff : x = c.val ↔ dadOf m x = p.val := by
      constructor
      · rintro rfl
        obtain ⟨cmp, e⟩ := own.resolve_left (Nat.ne_of_lt hx)
        rw [← e]
        exact (ok.child cmp p.val (.inl hp) (by rw [e]; exact Nat.ne_of_lt hx)).2
      · intro hd
        rcases (ok.dad_eq_iff hp hx).1 hd with e | e
        · exact e.trans ((only (-1)).resolve_left fun h => absurd hx (by omega))
        · exact e.trans ((only 1).resolve_left fun h => absurd hx (by omega))
    simp only [hiff]
  · rw [hw.child, ok.putChild_sideOf hp hx]

/-! ### The in-order predecessor -/

/-- `q` is the rightmost node below `q0`. -/
structure RightmostOf (tb : List Host.Cell) (m : MatchFinder) (q0 q : Nat) : Prop where
  inTree : InTree m q
  below : Below m q0 q
  free : childOf m 1 q = 4096
  greatest : ∀ x, InTree m x → Below m q0 x → x ≠ q → KeyLt tb x q
  self_or_hangs : q = q0 ∨ ∃ y, InTree m y ∧ Below m q0 y ∧ childOf m 1 y = q

theorem rightmost_ok {tb : List Host.Cell} {m : MatchFinder} {fuel k : Nat} {q0 : Idx} (ok : DirOk tb m) (hq : InTree m q0.val)
    (hk : Deep m k q0.val) (hfuel : 4097 ≤ fuel + k) : ∃ q, rightmost m fuel q0 = .ok q ∧ RightmostOf tb m q0.val q.val := by
  induction fuel generalizing k q0 with
  | zero => exact absurd (ok.deep_le (.inl hq) hk) (by omega)
  | succ fuel ih =>
    obtain ⟨c, hc, hcv⟩ := rsonAt_ok m (Nat.le_of_lt_succ q0.isLt)
    have hcases : ∀ x, InTree m x → Below m q0.val x → x = q0.val ∨ (childOf m 1 q0.val ≠ 4096 ∧ Below m (childOf m 1 q0.val) x)
        ∨ KeyLt tb x q0.val := fun x hx hb => by
      rcases (finderOk_iff.2 ok).below_cases hx hb with e | ha | ⟨-, ha⟩
      · exact .inl e
      · exact .inr (.inl ha)
      · exact .inr (.inr (keyOn_left.1 (ok.order (-1) _ x hq hx ha.1 ha.2)))
    rw [rightmost, hc, bind_ok]
    split_ifs with hnil
    · have hfree : childOf m 1 q0.val = 4096 := by
        rw [← hcv, hnil]
        rfl
      refine ⟨q0, rfl, hq, .refl .., hfree, fun x hx hb hne => ?_, .inl rfl⟩
      exact ((hcases x hx hb).resolve_left hne).resolve_left fun h => h.1 hfree
    · have hne : childOf m 1 q0.val ≠ 4096 := fun e => hnil (Fin.ext (hcv.trans e))
      obtain ⟨hlt, hdad⟩ := ok.child 1 q0.val (.inl hq) hne
      have hin := ok.child_inTree (.inl hq) hne
      rw [← hcv] at hin hlt hdad
      obtain ⟨q, hrun, hr⟩ := ih hin (hk.child hlt hdad) (by omega)
      have hup : ∀ {x}, Below m c.val x → Below m q0.val x := fun hb => (Below.of_child hlt hdad).trans hb
      have hroot : KeyLt tb q0.val q.val := keyOn_right.1 (ok.order 1 _ _ hq hr.inTree hne (hcv ▸ hr.below))
      refine ⟨q, hrun, hr.inTree, hup hr.below, hr.free, fun x hx hb hxq => ?_, .inr ?_⟩
      · rcases hcases x hx hb with rfl | ⟨-, hb⟩ | hlt'
        · exact hroot
        · exact hr.greatest x hx (hcv ▸ hb) hxq
        · exact hlt'.trans hroot
      · rcases hr.self_or_hangs with e | ⟨y, hy, hby, hyq⟩
        · exact ⟨q0.val, hq, .refl .., hcv.symm.trans e.symm⟩
        · exact ⟨y, hy, hup hby, hyq⟩

/-- What is known of the predecessor `q` of a position `p` with two children. -/
structure Predecessor (tb : List Host.Cell) (m : MatchFinder) (p q : Nat) : Prop where
  node : InTree m p
  leftChild : childOf m (-1) p ≠ 4096
  rightChild : childOf m 1 p ≠ 4096
  rightmost : RightmostOf tb m (childOf m (-1) p) q

namespace Predecessor

variable {tb : List Host.Cell} {m m1 : MatchFinder} {p q : Nat}

theorem below (h : Predecessor tb m p q) (ok : DirOk tb m) : Below m p q := by
  obtain ⟨hlt, hdad⟩ := ok.child (-1) p (.inl h.node) h.leftChild
  exact (Below.of_child hlt hdad).trans h.rightmost.below

theorem ne (h : Predecessor tb m p q) (ok : DirOk tb m) : q ≠ p := by
  rintro rfl
  exact ok.not_below_child h.node h.leftChild h.rightmost.below

/-- A position is not below what is below it. -/
theorem not_below (h : Predecessor tb m p q) (ok : DirOk tb m) : ¬ Below m q p := fun hb =>
  KeyOn.irrefl (ok.order (-1) p p h.node h.node h.leftChild (h.rightmost.below.trans hb))

theorem right_ne (h : Predecessor tb m p q) (ok : DirOk tb m) : childOf m 1 p ≠ q := by
  rintro rfl
  have hlt := keyOn_right.1 (ok.order 1 p _ h.node h.rightmost.inTree h.rightChild (.refl ..))
  exact hlt.asymm (keyOn_left.1 (ok.order (-1) p _ h.node h.rightmost.inTree h.leftChild h.rightmost.below))

theorem dad_ne (h : Predecessor tb m p q) (ok : DirOk tb m) : dadOf m p ≠ q := fun e =>
  h.not_below ok (e ▸ .of_dad h.node.1 (.refl ..))

/-- The predecessor is the left child itself, or it hangs on the right of a position below that. -/
theorem cases (h : Predecessor tb m p q) (ok : DirOk tb m) :
    childOf m (-1) p = q ∨ (InTree m (dadOf m q) ∧ childOf m 1 (dadOf m q) = q ∧ dadOf m q ≠ p ∧ childOf m (-1) p ≠ q) := by
  rcases h.rightmost.self_or_hangs with e | ⟨y, hy, hby, hyq⟩
  · exact .inl e.symm
  · have hdad : dadOf m q = y := hyq ▸ (ok.child 1 y (.inl hy) (hyq ▸ Nat.ne_of_lt h.rightmost.inTree.1)).2
    have hyp : y ≠ p := by
      rintro rfl
      exact h.right_ne ok hyq
    rw [hdad]
    refine .inr ⟨hy, hyq, hyp, fun e => hyp ?_⟩
    rw [← hdad, ← e]
    exact (ok.child (-1) p (.inl h.node) h.leftChild).2

theorem unlink (h : Predecessor tb m p q) : ∀ cmp, childOf m cmp q = 4096 ∨ childOf m cmp q = childOf m (-1) q := fun cmp => by
  by_cases h0 : 0 ≤ cmp
  · exact .inl ((childOf_congr_sign (iff_of_true h0 (by decide))).trans h.rightmost.free)
  · exact .inr (childOf_congr_sign (iff_of_false h0 (by decide)))

/-- With the predecessor out, its key fits in the place of `p`. -/
theorem dirOk {m' : MatchFinder} (h : Predecessor tb m p q) (ok : DirOk tb m) (hu : Unlinked m m1 q (childOf m (-1) q))
    (hr : Renamed m1 m' q p) : DirOk tb m' := by
  have ok1 := hu.dirOk ok
  have hqin := h.rightmost.inTree
  have hbucket : Below m (4097 + keyByte tb p 0) q := (ok.bucket p h.node).trans (h.below ok)
  have hfirst : 4097 + keyByte tb q 0 = 4097 + keyByte tb p 0 :=
    Below.sentinel_unique (m := m) (p := q) (show 4096 ≤ _ by omega) (show 4096 ≤ _ by omega) (ok.bucket q hqin) hbucket
  have hup : ∀ {cmp x y}, InTree m1 x → InTree m1 y → childOf m1 cmp x ≠ 4096 → Below m1 (childOf m1 cmp x) y →
      childOf m cmp x ≠ 4096 ∧ Below m (childOf m cmp x) y := fun {cmp x y} hx hy hne hb => by
    obtain ⟨hx, hxq⟩ := hu.inTree_iff.1 hx
    obtain ⟨hy, hyq⟩ := hu.inTree_iff.1 hy
    have hb := hu.below_of_below ok (.inl hy) hyq hb
    rw [hu.child cmp x (.inl hx) hxq] at hne hb
    split_ifs at hne hb with hat
    · obtain ⟨hin, hdad⟩ := hu.dad_child ok hne
      exact ⟨hat ▸ Nat.ne_of_lt hqin.1, hat ▸ (Below.of_child hin.1 hdad).trans hb⟩
    · exact ⟨hne, hb⟩
  refine hr.dirOk ok1 (by omega) (fun cmp x hx hne hb => ?_) (fun cmp y hy hne hb => ?_)
  · obtain ⟨hne, hb⟩ := hup hx hr.old hne hb
    exact ok.order cmp x q (hu.inTree_iff.1 hx).1 hqin hne (hb.trans (h.below ok))
  · obtain ⟨hne, hb⟩ := hup hr.old hy hne hb
    obtain ⟨hy, hyq⟩ := hu.inTree_iff.1 hy
    have hqp : KeyLt tb q p := keyOn_left.1 (ok.order (-1) p q h.node hqin h.leftChild h.rightmost.below)
    by_cases h0 : 0 ≤ cmp
    · have hpy := ok.order cmp p y h.node hy hne hb
      rw [keyOn_congr_sign (iff_of_true h0 (by decide : (0 : Int) ≤ 1)), keyOn_right] at hpy ⊢
      exact hqp.trans hpy
    · rw [keyOn_congr_sign (iff_of_false h0 (by decide : ¬ (0 : Int) ≤ -1)), keyOn_left]
      rw [childOf_congr_sign (iff_of_false h0 (by decide : ¬ (0 : Int) ≤ -1))] at hb
      exact h.rightmost.greatest y hy hb hyq

end Predecessor

/-! ### The predecessor takes the place (R59) -/

/-- What stands when the predecessor `q` of `p` hangs where it was no more (nothing is written yet where it is `p`'s left child):
but for the right subtree of `p` and for `p`'s own slot, the links are those of the tree without `q`, with `q` for `p`. -/
structure Detached (m mA : MatchFinder) (p q : Nat) : Prop where
  wf : mA.wf = true
  child : ∀ cmp x, WalkNode m cmp x → x ≠ q → x ≠ p →
    childOf mA cmp x = if childOf m cmp x = q then childOf m (-1) q else childOf m cmp x
  right : childOf mA 1 p = childOf m 1 p
  left : childOf mA (-1) q = if childOf m (-1) p = q then childOf m (-1) q else childOf m (-1) p
  dad : ∀ x, x < 4096 → x ≠ q → x ≠ childOf m 1 p →
    dadOf mA x = renamed q p (if dadOf m x = q then dadOf m q else dadOf m x)

theorem Predecessor.left_ne {tb : List Host.Cell} {m : MatchFinder} {p q : Nat} (h : Predecessor tb m p q) (ok : DirOk tb m)
    (cmp : Int) : childOf m cmp q ≠ p := fun e =>
  h.dad_ne ok (e ▸ (ok.child cmp q (.inl h.rightmost.inTree) (e ▸ Nat.ne_of_lt h.node.1)).2)

/-- Where the predecessor is the left child itself, nothing is written. -/
theorem Predecessor.detached_self {tb : List Host.Cell} {m : MatchFinder} {p q : Nat} (h : Predecessor tb m p q)
    (ok : DirOk tb m) (w : m.wf = true) (he : childOf m (-1) p = q) : Detached m m p q := by
  have hdadq : dadOf m q = p := he ▸ (ok.child (-1) p (.inl h.node) h.leftChild).2
  refine ⟨w, fun cmp x hx _ hxp => ?_, rfl, by rw [if_pos he], fun x hx hxq hxr => ?_⟩
  · rw [if_neg]
    intro e
    exact hxp ((e ▸ (ok.child cmp x hx (e ▸ Nat.ne_of_lt h.rightmost.inTree.1)).2).symm.trans hdadq)
  · have hxp : dadOf m x ≠ p := fun e => by
      rcases (ok.dad_eq_iff h.node hx).1 e with e | e
      · exact hxq (e.trans he)
      · exact hxr e
    split_ifs with hd
    · rw [hdadq, renamed_self, hd]
    · rw [renamed_ne hxp]

theorem Predecessor.detached {tb : List Host.Cell} {m mA : MatchFinder} {p q : Nat} (h : Predecessor tb m p q) (ok : DirOk tb m)
    (hqin : InTree m (dadOf m q)) (hqr : childOf m 1 (dadOf m q) = q) (hqp : dadOf m q ≠ p) (hne : childOf m (-1) p ≠ q)
    (hw : Writes m mA (putChild (putChild (childOf m) 1 (dadOf m q) (childOf m (-1) q)) (-1) q (childOf m (-1) p))
      (putDad (putDad (dadOf m) (childOf m (-1) q) (dadOf m q)) (childOf m (-1) p) q)) : Detached m mA p q := by
  have hqt := h.rightmost.inTree
  refine ⟨hw.wf, fun cmp x hx hxq hxp => ?_, ?_, ?_, fun x hx hxq hxr => ?_⟩
  · rw [hw.child, putChild, if_neg (fun e => hxq e.1), putChild]
    simp only [ok.child_eq_iff hqt (.inl hqin) hqr hx]
  · rw [hw.child, putChild, if_neg (fun e => (h.ne ok) e.1.symm), putChild, if_neg (fun e => hqp e.1.symm)]
  · rw [hw.child, putChild, if_pos ⟨rfl, Iff.rfl⟩, if_neg hne]
  · rw [hw.dad]
    have hdp := ok.dad_eq_iff h.node hx
    have hdq := ok.dad_eq_iff hqt hx
    have hfree : x ≠ childOf m 1 q := fun e => absurd (e.trans h.rightmost.free) (Nat.ne_of_lt hx)
    simp only [hxr, hfree, or_false] at hdp hdq
    simp only [putDad, renamed, ← hdp, ← hdq]
    have hpq := h.ne ok
    split_ifs <;> simp_all

theorem detachPredecessor_ok {tb : List Host.Cell} {m : MatchFinder} {p q0 : Idx} (w : m.wf = true) (ok : DirOk tb m)
    (hp : InTree m p.val) (hl : childOf m (-1) p.val = q0.val) (hl' : q0.val ≠ 4096) (hr : childOf m 1 p.val ≠ 4096) :
    ∃ q mA, detachPredecessor p q0 m = .ok (q, mA) ∧ Predecessor tb m p.val q.val ∧ Detached m mA p.val q.val := by
  have hq0 : InTree m q0.val := hl ▸ ok.child_inTree (.inl hp) (hl ▸ hl')
  obtain ⟨q, hrun, hmost⟩ := rightmost_ok (fuel := walkFuel) ok hq0 (Deep.zero m _) (by decide)
  have hpre : Predecessor tb m p.val q.val := ⟨hp, hl ▸ hl', hr, hl ▸ hmost⟩
  have hqt := hmost.inTree
  have hqlt := (inTree_iff.1 hqt).1
  obtain ⟨c, hc, hcv⟩ := rsonAt_ok m (Nat.le_of_lt_succ q0.isLt)
  by_cases hnil : c = nilIdx
  · have hq : q = q0 := by
      rw [show walkFuel = 4352 + 1 from rfl, rightmost, hc, bind_ok, if_pos hnil] at hrun
      exact (Except.ok.inj hrun).symm
    exact ⟨q, m, by rw [detachPredecessor, hc, bind_ok, if_pos hnil, hq], hpre, hpre.detached_self ok w (hq ▸ hl)⟩
  · have hqq0 : childOf m (-1) p.val ≠ q.val := fun e => by
      have : q0 = q := Fin.ext (hl.symm.trans e)
      exact hnil (Fin.ext (hcv.trans (this ▸ hmost.free)))
    obtain ⟨hdin, hdr, hdp, -⟩ := (hpre.cases ok).resolve_left hqq0
    obtain ⟨d, hd1, hdv⟩ := dadAt_ok m hqlt.le
    obtain ⟨l, hl1, hlv⟩ := lsonAt_ok m hqlt.le
    obtain ⟨m1, h1, w1⟩ := setRson_writes w (Nat.le_of_lt_succ d.isLt) l
    obtain ⟨l', hl2, hlv'⟩ := lsonAt_ok m1 hqlt.le
    obtain ⟨d', hd2, hdv'⟩ := dadAt_ok m1 hqlt.le
    have e1 : l'.val = childOf m (-1) q.val := by
      rw [hlv', w1.child, putChild, if_neg (fun e => absurd e.2 (by decide))]
    have e2 : d'.val = dadOf m q.val := by rw [hdv', w1.dad]
    obtain ⟨m2, h2, w2⟩ := setDad_writes w1.wf (i := l'.val) (e1 ▸ ok.child_le (.inl hqt)) d'
    obtain ⟨k, hk1, hkv⟩ := lsonAt_ok m2 (inTree_iff.1 hp).1.le
    have e3 : k.val = childOf m (-1) p.val := by
      rw [hkv, w2.child, w1.child, putChild, if_neg (fun e => absurd e.2 (by decide))]
    obtain ⟨m3, h3, w3⟩ := setLson_writes w2.wf hqlt.le k
    obtain ⟨k', hk2, hkv'⟩ := lsonAt_ok m3 (inTree_iff.1 hp).1.le
    have e4 : k'.val = childOf m (-1) p.val := by
      rw [hkv', w3.child, putChild, if_neg (fun e => hpre.ne ok e.1.symm), w2.child, w1.child, putChild,
        if_neg (fun e => absurd e.2 (by decide))]
    obtain ⟨m4, h4, w4⟩ := setDad_writes w3.wf (i := k'.val) (e4 ▸ ok.child_le (.inl hp)) q
    have hw := w1.trans (w2.trans (w3.trans w4))
    rw [w3.child, w2.child, w1.child, w3.dad, w2.dad, w1.dad, e1, e2, e3, e4, hdv, hlv] at hw
    refine ⟨q, m4, ?_, hpre, hpre.detached ok hdin hdr hdp hqq0 hw⟩
    rw [detachPredecessor]
    simp only [hc, hnil, if_false, hrun, hd1, hl1, h1, hl2, hd2, h2, hk1, h3, hk2, h4, bind_ok]

/-- The predecessor takes the place of `p`. -/
theorem Detached.renamed {tb : List Host.Cell} {m m1 mA m' : MatchFinder} {p q : Nat} (hpre : Predecessor tb m p q)
    (ok : DirOk tb m) (hu : Unlinked m m1 q (childOf m (-1) q)) (hd : Detached m mA p q)
    (hchild : childOf m' = putChild (putChild (childOf mA) 1 q (childOf m 1 p)) (sideOf m (dadOf m p) p) (dadOf m p) q)
    (hdad : dadOf m' = putDad (putDad (putDad (dadOf mA) (childOf m 1 p) q) q (dadOf m p)) p 4096) : Renamed m1 m' q p := by
  have hqt := hpre.rightmost.inTree
  have hpq := hpre.ne ok
  have hpt := hpre.node
  have hin {x : Nat} (hx : InTree m1 x) : InTree m x ∧ x ≠ q := hu.inTree_iff.1 hx
  have hsp : dadOf m (childOf m 1 p) = p := (ok.child 1 p (.inl hpt) hpre.rightChild).2
  have hst : InTree m (childOf m 1 p) := ok.child_inTree (.inl hpt) hpre.rightChild
  have hdp := ok.dad_ne hpt
  have hdpq := hpre.dad_ne ok
  refine ⟨hqt.1, fun hx => (hin hx).2 rfl, hu.inTree_iff.2 ⟨hpt, hpq.symm⟩, fun x hx hxq hor => ?_, fun x hx => ?_, fun cmp x hx => ?_⟩
  · rw [hdad]
    unfold putDad
    split_ifs with hxp hxs
    · rfl
    · have hnot := hor.resolve_left hxp
      exact absurd (hu.inTree_iff.2 ⟨hxs ▸ hst, hxq⟩) hnot
    · have hnot : ¬ InTree m x := fun hx' => hor.resolve_left hxp (hu.inTree_iff.2 ⟨hx', hxq⟩)
      have hnil : dadOf m x = 4096 := by
        by_contra hne
        exact hnot (inTree_iff.2 ⟨hx, hne⟩)
      rw [hd.dad x hx hxq hxs, hnil, if_neg (Nat.ne_of_gt hqt.1), renamed_ne (Nat.ne_of_gt hpt.1)]
  · obtain ⟨hxt, hxq⟩ := hin hx
    rw [hdad, hu.dad x hxt.1 hxq]
    by_cases hxp : x = p
    · subst hxp
      rw [renamed_self, if_neg hdpq, renamed_ne hdp, putDad, if_neg hpq, putDad, if_pos rfl]
    · rw [renamed_ne hxp, putDad, if_neg hxp, putDad, if_neg hxq, putDad]
      split_ifs with hxs hxd hxd
      · rw [hxs, hsp] at hxd
        exact absurd hxd hpq.symm
      · rw [hxs, hsp, renamed_self]
      · rw [hd.dad x hxt.1 hxq hxs, if_pos hxd]
      · rw [hd.dad x hxt.1 hxq hxs, if_neg hxd]
  · obtain ⟨hx, hxq⟩ := hu.walkNode.1 hx
    rw [hchild, hu.child cmp x hx hxq]
    by_cases hxp : x = p
    · subst hxp
      rw [renamed_self, putChild, if_neg (fun e => hdpq e.1.symm), putChild]
      by_cases h0 : 0 ≤ cmp
      · rw [if_pos ⟨rfl, iff_of_true h0 (by decide)⟩, childOf_congr_sign (iff_of_true h0 (by decide : (0 : Int) ≤ 1)),
          if_neg (hpre.right_ne ok), renamed_ne (ok.child_ne hpt)]
      · have hs := iff_of_false h0 (by decide : ¬ (0 : Int) ≤ -1)
        rw [if_neg (fun e => h0 (e.2.2 (by decide))), childOf_congr_sign hs, childOf_congr_sign (m := m) hs, hd.left, renamed_ne]
        split_ifs
        · exact hpre.left_ne ok _
        · exact ok.child_ne hpt
    · have hA : putChild (childOf mA) 1 q (childOf m 1 p) cmp x
          = if childOf m cmp x = q then childOf m (-1) q else childOf m cmp x := by
        rw [putChild, if_neg (fun e => hxq e.1), hd.child cmp x hx hxq hxp]
      rw [renamed_ne hxp, ok.putChild_sideOf hpt hx, hA]
      unfold Machine.renamed
      have hlq := hpre.left_ne ok (-1)
      split_ifs <;> simp_all

/-! ### DELETE_NODE -/

/-- A position with two children is taken out: its predecessor takes its place. -/
theorem deleteNode_two {tb : List Host.Cell} {m : MatchFinder} {p : Idx} (w : m.wf = true) (ok : DirOk tb m)
    (hp : InTree m p.val) (hl : childOf m (-1) p.val ≠ 4096) (hr : childOf m 1 p.val ≠ 4096) :
    ∃ q mB m', hangPredecessor p m = .ok (q, mB) ∧ spliceOut p q mB = .ok m' ∧ DirOk tb m'
      ∧ ∀ x, InTree m' x ↔ InTree m x ∧ x ≠ p.val := by
  have hplt := (inTree_iff.1 hp).1
  obtain ⟨q0, hq0, hq0v⟩ := lsonAt_ok m hplt.le
  obtain ⟨q, mA, hA, hpre, hd⟩ := detachPredecessor_ok w ok hp hq0v.symm (hq0v ▸ hl) hr
  have hqt := hpre.rightmost.inTree
  have hqlt := (inTree_iff.1 hqt).1
  have hpq := hpre.ne ok
  obtain ⟨s, hs1, hsv⟩ := rsonAt_ok mA (i := p.val) (by omega)
  obtain ⟨mR, h1, w1⟩ := setRson_writes hd.wf (i := q.val) (by omega) s
  obtain ⟨s', hs2, hsv'⟩ := rsonAt_ok mR (i := p.val) (by omega)
  have e1 : s.val = childOf m 1 p.val := hsv.trans hd.right
  have e2 : s'.val = childOf m 1 p.val := by
    rw [hsv', w1.child, putChild, if_neg (fun e => hpq e.1.symm), hd.right]
  obtain ⟨mB, h2, w2⟩ := setDad_writes w1.wf (i := s'.val) (e2 ▸ ok.child_le (.inl hp)) q
  have hB := w1.trans w2
  rw [w1.child, w1.dad, e1, e2] at hB
  have hdadp : dadOf mB p.val = dadOf m p.val := by
    rw [hB.dad, putDad, if_neg (ok.child_ne hp).symm, hd.dad _ hplt hpq.symm (ok.child_ne hp).symm, if_neg (hpre.dad_ne ok),
      renamed_ne (ok.dad_ne hp)]
  have hchildp : childOf mB 1 (dadOf m p.val) = p.val ↔ childOf m 1 (dadOf m p.val) = p.val := by
    obtain ⟨side, hw, -⟩ := ok.hung p.val hp
    rw [hB.child, putChild, if_neg (fun e => hpre.dad_ne ok e.1), hd.child 1 _ (DirOk.walkNode_right hw) (hpre.dad_ne ok) (ok.dad_ne hp)]
    split_ifs with hat
    · rw [hat]
      exact iff_of_false (hpre.left_ne ok _) hpq
    · exact Iff.rfl
  have hside : sideOf mB (dadOf m p.val) p.val = sideOf m (dadOf m p.val) p.val := by
    unfold sideOf
    simp only [hchildp]
  obtain ⟨m', h3, w3⟩ := spliceOut_writes (p := p) (q := q) hB.wf hplt hqlt.le hpq.symm
    (by rw [hdadp, Ne, hchildp]; exact ok.dad_le hp)
  obtain ⟨l, -, hlv⟩ := lsonAt_ok m hqlt.le
  obtain ⟨m1, -, -, hu⟩ := spliceOut_unlinked (c := l) w ok hqt (hlv ▸ hpre.unlink) (.inr ⟨-1, hlv.symm⟩)
  rw [hlv] at hu
  have hren : Renamed m1 m' q.val p.val := Detached.renamed hpre ok hu hd
    (by rw [w3.child, hdadp, hside, hB.child]) (by rw [w3.dad, hdadp, hB.dad])
  refine ⟨q, mB, m', ?_, h3, hpre.dirOk ok hu hren, fun x => ?_⟩
  · rw [hangPredecessor, hq0, bind_ok, hA]
    simp only [bind_ok, hs1, h1, hs2, h2]
  · rw [hren.inTree_iff (hu.dirOk ok)]
    constructor
    · rintro ⟨y, hy, rfl⟩
      refine ⟨?_, hren.renamed_ne_old y⟩
      unfold renamed
      split_ifs
      · exact hqt
      · exact (hu.inTree_iff.1 hy).1
    · rintro ⟨hx, hxp⟩
      by_cases hxq : x = q.val
      · exact ⟨p.val, hu.inTree_iff.2 ⟨hp, hpq.symm⟩, (renamed_self ..).trans hxq.symm⟩
      · exact ⟨x, hu.inTree_iff.2 ⟨hx, hxq⟩, renamed_ne hxp⟩

/-- DELETE_NODE completes, keeps the search trees and takes out its position and no other. -/
theorem deleteNode_ok {tb : List Host.Cell} {m : MatchFinder} {p : BitVec 12} (w : m.wf = true) (ok : DirOk tb m) :
    ∃ m', deleteNode p m = .ok m' ∧ DirOk tb m' ∧ ∀ x, InTree m' x ↔ InTree m x ∧ x ≠ p.toNat := by
  obtain ⟨d, hd, hdv⟩ := dadAt_ok m p.isLt.le
  rw [deleteNode, hd, bind_ok]
  split_ifs with hnil
  · refine ⟨m, rfl, ok, fun x => (and_iff_left_of_imp fun hx => ?_).symm⟩
    rintro rfl
    exact (inTree_iff.1 hx).2 (hdv.symm.trans (congrArg _ hnil))
  · have hp : InTree m (posIdx p).val := by
      rw [posIdx_val]
      exact inTree_iff.2 ⟨p.isLt, fun e => hnil (Fin.ext (hdv.trans e))⟩
    rw [← posIdx_val p]
    generalize posIdx p = p at hp
    have hplt := (inTree_iff.1 hp).1
    obtain ⟨l, hl, hlv⟩ := lsonAt_ok m hplt.le
    obtain ⟨s, hs, hsv⟩ := rsonAt_ok m (i := p.val) (by omega)
    have hnil_iff : ∀ {c : Idx}, c = nilIdx ↔ c.val = 4096 := Fin.ext_iff
    have hone : ∀ c : Idx, replacement p m = .ok (c, m) → (∀ cmp, childOf m cmp p.val = 4096 ∨ childOf m cmp p.val = c.val) →
        (∃ cmp, childOf m cmp p.val = c.val) → ∃ m', (replacement p m >>= fun qm => spliceOut p qm.1 qm.2) = .ok m'
          ∧ DirOk tb m' ∧ ∀ x, InTree m' x ↔ InTree m x ∧ x ≠ p.val := fun c hc only own => by
      obtain ⟨m', hm, -, hu⟩ := spliceOut_unlinked w ok hp only (.inr own)
      exact ⟨m', by rw [hc, bind_ok]; exact hm, hu.dirOk ok, fun x => hu.inTree_iff⟩
    have hside : ∀ cmp, childOf m cmp p.val = s.val ∨ childOf m cmp p.val = l.val := fun cmp => by
      by_cases h0 : 0 ≤ cmp
      · exact .inl ((childOf_congr_sign (iff_of_true h0 (by decide))).trans hsv.symm)
      · exact .inr ((childOf_congr_sign (iff_of_false h0 (by decide))).trans hlv.symm)
    by_cases h1 : s = nilIdx
    · exact hone l (by rw [replacement, hl, bind_ok, hs, bind_ok, if_pos h1])
        (fun cmp => (hside cmp).imp_left fun e => e.trans (hnil_iff.1 h1)) ⟨-1, hlv.symm⟩
    · by_cases h2 : l = nilIdx
      · exact hone s (by rw [replacement, hl, bind_ok, hs, bind_ok, if_neg h1, if_pos h2])
          (fun cmp => (hside cmp).symm.imp_left fun e => e.trans (hnil_iff.1 h2)) ⟨1, hsv.symm⟩
      · obtain ⟨q, mB, m', hh, hsp, hok, hin⟩ := deleteNode_two w ok hp (fun e => h2 (hnil_iff.2 (hlv.trans e)))
          fun e => h1 (hnil_iff.2 (hsv.trans e))
        refine ⟨m', ?_, hok, hin⟩
        rw [replacement, hl, bind_ok, hs, bind_ok, if_neg h1, if_neg h2, hh, bind_ok]
        exact hsp

end Sys2Proof.Machine

/-! PROOFS. COMPRESS between its steps (R14, R20, R107, R109): the window, the cursors and the lookahead, row by row. -/

namespace Sys2Proof.Machine

open Sys2Proof

/-! ### The window (R14, R31) -/

theorem winAt_winPut {tb : List Host.Cell} (w : sparseWf windowDefault 0 4155 tb = true) (i j : Nat) (v : Byte) :
    winAt (winPut i v tb) j = if j = i then v else winAt tb j := sparseGet_sparseSet w

theorem winAt_winWrite {tb : List Host.Cell} (w : sparseWf windowDefault 0 4155 tb = true) {i : Nat} (hi : i < 4096) (j : Nat) (v : Byte) :
    winAt (winWrite i v tb) j = if j = i ∨ (i < 59 ∧ j = i + 4096) then v else winAt tb j := by
  unfold winWrite
  simp only [show Config.F - 1 = 59 from rfl, show Config.N = 4096 from rfl]
  by_cases h59 : i < 59
  · rw [if_pos h59, winAt_winPut (winPut_wf w (by omega)), winAt_winPut w]
    grind
  · rw [if_neg h59, winAt_winPut w]
    grind

theorem winAt_winFill {tb : List Host.Cell} (w : sparseWf windowDefault 0 4155 tb = true) {i : Nat} (hi : i < 4155) :
    winAt (winFill tb) i = Config.FILL := by
  have h : sparseWf windowDefault 0 4155 (winFill tb) = true ∧ ∀ i, i < 4155 → winAt (winFill tb) i = Config.FILL := by
    have := forUp_indexed (P := fun j t => sparseWf windowDefault 0 4155 t = true ∧ ∀ i, i < j → winAt t i = Config.FILL)
      (f := fun i t => winPut i Config.FILL t) (n := 4155) (i := 0) (s := tb)
      (fun j t _ hj ⟨hw, ht⟩ => ⟨winPut_wf hw (by omega), fun i hi => by
        rw [winAt_winPut hw]
        split_ifs with e
        · rfl
        · exact ht i (by omega)⟩) ⟨w, fun i hi => absurd hi (Nat.not_lt_zero i)⟩
    rwa [Nat.zero_add] at this
  exact h.2 i hi

/-! ### The input side of COMPRESS (R14, R20, R107, R109) -/

/-- What `Encoding` says of the cursors, the window and the input. -/
structure Stream (s : State) : Prop where
  inLen : s.inLen.toNat < 2 ^ 32
  cursors : s.enc.s = s.r + 60
  len : 1 ≤ s.enc.len.toNat ∧ s.enc.len.toNat ≤ 60
  taken : s.enc.len.toNat ≤ s.enc.inPos.toNat ∧ s.enc.inPos.toNat ≤ s.inLen.toNat
  full : s.enc.inPos.toNat < s.inLen.toNat → s.enc.len.toNat = 60
  mirror : ∀ k, k < 59 → winAt s.textBuf (4096 + k) = winAt s.textBuf k
  lookahead : ∀ i, i < s.enc.len.toNat → winAt s.textBuf (s.r + BitVec.ofNat 12 i).toNat = inAt s (covered s + i)
  history : ∀ j, 1 ≤ j → j ≤ 4036 →
    winAt s.textBuf (s.r - BitVec.ofNat 12 j).toNat = if j ≤ covered s then inAt s (covered s - j) else Config.FILL

theorem Encoding.stream {s : State} (h : Encoding s) : Stream s :=
  ⟨h.inLen, h.cursors, h.len, h.taken, h.full, h.mirror, h.lookahead, h.history⟩

/-- Two states that agree in the window, the input and the cursors. -/
structure SameStream (s t : State) : Prop where
  inBuf : t.inBuf = s.inBuf
  inLen : t.inLen = s.inLen
  textBuf : t.textBuf = s.textBuf
  r : t.r = s.r
  evict : t.enc.s = s.enc.s
  len : t.enc.len = s.enc.len
  inPos : t.enc.inPos = s.enc.inPos

theorem SameStream.trans {s t u : State} (h : SameStream s t) (h' : SameStream t u) : SameStream s u :=
  ⟨h'.1.trans h.1, h'.2.trans h.2, h'.3.trans h.3, h'.4.trans h.4, h'.5.trans h.5, h'.6.trans h.6, h'.7.trans h.7⟩

theorem Stream.congr {s t : State} (h : Stream s) (e : SameStream s t) : Stream t := by
  obtain ⟨e1, e2, e3, e4, e5, e6, e7⟩ := e
  have hcov : covered t = covered s := by rw [covered, e6, e7, covered]
  have hin : ∀ k, inAt t k = inAt s k := fun k => by rw [inAt, e1, inAt]
  obtain ⟨h1, h2, h3, h4, h5, h6, h7, h8⟩ := h
  refine ⟨?_, ?_, ?_, ?_, ?_, ?_, ?_, ?_⟩
  · rwa [e2]
  · rwa [e5, e4]
  · rwa [e6]
  · rwa [e6, e7, e2]
  · rwa [e7, e2, e6]
  · rwa [e3]
  · rw [e3, e4, e6, hcov]
    simpa only [hin] using h7
  · rw [e3, e4, hcov]
    simpa only [hin] using h8

/-- The byte that comes next. -/
theorem inByte_ok {s : State} {k : Nat} (h : k < s.inLen.toNat) : inByte s k = .ok (inAt s k) := if_pos h

/-! ### The preload (R107) -/

/-- `k` input bytes are in the lookahead of a window of FILL. -/
structure Preloaded (s : State) (k : Nat) : Prop where
  wf : sparseWf windowDefault 0 4155 s.textBuf = true
  r : s.r = 4036
  evict : s.enc.s = 0
  len : s.enc.len.toNat = k
  inPos : s.enc.inPos.toNat = k
  bound : k ≤ 60 ∧ k ≤ s.inLen.toNat
  loaded : ∀ i, i < k → winAt s.textBuf (4036 + i) = inAt s i
  fill : ∀ i, i < 4155 → i < 4036 ∨ 4036 + k ≤ i → winAt s.textBuf i = Config.FILL

theorem Preloaded.next {s : State} {k : Nat} (h : Preloaded s k) (hk : k < 60) (hin : k < s.inLen.toNat) :
    Preloaded (preloadByte (inAt s k) s) (k + 1) := by
  have hat : s.r.toNat + s.enc.len.toNat = 4036 + k := by
    rw [h.r, h.len]
    rfl
  have htb : ∀ i, winAt (preloadByte (inAt s k) s).textBuf i = if i = 4036 + k then inAt s k else winAt s.textBuf i := fun i => by
    rw [← hat]
    exact winAt_winPut h.wf _ i _
  have hlen := h.len
  have hpos := h.inPos
  refine ⟨winPut_wf h.wf (by omega), h.r, h.evict, ?_, ?_, ⟨hk, hin⟩, fun i hi => ?_, fun i hi hor => ?_⟩
  · show (s.enc.len + 1).toNat = k + 1
    bv_omega
  · show (s.enc.inPos + 1).toNat = k + 1
    bv_omega
  · rw [htb]
    split_ifs with e
    · obtain rfl : i = k := by omega
      rfl
    · exact h.loaded i (by omega)
  · rw [htb, if_neg (by omega)]
    exact h.fill i hi (by omega)

theorem preload_ok {n k : Nat} {s : State} (h : Preloaded s k) (hn : n + k = 60) :
    ∃ t k', preload n s = .ok t ∧ Preloaded t k' ∧ k ≤ k' ∧ (k' < t.inLen.toNat → k' = 60) ∧ (0 < n → k < s.inLen.toNat → k < k')
      ∧ t.mf = s.mf ∧ t.inLen = s.inLen := by
  induction n generalizing k s with
  | zero => exact ⟨s, k, rfl, h, le_rfl, fun _ => by omega, fun h0 => absurd h0 (Nat.lt_irrefl 0), rfl, rfl⟩
  | succ n ih =>
    rw [preload, h.inPos]
    split_ifs with hin
    · obtain ⟨t, k', hrun, hp, hkk, hfull, -, hmf, hlen⟩ := ih (h.next (by omega) hin) (by omega)
      refine ⟨t, k', ?_, hp, by omega, hfull, fun _ _ => hkk, hmf, hlen⟩
      rw [inByte_ok hin, bind_ok]
      exact hrun
    · exact ⟨s, k, rfl, h, le_rfl, fun hlt => absurd hlt hin, fun _ hlt => absurd hlt hin, rfl, rfl⟩

theorem Preloaded.start {s : State} (h : Safe s) : Preloaded (initEncode s) 0 := by
  obtain ⟨-, -, wtb, -, -⟩ := memory_wf_iff.1 h.memory
  refine ⟨?_, initEncode_r s, ?_, ?_, ?_, ⟨by omega, by omega⟩, fun i hi => absurd hi (Nat.not_lt_zero i), fun i hi _ => ?_⟩
  · rw [initEncode_textBuf]
    exact winFill_wf wtb
  · rw [initEncode_enc]
  · rw [initEncode_enc]
    rfl
  · rw [initEncode_enc]
    rfl
  · rw [initEncode_textBuf]
    exact winAt_winFill wtb hi

/-- After the preload the lookahead is the first bytes of the input, after FILL. -/
theorem Preloaded.stream {s : State} {k : Nat} (h : Preloaded s k) (hlt : s.inLen.toNat < 2 ^ 32) (h1 : 1 ≤ k)
    (hfull : k < s.inLen.toNat → k = 60) : Stream s := by
  have hcov : covered s = 0 := by rw [covered, h.len, h.inPos, Nat.sub_self]
  refine ⟨hlt, ?_, h.len.symm ▸ ⟨h1, h.bound.1⟩, by rw [h.len, h.inPos]; exact ⟨le_rfl, h.bound.2⟩, ?_, fun j hj => ?_,
    fun i hi => ?_, fun j hj1 hj => ?_⟩
  · rw [h.evict, h.r]
    rfl
  · rwa [h.len, h.inPos]
  · rw [h.fill _ (by omega) (by have := h.bound; omega), h.fill _ (by omega) (by omega)]
  · have hk := h.bound.1
    rw [h.len] at hi
    have hat : (s.r + BitVec.ofNat 12 i).toNat = 4036 + i := by
      rw [h.r]
      bv_omega
    rw [hat, hcov, Nat.zero_add, h.loaded i hi]
  · have hat : (s.r - BitVec.ofNat 12 j).toNat = 4036 - j := by
      rw [h.r]
      bv_omega
    rw [hat, hcov, if_neg (by omega), h.fill _ (by omega) (by omega)]

/-! ### The advance (R109) -/

/-- Position `p` is at least 60 before the byte written at `s = r + 60` and its mirror: its key keeps its value. -/
theorem keyByte_winWrite {tb : List Host.Cell} (w : sparseWf windowDefault 0 4155 tb = true) {r p : BitVec 12} (hp : (r - p).toNat ≤ 4035)
    {i : Nat} (hi : i < 60) (c : Byte) : keyByte (winWrite (r + 60).toNat c tb) p.toNat i = keyByte tb p.toNat i := by
  have hlt := (r + 60).isLt
  rw [keyByte, keyByte, winAt_winWrite w hlt, if_neg]
  bv_omega

/-- One position on, with one more input byte written where the last position fell out. -/
theorem Stream.slideIn {s : State} (h : Stream s) (w : sparseWf windowDefault 0 4155 s.textBuf = true)
    (hin : s.enc.inPos.toNat < s.inLen.toNat) {t : State} (htb : t.textBuf = winWrite (s.r + 60).toNat (inAt s s.enc.inPos.toNat) s.textBuf)
    (hib : t.inBuf = s.inBuf) (hil : t.inLen = s.inLen) (hr : t.r = s.r + 1) (he : t.enc.s = s.enc.s + 1) (hlen : t.enc.len = s.enc.len)
    (hpos : t.enc.inPos = s.enc.inPos + 1) : Stream t := by
  have hbound := h.inLen
  have h60 := h.full hin
  have htaken := h.taken
  have hlt := (s.r + 60).isLt
  have hpos' : t.enc.inPos.toNat = s.enc.inPos.toNat + 1 := by rw [hpos]; bv_omega
  have hcov : covered t = covered s + 1 := by rw [covered, covered, hpos', hlen]; omega
  have hcovs : covered s = s.enc.inPos.toNat - 60 := by rw [covered, h60]
  have hinAt : ∀ k, inAt t k = inAt s k := fun k => by rw [inAt, hib, inAt]
  refine ⟨by rwa [hil], by rw [he, hr, h.cursors]; bv_omega, hlen ▸ h.len, by rw [hlen, hpos', hil]; omega,
    fun _ => hlen ▸ h60, fun k hk => ?_, fun i hi => ?_, fun j hj1 hj => ?_⟩
  · rw [htb, winAt_winWrite w hlt, winAt_winWrite w hlt, h.mirror k hk]
    grind
  · rw [hlen, h60] at hi
    rw [htb, winAt_winWrite w hlt, hinAt, hcov, hr]
    by_cases hlast : i = 59
    · rw [if_pos (.inl (by subst hlast; bv_omega))]
      congr 1
      omega
    · have := h.lookahead (i + 1) (by omega)
      have hat : (s.r + 1 + BitVec.ofNat 12 i).toNat = (s.r + BitVec.ofNat 12 (i + 1)).toNat := by bv_omega
      rw [hat, if_neg (by bv_omega), this]
      congr 1
      omega
  · rw [htb, winAt_winWrite w hlt, hinAt, hcov, hr]
    by_cases hfirst : j = 1
    · have := h.lookahead 0 (by omega)
      have hat : (s.r + 1 - BitVec.ofNat 12 j).toNat = (s.r + BitVec.ofNat 12 0).toNat := by subst hfirst; bv_omega
      rw [hat, if_neg (by bv_omega), this, if_pos (by omega)]
      congr 1
      omega
    · have := h.history (j - 1) (by omega) (by omega)
      have hat : (s.r + 1 - BitVec.ofNat 12 j).toNat = (s.r - BitVec.ofNat 12 (j - 1)).toNat := by bv_omega
      rw [hat, if_neg (by bv_omega), this]
      by_cases hj' : j ≤ covered s + 1
      · rw [if_pos hj', if_pos (by omega)]
        congr 1
        omega
      · rw [if_neg hj', if_neg (by omega)]

/-- One position on with the input exhausted: the lookahead shrinks. -/
theorem Stream.slideDrain {s : State} (h : Stream s) (hin : ¬ s.enc.inPos.toNat < s.inLen.toNat) (hl : 1 < s.enc.len.toNat) {t : State}
    (htb : t.textBuf = s.textBuf) (hib : t.inBuf = s.inBuf) (hil : t.inLen = s.inLen) (hr : t.r = s.r + 1)
    (he : t.enc.s = s.enc.s + 1) (hlen : t.enc.len = s.enc.len - 1) (hpos : t.enc.inPos = s.enc.inPos) : Stream t := by
  have htaken := h.taken
  have h60 := h.len
  have hlen' : t.enc.len.toNat = s.enc.len.toNat - 1 := by rw [hlen]; bv_omega
  have hcov : covered t = covered s + 1 := by rw [covered, covered, hpos, hlen']; omega
  have hinAt : ∀ k, inAt t k = inAt s k := fun k => by rw [inAt, hib, inAt]
  refine ⟨by rw [hil]; exact h.inLen, by rw [he, hr, h.cursors]; bv_omega, by omega, by rw [hpos, hil]; omega,
    fun hlt => absurd (by rwa [hpos, hil] at hlt) hin, htb ▸ h.mirror, fun i hi => ?_, fun j hj1 hj => ?_⟩
  · have := h.lookahead (i + 1) (by omega)
    have hat : (s.r + 1 + BitVec.ofNat 12 i).toNat = (s.r + BitVec.ofNat 12 (i + 1)).toNat := by bv_omega
    rw [htb, hinAt, hcov, hr, hat, this]
    congr 1
    omega
  · rw [htb, hinAt, hcov, hr]
    by_cases hfirst : j = 1
    · have := h.lookahead 0 (by omega)
      have hat : (s.r + 1 - BitVec.ofNat 12 j).toNat = (s.r + BitVec.ofNat 12 0).toNat := by subst hfirst; bv_omega
      rw [hat, this, if_pos (by omega)]
      congr 1
      omega
    · have := h.history (j - 1) (by omega) (by omega)
      have hat : (s.r + 1 - BitVec.ofNat 12 j).toNat = (s.r - BitVec.ofNat 12 (j - 1)).toNat := by bv_omega
      rw [hat, this]
      by_cases hj' : j ≤ covered s + 1
      · rw [if_pos hj', if_pos (by omega)]
        congr 1
        omega
      · rw [if_neg hj', if_neg (by omega)]

end Sys2Proof.Machine

/-! PROOFS. COMPRESS between its steps: the trees over the sliding window (R61, I5), and each row of the phase table (R116). -/

namespace Sys2Proof.Machine

open Sys2Proof

/-! ### What the trees depend on -/

theorem ancestor_congr {m m' : MatchFinder} (hd : dadOf m' = dadOf m) (n p : Nat) : ancestor m' n p = ancestor m n p := by
  induction n generalizing p with
  | zero => rfl
  | succ n ih => rw [ancestor, ancestor, hd, ih]

theorem below_congr {m m' : MatchFinder} (hd : dadOf m' = dadOf m) {x p : Nat} : Below m' x p ↔ Below m x p :=
  exists_congr fun n => by rw [ancestor_congr hd]

theorem inTree_congr {m m' : MatchFinder} (hd : dadOf m' = dadOf m) {p : Nat} : InTree m' p ↔ InTree m p := by
  rw [inTree_iff, inTree_iff, hd]

/-- The match result is no part of the trees. -/
theorem DirOk.congr_links {tb : List Host.Cell} {m m' : MatchFinder} (ok : DirOk tb m) (hd : dadOf m' = dadOf m)
    (hc : childOf m' = childOf m) : DirOk tb m' := by
  have hw : ∀ cmp q, WalkNode m' cmp q ↔ WalkNode m cmp q := fun cmp q => or_congr_left (inTree_congr hd)
  refine ⟨fun cmp q hq => ?_, fun a b q hq => ?_, fun p hp => ?_, fun p hp => ?_, fun cmp q p hq hp => ?_⟩
  · rw [hc, hd]
    exact ok.child cmp q ((hw cmp q).1 hq)
  · rw [hc]
    exact ok.side a b q ((inTree_congr hd).1 hq)
  · rw [hc, hd]
    simp only [hw]
    exact ok.hung p ((inTree_congr hd).1 hp)
  · rw [below_congr hd]
    exact ok.bucket p ((inTree_congr hd).1 hp)
  · rw [hc, below_congr hd]
    exact ok.order cmp q p ((inTree_congr hd).1 hq) ((inTree_congr hd).1 hp)

/-- Nor is any byte of the window outside the keys of the positions in the tree. -/
theorem DirOk.congr_window {tb tb' : List Host.Cell} {m : MatchFinder} (ok : DirOk tb m)
    (h : ∀ p, InTree m p → ∀ i, i < 60 → keyByte tb p i = keyByte tb' p i) : DirOk tb' m where
  child := ok.child
  side := ok.side
  hung := ok.hung
  bucket p hp := h p hp 0 (by decide) ▸ ok.bucket p hp
  order cmp q p hq hp hc hb := keyOn_congr (h p hp) (h q hq) (ok.order cmp q p hq hp hc hb)

/-! ### The empty trees (R56, R107) -/

theorem sparseGet_forUp {α : Type} [DecidableEq α] {d : Nat → α} {lo hi n i : Nat} {x : α} {t : List (Nat × α)}
    (w : sparseWf d lo hi t = true) (hlo : lo ≤ i) (hhi : i + n ≤ hi) {j : Nat} (hj : i ≤ j) (hj' : j < i + n) :
    sparseGet d (forUp (fun k t => sparseSet d t k x) n i t) j = x := by
  have h := forUp_indexed (P := fun k t => sparseWf d lo hi t = true ∧ ∀ j, i ≤ j → j < k → sparseGet d t j = x)
    (f := fun k t => sparseSet d t k x) (n := n) (i := i) (s := t)
    (fun k t hk hk' ⟨hw, ht⟩ => ⟨sparseWf_sparseSet hw (hlo.trans hk) (hk'.trans_le hhi), fun j hj hjk => by
      rw [sparseGet_sparseSet hw]
      split_ifs with e
      · rfl
      · exact ht j hj (by omega)⟩) ⟨w, fun j hj hjk => absurd hj (by omega)⟩
  exact h.2 j hj hj'

theorem initTree_dad {m : MatchFinder} (w : m.wf = true) {p : Nat} (hp : p < 4096) : dadOf (initTree m) p = 4096 := by
  have h : sparseGet treeDefault (initTree m).dad p = nilIdx := by
    rw [initTree]
    dsimp only
    exact sparseGet_forUp (MatchFinder.wf_iff.1 w).2.2 le_rfl (by decide) (Nat.zero_le p) ((Nat.zero_add Config.N).symm ▸ hp)
  rw [dadOf, h]
  rfl

theorem initTree_root {m : MatchFinder} (w : m.wf = true) {q : Nat} (hq : IsSentinel q) : rsonOf (initTree m) q = 4096 := by
  obtain ⟨h1, h2⟩ := isSentinel_iff.1 hq
  have h : sparseGet treeDefault (initTree m).rson q = nilIdx := by
    rw [initTree]
    dsimp only
    exact sparseGet_forUp (MatchFinder.wf_iff.1 w).2.1 (Nat.zero_le _) (by decide) h1 (by omega)
  rw [rsonOf, h]
  rfl

theorem initTree_empty {m : MatchFinder} (w : m.wf = true) (p : Nat) : ¬ InTree (initTree m) p := fun hp => by
  obtain ⟨hlt, hd⟩ := inTree_iff.1 hp
  exact hd (initTree_dad w hlt)

/-- The empty trees are search trees over every window. -/
theorem initTree_dirOk {m : MatchFinder} (w : m.wf = true) (tb : List Host.Cell) : DirOk tb (initTree m) where
  child cmp q hq hc := by
    rcases hq with hq | ⟨hs, h0⟩
    · exact absurd hq (initTree_empty w q)
    · exact absurd ((if_pos h0).trans (initTree_root w hs)) hc
  side a b q hq := absurd hq (initTree_empty w q)
  hung p hp := absurd hp (initTree_empty w p)
  bucket p hp := absurd hp (initTree_empty w p)
  order cmp q p hq := absurd hq (initTree_empty w q)

/-! ### Insertions into the window's trees -/

/-- The match result is none or a real one, of offset 4035 at most (R62). -/
def MatchOk (tb : List Host.Cell) (m : MatchFinder) (r : BitVec 12) : Prop :=
  m.matchLength = 0 ∨ (3 ≤ m.matchLength.toNat ∧ m.matchPosition.toNat ≤ 4035
    ∧ SharePrefix tb (r - m.matchPosition - 1).toNat r.toNat m.matchLength.toNat)

/-- An insertion completes and keeps the search trees; its match is real where the positions in the tree are at most 4036 back. -/
theorem insertNode_keeps {tb : List Host.Cell} {m : MatchFinder} {r : BitVec 12} (w : m.wf = true) (ok : DirOk tb m)
    (hr : ¬ InTree m r.toNat) : ∃ m', insertNode tb r m = .ok m' ∧ m'.wf = true ∧ DirOk tb m'
      ∧ (∀ q, InTree m' q → q = r.toNat ∨ InTree m q)
      ∧ ((∀ p : BitVec 12, InTree m p.toNat → (r - p).toNat ≤ 4036) → MatchOk tb m' r) := by
  obtain ⟨m', p, hm, hins, hbest⟩ := insertNode_ok w ok hr
  refine ⟨m', hm, insertNode_wf w hm, hins.dirOk ok, fun q hq => hins.inTree ok hq, fun hrange => ?_⟩
  rcases hbest.real with ⟨h0, -⟩ | ⟨h3, -, q, ⟨hq, -⟩, hpos, hs, -⟩
  · exact .inl h0
  · have hqr : q ≠ r := fun e => hr (e ▸ hq)
    refine .inr ⟨h3, ?_, ?_⟩
    · have := hrange q hq
      rw [hpos]
      bv_omega
    · rwa [hpos, sub_offset]

/-- What `Encoding` says of the match finder: search trees over the window, of positions at most `d` back from `r`. -/
structure Trees (tb : List Host.Cell) (m : MatchFinder) (r : BitVec 12) (d : Nat) : Prop where
  wf : m.wf = true
  dirOk : DirOk tb m
  range : ∀ p : BitVec 12, InTree m p.toNat → (r - p).toNat ≤ d

/-- The next position goes in where none is more than 4035 back. -/
theorem Trees.insert {tb : List Host.Cell} {m : MatchFinder} {r : BitVec 12} (h : Trees tb m r 4035) :
    ∃ m', insertNode tb (r + 1) m = .ok m' ∧ Trees tb m' (r + 1) 4036 ∧ MatchOk tb m' (r + 1) := by
  have hup : ∀ p : BitVec 12, InTree m p.toNat → (r + 1 - p).toNat ≤ 4036 ∧ p ≠ r + 1 := fun p hp => by
    have := h.range p hp
    constructor
    · bv_omega
    · rintro rfl
      bv_omega
  obtain ⟨m', hm, hw, hok, hin, hmatch⟩ := insertNode_keeps (r := r + 1) h.wf h.dirOk fun hp => (hup _ hp).2 rfl
  refine ⟨m', hm, ⟨hw, hok, fun p hp => ?_⟩, hmatch fun p hp => (hup p hp).1⟩
  rcases hin _ hp with e | hp
  · obtain rfl : p = r + 1 := BitVec.eq_of_toNat_eq e
    bv_omega
  · exact (hup p hp).1

/-- The position 4036 back goes out. -/
theorem Trees.delete {tb : List Host.Cell} {m : MatchFinder} {r : BitVec 12} (h : Trees tb m r 4036) :
    ∃ m', deleteNode (r + 60) m = .ok m' ∧ Trees tb m' r 4035 := by
  obtain ⟨m', hm, hok, hin⟩ := deleteNode_ok (p := r + 60) h.wf h.dirOk
  refine ⟨m', hm, deleteNode_wf h.wf hm, hok, fun p hp => ?_⟩
  obtain ⟨hp, hne⟩ := (hin _).1 hp
  have := h.range p hp
  have hne' : p ≠ r + 60 := fun e => hne (congrArg _ e)
  bv_omega

/-- The byte that takes the place of the position out is in no key. -/
theorem Trees.write {tb : List Host.Cell} {m : MatchFinder} {r : BitVec 12} (h : Trees tb m r 4035)
    (w : sparseWf windowDefault 0 4155 tb = true) (c : Byte) : Trees (winWrite (r + 60).toNat c tb) m r 4035 :=
  ⟨h.wf, h.dirOk.congr_window fun p hp i hi => by
    have hp12 : (BitVec.ofNat 12 p).toNat = p := Nat.mod_eq_of_lt (inTree_iff.1 hp).1
    have := keyByte_winWrite w (h.range (BitVec.ofNat 12 p) (hp12.symm ▸ hp)) hi c
    rw [hp12] at this
    exact this.symm, h.range⟩

theorem Encoding.trees {s : State} (h : Encoding s) (hs : Safe s) : Trees s.textBuf s.mf s.r 4036 :=
  ⟨hs.mf_wf, finderOk_iff.1 h.finder, h.range⟩

theorem Trees.congr_links {tb : List Host.Cell} {m m' : MatchFinder} {r : BitVec 12} {d : Nat} (h : Trees tb m r d)
    (w : m'.wf = true) (hd : dadOf m' = dadOf m) (hc : childOf m' = childOf m) : Trees tb m' r d :=
  ⟨w, h.dirOk.congr_links hd hc, fun p hp => h.range p ((inTree_congr hd).1 hp)⟩

/-- `Encoding` from its two halves and what its phase asks. -/
theorem Stream.encoding {s : State} (h : Stream s) (ht : Trees s.textBuf s.mf s.r 4036)
    (prime : s.phase = .ePrime → ∀ p, ¬ InTree s.mf p) (emit : s.phase = .eEmit → MatchOk s.textBuf s.mf s.r)
    (advance : s.phase = .eAdvIn ∨ s.phase = .eAdvDrain → s.enc.advI.toNat < s.enc.lastMatchLength.toNat
      ∧ s.enc.lastMatchLength.toNat - s.enc.advI.toNat ≤ s.enc.len.toNat
      ∧ (s.phase = .eAdvIn ↔ s.enc.inPos.toNat < s.inLen.toNat)) : Encoding s :=
  ⟨h.inLen, h.cursors, h.len, h.taken, h.full, h.mirror, h.lookahead, h.history, finderOk_iff.2 ht.dirOk, ht.range, prime, emit,
    advance⟩

end Sys2Proof.Machine

/-! PROOFS. Every row of COMPRESS answers and keeps what COMPRESS keeps (R107 to R110, R116), and with it every step. -/

namespace Sys2Proof.Machine

open Sys2Proof

/-! ### What leaves the stream -/

theorem SameStream.setMf (m : MatchFinder) (s : State) : SameStream s (setMf m s) := ⟨rfl, rfl, rfl, rfl, rfl, rfl, rfl⟩

theorem SameStream.setPhase (p : Phase) (s : State) : SameStream s (setPhase p s) := ⟨rfl, rfl, rfl, rfl, rfl, rfl, rfl⟩

theorem SameStream.refl (s : State) : SameStream s s := ⟨rfl, rfl, rfl, rfl, rfl, rfl, rfl⟩

theorem dadOf_matchResult (m : MatchFinder) (l : BitVec 6) (p : BitVec 12) :
    dadOf { m with matchLength := l, matchPosition := p } = dadOf m := rfl

theorem childOf_matchResult (m : MatchFinder) (l : BitVec 6) (p : BitVec 12) :
    childOf { m with matchLength := l, matchPosition := p } = childOf m := rfl

/-! ### E_INIT and E_PRIME (R107) -/

theorem stepEInit_ok {s : State} (h : Safe s) (h1 : 1 ≤ s.inLen.toNat) (hlt : s.inLen.toNat < 2 ^ 32) :
    ∃ t, stepEInit s = .ok t ∧ Encoding t := by
  obtain ⟨u, k, hrun, hp, -, hfull, hfirst, hmf, hlen⟩ := preload_ok (n := 60) (Preloaded.start h) (by omega)
  rw [initEncode_mf] at hmf
  rw [initEncode_inLen] at hlen hfirst
  have hs : Stream u := hp.stream (hlen.symm ▸ hlt) (hfirst (by omega) (by omega)) hfull
  have ht : Trees u.textBuf u.mf u.r 4036 := by
    rw [hmf]
    exact Trees.congr_links ⟨initTree_wf h.mf_wf, initTree_dirOk h.mf_wf _, fun p hp => absurd hp (initTree_empty h.mf_wf _)⟩
      ((wf_matchResult (m := initTree s.mf)).trans (initTree_wf h.mf_wf)) (dadOf_matchResult ..) (childOf_matchResult ..)
  have hempty : ∀ p, ¬ InTree u.mf p := by
    rw [hmf]
    exact fun p hp => initTree_empty h.mf_wf p ((inTree_congr (dadOf_matchResult ..)).1 hp)
  refine ⟨setPhase .ePrime u, by rw [stepEInit, hrun, bind_ok], Stream.encoding (hs.congr (.setPhase ..)) ht
    (fun _ => hempty) (fun e => ?_) fun e => ?_⟩
  · cases e
  · rcases e with e | e <;> cases e

/-- A loop whose every round answers and carries a property on answers. -/
theorem forUpM_ok {σ : Type} {P : Nat → σ → Prop} {f : Nat → σ → Res σ} {n i : Nat} {a : σ}
    (hf : ∀ j a, i ≤ j → j < i + n → P j a → ∃ b, f j a = .ok b ∧ P (j + 1) b) (ha : P i a) :
    ∃ b, forUpM f n i a = .ok b ∧ P (i + n) b := by
  induction n generalizing i a with
  | zero => exact ⟨a, rfl, ha⟩
  | succ n ih =>
    obtain ⟨b, hb, hPb⟩ := hf i a le_rfl (by omega) ha
    obtain ⟨c, hc, hPc⟩ := ih (fun j a h1 h2 => hf j a (by omega) (by omega)) hPb
    exact ⟨c, by rw [forUpM, hb, bind_ok, hc], by rwa [Nat.add_right_comm] at hPc⟩

/-- The insertions of E_PRIME before that of `r - j`. -/
structure Priming (s : State) (j : Nat) (t : State) : Prop where
  same : t = setMf t.mf s
  wf : t.mf.wf = true
  dirOk : DirOk s.textBuf t.mf
  range : ∀ p : BitVec 12, InTree t.mf p.toNat → 1 ≤ (s.r - p).toNat ∧ (s.r - p).toNat < j

theorem insertAt_of_node {r : BitVec 12} {s : State} {m : MatchFinder} (h : insertNode s.textBuf r s.mf = .ok m) :
    insertAt r s = .ok (setMf m s) := insertAt_eq_ok.2 ⟨m, h, rfl⟩

theorem deleteAt_of_node {p : BitVec 12} {s : State} {m : MatchFinder} (h : deleteNode p s.mf = .ok m) :
    deleteAt p s = .ok (setMf m s) := deleteAt_eq_ok.2 ⟨m, h, rfl⟩

theorem Priming.next {s t : State} {j : Nat} (h : Priming s j t) (h1 : 1 ≤ j) (h60 : j ≤ 60) :
    ∃ u, insertAt (s.r - BitVec.ofNat 12 j) t = .ok u ∧ Priming s (j + 1) u := by
  obtain ⟨m, hm, hw, hok, hin, -⟩ := insertNode_keeps (r := s.r - BitVec.ofNat 12 j) h.wf h.dirOk fun hp => by
    have := h.range _ hp
    bv_omega
  have htb : t.textBuf = s.textBuf := by rw [h.same]; rfl
  refine ⟨setMf m t, insertAt_of_node (htb ▸ hm), ?_, hw, hok, fun p hp => ?_⟩
  · rw [h.same]
    rfl
  · rcases hin _ hp with e | hp
    · obtain rfl := BitVec.eq_of_toNat_eq e
      bv_omega
    · have := h.range p hp
      omega

theorem stepEPrime_ok {s : State} (hs : Safe s) (h : Encoding s) (hph : s.phase = .ePrime) :
    ∃ t, stepEPrime s = .ok t ∧ Encoding t := by
  have hempty := h.prime hph
  have hstart : Priming s 1 s := ⟨rfl, hs.mf_wf, finderOk_iff.1 h.finder, fun p hp => absurd hp (hempty _)⟩
  obtain ⟨u, hu, hpu⟩ := forUpM_ok (P := Priming s) (n := 60) (fun j a h1 h2 ha => ha.next h1 (by omega)) hstart
  have hrange : ∀ p : BitVec 12, InTree u.mf p.toNat → 1 ≤ (s.r - p).toNat ∧ (s.r - p).toNat ≤ 60 := fun p hp => by
    have := hpu.range p hp
    omega
  obtain ⟨m, hm, hw, hok, hin, hmatch⟩ := insertNode_keeps (r := s.r) hpu.wf hpu.dirOk fun hp => by
    have := hrange _ hp
    bv_omega
  have htb : u.textBuf = s.textBuf := by rw [hpu.same]; rfl
  have hv : insertAt s.r u = .ok (setMf m s) := by
    rw [insertAt_of_node (htb ▸ hm), hpu.same]
    rfl
  have ht : Trees s.textBuf m s.r 4036 := ⟨hw, hok, fun p hp => by
    rcases hin _ hp with e | hp
    · obtain rfl := BitVec.eq_of_toNat_eq e
      rw [BitVec.sub_self]
      decide
    · have := hrange p hp
      omega⟩
  refine ⟨setPhase .eEmit (setMf m s), by rw [stepEPrime, hu, bind_ok, hv, bind_ok],
    Stream.encoding (h.stream.congr ((SameStream.setMf m s).trans (.setPhase ..))) ht (fun e => ?_)
    (fun _ => hmatch fun p hp => (hrange p hp).2.trans (by decide)) fun e => ?_⟩
  · cases e
  · rcases e with e | e <;> cases e

/-! ### E_EMIT (R108) -/

/-- A token leaves the window, the cursors and the trees. -/
structure Emits (s t : State) : Prop where
  stream : SameStream s t
  dad : dadOf t.mf = dadOf s.mf
  child : childOf t.mf = childOf s.mf
  /-- The token covers one byte at least and no more than the lookahead. -/
  covers : 1 ≤ t.mf.matchLength.toNat ∧ t.mf.matchLength.toNat ≤ s.enc.len.toNat

theorem SameStream.setHuff_putCode (h : Huffman) (l : Nat) (v : BitVec 32) (s : State) :
    SameStream s (setHuff h (putCode l v s)) ∧ (setHuff h (putCode l v s)).mf = s.mf := by
  rw [putCode_frame]
  exact ⟨⟨rfl, rfl, rfl, rfl, rfl, rfl, rfl⟩, rfl⟩

theorem encodeChar_sameStream {c : Nat} {s t : State} (e : encodeChar c s = .ok t) : SameStream s t ∧ t.mf = s.mf := by
  obtain ⟨l, code, h, -, -, rfl⟩ := encodeChar_eq_ok.1 e
  exact SameStream.setHuff_putCode h l code s

theorem encodePosition_sameStream (P : PosTable) (o : BitVec 12) (s : State) :
    SameStream s (encodePosition o s P) ∧ (encodePosition o s P).mf = s.mf := by
  rw [encodePosition_frame]
  exact ⟨⟨rfl, rfl, rfl, rfl, rfl, rfl, rfl⟩, rfl⟩

theorem emitToken_ok {P : PosTable} {s : State} (hs : Safe s) (hlen : 1 ≤ s.enc.len.toNat)
    (hle : s.mf.matchLength.toNat ≤ s.enc.len.toNat) : ∃ t, emitToken s P = .ok t ∧ Emits s t := by
  have hb : s.mf.matchLength.toNat ≤ 60 := hs.matchBound
  unfold emitToken
  simp only [show Config.THRESHOLD = 2 from rfl]
  split_ifs with h2
  · have hbyte := (winAt s.textBuf s.r.toNat).isLt
    obtain ⟨t, ht⟩ := encodeChar_ok (s := setMf { s.mf with matchLength := 1 } s) (c := (winAt s.textBuf s.r.toNat).toNat)
      hs.huffman hs.huff_wf (by omega)
    obtain ⟨hst, hmf⟩ := encodeChar_sameStream ht
    refine ⟨t, by rw [winRead_ok (Nat.lt_trans s.r.isLt (by decide)), bind_ok, ht], ?_, ?_, ?_, ?_⟩
    · exact (SameStream.setMf _ s).trans hst
    · rw [hmf]
      rfl
    · rw [hmf]
      rfl
    · rw [hmf]
      exact ⟨le_rfl, hlen⟩
  · obtain ⟨t, ht⟩ := encodeChar_ok (s := s) (c := 253 + s.mf.matchLength.toNat) hs.huffman hs.huff_wf (by omega)
    obtain ⟨hst, hmf⟩ := encodeChar_sameStream ht
    obtain ⟨hst', hmf'⟩ := encodePosition_sameStream P s.mf.matchPosition t
    rw [hmf] at hmf'
    refine ⟨_, by rw [symOfLen, ht, bind_ok], hst.trans hst', congrArg dadOf hmf', congrArg childOf hmf', ?_⟩
    rw [hmf']
    omega

theorem clamp_sameStream (s : State) : SameStream s (clamp s) ∧ dadOf (clamp s).mf = dadOf s.mf ∧ childOf (clamp s).mf = childOf s.mf
    ∧ (clamp s).mf.matchLength.toNat ≤ s.enc.len.toNat := by
  unfold clamp
  split_ifs with h
  · exact ⟨.setMf _ s, rfl, rfl, le_rfl⟩
  · exact ⟨.refl s, rfl, rfl, Nat.not_lt.1 h⟩

/-- The end of E_EMIT: the advance over the positions the token covers starts. -/
def startAdvance (s : State) : State :=
  setPhase (if s.enc.inPos.toNat < s.inLen.toNat then .eAdvIn else .eAdvDrain)
    (setEnc { s.enc with lastMatchLength := s.mf.matchLength, advI := 0 } s)

theorem stepEEmit_of_emit {P : PosTable} {s t : State} (h : emitToken (clamp s) P = .ok t) :
    stepEEmit s P = .ok (startAdvance t) := by
  rw [stepEEmit, h]
  rfl

theorem startAdvance_phase (s : State) :
    (startAdvance s).phase = if s.enc.inPos.toNat < s.inLen.toNat then .eAdvIn else .eAdvDrain := rfl

theorem Encoding.startAdvance {s : State} (h : Stream s) (ht : Trees s.textBuf s.mf s.r 4036) (h1 : 1 ≤ s.mf.matchLength.toNat)
    (hle : s.mf.matchLength.toNat ≤ s.enc.len.toNat) : Encoding (startAdvance s) := by
  have hphase := startAdvance_phase s
  refine Stream.encoding (h.congr ⟨rfl, rfl, rfl, rfl, rfl, rfl, rfl⟩) ht (fun e => ?_) (fun e => ?_) fun _ => ⟨h1, hle, ?_⟩
  · rw [hphase] at e
    split_ifs at e
  · rw [hphase] at e
    split_ifs at e
  · rw [hphase]
    split_ifs with hin
    · exact iff_of_true rfl hin
    · exact iff_of_false (fun e => by cases e) hin

theorem stepEEmit_ok {P : PosTable} {s : State} (hs : Safe s) (h : Encoding s) : ∃ t, stepEEmit s P = .ok t ∧ Encoding t := by
  obtain ⟨hcs, hcd, hcc, hle⟩ := clamp_sameStream s
  obtain ⟨u, hu, hsu, hd, hc, h1, hcov⟩ := emitToken_ok (P := P) hs.clamp (hcs.len.symm ▸ h.len.1) (hcs.len.symm ▸ hle)
  have hsame := hcs.trans hsu
  have ht : Trees u.textBuf u.mf u.r 4036 := by
    rw [hsame.textBuf, hsame.r]
    exact (h.trees hs).congr_links (hs.clamp.emitToken hu).mf_wf (hd.trans hcd) (hc.trans hcc)
  exact ⟨_, stepEEmit_of_emit hu, Encoding.startAdvance (h.stream.congr hsame) ht h1 (hsu.len.symm ▸ hcov)⟩

/-! ### The advance (R109, R110) -/

/-- The state of E_ADV_IN before its phase: the match finder is `m`. -/
def advancedIn (m : MatchFinder) (s : State) : State :=
  { s with
    textBuf := winWrite s.enc.s.toNat (inAt s s.enc.inPos.toNat) s.textBuf
    mf := m
    r := s.r + 1
    enc := { s.enc with s := s.enc.s + 1, inPos := s.enc.inPos + 1, advI := s.enc.advI + 1 } }

/-- The phase after E_ADV_IN. -/
def phaseAfterAdvIn (s : State) : Phase :=
  if s.enc.lastMatchLength.toNat ≤ s.enc.advI.toNat then .eEmit
  else if s.enc.inPos.toNat < s.inLen.toNat then .eAdvIn else .eAdvDrain

theorem stepEAdvIn_of_nodes {s : State} {m1 m2 : MatchFinder} (hin : s.enc.inPos.toNat < s.inLen.toNat)
    (h1 : deleteNode s.enc.s s.mf = .ok m1)
    (h2 : insertNode (winWrite s.enc.s.toNat (inAt s s.enc.inPos.toNat) s.textBuf) (s.r + 1) m1 = .ok m2) :
    stepEAdvIn s = .ok (setPhase (phaseAfterAdvIn (advancedIn m2 s)) (advancedIn m2 s)) := by
  have hdel := deleteAt_of_node (s := setEnc { s.enc with inPos := s.enc.inPos + 1 } s) h1
  have hins : insertAt (s.r + 1) (slideIn (inAt s s.enc.inPos.toNat) (setMf m1 (setEnc { s.enc with inPos := s.enc.inPos + 1 } s)))
      = .ok (setMf m2 (slideIn (inAt s s.enc.inPos.toNat) (setMf m1 (setEnc { s.enc with inPos := s.enc.inPos + 1 } s)))) :=
    insertAt_of_node h2
  rw [stepEAdvIn, inByte_ok hin, bind_ok, hdel, bind_ok]
  refine bind_eq_ok.2 ⟨_, hins, ?_⟩
  simp only [phaseAfterAdvIn, advancedIn, Machine.setPhase, Machine.setEnc, Machine.setMf, Machine.slideIn]
  rfl

theorem stepEAdvIn_ok {s : State} (hs : Safe s) (h : Encoding s) (hph : s.phase = .eAdvIn) : ∃ t, stepEAdvIn s = .ok t ∧ Encoding t := by
  obtain ⟨hadv, hleft, hphase⟩ := h.advance (.inl hph)
  have hin := hphase.1 hph
  obtain ⟨-, -, wtb, -, -⟩ := memory_wf_iff.1 hs.memory
  obtain ⟨m1, h1, ht1⟩ := (h.trees hs).delete
  obtain ⟨m2, h2, ht2, hmatch⟩ := (ht1.write wtb (inAt s s.enc.inPos.toNat)).insert
  have htext : (advancedIn m2 s).textBuf = winWrite (s.r + 60).toNat (inAt s s.enc.inPos.toNat) s.textBuf := by
    rw [← h.cursors, advancedIn]
  have hstream : Stream (advancedIn m2 s) := h.stream.slideIn wtb hin htext rfl rfl rfl rfl rfl rfl
  rw [← h.cursors] at h1 h2 ht2 hmatch
  have hadv' : (s.enc.advI + 1).toNat = s.enc.advI.toNat + 1 := by bv_omega
  have hleft' : s.enc.lastMatchLength.toNat - (s.enc.advI + 1).toNat ≤ s.enc.len.toNat := by omega
  refine ⟨_, stepEAdvIn_of_nodes hin h1 h2, Stream.encoding (hstream.congr (.setPhase ..)) ht2 (fun e => ?_) (fun _ => hmatch)
    fun e => ?_⟩ <;> rw [setPhase_phase, phaseAfterAdvIn] at *
  · split_ifs at e
  · split_ifs at e ⊢ with hend hin'
    · rcases e with e | e <;> cases e
    · exact ⟨Nat.not_le.1 hend, hleft', iff_of_true rfl hin'⟩
    · exact ⟨Nat.not_le.1 hend, hleft', iff_of_false (fun e => by cases e) hin'⟩

/-- The state of E_ADV_DRAIN before its phase: the match finder is `m`. -/
def advancedDrain (m : MatchFinder) (s : State) : State :=
  { s with
    mf := m
    r := s.r + 1
    enc := { s.enc with s := s.enc.s + 1, len := s.enc.len - 1, advI := s.enc.advI + 1 } }

/-- The phase after E_ADV_DRAIN. -/
def phaseAfterDrain (s : State) : Phase :=
  if s.enc.advI.toNat < s.enc.lastMatchLength.toNat then .eAdvDrain else if 0 < s.enc.len.toNat then .eEmit else .eFlush

theorem stepEAdvDrain_of_nodes {s : State} {m1 m2 : MatchFinder} (h1 : deleteNode s.enc.s s.mf = .ok m1)
    (h2 : if 0 < (s.enc.len - 1).toNat then insertNode s.textBuf (s.r + 1) m1 = .ok m2 else m2 = m1) :
    stepEAdvDrain s = .ok (setPhase (phaseAfterDrain (advancedDrain m2 s)) (advancedDrain m2 s)) := by
  rw [stepEAdvDrain, deleteAt_of_node (s := setEnc { s.enc with advI := s.enc.advI + 1 } s) h1, bind_ok]
  refine bind_eq_ok.2 ⟨advancedDrain m2 s, ?_, rfl⟩
  unfold insertWhileAny
  split_ifs at h2 with hlen
  · exact (if_pos hlen).trans (insertAt_of_node h2)
  · subst h2
    exact if_neg hlen

/-- The phases in which `EncoderOk` asks for `Encoding`. -/
def Phase.encodes : Phase → Bool
  | .ePrime | .eEmit | .eAdvIn | .eAdvDrain => true
  | .idle | .eHdr | .eInit | .eFlush | .dHdr | .dInit | .dSymbol | .dCopy | .done | .fault => false

theorem encoderOk_iff {s : State} : EncoderOk s ↔
    (s.phase = .eInit → 1 ≤ s.inLen.toNat ∧ s.inLen.toNat < 2 ^ 32) ∧ (s.phase.encodes = true → Encoding s) := by
  unfold EncoderOk
  cases s.phase <;> simp [Phase.encodes]

theorem Encoding.encoderOk {s : State} (h : Encoding s) (hp : s.phase ≠ .eInit) : EncoderOk s :=
  encoderOk_iff.2 ⟨fun e => absurd e hp, fun _ => h⟩

theorem encoderOk_of_phase {s : State} {p : Phase} (hp : s.phase = p) (h1 : p ≠ .eInit) (h2 : p.encodes = false) : EncoderOk s :=
  encoderOk_iff.2 ⟨fun e => absurd (hp.symm.trans e) h1, fun e => by rw [hp, h2] at e; cases e⟩

theorem stepEAdvDrain_ok {s : State} (hs : Safe s) (h : Encoding s) (hph : s.phase = .eAdvDrain) :
    ∃ t, stepEAdvDrain s = .ok t ∧ EncoderOk t := by
  obtain ⟨hadv, hleft, hphase⟩ := h.advance (.inr hph)
  have hin : ¬ s.enc.inPos.toNat < s.inLen.toNat := fun hlt => by
    have := hphase.2 hlt
    rw [hph] at this
    cases this
  have hlen := h.len.1
  obtain ⟨m1, h1, ht1⟩ := (h.trees hs).delete
  obtain ⟨m2, h2, ht2, hmatch⟩ := ht1.insert
  rw [← h.cursors] at h1
  have hadv' : (s.enc.advI + 1).toNat = s.enc.advI.toNat + 1 := by bv_omega
  have hlen' : (s.enc.len - 1).toNat = s.enc.len.toNat - 1 := by bv_omega
  by_cases hl : 1 < s.enc.len.toNat
  · have hstream : Stream (advancedDrain m2 s) := h.stream.slideDrain hin hl rfl rfl rfl rfl rfl rfl rfl
    have hleft' : s.enc.lastMatchLength.toNat - (s.enc.advI + 1).toNat ≤ (s.enc.len - 1).toNat := by omega
    have hpos : 0 < (s.enc.len - 1).toNat := by omega
    refine ⟨_, stepEAdvDrain_of_nodes h1 (by rw [if_pos hpos]; exact h2), Encoding.encoderOk ?_ ?_⟩
    · refine Stream.encoding (hstream.congr (.setPhase ..)) ht2 (fun e => ?_) (fun _ => hmatch) fun e => ?_ <;>
        rw [setPhase_phase, phaseAfterDrain] at *
      · split_ifs at e
      · split_ifs at e ⊢ with hend hl'
        · exact ⟨hend, hleft', iff_of_false (fun e => by cases e) hin⟩
        · rcases e with e | e <;> cases e
        · rcases e with e | e <;> cases e
    · rw [setPhase_phase, phaseAfterDrain]
      split_ifs <;> decide
  · have hzero : ¬ 0 < (s.enc.len - 1).toNat := by omega
    have hend : ¬ (s.enc.advI + 1).toNat < s.enc.lastMatchLength.toNat := by omega
    exact ⟨_, stepEAdvDrain_of_nodes (m2 := m1) h1 (by rw [if_neg hzero]),
      encoderOk_of_phase (p := .eFlush) ((if_neg hend).trans (if_neg hzero)) (by decide) rfl⟩

end Sys2Proof.Machine

/-! PROOFS. Every step keeps what COMPRESS keeps, and the core's next step answers (R20, R61, R109, R116, R146). -/

namespace Sys2Proof.Machine

open Sys2Proof

/-! ### The core's step -/

theorem EncoderOk.encoding {s : State} (h : EncoderOk s) {p : Phase} (hp : s.phase = p) (he : p.encodes = true) : Encoding s :=
  (encoderOk_iff.1 h).2 (hp ▸ he)

theorem stepEHdr_encoderOk (s : State) : EncoderOk (stepEHdr s) := by
  have hphase := stepEHdr_phase s
  obtain ⟨⟨-, hlen, -⟩, -⟩ := compressKeeps_iff.1 (stepEHdr_keeps s)
  split_ifs at hphase with hbig hzero
  · exact encoderOk_of_phase hphase (by decide) rfl
  · exact encoderOk_of_phase hphase (by decide) rfl
  · refine encoderOk_iff.2 ⟨fun _ => ?_, fun e => by rw [hphase] at e; cases e⟩
    rw [hlen]
    have hne : s.inLen.toNat ≠ 0 := fun e => hzero (BitVec.eq_of_toNat_eq e)
    omega

theorem stepDHdr_ok (s : State) : ∃ t, stepDHdr s = .ok t := by
  unfold stepDHdr
  simp only [show Config.HDR_BYTES = 4 from rfl]
  split_ifs with h
  · exact ⟨_, rfl⟩
  · have h4 := Nat.not_lt.1 h
    rw [readHeader, inByte_ok (by omega), bind_ok, inByte_ok (by omega), bind_ok, inByte_ok (by omega), bind_ok,
      inByte_ok (by omega), bind_ok, bind_ok]
    exact ⟨_, rfl⟩

theorem stepDSymbol_ok {P : PosTable} {s : State} (h : Safe s) : ∃ t, stepDSymbol s P = .ok t := by
  obtain ⟨c, u, hu, -⟩ := decodeChar_ok h.huffman h.huff_wf
  rw [stepDSymbol, hu, bind_ok]
  simp only
  split_ifs
  · exact ⟨_, rfl⟩
  · exact ⟨_, rfl⟩

theorem stepDCopy_ok (s : State) : ∃ t, stepDCopy s = .ok t := by
  unfold stepDCopy
  split_ifs
  · exact ⟨_, rfl⟩
  · rw [winRead_ok (Nat.lt_trans s.dec.src.isLt (by decide)), bind_ok]
    exact ⟨_, rfl⟩

/-- The rows of DECOMPRESS lead to phases of which `EncoderOk` asks nothing. -/
theorem encoderOk_of_decoder {t : State} {a b c d : Phase} (h : t.phase = a ∨ t.phase = b ∨ t.phase = c ∨ t.phase = d)
    (hall : ∀ p ∈ [a, b, c, d], p ≠ .eInit ∧ p.encodes = false) : EncoderOk t := by
  have key : ∀ p ∈ [a, b, c, d], t.phase = p → EncoderOk t := fun p hp e =>
    encoderOk_of_phase e (hall p hp).1 (hall p hp).2
  rcases h with h | h | h | h
  · exact key a (by simp) h
  · exact key b (by simp) h
  · exact key c (by simp) h
  · exact key d (by simp) h

/-- The core's step answers and keeps what COMPRESS keeps. -/
theorem coreStep_ok {P : PosTable} {s : State} (hs : Safe s) (h : EncoderOk s) : ∃ t, coreStep s P = .ok t ∧ EncoderOk t := by
  unfold coreStep
  split
  case h_1 | h_2 | h_3 => exact ⟨s, rfl, h⟩
  case h_4 => exact ⟨_, rfl, stepEHdr_encoderOk s⟩
  case h_5 hp =>
    obtain ⟨h1, hlt⟩ := (encoderOk_iff.1 h).1 hp
    obtain ⟨t, ht, he⟩ := stepEInit_ok hs h1 hlt
    exact ⟨t, ht, he.encoderOk (by rw [stepEInit_phase ht]; decide)⟩
  case h_6 hp =>
    obtain ⟨t, ht, he⟩ := stepEPrime_ok hs (h.encoding hp rfl) hp
    exact ⟨t, ht, he.encoderOk (by rw [stepEPrime_phase ht]; decide)⟩
  case h_7 hp =>
    obtain ⟨t, ht, he⟩ := stepEEmit_ok (P := P) hs (h.encoding hp rfl)
    exact ⟨t, ht, he.encoderOk (by rw [stepEEmit_phase ht]; split_ifs <;> decide)⟩
  case h_8 hp =>
    obtain ⟨t, ht, he⟩ := stepEAdvIn_ok hs (h.encoding hp rfl) hp
    exact ⟨t, ht, he.encoderOk (by rw [stepEAdvIn_phase ht]; split_ifs <;> decide)⟩
  case h_9 hp => exact stepEAdvDrain_ok hs (h.encoding hp rfl) hp
  case h_10 => exact ⟨_, rfl, encoderOk_of_phase (p := .done) rfl (by decide) rfl⟩
  case h_11 =>
    obtain ⟨t, ht⟩ := stepDHdr_ok s
    exact ⟨t, ht, encoderOk_of_decoder ((stepDHdr_phase ht).imp_right (Or.imp_right Or.inl)) (d := .dInit) (by decide)⟩
  case h_12 => exact ⟨_, rfl, encoderOk_of_phase (p := .dSymbol) rfl (by decide) rfl⟩
  case h_13 =>
    obtain ⟨t, ht⟩ := stepDSymbol_ok (P := P) hs
    exact ⟨t, ht, encoderOk_of_decoder ((stepDSymbol_phase ht).imp_right (Or.imp_right Or.inl)) (d := .done) (by decide)⟩
  case h_14 =>
    obtain ⟨t, ht⟩ := stepDCopy_ok s
    exact ⟨t, ht, encoderOk_of_decoder (stepDCopy_phase ht) (by decide)⟩

theorem coreStep_encoderOk {P : PosTable} {s t : State} (hs : Safe s) (h : EncoderOk s) (e : coreStep s P = .ok t) : EncoderOk t := by
  obtain ⟨u, hu, he⟩ := coreStep_ok (P := P) hs h
  exact Except.ok.inj (hu.symm.trans e) ▸ he

/-! ### What comes from outside -/

/-- What is still to come from outside and what the host last read are no part of it. -/
theorem EncoderOk.withPorts {s : State} (h : EncoderOk s) (a : List Input) (v : BitVec 64) :
    EncoderOk { s with inputs := a, hostData := v } := by
  obtain ⟨h1, h2⟩ := encoderOk_iff.1 h
  refine encoderOk_iff.2 ⟨h1, fun hp => ?_⟩
  obtain ⟨e1, e2, e3, e4, e5, e6, e7, e8, e9, e10, e11, e12, e13⟩ := h2 hp
  exact ⟨e1, e2, e3, e4, e5, e6, e7, e8, e9, e10, e11, e12, e13⟩

theorem encoderOk_of_not_busy {s : State} (h : busy s = false) : EncoderOk s := by
  unfold busy at h
  refine encoderOk_iff.2 ⟨fun e => ?_, fun e => ?_⟩
  · rw [e] at h
    cases h
  · cases hp : s.phase <;> rw [hp] at h e
    all_goals contradiction

theorem EncoderOk.startCommand {s : State} (h : EncoderOk s) {p : Phase} (h1 : p ≠ .eInit) (h2 : p.encodes = false) :
    EncoderOk (startCommand p s) := by
  unfold Machine.startCommand
  split_ifs
  · exact h
  · exact encoderOk_of_phase rfl h1 h2

/-- A value of `CMD` starts a command at its first row, or changes nothing. -/
theorem EncoderOk.exec_cmd {s t : State} {v : Nat} (h : EncoderOk s) (e : exec (decodeCmd v) s = .next t) : EncoderOk t := by
  unfold decodeCmd at e
  split at e
  · exact next_inj e ▸ h
  · exact next_inj e ▸ h.startCommand (by decide) rfl
  · exact next_inj e ▸ h.startCommand (by decide) rfl
  · exact next_inj e ▸ h

theorem decode_cmd {bytes rest : List Byte} {i : Instr} (h : decode .cmd bytes = .ok (i, rest)) : ∃ v, i = decodeCmd v := by
  cases bytes with
  | nil => cases h
  | cons b bs =>
    obtain ⟨rfl, -⟩ := Prod.mk.inj (Except.ok.inj h)
    exact ⟨_, rfl⟩

theorem takeInput_encoderOk {a : Input} {s t : State} (hs : Safe s) (h : EncoderOk s) (ha : ∀ sp bytes, a = .word sp bytes → sp = .cmd)
    (e : takeInput a s = .next t) : EncoderOk t := by
  cases a with
  | word sp bytes =>
    obtain rfl := ha sp bytes rfl
    obtain ⟨i, rest, hd, he⟩ := runWord_eq_next e
    obtain ⟨v, rfl⟩ := decode_cmd hd
    exact h.exec_cmd he
  | readReg n =>
    obtain ⟨v, rfl⟩ := hostReadReg_eq_next e
    exact h.withPorts s.inputs v
  | writeReg n v =>
    rcases hostWriteReg_eq_next e with he | ⟨hb, rfl⟩
    · exact h.exec_cmd he
    · exact encoderOk_of_not_busy hb
  | writeIn k b =>
    obtain ⟨hb, rfl⟩ := hostWriteIn_eq_next e
    exact encoderOk_of_not_busy hb
  | readOut k =>
    obtain ⟨v, rfl⟩ := hostReadOut_eq_next e
    exact h.withPorts s.inputs v
  | resetLine => exact next_inj e ▸ encoderOk_of_phase (p := .idle) rfl (by decide) rfl
  | letStep => exact coreStep_encoderOk hs h (outcome_eq_next.1 e)

theorem step_encoderOk {s t : State} (hs : Safe s) (h : EncoderOk s)
    (hw : ∀ sp bytes rest, s.inputs = .word sp bytes :: rest → sp = .cmd) (e : step s = .next t) : EncoderOk t := by
  cases hi : s.inputs with
  | nil => exact coreStep_encoderOk hs h (outcome_eq_next.1 ((step_of_no_input hi).symm.trans e))
  | cons a rest =>
    refine takeInput_encoderOk (hs.withHostPart s.inLen rest s.hostData) (h.withPorts rest s.hostData) (fun sp bytes ha => ?_)
      ((step_of_input hi).symm.trans e)
    exact hw sp bytes rest (ha ▸ hi)

/-- Settles O4: `Safe` operation by operation; `EncoderOk` row by row, each of which answers from it; the host's acts touch
neither while a command runs. -/
theorem everyStepKeepsSafeStates : Obligations.EveryStepKeepsSafeStates := by
  refine ⟨fun s t hs e => hs.step e, fun s t hs h hw e => step_encoderOk hs h hw e, fun s hs h hi => ?_⟩
  obtain ⟨t, ht, -⟩ := coreStep_ok (P := Config.POS_LEN) hs h
  exact ⟨t, by rw [step_of_no_input hi, ht]; rfl⟩

end Sys2Proof.Machine

/-! PROOFS. Every step keeps every address space canonical and in range (R28, R131), instruction by instruction and input by input. -/

namespace Sys2Proof.Machine

open Sys2Proof

/-! ### What writes no address space -/

theorem setRet_memory_wf {v : BitVec 16} {s : State} : Memory.wf (setRet v s) = Memory.wf s := memory_wf_congr rfl rfl rfl rfl rfl

theorem skipBits_memory_wf {n : Nat} {s : State} : Memory.wf (skipBits n s) = Memory.wf s := memory_wf_congr rfl rfl rfl rfl rfl

theorem withHostPart_memory_wf {s : State} (l : BitVec 64) (a : List Input) (v : BitVec 64) :
    Memory.wf { s with inLen := l, inputs := a, hostData := v } = Memory.wf s := memory_wf_congr rfl rfl rfl rfl rfl

/-! ### The instructions -/

theorem exec_lit_memory_wf {b : Byte} {s t : State} (w : Memory.wf s = true) (e : exec (.lit b) s = .next t) :
    Memory.wf t = true := by
  rw [exec_lit, outcome_eq_next, map_eq_ok] at e
  obtain ⟨u, hu, rfl⟩ := e
  exact takeLiteral_memory_wf (takeSymbolCode_memory_wf w hu)

theorem exec_matchTok_memory_wf {m : BitVec 6} {o : BitVec 12} {s t : State} (w : Memory.wf s = true)
    (e : exec (.matchTok m o) s = .next t) : Memory.wf t = true := by
  obtain ⟨u, hu, e⟩ := bind_eq_ok.1 (outcome_eq_next.1 e)
  exact copyAll_memory_wf (startCopy_memory_wf.trans (skipBits_memory_wf.trans (takeSymbolCode_memory_wf w hu))) e

/-- Every instruction keeps the canonical form, whatever its operands. -/
theorem exec_memory_wf {i : Instr} {s t : State} (w : Memory.wf s = true) (e : exec i s = .next t) : Memory.wf t = true := by
  obtain ⟨-, -, -, wmf, whuff⟩ := memory_wf_iff.1 w
  cases i
  case initTree => rw [exec_initTree] at e; exact next_inj e ▸ setMf_memory_wf w (initTree_wf wmf)
  case insertNode r =>
    obtain ⟨m, hm, rfl⟩ := execInsertNode_eq_next.1 e
    exact setMf_memory_wf w (insertNode_wf wmf hm)
  case deleteNode p =>
    rw [exec_deleteNode, outcome_eq_next, map_eq_ok] at e
    obtain ⟨m, hm, rfl⟩ := e
    exact setMf_memory_wf w (deleteNode_wf wmf hm)
  case startHuff => rw [exec_startHuff] at e; exact next_inj e ▸ setHuff_memory_wf w (startHuff_wf whuff)
  case update c =>
    rw [exec_update, outcome_eq_next, map_eq_ok] at e
    obtain ⟨h, hh, rfl⟩ := e
    exact setHuff_memory_wf w (update_wf whuff hh)
  case reconst => rw [exec_reconst] at e; exact next_inj e ▸ setHuff_memory_wf w (reconst_wf whuff)
  case encodeChar c => exact encodeChar_memory_wf w (outcome_eq_next.1 e)
  case decodeChar =>
    rw [exec_decodeChar, outcome_eq_next, map_eq_ok] at e
    obtain ⟨⟨c, u⟩, hu, rfl⟩ := e
    exact setRet_memory_wf.trans (decodeChar_memory_wf w hu)
  case encodePosition o => rw [exec_encodePosition] at e; exact next_inj e ▸ encodePosition_memory_wf w
  case decodePosition =>
    rw [exec_decodePosition] at e
    exact next_inj e ▸ setRet_memory_wf.trans (decodePosition_memory_wf.trans w)
  case putCode l v => exact next_inj e ▸ putCode_memory_wf w
  case flush => exact next_inj e ▸ flushBits_memory_wf w
  case getBit => exact next_inj e ▸ setRet_memory_wf.trans (getBit_memory_wf.trans w)
  case getByte => exact next_inj e ▸ setRet_memory_wf.trans (getBits_memory_wf.trans w)
  case compress | decompress => exact wholeCommand_memory_wf w (outcome_eq_next.1 e)
  case cmdCompress | cmdDecompress => exact next_inj e ▸ startCommand_memory_wf.trans w
  case cmdReserved0 | cmdReserved3 | pad => exact next_inj e ▸ w
  case hdr n => exact next_inj e ▸ takeHeader_memory_wf.trans (clearResults_memory_wf w)
  case lit b => exact exec_lit_memory_wf w e
  case matchTok m o => exact exec_matchTok_memory_wf w e
  case lookup | offset | symOfLen | lenOfSym => exact next_inj e ▸ setRet_memory_wf.trans w
  all_goals exact next_inj e ▸ takePosCode_memory_wf.trans w

/-! ### Every act from outside -/

/-- The host's write of a byte of `IN` is in range, whatever its address. -/
theorem withInBuf_memory_wf {s : State} (w : Memory.wf s = true) (k : BitVec 64) (b : Byte) :
    Memory.wf { s with inBuf := sparseSet bufferDefault s.inBuf k.toNat b } = true := by
  obtain ⟨win, wrest⟩ := memory_wf_iff.1 w
  exact memory_wf_iff.2 ⟨sparseWf_sparseSet win (Nat.zero_le _) k.isLt, wrest⟩

theorem resetInput_memory_wf (s : State) : Memory.wf (resetInput s) = true :=
  (memory_wf_congr rfl rfl rfl rfl rfl).trans reset_memory_wf

theorem takeInput_memory_wf {a : Input} {s t : State} (w : Memory.wf s = true) (e : takeInput a s = .next t) :
    Memory.wf t = true := by
  cases a with
  | word sp bytes =>
    obtain ⟨i, rest, -, he⟩ := runWord_eq_next e
    exact exec_memory_wf w he
  | readReg n =>
    obtain ⟨v, rfl⟩ := hostReadReg_eq_next e
    exact (withHostPart_memory_wf s.inLen s.inputs v).trans w
  | writeReg n v =>
    rcases hostWriteReg_eq_next e with he | ⟨-, rfl⟩
    · exact exec_memory_wf w he
    · exact (withHostPart_memory_wf v s.inputs s.hostData).trans w
  | writeIn k b =>
    obtain ⟨-, rfl⟩ := hostWriteIn_eq_next e
    exact withInBuf_memory_wf w k b
  | readOut k =>
    obtain ⟨v, rfl⟩ := hostReadOut_eq_next e
    exact (withHostPart_memory_wf s.inLen s.inputs v).trans w
  | resetLine => exact next_inj e ▸ resetInput_memory_wf s
  | letStep => exact coreStep_memory_wf w (outcome_eq_next.1 e)

/-- Settles O3: the core's rows write in range, and so does every instruction and every act of the host. -/
theorem everyStepKeepsMemoryCanonical : Obligations.EveryStepKeepsMemoryCanonical := by
  intro s t w e
  cases hi : s.inputs with
  | nil => exact coreStep_memory_wf w (outcome_eq_next.1 ((step_of_no_input hi).symm.trans e))
  | cons a rest =>
    have wrest := (withHostPart_memory_wf s.inLen rest s.hostData).trans w
    exact takeInput_memory_wf wrest ((step_of_input hi).symm.trans e)

end Sys2Proof.Machine

/-! PROOFS. One position of the advance and the last step of COMPRESS (R31, R109, R110, R146, R148): what each row answers, exactly. -/

namespace Sys2Proof.Machine

open Sys2Proof

/-! ### The rows taken apart -/

theorem inByte_eq_ok {s : State} {k : Nat} {c : Byte} : inByte s k = .ok c ↔ k < s.inLen.toNat ∧ c = inAt s k := by
  refine ⟨fun e => ?_, fun ⟨hk, hc⟩ => hc ▸ inByte_ok hk⟩
  unfold inByte at e
  split_ifs at e with hk
  exact ⟨hk, (Except.ok.inj e).symm⟩

/-- E_ADV_IN answers where there is a byte to take and both nodes' operations answer, the insertion over the written window. -/
theorem stepEAdvIn_eq_ok {s t : State} : stepEAdvIn s = .ok t ↔ ∃ m1 m2, s.enc.inPos.toNat < s.inLen.toNat
    ∧ deleteNode s.enc.s s.mf = .ok m1
    ∧ insertNode (winWrite s.enc.s.toNat (inAt s s.enc.inPos.toNat) s.textBuf) (s.r + 1) m1 = .ok m2
    ∧ t = setPhase (phaseAfterAdvIn (advancedIn m2 s)) (advancedIn m2 s) := by
  constructor
  · intro e
    obtain ⟨c, hc, hrest⟩ := bind_eq_ok.1 e
    obtain ⟨u, hu, hrest⟩ := bind_eq_ok.1 hrest
    obtain ⟨v, hv, -⟩ := bind_eq_ok.1 hrest
    obtain ⟨hin, rfl⟩ := inByte_eq_ok.1 hc
    obtain ⟨m1, h1, rfl⟩ := deleteAt_eq_ok.1 hu
    obtain ⟨m2, h2, -⟩ := insertAt_eq_ok.1 hv
    exact ⟨m1, m2, hin, h1, h2, Except.ok.inj (e.symm.trans (stepEAdvIn_of_nodes hin h1 h2))⟩
  · rintro ⟨m1, m2, hin, h1, h2, rfl⟩
    exact stepEAdvIn_of_nodes hin h1 h2

/-- E_ADV_DRAIN answers where the deletion does and, with lookahead left, the insertion. -/
theorem stepEAdvDrain_eq_ok {s t : State} : stepEAdvDrain s = .ok t ↔ ∃ m1 m2, deleteNode s.enc.s s.mf = .ok m1
    ∧ (if 0 < (s.enc.len - 1).toNat then insertNode s.textBuf (s.r + 1) m1 = .ok m2 else m2 = m1)
    ∧ t = setPhase (phaseAfterDrain (advancedDrain m2 s)) (advancedDrain m2 s) := by
  constructor
  · intro e
    obtain ⟨u, hu, hrest⟩ := bind_eq_ok.1 e
    obtain ⟨v, hv, -⟩ := bind_eq_ok.1 hrest
    obtain ⟨m1, h1, rfl⟩ := deleteAt_eq_ok.1 hu
    have h2 : ∃ m2, if 0 < (s.enc.len - 1).toNat then insertNode s.textBuf (s.r + 1) m1 = .ok m2 else m2 = m1 := by
      unfold insertWhileAny at hv
      split_ifs at hv with hlen
      · obtain ⟨m2, h2, -⟩ := insertAt_eq_ok.1 hv
        exact ⟨m2, (if_pos hlen).mpr h2⟩
      · exact ⟨m1, (if_neg hlen).mpr rfl⟩
    obtain ⟨m2, h2⟩ := h2
    exact ⟨m1, m2, h1, h2, Except.ok.inj (e.symm.trans (stepEAdvDrain_of_nodes h1 h2))⟩
  · rintro ⟨m1, m2, h1, h2, rfl⟩
    exact stepEAdvDrain_of_nodes h1 h2

/-! ### The same operations as instructions -/

theorem exec_deleteNode_of_node {p : BitVec 12} {s : State} {m : MatchFinder} (h : deleteNode p s.mf = .ok m) :
    exec (.deleteNode p) s = .next (setMf m s) := by
  rw [exec_deleteNode, h]
  rfl

theorem exec_insertNode_of_node {r : BitVec 12} {s : State} {m : MatchFinder} (h : insertNode s.textBuf r s.mf = .ok m) :
    exec (.insertNode r) s = .next (setMf m s) := execInsertNode_eq_next.2 ⟨m, h, rfl⟩

/-! ### The core's step in each phase -/

theorem step_eAdvIn {s t : State} (hi : s.inputs = []) (hp : s.phase = .eAdvIn) (e : step s = .next t) : stepEAdvIn s = .ok t := by
  rw [step_of_no_input hi, outcome_eq_next, coreStep, hp] at e
  exact e

theorem step_eAdvDrain {s t : State} (hi : s.inputs = []) (hp : s.phase = .eAdvDrain) (e : step s = .next t) :
    stepEAdvDrain s = .ok t := by
  rw [step_of_no_input hi, outcome_eq_next, coreStep, hp] at e
  exact e

theorem step_eFlush {s : State} (hi : s.inputs = []) (hp : s.phase = .eFlush) : step s = .next (stepEFlush s) := by
  rw [step_of_no_input hi, coreStep, hp]
  rfl

/-- Both rows of the advance move both cursors by one. -/
theorem advance_moves_cursors {s t : State} (hi : s.inputs = []) (hp : s.phase = .eAdvIn ∨ s.phase = .eAdvDrain)
    (e : step s = .next t) : t.enc.s = s.enc.s + 1 ∧ t.r = s.r + 1 := by
  rcases hp with hp | hp
  · obtain ⟨m1, m2, -, -, -, rfl⟩ := stepEAdvIn_eq_ok.1 (step_eAdvIn hi hp e)
    exact ⟨rfl, rfl⟩
  · obtain ⟨m1, m2, -, -, rfl⟩ := stepEAdvDrain_eq_ok.1 (step_eAdvDrain hi hp e)
    exact ⟨rfl, rfl⟩

/-- Settles O40: each row of the advance taken apart into its two operations on the match finder and the state it leaves. -/
theorem advanceMovesBothCursors : Obligations.AdvanceMovesBothCursors := by
  refine ⟨fun s t w hi e => ⟨fun hp => ?_, fun hp => ?_, fun hp hcursors => ?_⟩, fun s hi hp => ?_⟩
  · obtain ⟨m1, m2, -, h1, h2, rfl⟩ := stepEAdvIn_eq_ok.1 (step_eAdvIn hi hp e)
    obtain ⟨-, -, wtb, -, -⟩ := memory_wf_iff.1 w
    exact ⟨rfl, rfl, fun i _ => winAt_winWrite wtb s.enc.s.isLt i _,
      ⟨_, _, exec_deleteNode_of_node h1, exec_insertNode_of_node h2, rfl⟩, rfl⟩
  · obtain ⟨m1, m2, h1, h2, rfl⟩ := stepEAdvDrain_eq_ok.1 (step_eAdvDrain hi hp e)
    refine ⟨rfl, rfl, ⟨_, exec_deleteNode_of_node h1, fun hlen => ?_, fun hlen => ?_⟩, rfl⟩
    · have hzero : s.enc.len - 1 = 0 := hlen
      rw [if_neg (by rw [hzero]; decide)] at h2
      exact h2
    · have hpos : 0 < (s.enc.len - 1).toNat := Nat.pos_of_ne_zero fun h => hlen (BitVec.eq_of_toNat_eq h)
      rw [if_pos hpos] at h2
      exact ⟨_, exec_insertNode_of_node h2, rfl⟩
  · obtain ⟨hs, hr⟩ := advance_moves_cursors hi hp e
    rw [hs, hr, hcursors]
    bv_omega
  · exact ⟨flushBits s, rfl, step_eFlush hi hp⟩

end Sys2Proof.Machine

/-! PROOFS. The match finder's instructions whole (R56, R57, R59, R61): what INIT_TREE leaves, that no two positions in the tree have
one key, and what INSERT_NODE and DELETE_NODE leave unwritten. -/

namespace Sys2Proof.Machine

open Sys2Proof

/-! ### INIT_TREE (R56) -/

/-- A run of plain writes leaves every index outside its range alone. -/
theorem sparseGet_forUp_other {α : Type} [DecidableEq α] {d : Nat → α} {lo hi n i : Nat} {x : α} {t : List (Nat × α)}
    (w : sparseWf d lo hi t = true) (hlo : lo ≤ i) (hhi : i + n ≤ hi) {j : Nat} (hj : j < i ∨ i + n ≤ j) :
    sparseGet d (forUp (fun k t => sparseSet d t k x) n i t) j = sparseGet d t j := by
  have h := forUp_inv (P := fun u => sparseWf d lo hi u = true ∧ sparseGet d u j = sparseGet d t j)
    (f := fun k t => sparseSet d t k x) (n := n) (i := i)
    (fun k u hk hk' ⟨hw, hu⟩ => ⟨sparseWf_sparseSet hw (hlo.trans hk) (hk'.trans_le hhi), by
      rw [sparseGet_sparseSet_other hw (by omega), hu]⟩) ⟨w, rfl⟩
  exact h.2

theorem initTree_lson (m : MatchFinder) (i : Nat) : lsonOf (initTree m) i = lsonOf m i := by rw [lsonOf, initTree, lsonOf]

theorem initTree_matchPosition (m : MatchFinder) : (initTree m).matchPosition = m.matchPosition := by rw [initTree]

theorem initTree_rson {m : MatchFinder} (w : m.wf = true) {i : Nat} (hi : i ≤ 4096) : rsonOf (initTree m) i = rsonOf m i := by
  rw [rsonOf, initTree, rsonOf]
  dsimp only
  rw [sparseGet_forUp_other (MatchFinder.wf_iff.1 w).2.1 (Nat.zero_le _) (by decide) (.inl (by omega))]

theorem initTree_dad_nil {m : MatchFinder} (w : m.wf = true) : dadOf (initTree m) 4096 = dadOf m 4096 := by
  rw [dadOf, initTree, dadOf]
  dsimp only
  rw [sparseGet_forUp_other (MatchFinder.wf_iff.1 w).2.2 le_rfl (by decide) (.inr (by decide))]

/-- Settles O31: two runs of writes, each of which sets its range and no other entry. -/
theorem initTreeEmptiesEveryBucket : Obligations.InitTreeEmptiesEveryBucket := by
  refine ⟨rfl, fun s w => ⟨_, exec_initTree s, rfl, ?_⟩⟩
  obtain ⟨-, -, -, wmf, -⟩ := memory_wf_iff.1 w
  rw [setMf_mf]
  exact ⟨fun i h1 h2 => initTree_root wmf (isSentinel_iff.2 ⟨h1, h2⟩), fun i hi => initTree_dad wmf hi,
    fun i hi => ⟨initTree_lson s.mf i, initTree_rson wmf hi⟩, initTree_dad_nil wmf, initTree_matchLength s.mf,
    initTree_matchPosition s.mf⟩

/-- Settles O32: in the empty trees there is no position to speak of, and no sentinel has a child. -/
theorem emptyTreesAreSearchTrees : Obligations.EmptyTreesAreSearchTrees := by
  intro s t w hexec
  obtain ⟨-, -, -, wmf, -⟩ := memory_wf_iff.1 w
  rw [exec_initTree] at hexec
  rw [← next_inj hexec, setMf_mf]
  exact ⟨finderOk_iff.2 (initTree_dirOk wmf _), initTree_empty wmf⟩

/-! ### No two positions have one key (R61, I4) -/

/-- A key belongs on one side of another only. -/
theorem KeyOn.side_unique {tb : List Host.Cell} {a b : Int} {q p : Nat} (h : KeyOn tb a q p) (h' : KeyOn tb b q p) :
    0 ≤ a ↔ 0 ≤ b := by
  unfold KeyOn at h h'
  split_ifs at h h' with ha hb hb
  · exact iff_of_true ha hb
  · exact absurd h' h.asymm
  · exact absurd h h'.asymm
  · exact iff_of_false ha hb

namespace DirOk

variable {tb : List Host.Cell} {m : MatchFinder} {p q x : Nat}

/-- What is below a node is the node or below one of its children. -/
theorem below_cases (ok : DirOk tb m) (hq : InTree m q) (h : Below m x q) :
    q = x ∨ ∃ cmp, WalkNode m cmp x ∧ childOf m cmp x ≠ 4096 ∧ Below m (childOf m cmp x) q := by
  have hx : TreeNode m x := by
    obtain ⟨n, hn⟩ := h
    exact hn ▸ ok.ancestor_node (.inl hq) n
  rcases (finderOk_iff.2 ok).below_cases hq h with e | ha | ⟨hin, ha⟩
  · exact .inl e
  · exact .inr ⟨1, hx.imp_right fun hs => ⟨hs, by decide⟩, ha⟩
  · exact .inr ⟨-1, .inl hin, ha⟩

/-- Positions of one key go the same way at every node above them. -/
theorem below_of_dad_of_sameKey (ok : DirOk tb m) (hp : InTree m p) (hq : InTree m q) (hs : SameKey tb p q) (hx : InTree m x)
    (hxp : Below m x p) (h : Below m (dadOf m x) q) : Below m x q := by
  obtain ⟨a, hwa, hca⟩ := ok.hung x hx
  have hpa : InTree m (dadOf m x) → KeyOn tb a (dadOf m x) p := fun hd =>
    ok.order a _ p hd hp (by rw [hca]; exact Nat.ne_of_lt hx.1) (by rwa [hca])
  rcases ok.below_cases hq h with rfl | ⟨b, hwb, hcb, hb⟩
  · exact absurd hs.symm (hpa hq).not_same
  · have hside : 0 ≤ a ↔ 0 ≤ b := by
      by_cases hd : InTree m (dadOf m x)
      · exact (hpa hd).side_unique (keyOn_congr (fun i hi => (hs i hi).symm) (fun _ _ => rfl) (ok.order b _ q hd hq hcb hb))
      · exact iff_of_true (hwa.resolve_left hd).2 (hwb.resolve_left hd).2
    rwa [← childOf_congr_sign hside, hca] at hb

theorem below_of_sameKey (ok : DirOk tb m) (hp : InTree m p) (hq : InTree m q) (hs : SameKey tb p q) {n : Nat}
    (h : Below m (ancestor m n p) q) : Below m p q := by
  induction n with
  | zero => exact h
  | succ n ih =>
    apply ih
    rw [ancestor_add, ancestor, ancestor] at h
    split_ifs at h with hlt
    · exact ok.below_of_dad_of_sameKey hp hq hs ((ok.ancestor_node (.inl hp) n).inTree hlt) ⟨n, rfl⟩ h
    · exact h

/-- No two positions in the tree have equal keys. -/
theorem eq_of_sameKey (ok : DirOk tb m) (hp : InTree m p) (hq : InTree m q) (hs : SameKey tb p q) : p = q := by
  obtain ⟨n, hn⟩ := ok.bucket p hp
  have hbelow : Below m (ancestor m n p) q := by
    rw [hn, hs 0 (by decide)]
    exact ok.bucket q hq
  rcases ok.below_cases hq (ok.below_of_sameKey hp hq hs hbelow) with e | ⟨cmp, -, hc, hb⟩
  · exact e.symm
  · exact absurd hs (ok.order cmp p q hp hq hc hb).not_same

end DirOk

/-! ### What is in the tree after INSERT_NODE (R57) -/

section NodeInserted

variable {tb : List Host.Cell} {m m' : MatchFinder} {r p q : Nat}

theorem NodeInserted.inTree_self (h : NodeInserted tb m m' r p) (ok : DirOk tb m) : InTree m' r := by
  cases h with
  | leaf _ hg => exact hg.inTree_iff.2 (.inl rfl)
  | inPlace _ _ _ hg => exact (hg.inTree_iff ok).2 ⟨p, hg.old, renamed_self r p⟩

/-- A position of another key stays in the tree. -/
theorem NodeInserted.inTree_of_old (h : NodeInserted tb m m' r p) (ok : DirOk tb m) (hq : InTree m q) (hs : ¬ SameKey tb q r) :
    InTree m' q := by
  cases h with
  | leaf _ hg => exact hg.inTree_iff.2 (.inr hq)
  | inPlace _ hpr _ hg => exact (hg.inTree_iff ok).2 ⟨q, hq, renamed_ne fun e => hs (e ▸ hpr)⟩

theorem NodeInserted.inTree_iff (h : NodeInserted tb m m' r p) (ok : DirOk tb m) (hqr : q ≠ r) :
    InTree m' q ↔ InTree m q ∧ ¬ SameKey tb q r :=
  ⟨fun hq => ⟨(h.inTree ok hq).resolve_left hqr, fun hs => hqr ((h.dirOk ok).eq_of_sameKey hq (h.inTree_self ok) hs)⟩,
    fun hq => h.inTree_of_old ok hq.1 hq.2⟩

end NodeInserted

/-! ### The child links INSERT_NODE writes (R57) -/

section Links

variable {m m' : MatchFinder} {i : Nat} {v : Idx}

theorem setRson_eq_ok (w : m.wf = true) (h : setRson i v m = .ok m') : Writes m m' (putChild (childOf m) 1 i v.val) (dadOf m) := by
  have hi : i ≤ 4352 := by
    by_contra hi
    rw [setRson, if_neg hi] at h
    cases h
  obtain ⟨m1, h1, hw⟩ := setRson_writes w hi v
  exact Except.ok.inj (h1.symm.trans h) ▸ hw

theorem setLson_eq_ok (w : m.wf = true) (h : setLson i v m = .ok m') : Writes m m' (putChild (childOf m) (-1) i v.val) (dadOf m) := by
  have hi : i ≤ 4096 := by
    by_contra hi
    rw [setLson, if_neg hi] at h
    cases h
  obtain ⟨m1, h1, hw⟩ := setLson_writes w hi v
  exact Except.ok.inj (h1.symm.trans h) ▸ hw

theorem setDad_eq_ok (w : m.wf = true) (h : setDad i v m = .ok m') : Writes m m' (childOf m) (putDad (dadOf m) i v.val) := by
  have hi : i ≤ 4096 := by
    by_contra hi
    rw [setDad, if_neg hi] at h
    cases h
  obtain ⟨m1, h1, hw⟩ := setDad_writes w hi v
  exact Except.ok.inj (h1.symm.trans h) ▸ hw

theorem dadAt_eq_ok {c : Idx} (h : dadAt m i = .ok c) : c.val = dadOf m i := by
  unfold dadAt at h
  split_ifs at h
  cases h; rfl

theorem putChild_ne (f : Int → Nat → Nat) (side cmp : Int) {i x : Nat} (v : Nat) (hx : x ≠ i) :
    putChild f side i v cmp x = f cmp x := if_neg fun h => hx h.1

theorem hangInPlace_child {q p x : Idx} (w : m.wf = true) (h : hangInPlace q p x m = .ok m') {y : Nat} (hy : y ≠ q.val) (cmp : Int) :
    childOf m' cmp y = childOf m cmp y := by
  obtain ⟨c, -, h⟩ := bind_eq_ok.1 h
  split_ifs at h
  · rw [(setRson_eq_ok w h).child, putChild_ne _ _ _ _ hy]
  · rw [(setLson_eq_ok w h).child, putChild_ne _ _ _ _ hy]

/-- The tail of INSERT_NODE writes children of `r` and of `p`'s parent only, whatever the links: `dad[p]` can have become `r`
and nothing else. -/
theorem replaceNode_child {r p : Idx} (w : m.wf = true) (h : replaceNode r p m = .ok m') {x : Nat} (hr : x ≠ r.val)
    (hp : x ≠ dadOf m p.val) (cmp : Int) : childOf m' cmp x = childOf m cmp x := by
  obtain ⟨d, hd, h⟩ := bind_eq_ok.1 h
  obtain ⟨m1, h1, h⟩ := bind_eq_ok.1 h
  obtain ⟨l, -, h⟩ := bind_eq_ok.1 h
  obtain ⟨m2, h2, h⟩ := bind_eq_ok.1 h
  obtain ⟨s, -, h⟩ := bind_eq_ok.1 h
  obtain ⟨m3, h3, h⟩ := bind_eq_ok.1 h
  obtain ⟨l', -, h⟩ := bind_eq_ok.1 h
  obtain ⟨m4, h4, h⟩ := bind_eq_ok.1 h
  obtain ⟨s', -, h⟩ := bind_eq_ok.1 h
  obtain ⟨m5, h5, h⟩ := bind_eq_ok.1 h
  obtain ⟨d', hd', h⟩ := bind_eq_ok.1 h
  obtain ⟨m6, h6, h7⟩ := bind_eq_ok.1 h
  have w1 := setDad_eq_ok w h1
  have w2 := setLson_eq_ok w1.wf h2
  have w3 := setRson_eq_ok w2.wf h3
  have w4 := setDad_eq_ok w3.wf h4
  have w5 := setDad_eq_ok w4.wf h5
  have w7 := setDad_eq_ok (hangInPlace_wf w5.wf h6) h7
  have hparent : d'.val = r.val ∨ d'.val = dadOf m p.val := by
    rw [dadAt_eq_ok hd', w5.dad, w4.dad, w3.dad, w2.dad, w1.dad, dadAt_eq_ok hd]
    unfold putDad
    split_ifs
    · exact .inl rfl
    · exact .inl rfl
    · exact .inr rfl
    · exact .inr rfl
  have hx : x ≠ d'.val := hparent.elim (fun e => e.symm ▸ hr) fun e => e.symm ▸ hp
  rw [w7.child, hangInPlace_child w5.wf h6 hx, w5.child, w4.child, w3.child, putChild_ne _ _ _ _ hr, w2.child,
    putChild_ne _ _ _ _ hr, w1.child]

/-- The node from which INSERT_NODE hangs the inserted position: the one with the empty slot, or the parent of the one replaced. -/
def siteParent (m : MatchFinder) : InsertSite → Nat
  | .rightOf p | .leftOf p => p.val
  | .replaces p => dadOf m p.val

theorem siteParent_congr {site : InsertSite} (hd : dadOf m' = dadOf m) : siteParent m' site = siteParent m site := by
  unfold siteParent
  rw [hd]

theorem linkAt_child {r : Idx} {site : InsertSite} (w : m.wf = true) (h : linkAt r site m = .ok m') {x : Nat} (hr : x ≠ r.val)
    (hp : x ≠ siteParent m site) (cmp : Int) : childOf m' cmp x = childOf m cmp x := by
  cases site with
  | rightOf p =>
    obtain ⟨m1, h1, h⟩ := bind_eq_ok.1 h
    have w1 := setRson_eq_ok w h1
    rw [(setDad_eq_ok w1.wf h).child, w1.child]
    exact putChild_ne _ _ _ _ hp
  | leftOf p =>
    obtain ⟨m1, h1, h⟩ := bind_eq_ok.1 h
    have w1 := setLson_eq_ok w h1
    rw [(setDad_eq_ok w1.wf h).child, w1.child]
    exact putChild_ne _ _ _ _ hp
  | replaces p => exact replaceNode_child w h hr hp cmp

/-- The walk ends in the tree. -/
theorem insertWalk_siteParent {tb : List Host.Cell} {m0 : MatchFinder} {r : BitVec 12} {fuel : Nat} {cmp : Int} {p : Idx}
    {site : InsertSite} (ok : DirOk tb m0) (hp : WalkNode m0 cmp p.val) (hl : SameLinks m0 m)
    (h : insertWalk tb r fuel cmp p m = .ok (site, m')) : TreeNode m0 (siteParent m0 site) := by
  induction fuel generalizing cmp p m with
  | zero => cases h
  | succ fuel ih =>
    obtain ⟨child, hchild, hcase⟩ := insertWalk_cases h
    have hval := hl.childAt_eq_ok hp hchild
    rcases hcase with ⟨-, rfl, -⟩ | ⟨hnil, cmp', i, o, -, -, hcase⟩
    · split_ifs <;> exact hp.isNode
    · have hin : InTree m0 child.val := hval ▸ ok.child_inTree hp fun e => hnil (Fin.ext (hval.trans e))
      rcases hcase with ⟨-, rfl, -⟩ | h
      · exact ok.dad_node hin
      · exact ih (.inl hin) (hl.after_noteCandidate o i) h

theorem lookupIdx_sentinel (b : Byte) : IsSentinel (lookupIdx b).val := by
  have hb := b.isLt
  rw [isSentinel_iff, show (lookupIdx b).val = 4097 + b.toNat from Nat.mod_eq_of_lt (by omega)]
  omega

/-- INSERT_NODE leaves the children of every other position outside the tree. -/
theorem insertNode_child {tb : List Host.Cell} {r : BitVec 12} (w : m.wf = true) (ok : DirOk tb m) (hr : ¬ InTree m r.toNat)
    (h : insertNode tb r m = .ok m') {x : Nat} (hx : x < 4096) (hxr : x ≠ r.toNat) (hin : ¬ InTree m x) (cmp : Int) :
    childOf m' cmp x = childOf m cmp x := by
  obtain ⟨b, -, h⟩ := bind_eq_ok.1 h
  obtain ⟨m1, h1, h⟩ := bind_eq_ok.1 h
  obtain ⟨⟨site, m2⟩, h2, h3⟩ := bind_eq_ok.1 h
  obtain ⟨m1', h1', hcl, -, -⟩ := clearNode_ok (r := r) w
  obtain rfl : m1' = m1 := Except.ok.inj (h1'.symm.trans h1)
  have hcl2 := hcl.of_frame (insertWalk_frame h2)
  have hsite : TreeNode m (siteParent m site) :=
    insertWalk_siteParent ok (.inr ⟨lookupIdx_sentinel b, by decide⟩) (hcl.sameLinks r.isLt hr) h2
  have hne : x ≠ siteParent m2 site := by
    rw [siteParent_congr hcl2.dad]
    rintro rfl
    exact hin (hsite.inTree hx)
  rw [linkAt_child hcl2.wf h3 ((posIdx_val r).symm ▸ hxr) hne, hcl2.child cmp x hxr]

end Links

/-- Settles O33: the position is a new leaf or takes the place of its key, and the walk ends in the tree, so no child link of another
position outside is written. -/
theorem insertNodeKeepsTheSearchTrees : Obligations.InsertNodeKeepsTheSearchTrees := by
  intro s r w ok hr
  obtain ⟨-, -, -, wmf, -⟩ := memory_wf_iff.1 w
  rw [finderOk_iff] at ok
  obtain ⟨m', p, hm, hins, -⟩ := insertNode_ok wmf ok hr
  refine ⟨_, exec_insertNode_of_node hm, rfl, finderOk_iff.2 (hins.dirOk ok), hins.inTree_self ok, fun q hq => hins.inTree_iff ok hq,
    fun q hq hqr hin => ?_⟩
  have hchild := insertNode_child wmf ok hr hm hq hqr hin
  rw [← childOf_left, ← childOf_left, ← childOf_right, ← childOf_right]
  exact ⟨hchild (-1), hchild 1⟩

/-! ### What DELETE_NODE leaves unwritten (R59) -/

/-- From `m` to `m'` links are written and nothing else: the match result stays. -/
def LinksOnly (m m' : MatchFinder) : Prop := m' = { m with lson := m'.lson, rson := m'.rson, dad := m'.dad }

section LinksOnly

variable {m m' m'' : MatchFinder} {i : Nat} {v : Idx}

theorem linksOnly_iff : LinksOnly m m' ↔ m'.matchLength = m.matchLength ∧ m'.matchPosition = m.matchPosition := by
  obtain ⟨lson, rson, dad, length, position⟩ := m'
  simp [LinksOnly]

theorem LinksOnly.refl (m : MatchFinder) : LinksOnly m m := rfl

theorem LinksOnly.trans (h : LinksOnly m m') (h' : LinksOnly m' m'') : LinksOnly m m'' := by
  rw [linksOnly_iff] at *
  exact ⟨h'.1.trans h.1, h'.2.trans h.2⟩

theorem setLson_linksOnly (h : setLson i v m = .ok m') : LinksOnly m m' := by
  unfold setLson at h
  split_ifs at h
  cases h; rfl

theorem setRson_linksOnly (h : setRson i v m = .ok m') : LinksOnly m m' := by
  unfold setRson at h
  split_ifs at h
  cases h; rfl

theorem setDad_linksOnly (h : setDad i v m = .ok m') : LinksOnly m m' := by
  unfold setDad at h
  split_ifs at h
  cases h; rfl

theorem hangInPlace_linksOnly {q p x : Idx} (h : hangInPlace q p x m = .ok m') : LinksOnly m m' := by
  obtain ⟨c, -, h⟩ := bind_eq_ok.1 h
  split_ifs at h
  · exact setRson_linksOnly h
  · exact setLson_linksOnly h

theorem detachPredecessor_linksOnly {p q0 q : Idx} (h : detachPredecessor p q0 m = .ok (q, m')) : LinksOnly m m' := by
  obtain ⟨c, -, h⟩ := bind_eq_ok.1 h
  split_ifs at h
  · cases h; rfl
  · obtain ⟨q1, -, h⟩ := bind_eq_ok.1 h
    obtain ⟨d, -, h⟩ := bind_eq_ok.1 h
    obtain ⟨l, -, h⟩ := bind_eq_ok.1 h
    obtain ⟨m1, h1, h⟩ := bind_eq_ok.1 h
    obtain ⟨l', -, h⟩ := bind_eq_ok.1 h
    obtain ⟨d', -, h⟩ := bind_eq_ok.1 h
    obtain ⟨m2, h2, h⟩ := bind_eq_ok.1 h
    obtain ⟨k, -, h⟩ := bind_eq_ok.1 h
    obtain ⟨m3, h3, h⟩ := bind_eq_ok.1 h
    obtain ⟨k', -, h⟩ := bind_eq_ok.1 h
    obtain ⟨m4, h4, h⟩ := bind_eq_ok.1 h
    cases h
    exact (setRson_linksOnly h1).trans ((setDad_linksOnly h2).trans ((setLson_linksOnly h3).trans (setDad_linksOnly h4)))

theorem hangPredecessor_linksOnly {p q : Idx} (h : hangPredecessor p m = .ok (q, m')) : LinksOnly m m' := by
  obtain ⟨q0, -, h⟩ := bind_eq_ok.1 h
  obtain ⟨⟨q1, m1⟩, h1, h⟩ := bind_eq_ok.1 h
  obtain ⟨s, -, h⟩ := bind_eq_ok.1 h
  obtain ⟨m2, h2, h⟩ := bind_eq_ok.1 h
  obtain ⟨s', -, h⟩ := bind_eq_ok.1 h
  obtain ⟨m3, h3, h⟩ := bind_eq_ok.1 h
  cases h
  exact (detachPredecessor_linksOnly h1).trans ((setRson_linksOnly h2).trans (setDad_linksOnly h3))

theorem replacement_linksOnly {p q : Idx} (h : replacement p m = .ok (q, m')) : LinksOnly m m' := by
  obtain ⟨l, -, h⟩ := bind_eq_ok.1 h
  obtain ⟨s, -, h⟩ := bind_eq_ok.1 h
  split_ifs at h
  · cases h; rfl
  · cases h; rfl
  · exact hangPredecessor_linksOnly h

theorem spliceOut_linksOnly {p q : Idx} (h : spliceOut p q m = .ok m') : LinksOnly m m' := by
  obtain ⟨d, -, h⟩ := bind_eq_ok.1 h
  obtain ⟨m1, h1, h⟩ := bind_eq_ok.1 h
  obtain ⟨d', -, h⟩ := bind_eq_ok.1 h
  obtain ⟨m2, h2, h3⟩ := bind_eq_ok.1 h
  exact (setDad_linksOnly h1).trans ((hangInPlace_linksOnly h2).trans (setDad_linksOnly h3))

theorem deleteNode_linksOnly {p : BitVec 12} (h : deleteNode p m = .ok m') : LinksOnly m m' := by
  obtain ⟨d, -, h⟩ := bind_eq_ok.1 h
  split_ifs at h
  · cases h; rfl
  · obtain ⟨⟨q, m1⟩, h1, h2⟩ := bind_eq_ok.1 h
    exact (replacement_linksOnly h1).trans (spliceOut_linksOnly h2)

end LinksOnly

/-- DELETE_NODE of a position that is not in the tree writes nothing. -/
theorem deleteNode_of_not_inTree {m : MatchFinder} {p : BitVec 12} (hp : ¬ InTree m p.toNat) : deleteNode p m = .ok m := by
  have hdad : dadOf m p.toNat = 4096 := by
    by_contra hne
    exact hp (inTree_iff.2 ⟨p.isLt, hne⟩)
  obtain ⟨d, hd, hdv⟩ := dadAt_ok m p.isLt.le
  rw [deleteNode, hd, bind_ok, if_pos (Fin.ext (hdv.trans hdad))]

/-- Settles O36: the search trees without the position, by links alone; a position that is not in the tree is left at once. -/
theorem deleteNodeRemovesExactlyItsPosition : Obligations.DeleteNodeRemovesExactlyItsPosition := by
  refine ⟨fun s p w ok => ?_, fun s p hp => exec_deleteNode_of_node (deleteNode_of_not_inTree hp)⟩
  obtain ⟨-, -, -, wmf, -⟩ := memory_wf_iff.1 w
  obtain ⟨m', hm, hok, hin⟩ := deleteNode_ok (p := p) wmf (finderOk_iff.1 ok)
  have hframe : setMf m' s = { s with mf := { s.mf with lson := m'.lson, rson := m'.rson, dad := m'.dad } } :=
    congrArg (setMf · s) (deleteNode_linksOnly hm)
  exact ⟨_, exec_deleteNode_of_node hm, hframe, finderOk_iff.2 hok, hin⟩

end Sys2Proof.Machine

/-! PROOFS. UPDATE whole (R69, D13): below the node a climb stands at nothing moves, so the first exchange of a climb is the only one
that the leaf it began at sees. -/

namespace Sys2Proof.Machine

open Sys2Proof

section Update

variable {h g t : Huffman} {c l i : Nat}

theorem OneLevel.son_below (hg : OneLevel h g c l) (hi : i < c) : sonAt g i = sonAt h i := by
  obtain ⟨hcl, hl⟩ : c ≤ l ∧ l ≤ 626 := hg.partner.range
  rw [hg.son i (show i < 627 by omega), if_neg (by omega), if_neg (by omega)]

/-- From a level below the root the climb goes on further up. -/
theorem OneLevel.lt_up (hg : OneLevel h g c l) (hc : Climbing h c) (hup : prntNat g l ≠ 0) : l < prntNat g l := by
  have hlinks := hg.linksOk hc
  have hl : l ≤ 626 := hg.partner.range.2
  have hne : l ≠ 626 := fun e => hup (e ▸ hlinks.rootMark)
  exact hlinks.lt_prnt (by omega)

/-- A climb leaves what hangs under the nodes below its start. -/
theorem Climbs.son_below (ht : Climbs c h t) (hc : Climbing h c) (hi : i < c) : sonAt t i = sonAt h i := by
  induction ht with
  | root hg _ => exact hg.son_below hi
  | level hg hup _ ih =>
    have hcl := hg.partner.range.1
    have habove := hg.lt_up hc hup
    have hi' := hi.trans_le (hcl.trans habove.le)
    exact (ih (hg.climbing hc) hi').trans (hg.son_below hi)

theorem OneLevel.son_partner (hg : OneLevel h g c l) : sonAt g l = sonAt h c := by
  rw [hg.son l (Nat.lt_succ_of_le hg.partner.range.2), if_pos (rfl : l = l)]
  split_ifs with hlc
  · rw [hlc]
  · rfl

theorem OneLevel.son_node (hg : OneLevel h g c l) : sonAt g c = sonAt h l := by
  rw [hg.son c (Nat.lt_succ_of_le (hg.partner.range.1.trans hg.partner.range.2)), if_pos rfl]

/-- What hung under the node a climb began at and what hung under its partner have changed places in the end. -/
theorem Climbs.exchanges_first (ht : Climbs c h t) (hc : Climbing h c) :
    ∃ l, LastEqual h c l ∧ sonAt t l = sonAt h c ∧ sonAt t c = sonAt h l := by
  cases ht with
  | @root _ l _ _ hg _ => exact ⟨l, hg.partner, hg.son_partner, hg.son_node⟩
  | @level _ l _ g _ hg hup ht' =>
    have hc' := hg.climbing hc
    have habove := hg.lt_up hc hup
    refine ⟨l, hg.partner, ?_, ?_⟩
    · exact (ht'.son_below hc' habove).trans hg.son_partner
    · exact (ht'.son_below hc' (hg.partner.range.1.trans_lt habove)).trans hg.son_node

/-- Two symbols have two leaves. -/
theorem LinksOk.leaf_injective (hl : LinksOk h) {d : Nat} (hc : c < 314) (hd : d < 314)
    (e : prntNat h (c + 627) = prntNat h (d + 627)) : c = d := by
  have hcd := hl.leaf hc
  rw [e, hl.leaf hd] at hcd
  omega

end Update

theorem exec_update_of_tree {c : BitVec 9} {s : State} {g : Huffman} (h : update c.toNat s.huff = .ok g) :
    exec (.update c) s = .next (setHuff g s) := by
  rw [exec_update, h, map_ok, outcome_ok]

/-- Settles O26: the climb counts its leaf and the root, and its first exchange is the last that the leaf sees. -/
theorem updateCountsOneSymbol : Obligations.UpdateCountsOneSymbol := by
  unfold Obligations.UpdateCountsOneSymbol
  intro s c w ok hc
  obtain ⟨-, -, -, -, wh⟩ := memory_wf_iff.1 w
  obtain ⟨g, hg, okg, -, hclimbs⟩ := update_ok ok wh hc
  obtain ⟨ok', -, -⟩ := renormalised_spec ok wh
  have hleaf := ok'.linksOk.leaf hc
  have hstart : Climbing (renormalised s.huff) (prntNat (renormalised s.huff) (c.toNat + 627)) := ok'.climbing (by omega)
  obtain ⟨-, hroot, hfreq⟩ := hclimbs.result hstart
  obtain ⟨l, hpartner, hsonl, hsonc⟩ := hclimbs.exchanges_first hstart
  have hmoved : sonNat g l = c.toNat + 627 := (congrArg Fin.val hsonl).trans hleaf
  refine ⟨setHuff g s, exec_update_of_tree hg, rfl, okg, ?_, fun d hd hne => ?_, hroot, hclimbs, l, hpartner, ?_, hsonc⟩
  · exact (hfreq c.toNat hc).trans (congrArg _ (if_pos rfl))
  · exact (hfreq d hd).trans (congrArg _ (if_neg fun e => hne (ok'.linksOk.leaf_injective hd hc e)))
  · exact okg.linksOk.parent l _ (Nat.lt_succ_of_le hpartner.range.2) (.inl hmoved.symm)

end Sys2Proof.Machine

/-! PROOFS. The symbol codes (R73, R79): a code is the path to its symbol's leaf, which ENCODE_CHAR climbs and the walk from the root
descends; the frequencies above a leaf grow as the Fibonacci numbers do. -/

namespace Sys2Proof.Machine

open Sys2Proof

section Paths

variable {h : Huffman} {i k c d : Nat} {p q bits more : List Bool}

/-! ### Paths from the root (R71, R72) -/

/-- `bits` lead from the root to node `k`: 1 to the odd child of a node, 0 to the even one. -/
inductive LeadsTo (h : Huffman) : Nat → List Bool → Prop where
  | root : LeadsTo h 626 []
  | down {k : Nat} {bits : List Bool} :
      k < 626 → LeadsTo h (prntNat h k) bits → LeadsTo h k (bits ++ [decide (k % 2 = 1)])

/-- The child of an internal node that a bit names. -/
theorem LinksOk.child_of_bit (hl : LinksOk h) (hi : i < 627) (hs : sonNat h i < 627) (b : Bool) :
    sonNat h i + b.toNat < 626 ∧ prntNat h (sonNat h i + b.toNat) = i ∧ decide ((sonNat h i + b.toNat) % 2 = 1) = b := by
  obtain ⟨heven, hlt⟩ := hl.shape i hi hs
  cases b with
  | false =>
    exact ⟨show sonNat h i + 0 < 626 by omega, hl.parent i _ hi (.inl rfl), decide_eq_false (show ¬ (sonNat h i + 0) % 2 = 1 by omega)⟩
  | true =>
    exact ⟨show sonNat h i + 1 < 626 by omega, hl.parent i _ hi (.inr ⟨hs, rfl⟩), decide_eq_true (show (sonNat h i + 1) % 2 = 1 by omega)⟩

/-- The bit of a node names it among its parent's children. -/
theorem LinksOk.son_add_bit (hl : LinksOk h) (hk : k < 626) :
    sonNat h (prntNat h k) + (decide (k % 2 = 1)).toNat = k := by
  obtain ⟨heven, -⟩ := hl.shape _ (prntNat_lt h k) (hl.prnt_internal hk)
  have hhang := hangsFrom_iff.1 (hl.child k (by omega) (by omega))
  by_cases hodd : k % 2 = 1 <;> simp only [hodd, decide_true, decide_false, Bool.toNat_true, Bool.toNat_false] <;> omega

theorem LeadsTo.step (hp : LeadsTo h i p) (hl : LinksOk h) (hi : i < 627) (hs : sonNat h i < 627) (b : Bool) :
    LeadsTo h (sonNat h i + b.toNat) (p ++ [b]) := by
  obtain ⟨hlt, hup, hbit⟩ := hl.child_of_bit hi hs b
  have := LeadsTo.down hlt (hup.symm ▸ hp)
  rwa [hbit] at this

/-- Every node has a path. -/
theorem LinksOk.exists_leadsTo (hl : LinksOk h) (hk : k ≤ 626) : ∃ bits, LeadsTo h k bits := by
  induction hn : 626 - k using Nat.strong_induction_on generalizing k with
  | _ n ih =>
    rcases hk.lt_or_eq with hlt | rfl
    · have := hl.lt_prnt hlt
      have := prntNat_lt h k
      obtain ⟨bits, hbits⟩ := ih (626 - prntNat h k) (by omega) (show prntNat h k ≤ 626 by omega) rfl
      exact ⟨_, .down hlt hbits⟩
    · exact ⟨[], .root⟩

/-- A node has one path. -/
theorem LeadsTo.unique (hp : LeadsTo h k p) (hq : LeadsTo h k q) : p = q := by
  induction hp generalizing q with
  | root =>
    cases hq with
    | root => rfl
    | down hlt _ => exact absurd hlt (lt_irrefl _)
  | down hlt _ ih =>
    cases hq with
    | root => exact absurd hlt (lt_irrefl _)
    | down _ hq => rw [ih hq]

/-! ### Codes are paths to leaves (R73) -/

theorem follow_nil_of_leaf (hs : sonNat h i = c + 627) : follow h i [] = some c := by
  have : sonNat h i - 627 = c := by omega
  rw [← this]
  exact if_pos (show 627 ≤ sonNat h i by omega)

theorem follow_nil_eq_some (e : follow h i [] = some c) : sonNat h i = c + 627 := by
  rw [follow] at e
  split_ifs at e with hs
  have hs' : 627 ≤ sonNat h i := hs
  have : sonNat h i - 627 = c := Option.some.inj e
  omega

theorem follow_cons_of_internal (hs : sonNat h i < 627) (b : Bool) :
    follow h i (b :: bits) = follow h (sonNat h i + b.toNat) bits := if_pos hs

theorem follow_cons_of_leaf (hs : 627 ≤ sonNat h i) (b : Bool) : follow h i (b :: bits) = none :=
  if_neg (show ¬ sonNat h i < 627 by omega)

/-- A walk from the root goes on from the node its first bits lead to. -/
theorem LeadsTo.follow_append (hp : LeadsTo h k p) (hl : LinksOk h) : follow h 626 (p ++ more) = follow h k more := by
  induction hp generalizing more with
  | root => rfl
  | @down k bits hlt _ ih =>
    rw [List.append_assoc, ih, List.singleton_append, follow_cons_of_internal (hl.prnt_internal hlt), hl.son_add_bit hlt]

/-- A walk that ends with a symbol ends at the symbol's leaf. -/
theorem LeadsTo.of_follow (hp : LeadsTo h i p) (hl : LinksOk h) (hi : i < 627) (e : follow h i bits = some c) :
    c < 314 ∧ LeadsTo h (prntNat h (c + 627)) (p ++ bits) := by
  induction bits generalizing i p with
  | nil =>
    have hs := follow_nil_eq_some e
    have := sonNat_lt h i
    rw [List.append_nil, hl.parent i (c + 627) hi (.inl hs.symm)]
    exact ⟨by omega, hp⟩
  | cons b bits ih =>
    rcases Nat.lt_or_ge (sonNat h i) 627 with hs | hs
    · rw [follow_cons_of_internal hs] at e
      obtain ⟨hlt, -⟩ := hl.child_of_bit hi hs b
      have := ih (hp.step hl hi hs b) (by omega) e
      rwa [List.append_assoc, List.singleton_append] at this
    · rw [follow_cons_of_leaf hs] at e
      cases e

/-- The code of a symbol is the path to its leaf. -/
theorem LinksOk.isCode_iff (hl : LinksOk h) : IsCode h c bits ↔ c < 314 ∧ LeadsTo h (prntNat h (c + 627)) bits := by
  constructor
  · exact fun e => LeadsTo.root.of_follow hl (by omega) e
  · rintro ⟨hc, hp⟩
    have := hp.follow_append (more := []) hl
    rw [List.append_nil, follow_nil_of_leaf (hl.leaf hc)] at this
    exact this

/-- No code goes on to another. -/
theorem LinksOk.isCode_prefix_free (hl : LinksOk h) (hc : IsCode h c bits) (hd : IsCode h d (bits ++ more)) : more = [] ∧ d = c := by
  obtain ⟨hlt, hp⟩ := hl.isCode_iff.1 hc
  have hleaf := hl.leaf hlt
  have hd : follow h (prntNat h (c + 627)) more = some d := (hp.follow_append hl).symm.trans hd
  cases more with
  | nil =>
    rw [follow_nil_of_leaf hleaf] at hd
    exact ⟨rfl, (Option.some.inj hd).symm⟩
  | cons b more =>
    rw [follow_cons_of_leaf (by omega)] at hd
    cases hd

/-- A bit string that leads to a node goes on to a symbol. -/
theorem LeadsTo.exists_code {f : Nat → Bool} {n : Nat} (hp : LeadsTo h i ((List.range n).map f)) (hl : LinksOk h) (hi : i < 627) :
    ∃ n c, c < 314 ∧ IsCode h c ((List.range n).map f) := by
  induction i using Nat.strong_induction_on generalizing n with
  | _ i ih =>
    rcases Nat.lt_or_ge (sonNat h i) 627 with hs | hs
    · have hnext := hp.step hl hi hs (f n)
      obtain ⟨-, hlt⟩ := hl.shape i hi hs
      have hb := Bool.toNat_le (f n)
      rw [← List.map_singleton, ← List.map_append, ← List.range_succ] at hnext
      exact ih _ (by omega) hnext (by omega)
    · have hlt := sonNat_lt h i
      have hc : sonNat h i - 627 + 627 = sonNat h i := Nat.sub_add_cancel hs
      have hup : prntNat h (sonNat h i - 627 + 627) = i := hl.parent i _ hi (.inl hc)
      exact ⟨n, sonNat h i - 627, by omega, hl.isCode_iff.2 ⟨by omega, by rwa [hup]⟩⟩

/-- An infinite bit string begins with one code only. -/
theorem LinksOk.isCode_unique (hl : LinksOk h) {f : Nat → Bool} {m n : Nat} (hc : IsCode h c ((List.range n).map f))
    (hd : IsCode h d ((List.range m).map f)) : m = n ∧ d = c := by
  have hle : ∀ {a b x y}, a ≤ b → IsCode h x ((List.range a).map f) → IsCode h y ((List.range b).map f) → b = a ∧ y = x := by
    intro a b x y hab hx hy
    obtain ⟨j, rfl⟩ := Nat.exists_eq_add_of_le hab
    rw [List.range_add, List.map_append] at hy
    obtain ⟨hnil, hyx⟩ := hl.isCode_prefix_free hx hy
    have : j = 0 := by simpa using congrArg List.length hnil
    exact ⟨by omega, hyx⟩
  rcases Nat.le_total n m with hnm | hmn
  · exact hle hnm hc hd
  · obtain ⟨h1, h2⟩ := hle hmn hd hc
    exact ⟨h1.symm, h2.symm⟩

/-! ### The length of a code (R79) -/

/-- A parent is the sum of its child and a sibling next to it. -/
theorem HuffOk.exists_sibling (ok : HuffOk h) (hk : k < 626) :
    ∃ j, k ≤ j + 1 ∧ j < 626 ∧ freqNat h (prntNat h k) = freqNat h k + freqNat h j := by
  have hl := ok.linksOk
  have hs := hl.prnt_internal hk
  have hup := prntNat_lt h k
  obtain ⟨-, hlt⟩ := hl.shape _ hup hs
  have hsum : freqNat h (prntNat h k) = freqNat h (sonNat h (prntNat h k)) + freqNat h (sonNat h (prntNat h k) + 1) :=
    ok.sum _ hup hs
  rcases hangsFrom_iff.1 (hl.child k (by omega) (by omega)) with e | ⟨-, e⟩
  · refine ⟨k + 1, by omega, by omega, ?_⟩
    rw [hsum, ← e]
  · refine ⟨sonNat h (prntNat h k), by omega, by omega, ?_⟩
    rw [hsum, ← e, Nat.add_comm]

/-- A child is no more frequent than its parent's sibling. -/
theorem HuffOk.freq_add_child_le (ok : HuffOk h) (hk : k < 626) (hup : prntNat h k < 626) :
    freqNat h (prntNat h k) + freqNat h k ≤ freqNat h (prntNat h (prntNat h k)) := by
  obtain ⟨j, hj, hj', hsum⟩ := ok.exists_sibling hup
  have hlt := ok.linksOk.lt_prnt hk
  have := ok.monotone (show k ≤ j by omega) (by omega)
  omega

/-- With `y` a bound below the sibling of node `k`, the root is at least so many times `k` and `y` as the Fibonacci numbers of the
depth of `k` say. -/
theorem LeadsTo.fib_le {y : Nat} (hp : LeadsTo h k p) (ok : HuffOk h) (hy : k < 626 → freqNat h k + y ≤ freqNat h (prntNat h k)) :
    Nat.fib (p.length + 1) * freqNat h k + Nat.fib p.length * y ≤ freqNat h 626 := by
  induction hp generalizing y with
  | root => simp
  | @down k bits hlt _ ih =>
    have hup := ih (y := freqNat h k) (ok.freq_add_child_le hlt)
    have hfib : Nat.fib (bits.length + 2) = Nat.fib bits.length + Nat.fib (bits.length + 1) := Nat.fib_add_two
    calc Nat.fib ((bits ++ [decide (k % 2 = 1)]).length + 1) * freqNat h k
          + Nat.fib (bits ++ [decide (k % 2 = 1)]).length * y
        = Nat.fib (bits.length + 1) * (freqNat h k + y) + Nat.fib bits.length * freqNat h k := by
          rw [List.length_append, List.length_singleton, hfib]; ring
      _ ≤ Nat.fib (bits.length + 1) * freqNat h (prntNat h k) + Nat.fib bits.length * freqNat h k :=
          Nat.add_le_add_right (Nat.mul_le_mul_left _ (hy hlt)) _
      _ ≤ freqNat h 626 := hup

/-- A node of a tree that meets R67 is at most 21 levels below the root. -/
theorem LeadsTo.length_le (hp : LeadsTo h k p) (ok : HuffOk h) (hk : k < 626) : p.length ≤ 21 := by
  obtain ⟨j, -, hj, hsum⟩ := ok.exists_sibling hk
  have hpos := ok.freq_pos (i := j) (by omega)
  have hfib := hp.fib_le ok (y := 1) fun _ => by omega
  have hroot : freqNat h 626 ≤ 32768 := ok.rootMax
  have hone := Nat.mul_le_mul_left (Nat.fib (p.length + 1)) (ok.freq_pos (i := k) (by omega))
  have hsucc : Nat.fib (p.length + 2) = Nat.fib p.length + Nat.fib (p.length + 1) := Nat.fib_add_two
  by_contra hlong
  have hmono : Nat.fib 24 ≤ Nat.fib (p.length + 2) := Nat.fib_mono (by omega)
  have h24 : Nat.fib 24 = 46368 := by decide
  omega

theorem LeadsTo.length_pos (hp : LeadsTo h k p) (hk : k < 626) : 1 ≤ p.length := by
  cases hp with
  | root => exact absurd hk (lt_irrefl _)
  | down _ _ => simp

/-! ### The code ENCODE_CHAR forms (R71) -/

/-- A round of ENCODE_CHAR's loop puts the node's bit in front of those it has. -/
theorem topBits_push {code : BitVec 32} {l : Nat} (hl : l < 32) :
    topBits (l + 1) (if k % 2 = 1 then (code >>> 1) ||| 0x80000000 else code >>> 1) = decide (k % 2 = 1) :: topBits l code := by
  have hshift : ∀ j, j < l → (code >>> 1).getMsbD (j + 1) = code.getMsbD j := fun j hj => by
    simp [BitVec.getMsbD_ushiftRight, show j + 1 < 32 by omega]
  have hlow : ∀ j, (0x80000000 : BitVec 32).getMsbD (j + 1) = false := fun j => by
    rw [show (0x80000000 : BitVec 32) = BitVec.intMin 32 from rfl, BitVec.getMsbD_intMin]
    simp
  have hfirst : (code >>> 1).getMsbD 0 = false := by simp [BitVec.getMsbD_ushiftRight]
  rw [topBits, List.range_succ_eq_map, List.map_cons, List.map_map, topBits]
  congr 1
  · split_ifs with hodd
    · simp [hodd]
    · simp [hodd, hfirst]
  · refine List.map_congr_left fun j hj => ?_
    have hj := hshift j (List.mem_range.1 hj)
    split_ifs
    · rw [Function.comp_apply, BitVec.getMsbD_or, hj, hlow, Bool.or_false]
    · exact hj

/-- ENCODE_CHAR's loop collects the path of the node it starts at. -/
theorem LeadsTo.codeLoop_eq {fuel l : Nat} {code : BitVec 32} (hp : LeadsTo h k p) (hk : k < 626) (hfuel : p.length ≤ fuel)
    (hlen : l + p.length ≤ 32) :
    ∃ v, codeLoop h fuel k l code = .ok (l + p.length, v) ∧ topBits (l + p.length) v = p ++ topBits l code := by
  induction hp generalizing fuel l code with
  | root => exact absurd hk (lt_irrefl _)
  | @down k bits hlt hp ih =>
    rw [List.length_append, List.length_singleton] at hfuel hlen ⊢
    obtain ⟨fuel, rfl⟩ : ∃ n, fuel = n + 1 := ⟨fuel - 1, by omega⟩
    have hpush := topBits_push (k := k) (code := code) (l := l) (by omega)
    rw [codeLoop]
    generalize (if k % 2 = 1 then (code >>> 1) ||| 0x80000000 else code >>> 1) = code' at hpush ⊢
    by_cases hroot : prntNat h k = 626
    · rw [hroot] at hp
      obtain rfl := hp.unique .root
      exact ⟨code', if_pos hroot, hpush⟩
    · have hup := prntNat_lt h k
      obtain ⟨v, hloop, hbits⟩ := ih (fuel := fuel) (l := l + 1) (code := code') (by omega) (by omega) (by omega)
      rw [show l + (bits.length + 1) = l + 1 + bits.length by omega]
      refine ⟨v, (if_neg hroot).trans hloop, ?_⟩
      rw [hbits, hpush, List.append_assoc, List.singleton_append]

end Paths

/-- Every symbol has its code: 1 to 21 bits, which ENCODE_CHAR forms. -/
theorem HuffOk.exists_code {h : Huffman} (ok : HuffOk h) {c : Nat} (hc : c < 314) : ∃ bits v, IsCode h c bits ∧ 1 ≤ bits.length
    ∧ bits.length ≤ 21 ∧ codeOf h c = .ok (bits.length, v) ∧ topBits bits.length v = bits := by
  have hl := ok.linksOk
  have hleaf := hl.leaf_lt_root hc
  obtain ⟨bits, hp⟩ := hl.exists_leadsTo hleaf.le
  have hlen := hp.length_le ok hleaf
  obtain ⟨v, hcode, hbits⟩ := hp.codeLoop_eq (fuel := 627) (l := 0) (code := 0) hleaf (by omega) (by omega)
  rw [Nat.zero_add] at hcode hbits
  exact ⟨bits, v, hl.isCode_iff.2 ⟨hc, hp⟩, hp.length_pos hleaf, hlen, hcode, hbits.trans (List.append_nil _)⟩

/-- A symbol has one code. -/
theorem LinksOk.code_unique {h : Huffman} (hl : LinksOk h) {c : Nat} {p q : List Bool} (hp : IsCode h c p) (hq : IsCode h c q) : p = q :=
  (hl.isCode_iff.1 hp).2.unique (hl.isCode_iff.1 hq).2

/-- Settles O28: codes are the paths to the leaves, and every path goes on to a leaf. -/
theorem symbolCodesAreACompletePrefixCode : Obligations.SymbolCodesAreACompletePrefixCode := by
  unfold Obligations.SymbolCodesAreACompletePrefixCode
  intro h ok
  have hl := ok.linksOk
  refine ⟨fun c hc => ?_, fun c d bits more => hl.isCode_prefix_free, fun f => ?_⟩
  · obtain ⟨bits, v, hcode, hpos, hlen, hof, htop⟩ := ok.exists_code hc
    exact ⟨bits, v, hcode, hpos, hlen, hof, htop, fun bits' hcode' => hl.code_unique hcode' hcode⟩
  · obtain ⟨n, c, hc, hcode⟩ := LeadsTo.root.exists_code (f := f) (n := 0) hl (by omega)
    exact ⟨n, c, hc, hcode, fun n' c' hcode' => hl.isCode_unique hcode hcode'⟩

end Sys2Proof.Machine

/-! PROOFS. The places RECONST gives to the nodes (R70, D14): the leaves keep their order, an internal node stands after its equals,
and the internal nodes stand in the order of the pairs they join. -/

namespace Sys2Proof.Machine

open Sys2Proof

theorem movedUp_lt_iff {k a b : Nat} : movedUp k a < movedUp k b ↔ a < b := by
  rcases movedUp_cases k a with h | h <;> rcases movedUp_cases k b with h' | h' <;> omega

section Places

variable {h g : Huffman} {n : Nat}

/-- Among the first entries, the collected leaves of `h` and the first `n` internal nodes, each stands in its place. -/
structure Placed (h : Huffman) (n : Nat) (g : Huffman) : Prop where
  /-- The leaves stand in the order they have in `h`. -/
  leaves : ∀ a b, a < b → b < 314 + n → 627 ≤ sonNat g a → 627 ≤ sonNat g b →
    prntNat h (sonNat g a) < prntNat h (sonNat g b)
  /-- Above an internal node none of its equals is a leaf. -/
  ties : ∀ a b, a < b → b < 314 + n → freqNat g a = freqNat g b → sonNat g a < 627 → sonNat g b < 627
  /-- The internal nodes stand in the order of their pairs. -/
  rising : ∀ a b, a < b → b < 314 + n → sonNat g a < 627 → sonNat g b < 627 → sonNat g a < sonNat g b

/-- The collected leaves stand in their order. -/
theorem Collected.placed {jg : Nat × Huffman} (hl : LinksOk h) (hc : Collected h 627 jg) : Placed h 0 jg.2 := by
  have hentry : ∀ a, a < 314 → ∃ k, k < 627 ∧ 627 ≤ sonNat h k ∧ leavesBelow h k = a ∧ sonNat jg.2 a = sonNat h k := fun a ha => by
    obtain ⟨k, hk, hkl, rfl⟩ := exists_leaf_at (h := h) (i := 627) (by rwa [hl.leaves])
    exact ⟨k, hk, hkl, rfl, (hc.done k hk hkl).1⟩
  have hleaf : ∀ a, a < 314 → 627 ≤ sonNat jg.2 a := fun a ha => by
    obtain ⟨k, -, hkl, -, hs⟩ := hentry a ha
    rwa [hs]
  refine ⟨fun a b hab hb _ _ => ?_, fun a b hab hb _ hs => absurd hs (hleaf a (by omega)).not_gt,
    fun a b hab hb hs => absurd hs (hleaf a (by omega)).not_gt⟩
  obtain ⟨i, hi, -, rfl, hsi⟩ := hentry a (by omega)
  obtain ⟨k, hk, hkl, rfl, hsk⟩ := hentry b hb
  have hpi : prntNat h (sonNat h i) = i := hl.parent i _ hi (.inl rfl)
  have hpk : prntNat h (sonNat h k) = k := hl.parent k _ hk (.inl rfl)
  rw [hsi, hsk, hpi, hpk]
  by_contra hle
  have : leavesBelow h k ≤ leavesBelow h i := Nat.count_monotone _ (Nat.not_lt.1 hle)
  omega

/-- A round of step 2 inserts the next pair below every more frequent entry. -/
theorem Joined.inserted_internal (ok : HuffOk h) (hg : Joined h n g) (hn : n < 313) :
    ∃ k, k ≤ 314 + n ∧ (∀ a, k ≤ a → a < 314 + n → freqNat g (2 * n) + freqNat g (2 * n + 1) < freqNat g a)
      ∧ Inserted g (Machine.insertInternal (314 + n) g) (314 + n) k (freqNat g (2 * n) + freqNat g (2 * n + 1)) (2 * n) := by
  have hfit : freqNat g (2 * n) + freqNat g (2 * n + 1) ≤ 16541 := by
    have hsum := hg.total
    rw [Finset.sum_eq_sum_Ico_succ_bot (by omega), Finset.sum_eq_sum_Ico_succ_bot (by omega)] at hsum
    have := sum_halved_le ok
    omega
  have hkj := insertionIndex_le (h := g) (f := freqNat g (2 * n) + freqNat g (2 * n + 1)) (k := 314 + n)
  refine ⟨_, hkj, (insertionIndex_spec g _ (314 + n)).2, ?_⟩
  have := inserted hg.wf hkj (show 314 + n < 627 by omega) (show freqNat g (2 * n) + freqNat g (2 * n + 1) < 2 ^ 16 by omega)
    (show 2 * n < 941 by omega)
  simp only [Machine.insertInternal, Nat.add_sub_cancel_left]
  exact this

/-- An internal node is no more frequent than the next pair. -/
theorem Joined.internal_le_pair (hg : Joined h n g) (hn : n < 313) {a : Nat} (ha : a < 314 + n) (hs : sonNat g a < 627) :
    freqNat g a ≤ freqNat g (2 * n) + freqNat g (2 * n + 1) := by
  obtain ⟨heven, hlt, -, hsum⟩ := hg.internal a ha hs
  have := hg.order (sonNat g a) (2 * n) (by omega) (by omega)
  have := hg.order (sonNat g a + 1) (2 * n + 1) (by omega) (by omega)
  omega

theorem Placed.insert {g' : Huffman} {k : Nat} (hp : Placed h n g) (hg : Joined h n g) (hn : n < 313) (hkj : k ≤ 314 + n)
    (habove : ∀ a, k ≤ a → a < 314 + n → freqNat g (2 * n) + freqNat g (2 * n + 1) < freqNat g a)
    (hi : Inserted g g' (314 + n) k (freqNat g (2 * n) + freqNat g (2 * n + 1)) (2 * n)) : Placed h (n + 1) g' := by
  obtain ⟨hnewf, hnews⟩ := hi.new
  have hcase : ∀ b, b < 314 + (n + 1) → b = k ∨ ∃ a, a < 314 + n ∧ movedUp k a = b := fun b hb => exists_movedUp hkj hb
  have hup : ∀ b, b < 314 + n → k < movedUp k b → freqNat g (2 * n) + freqNat g (2 * n + 1) < freqNat g b := fun b hb hlt => by
    refine habove b ?_ hb
    rcases movedUp_cases k b with h1 | h1 <;> omega
  constructor
  case leaves =>
    intro a b hab hb hsa hsb
    rcases hcase a (by omega) with rfl | ⟨a, ha, rfl⟩
    · omega
    · rcases hcase b hb with rfl | ⟨b, hb', rfl⟩
      · omega
      · rw [(hi.old a ha).2] at hsa ⊢
        rw [(hi.old b hb').2] at hsb ⊢
        exact hp.leaves a b (movedUp_lt_iff.1 hab) hb' hsa hsb
  case ties =>
    intro a b hab hb hf hsa
    rcases hcase b hb with rfl | ⟨b, hb', rfl⟩
    · omega
    · rcases hcase a (by omega) with rfl | ⟨a, ha, rfl⟩
      · rw [hnewf, (hi.old b hb').1] at hf
        exact absurd hf (hup b hb' hab).ne
      · rw [(hi.old a ha).1, (hi.old b hb').1] at hf
        rw [(hi.old a ha).2] at hsa
        rw [(hi.old b hb').2]
        exact hp.ties a b (movedUp_lt_iff.1 hab) hb' hf hsa
  case rising =>
    intro a b hab hb hsa hsb
    rcases hcase b hb with rfl | ⟨b, hb', rfl⟩
    · obtain ⟨a, ha, rfl⟩ := (hcase a (by omega)).resolve_left hab.ne
      rw [(hi.old a ha).2] at hsa ⊢
      rw [hnews]
      exact (hg.internal a ha hsa).2.1
    · rw [(hi.old b hb').2] at hsb ⊢
      rcases hcase a (by omega) with rfl | ⟨a, ha, rfl⟩
      · exact absurd (hg.internal_le_pair hn hb' hsb) (hup b hb' hab).not_ge
      · rw [(hi.old a ha).2] at hsa ⊢
        exact hp.rising a b (movedUp_lt_iff.1 hab) hb' hsa hsb

/-- After step 2 every node is joined and in its place. -/
theorem placed_all (ok : HuffOk h) (hg : Joined h 0 g) (hp : Placed h 0 g) :
    Placed h 313 (forUp Machine.insertInternal (Config.T - Config.N_CHAR) Config.N_CHAR g) := by
  have hall := forUp_indexed (P := fun j g => Joined h (j - 314) g ∧ Placed h (j - 314) g) (f := Machine.insertInternal)
    (n := Config.T - Config.N_CHAR) (i := Config.N_CHAR)
    (fun j g (h1 : 314 ≤ j) (h2 : j < 627) ⟨hg, hp⟩ => by
      obtain ⟨n, rfl⟩ := Nat.exists_eq_add_of_le h1
      rw [Nat.add_sub_cancel_left] at hg hp
      obtain ⟨k, hkj, habove, hi⟩ := hg.inserted_internal ok (by omega)
      rw [Nat.add_assoc, Nat.add_sub_cancel_left]
      exact ⟨hg.insertInternal ok (by omega), hp.insert hg (by omega) hkj habove hi⟩) ⟨hg, hp⟩
  exact hall.2

/-- Step 3 moves no node. -/
theorem Relinked.placed {t : Huffman} (ht : Relinked g 627 t) (hp : Placed h 313 g) : Placed h 313 t := by
  have hson : ∀ i, sonNat t i = sonNat g i := fun i => congrArg Fin.val (ht.son i)
  have hfreq : ∀ i, freqNat t i = freqNat g i := fun i => congrArg BitVec.toNat (ht.freq i)
  constructor
  · simpa only [hson] using hp.leaves
  · simpa only [hson, hfreq] using hp.ties
  · simpa only [hson] using hp.rising

/-- RECONST puts every node in its place. -/
theorem reconst_placed (ok : HuffOk h) (w : h.wf = true) : Placed h 313 (reconst h) := by
  have hcol := collected_all w
  have hg := joined_all ok (hcol.joined ok)
  have hp := placed_all ok (hcol.joined ok) (hcol.placed ok.linksOk)
  rw [reconst_eq]
  exact (relinked_all hg).placed hp

/-- The leaves of two symbols stand as they did. -/
theorem Placed.leaf_lt {t : Huffman} (hp : Placed h 313 t) (hl : LinksOk t) {c d : Nat} (hc : c < 314) (hd : d < 314)
    (hlt : prntNat h (c + 627) < prntNat h (d + 627)) : prntNat t (c + 627) < prntNat t (d + 627) := by
  have hsc := hl.leaf hc
  have hsd := hl.leaf hd
  rcases lt_trichotomy (prntNat t (c + 627)) (prntNat t (d + 627)) with h1 | h1 | h1
  · exact h1
  · rw [h1, hsd] at hsc
    rw [hsc] at hlt
    exact absurd hlt (lt_irrefl _)
  · have := hp.leaves _ _ h1 (prntNat_lt t _) (by omega) (by omega)
    rw [hsc, hsd] at this
    exact absurd hlt this.not_gt

end Places

/-- Settles O27: halving and R67 as the pass leaves them, and the places of its nodes. -/
theorem reconstHalvesEveryLeaf : Obligations.ReconstHalvesEveryLeaf := by
  unfold Obligations.ReconstHalvesEveryLeaf
  intro s w ok
  obtain ⟨-, -, -, -, wh⟩ := memory_wf_iff.1 w
  obtain ⟨okt, hroot, hhalf⟩ := reconst_spec ok wh
  have hp := reconst_placed ok wh
  have hexec := exec_reconst s
  obtain ⟨g, hg⟩ : ∃ g, g = reconst s.huff := ⟨_, rfl⟩
  rw [← hg] at okt hroot hhalf hp hexec
  refine ⟨setHuff g s, hexec, rfl, okt, hhalf, fun c d hc hd => hp.leaf_lt okt.linksOk hc hd, fun i j hij hj hf => ?_, hp.rising, hroot⟩
  exact hp.ties i j hij hj (congrArg BitVec.toNat hf)

end Sys2Proof.Machine

/-! PROOFS. START_HUFF whole (R68): every entry of the initial tree, and the lengths of its codes. -/

namespace Sys2Proof.Machine

open Sys2Proof

theorem exec_startHuff_initialTree {s : State} (w : Memory.wf s = true) : exec .startHuff s = .next (setHuff initialTree s) := by
  obtain ⟨-, -, -, -, wh⟩ := memory_wf_iff.1 w
  rw [exec_startHuff, startHuff_eq wh]

/-- At depth `n` of the initial tree stand the nodes from `628 - 2 ^ (n + 1)` on that are below `628 - 2 ^ n`. -/
theorem LeadsTo.initialTree_depth {k : Nat} {bits : List Bool} (hp : LeadsTo initialTree k bits) :
    628 ≤ k + 2 ^ (bits.length + 1) ∧ k + 2 ^ bits.length < 628 := by
  induction hp with
  | root => decide
  | @down k bits hlt _ ih =>
    have hup : prntNat initialTree k = 314 + k / 2 := prntDefault_node hlt
    rw [hup] at ih
    obtain ⟨hlow, hhigh⟩ := ih
    have h1 : 2 ^ (bits.length + 1) = 2 ^ bits.length * 2 := pow_succ ..
    have h2 : 2 ^ (bits.length + 1 + 1) = 2 ^ (bits.length + 1) * 2 := pow_succ ..
    rw [List.length_append, List.length_singleton]
    omega

/-- In the initial tree the codes are of 9 bits up to symbol 115, of 8 bits from there on. -/
theorem initialTree_code {c : Nat} (hc : c < 314) : ∃ bits, IsCode initialTree c bits ∧ bits.length = if c < 116 then 9 else 8 := by
  obtain ⟨bits, -, hcode, -⟩ := initialTree_huffOk.exists_code hc
  obtain ⟨-, hp⟩ := initialTree_huffOk.linksOk.isCode_iff.1 hcode
  have hleaf : prntNat initialTree (c + 627) = c := prntDefault_leaf hc
  rw [hleaf] at hp
  obtain ⟨hlow, hhigh⟩ := hp.initialTree_depth
  refine ⟨bits, hcode, ?_⟩
  split_ifs with h116
  · have h1 : bits.length < 10 := (Nat.pow_lt_pow_iff_right one_lt_two).1 (show 2 ^ bits.length < 2 ^ 10 by omega)
    have h2 : 9 < bits.length + 1 := (Nat.pow_lt_pow_iff_right one_lt_two).1 (show 2 ^ 9 < 2 ^ (bits.length + 1) by omega)
    omega
  · have h1 : bits.length < 9 := (Nat.pow_lt_pow_iff_right one_lt_two).1 (show 2 ^ bits.length < 2 ^ 9 by omega)
    have h2 : 8 < bits.length + 1 := (Nat.pow_lt_pow_iff_right one_lt_two).1 (show 2 ^ 8 < 2 ^ (bits.length + 1) by omega)
    omega

theorem initialTree_leaf {c : Nat} (hc : c < 314) : freqAt initialTree c = 1 ∧ (sonAt initialTree c).val = c + 627
    ∧ (prntAt initialTree (c + 627)).val = c :=
  ⟨freqDefault_leaf hc, sonDefault_leaf hc, prntDefault_leaf hc⟩

theorem initialTree_internal {j : Nat} (h : 314 ≤ j) (h' : j < 627) : (sonAt initialTree j).val = 2 * (j - 314)
    ∧ freqAt initialTree j = freqAt initialTree (2 * (j - 314)) + freqAt initialTree (2 * (j - 314) + 1) := by
  obtain ⟨n, rfl⟩ := Nat.exists_eq_add_of_le h
  rw [Nat.add_sub_cancel_left]
  refine ⟨(sonDefault_internal h h').trans ?_, (freqDefault_sum n (by omega)).1⟩
  rw [Nat.add_sub_cancel_left]

theorem freqDefault_two {j : Nat} (h : 314 ≤ j) (h' : j < 471) : freqDefault j = 2 := by
  rw [freqDefault, if_neg (by omega), if_pos h']

theorem freqDefault_four {j : Nat} (h : 471 ≤ j) (h' : j < 549) : freqDefault j = 4 := by
  rw [freqDefault, if_neg (by omega), if_neg (by omega), if_pos h']

/-- Settles O24: START_HUFF leaves the initial tree, whatever it finds. -/
theorem startHuffBuildsTheInitialTree : Obligations.StartHuffBuildsTheInitialTree := by
  unfold Obligations.StartHuffBuildsTheInitialTree
  refine ⟨by decide, fun s w => ⟨setHuff initialTree s, exec_startHuff_initialTree w, rfl, ?_⟩⟩
  rw [setHuff_huff]
  exact ⟨fun _ => initialTree_leaf, fun _ => initialTree_internal, fun _ => prntDefault_node, by decide, by decide,
    fun _ => freqDefault_two, fun _ => freqDefault_four, by decide, by decide, by decide, by decide, fun _ => initialTree_code⟩

/-- Settles O25: the initial tree is well formed. -/
theorem startHuffTreeIsWellFormed : Obligations.StartHuffTreeIsWellFormed := by
  unfold Obligations.StartHuffTreeIsWellFormed
  intro s t w e
  obtain rfl := next_inj ((exec_startHuff_initialTree w).symm.trans e)
  exact initialTree_huffOk

end Sys2Proof.Machine

/-! PROOFS. What PUT_CODE writes (R91, R92), and ENCODE_CHAR whole (R71). -/

namespace Sys2Proof.Machine

open Sys2Proof

/-! ### One bit (R92) -/

theorem topBits_succ {w : Nat} (n : Nat) (v : BitVec w) : topBits (n + 1) v = topBits n v ++ [v.getMsbD n] := by
  rw [topBits, List.range_succ, List.map_append, List.map_singleton, topBits]

theorem topBits_length {w : Nat} (n : Nat) (v : BitVec w) : (topBits n v).length = n := by
  rw [topBits, List.length_map, List.length_range]

theorem topBits_congr {w w' n : Nat} {v : BitVec w} {v' : BitVec w'} (h : ∀ k, k < n → v.getMsbD k = v'.getMsbD k) :
    topBits n v = topBits n v' :=
  List.map_congr_left fun k hk => h k (List.mem_range.1 hk)

/-- The bit that joins `c` pending ones stands after them. -/
theorem getMsbD_joinedBit {c k : Nat} (b : Bool) (hc : c < 32) (hk : k ≤ c) :
    ((BitVec.ofBool b).setWidth 32 <<< (31 - c)).getMsbD k = (decide (k = c) && b) := by
  rw [BitVec.getMsbD_eq_getLsbD, BitVec.getLsbD_shiftLeft, BitVec.getLsbD_setWidth, BitVec.getLsbD_ofBool]
  rcases hk.lt_or_eq with hlt | rfl
  · simp [show ¬ 32 - 1 - k - (31 - c) = 0 by omega, hlt.ne]
  · simp [hc, show 31 - k < 32 by omega]

theorem topBits_putBit {acc : BitVec 32} {c : Nat} (b : Bool) (hc : c < 32) (hz : acc.getMsbD c = false) :
    topBits (c + 1) (acc ||| ((BitVec.ofBool b).setWidth 32 <<< (31 - c))) = topBits c acc ++ [b] := by
  rw [topBits_succ, BitVec.getMsbD_or, hz, getMsbD_joinedBit b hc (Nat.le_refl c), decide_eq_true rfl, Bool.true_and, Bool.false_or]
  congr 1
  refine topBits_congr fun k hk => ?_
  rw [BitVec.getMsbD_or, getMsbD_joinedBit b hc hk.le, decide_eq_false hk.ne, Bool.false_and, Bool.or_false]

/-- The byte that leaves the pending bits is their first eight. -/
theorem topBits_firstByte (acc : BitVec 32) : topBits 8 (acc.extractLsb' 24 8) = topBits 8 acc := by
  refine topBits_congr fun k hk => ?_
  rw [BitVec.getMsbD_eq_getLsbD, BitVec.getMsbD_eq_getLsbD, BitVec.getLsbD_extractLsb']
  simp only [hk, show k < 32 by omega, show 8 - 1 - k < 8 by omega, show 24 + (8 - 1 - k) = 32 - 1 - k by omega, decide_true,
    Bool.true_and]

theorem outAt_outAppend {s : State} (w : Memory.wf s = true) (v : Byte) (a : Nat) :
    outAt (outAppend v s) a = if a = s.outLen.toNat then v else outAt s a :=
  sparseGet_sparseSet (memory_wf_iff.1 w).2.1

/-- A byte appended is eight more bits of `OUT`. -/
theorem outBits_outAppend {s : State} (w : Memory.wf s = true) (v : Byte) :
    outBits (outAppend v s) 0 (s.outLen.toNat + 1) = outBits s 0 s.outLen.toNat ++ topBits 8 v := by
  have hsame : ∀ k ∈ List.range s.outLen.toNat, topBits 8 (outAt (outAppend v s) (0 + k)) = topBits 8 (outAt s (0 + k)) := fun k hk => by
    have := List.mem_range.1 hk
    rw [outAt_outAppend w, if_neg (by omega)]
  rw [outBits, List.range_succ, List.flatMap_append, List.flatMap_congr hsame, List.flatMap_singleton, outAt_outAppend w,
    if_pos (Nat.zero_add _), outBits]

/-! ### Bits written (R91) -/

/-- From `s` to `t` the bits `bits` were written: they follow those written before, and `OUT` has grown by the bytes they fill. -/
structure Written (s t : State) (bits : List Bool) : Prop where
  memory : Memory.wf t = true
  writer : WriterOk t
  written : writtenBits t = writtenBits s ++ bits
  count : 8 * t.outLen.toNat + t.wr.cnt.toNat = 8 * s.outLen.toNat + s.wr.cnt.toNat + bits.length
  appends : AppendsOnly s t

theorem Written.refl {s : State} (w : Memory.wf s = true) (hw : WriterOk s) : Written s s [] :=
  ⟨w, hw, (List.append_nil _).symm, rfl, fun _ _ => rfl⟩

theorem Written.outLen_le {s t : State} {bits : List Bool} (h : Written s t bits) : s.outLen.toNat ≤ t.outLen.toNat := by
  have hcount := h.count
  have hcnt := h.writer.1
  omega

theorem Written.trans {s t u : State} {p q : List Bool} (h : Written s t p) (h' : Written t u q) : Written s u (p ++ q) where
  memory := h'.memory
  writer := h'.writer
  written := by rw [h'.written, h.written, List.append_assoc]
  count := by rw [h'.count, h.count, List.length_append, Nat.add_assoc]
  appends a ha :=
    (h'.appends a (ha.imp_left fun hlt => hlt.trans_le h.outLen_le)).trans (h.appends a (ha.imp_right h'.outLen_le.trans))

/-- PUT_CODE's round writes its bit. -/
theorem putBit_written {s : State} (b : Bool) (w : Memory.wf s = true) (hw : WriterOk s)
    (hroom : 8 * s.outLen.toNat + s.wr.cnt.toNat + 1 < 8 * 2 ^ 64) : Written s (putBit b s) [b] := by
  have hmem := putBit_memory_wf (b := b) w
  have hwriter := putBit_writerOk (b := b) hw
  obtain ⟨hcnt, hzero⟩ := hw
  have hbits := topBits_putBit b (show s.wr.cnt.toNat < 32 by omega) (hzero _ (Nat.le_refl _))
  have hsucc : (s.wr.cnt + 1).toNat = s.wr.cnt.toNat + 1 := by bv_omega
  unfold putBit at hmem hwriter ⊢
  generalize s.wr.acc ||| ((BitVec.ofBool b).setWidth 32 <<< (31 - s.wr.cnt.toNat)) = acc at *
  by_cases h8 : s.wr.cnt + 1 = 8
  · simp only [if_pos h8] at hmem hwriter ⊢
    have hseven : s.wr.cnt.toNat + 1 = 8 := hsucc.symm.trans (congrArg BitVec.toNat h8)
    have hlen : (s.outLen + 1).toNat = s.outLen.toNat + 1 := BitVec.toNat_add_of_lt (show s.outLen.toNat + 1 < 2 ^ 64 by omega)
    have hout := outBits_outAppend w (acc.extractLsb' 24 8)
    rw [hseven] at hbits
    rw [topBits_firstByte, hbits] at hout
    refine ⟨hmem, hwriter, ?_, ?_, fun a ha => ?_⟩
    · calc outBits (outAppend (acc.extractLsb' 24 8) s) 0 (s.outLen + 1).toNat ++ []
          = outBits (outAppend (acc.extractLsb' 24 8) s) 0 (s.outLen.toNat + 1) := by rw [List.append_nil, hlen]
        _ = writtenBits s ++ [b] := by rw [hout, writtenBits, List.append_assoc]
    · show 8 * (s.outLen + 1).toNat + 0 = 8 * s.outLen.toNat + s.wr.cnt.toNat + 1
      omega
    · have ha : a < s.outLen.toNat ∨ (s.outLen + 1).toNat ≤ a := ha
      exact (outAt_outAppend w _ a).trans (if_neg (by omega))
  · simp only [if_neg h8] at hmem hwriter ⊢
    refine ⟨hmem, hwriter, ?_, ?_, fun _ _ => rfl⟩
    · show outBits s 0 s.outLen.toNat ++ topBits (s.wr.cnt + 1).toNat acc = writtenBits s ++ [b]
      rw [hsucc, hbits, writtenBits, List.append_assoc]
    · show 8 * s.outLen.toNat + (s.wr.cnt + 1).toNat = 8 * s.outLen.toNat + s.wr.cnt.toNat + 1
      omega

/-- PUT_CODE writes the top bits of its operand, in order. -/
theorem putCode_written {s : State} {l : Nat} (v : BitVec 32) (w : Memory.wf s = true) (hw : WriterOk s)
    (hroom : 8 * s.outLen.toNat + s.wr.cnt.toNat + l < 8 * 2 ^ 64) : Written s (putCode l v s) (topBits l v) := by
  have hall := forUp_indexed (P := fun k t => Written s t (topBits k v)) (f := fun k => putBit (v.getMsbD k)) (n := l) (i := 0)
    (fun k t _ hk ht => by
      have hcount := ht.count
      rw [topBits_length] at hcount
      rw [topBits_succ]
      exact ht.trans (putBit_written _ ht.memory ht.writer (by omega)))
    (Written.refl w hw)
  rwa [Nat.zero_add] at hall

/-! ### ENCODE_CHAR (R71) -/

theorem exec_encodeChar (c : BitVec 9) (s : State) : exec (.encodeChar c) s = outcome (encodeChar c.toNat s) := rfl

theorem setHuff_putCode_frame (g : Huffman) (l : Nat) (v : BitVec 32) (s : State) : setHuff g (putCode l v s) = { s with
    huff := g, wr := (putCode l v s).wr, outBuf := (putCode l v s).outBuf, outLen := (putCode l v s).outLen } :=
  congrArg (setHuff g) (putCode_frame l v s)

/-- Settles O29: the code of the tree as it stands is written whole, then the tree is that of UPDATE. -/
theorem encodeCharEmitsTheCode : Obligations.EncodeCharEmitsTheCode := by
  unfold Obligations.EncodeCharEmitsTheCode
  intro s c hs hroom hc
  obtain ⟨bits, v, hcode, -, hlen, hof, htop⟩ := hs.huffman.exists_code hc
  obtain ⟨g, hg, -⟩ := update_ok hs.huffman hs.huff_wf hc
  have hcnt := hs.writer.1
  have hwritten := putCode_written v hs.memory hs.writer (show 8 * s.outLen.toNat + s.wr.cnt.toNat + bits.length < 8 * 2 ^ 64 by omega)
  rw [htop] at hwritten
  have hexec : exec (.encodeChar c) s = .next (setHuff g (putCode bits.length v s)) := by
    rw [exec_encodeChar, encodeChar_eq_ok.2 ⟨_, v, g, hof, hg, rfl⟩, outcome_ok]
  exact ⟨_, bits, hexec, hcode, hlen, hwritten.written, hwritten.appends, exec_update_of_tree hg, setHuff_putCode_frame g _ v s⟩

end Sys2Proof.Machine

/-! PROOFS. The walk of DECODE_CHAR reads the code the payload goes on with (R72, R95, R96). -/

namespace Sys2Proof.Machine

open Sys2Proof

/-! ### The payload as it is consumed (R95, R96) -/

theorem skipBits_zero (s : State) : skipBits 0 s = s := by rw [skipBits, BitVec.add_zero]

theorem skipBits_skipBits (m n : Nat) (s : State) : skipBits n (skipBits m s) = skipBits (m + n) s := by
  simp only [skipBits, BitVec.ofNat_add, BitVec.add_assoc]

theorem payloadAt_skipBits (m k : Nat) (s : State) : payloadAt (skipBits m s) k = payloadAt s (m + k) := by
  rw [payloadAt, payloadAt, skipBits_rdBitpos, BitVec.add_assoc, ← BitVec.ofNat_add]
  rfl

theorem getBit_eq (s : State) : getBit s = (payloadAt s 0, skipBits 1 s) := by
  rw [payloadAt, BitVec.add_zero]
  rfl

theorem spells_cons_iff {s : State} {b : Bool} {bits : List Bool} :
    Spells s (b :: bits) ↔ payloadAt s 0 = b ∧ Spells (skipBits 1 s) bits := by
  have hshift : (List.range bits.length).map (payloadAt s ∘ Nat.succ) = (List.range bits.length).map (payloadAt (skipBits 1 s)) :=
    List.map_congr_left fun k _ => by rw [payloadAt_skipBits, Nat.add_comm]; rfl
  rw [Spells, List.length_cons, List.range_succ_eq_map, List.map_cons, List.map_map, hshift, List.cons.injEq]

/-! ### DECODE_CHAR (R72) -/

/-- The walk down from a node reads the bits that lead from it to a leaf. -/
theorem decodeWalk_of_follow {fuel i c : Nat} {bits : List Bool} {s : State} (hl : LinksOk s.huff) (hi : i < 627)
    (hf : follow s.huff i bits = some c) (hs : Spells s bits) (hfuel : bits.length < fuel) :
    decodeWalk fuel (sonNat s.huff i) s = .ok (c, skipBits bits.length s) := by
  induction bits generalizing fuel i s with
  | nil =>
    obtain ⟨fuel, rfl⟩ : ∃ n, fuel = n + 1 := ⟨fuel - 1, by omega⟩
    have hleaf := follow_nil_eq_some hf
    rw [decodeWalk, if_neg (show ¬ sonNat s.huff i < 627 by omega), hleaf, Nat.add_sub_cancel, List.length_nil, skipBits_zero]
  | cons b bits ih =>
    obtain ⟨fuel, rfl⟩ : ∃ n, fuel = n + 1 := ⟨fuel - 1, by omega⟩
    obtain ⟨hb, hs⟩ := spells_cons_iff.1 hs
    rw [List.length_cons] at hfuel ⊢
    have hinternal : sonNat s.huff i < 627 := by
      by_contra hge
      rw [follow_cons_of_leaf (by omega)] at hf
      cases hf
    rw [follow_cons_of_internal hinternal] at hf
    obtain ⟨hlt, -⟩ := hl.child_of_bit hi hinternal b
    have hnext : sonNat s.huff i + b.toNat < 627 := by omega
    have hrest := ih (s := skipBits 1 s) hl hnext hf hs (fuel := fuel) (by omega)
    rw [skipBits_skipBits, Nat.add_comm 1] at hrest
    rw [decodeWalk, if_pos (show sonNat s.huff i < Config.T from hinternal), getBit_eq, hb]
    exact (if_pos hnext).trans hrest

/-- DECODE_CHAR returns the symbol whose code the payload goes on with. -/
theorem decodeChar_of_code {c : Nat} {bits : List Bool} {s : State} {g : Huffman} (ok : HuffOk s.huff) (hcode : IsCode s.huff c bits)
    (hs : Spells s bits) (hg : update c s.huff = .ok g) : decodeChar s = .ok (c, setHuff g (skipBits bits.length s)) := by
  have hl := ok.linksOk
  obtain ⟨hc, hp⟩ := hl.isCode_iff.1 hcode
  have hlen := hp.length_le ok (hl.leaf_lt_root hc)
  have hwalk := decodeWalk_of_follow (fuel := 628) hl (show 626 < 627 by omega) hcode hs (by omega)
  exact decodeChar_eq_ok.2 ⟨_, g, hwalk, hg, rfl⟩

/-- Settles O30: the walk takes the code's bits, and the payload, an infinite bit string, begins with a code. -/
theorem decodeCharReadsOneCode : Obligations.DecodeCharReadsOneCode := by
  unfold Obligations.DecodeCharReadsOneCode
  refine ⟨fun s c bits hs hcode hspells => ?_, fun s hs => ?_⟩
  · obtain ⟨hc, -⟩ := hs.huffman.linksOk.isCode_iff.1 hcode
    obtain ⟨g, hg, -⟩ := update_ok hs.huffman hs.huff_wf hc
    have hexec : exec .decodeChar s = .next (setRet (BitVec.ofNat 16 c.toNat) (setHuff g (skipBits bits.length s))) := by
      rw [exec_decodeChar, decodeChar_of_code hs.huffman hcode hspells hg, map_ok, outcome_ok]
    exact ⟨_, hexec, BitVec.ofNat_toNat .., rfl, exec_update_of_tree hg, rfl⟩
  · obtain ⟨n, c, hc, hcode⟩ := LeadsTo.root.exists_code (f := payloadAt s) (n := 0) hs.huffman.linksOk (by omega)
    have hc9 : (BitVec.ofNat 9 c).toNat = c := Nat.mod_eq_of_lt (by omega)
    refine ⟨BitVec.ofNat 9 c, (List.range n).map (payloadAt s), by omega, by rwa [hc9], ?_⟩
    rw [Spells, List.length_map, List.length_range]

end Sys2Proof.Machine

/-! PROOFS. The canonical position codes (R46, R47): left-justified, they cut the bytes into 64 intervals one after the other, so a
byte begins with exactly one of them. -/

namespace Sys2Proof.Machine

open Sys2Proof

/-! ### Where the bytes of a code begin -/

/-- The first byte that begins with the code of index `i`: the bytes of the codes before it are `2 ^ (8 - length)` each. -/
def codeStart (P : PosTable) (i : Nat) : Nat := ((P.map fun l => 2 ^ (8 - l)).take i).sum

theorem codeStart_zero (P : PosTable) : codeStart P 0 = 0 := rfl

theorem codeStart_monotone (P : PosTable) : Monotone (codeStart P) := List.monotone_sum_take _

theorem codeStart_succ {P : PosTable} {i : Nat} (h : i < P.length) :
    codeStart P (i + 1) = codeStart P i + 2 ^ (8 - posLen i P) := by
  rw [codeStart, List.sum_take_succ _ _ (by rwa [List.length_map]), List.getElem_map, posLen, List.getD_eq_getElem _ _ h]
  rfl

/-- The default of `POS_LEN` has the shape D12 gives. -/
theorem legalTable_default : LegalTable Config.POS_LEN := ⟨by decide, by decide, by decide, by decide⟩

theorem LegalTable.lt_length {P : PosTable} (hP : LegalTable P) {i : Nat} (hi : i < 64) : i < P.length := hP.1.symm ▸ hi

theorem LegalTable.codeStart_end {P : PosTable} (hP : LegalTable P) : codeStart P 64 = 256 := by
  obtain ⟨hlen, -, -, hsum⟩ := hP
  rw [codeStart, List.take_of_length_le (by rw [List.length_map, hlen]), hsum]
  rfl

theorem LegalTable.posLen_bounds {P : PosTable} (hP : LegalTable P) {i : Nat} (hi : i < 64) :
    3 ≤ posLen i P ∧ posLen i P ≤ 8 := by
  rw [posLen, List.getD_eq_getElem _ _ (hP.lt_length hi)]
  obtain ⟨-, hrange, -⟩ := hP
  exact hrange _ (List.getElem_mem _)

theorem LegalTable.posLen_le_succ {P : PosTable} (hP : LegalTable P) {i : Nat} (hi : i + 1 < 64) :
    posLen i P ≤ posLen (i + 1) P := by
  rw [posLen, posLen, List.getD_eq_getElem _ _ (hP.lt_length (Nat.lt_of_succ_lt hi)), List.getD_eq_getElem _ _ (hP.lt_length hi)]
  obtain ⟨-, -, hpair, -⟩ := hP
  exact List.pairwise_iff_getElem.1 hpair i (i + 1) _ _ (Nat.lt_succ_self i)

/-- Every byte lies between two starts that follow one another. -/
theorem exists_codeStart_interval {P : PosTable} {n x : Nat} (hx : x < codeStart P n) :
    ∃ i, i < n ∧ codeStart P i ≤ x ∧ x < codeStart P (i + 1) := by
  induction n with
  | zero => exact absurd hx (Nat.not_lt_zero x)
  | succ n ih =>
    rcases Nat.lt_or_ge x (codeStart P n) with h | h
    · obtain ⟨i, hi, hxi⟩ := ih h
      exact ⟨i, hi.trans n.lt_succ_self, hxi⟩
    · exact ⟨n, n.lt_succ_self, h, hx⟩

theorem codeStart_interval_unique {P : PosTable} {i j x : Nat} (hi : codeStart P i ≤ x ∧ x < codeStart P (i + 1))
    (hj : codeStart P j ≤ x ∧ x < codeStart P (j + 1)) : i = j :=
  Nat.le_antisymm (Nat.le_of_lt_succ ((codeStart_monotone P).reflect_lt (hi.1.trans_lt hj.2)))
    (Nat.le_of_lt_succ ((codeStart_monotone P).reflect_lt (hj.1.trans_lt hi.2)))

/-! ### The codes (R46) -/

theorem codesAfter_length (c l : Nat) (P : PosTable) : (codesAfter c l P).length = P.length := by
  induction P generalizing c l with
  | nil => rfl
  | cons m P ih => rw [codesAfter, List.length_cons, ih, List.length_cons]

theorem canonicalCodes_length (P : PosTable) : (canonicalCodes P).length = P.length := by
  cases P with
  | nil => rfl
  | cons l P => rw [canonicalCodes, List.length_cons, codesAfter_length, List.length_cons]

/-- The code of index `i`, left-justified, is the start of its bytes. -/
theorem LegalTable.canonicalCode_justified {P : PosTable} (hP : LegalTable P) {i : Nat} (hi : i < 64) :
    (canonicalCodes P).getD i 0 * 2 ^ (8 - posLen i P) = codeStart P i := by
  induction i with
  | zero =>
    have : (canonicalCodes P).getD 0 0 = 0 := by cases P <;> rfl
    rw [this, Nat.zero_mul, codeStart_zero]
  | succ i ih =>
    have hle := hP.posLen_le_succ hi
    obtain ⟨-, h8⟩ := hP.posLen_bounds hi
    have hexp : posLen (i + 1) P - posLen i P + (8 - posLen (i + 1) P) = 8 - posLen i P := by omega
    rw [canonicalCodes_succ P i (hP.lt_length hi), Nat.mul_assoc, ← Nat.pow_add, hexp, Nat.add_mul, Nat.one_mul,
      ih (Nat.lt_of_succ_lt hi), codeStart_succ (hP.lt_length (Nat.lt_of_succ_lt hi))]

theorem LegalTable.codeStart_lt {P : PosTable} (hP : LegalTable P) {i : Nat} (hi : i < 64) : codeStart P i < 256 :=
  calc codeStart P i < codeStart P i + 2 ^ (8 - posLen i P) := Nat.lt_add_of_pos_right (Nat.two_pow_pos _)
    _ = codeStart P (i + 1) := (codeStart_succ (hP.lt_length hi)).symm
    _ ≤ codeStart P 64 := codeStart_monotone P hi
    _ = 256 := hP.codeStart_end

theorem LegalTable.posCode_toNat {P : PosTable} (hP : LegalTable P) {i : Nat} (hi : i < 64) :
    (posCode i P).toNat = codeStart P i := by
  rw [posCode, hP.canonicalCode_justified hi, BitVec.toNat_ofNat]
  exact Nat.mod_eq_of_lt (hP.codeStart_lt hi)

/-! ### Which code a byte begins with (R47) -/

/-- Of two words the first `n` bits agree where they agree after the shift that leaves those. -/
theorem topBits_eq_iff {w n : Nat} (hn : n ≤ w) {v v' : BitVec w} :
    topBits n v = topBits n v' ↔ v.toNat / 2 ^ (w - n) = v'.toNat / 2 ^ (w - n) := by
  rw [← Nat.shiftRight_eq_div_pow, ← Nat.shiftRight_eq_div_pow, ← BitVec.toNat_ushiftRight, ← BitVec.toNat_ushiftRight,
    BitVec.toNat_inj, topBits, topBits, List.map_inj_left]
  refine ⟨fun h => BitVec.eq_of_getMsbD_eq fun k hk => ?_, fun h k hk => ?_⟩
  · rw [BitVec.getMsbD_ushiftRight, BitVec.getMsbD_ushiftRight]
    rcases Nat.lt_or_ge k (w - n) with hkn | hkn
    · rw [decide_eq_true hkn, Bool.not_true, Bool.false_and, Bool.false_and]
    · rw [h (k - (w - n)) (List.mem_range.2 (by omega))]
  · have hk := List.mem_range.1 hk
    have hbit := congrArg (BitVec.getMsbD · (w - n + k)) h
    simpa only [BitVec.getMsbD_ushiftRight, Nat.add_sub_cancel_left, show w - n + k < w by omega,
      show ¬ w - n + k < w - n by omega, decide_true, decide_false, Bool.not_false, Bool.true_and] using hbit

/-- A byte begins with the code of index `i` exactly where it lies between the starts. -/
theorem LegalTable.topBits_eq_posCode_iff {P : PosTable} (hP : LegalTable P) {i : Nat} (hi : i < 64) (b : Byte) :
    topBits (posLen i P) b = topBits (posLen i P) (posCode i P) ↔ codeStart P i ≤ b.toNat ∧ b.toNat < codeStart P (i + 1) := by
  obtain ⟨-, h8⟩ := hP.posLen_bounds hi
  have hpos := Nat.two_pow_pos (8 - posLen i P)
  rw [topBits_eq_iff h8, hP.posCode_toNat hi, codeStart_succ (hP.lt_length hi), ← hP.canonicalCode_justified hi,
    Nat.mul_div_cancel _ hpos, Nat.div_eq_iff hpos]
  omega

/-- The test of R47: `b` begins with the code `c` of `l` bits. -/
def BeginsWith (b : Byte) (c l : Nat) : Prop := c * 2 ^ (8 - l) ≤ b.toNat ∧ b.toNat < (c + 1) * 2 ^ (8 - l)

theorem LegalTable.beginsWith_iff {P : PosTable} (hP : LegalTable P) {i : Nat} (hi : i < 64) {b : Byte} :
    BeginsWith b ((canonicalCodes P).getD i 0) (posLen i P) ↔ codeStart P i ≤ b.toNat ∧ b.toNat < codeStart P (i + 1) := by
  rw [BeginsWith, Nat.add_mul, Nat.one_mul, hP.canonicalCode_justified hi, codeStart_succ (hP.lt_length hi)]

/-- The search of R47 ends at a code that `b` begins with, where there is one. -/
theorem findCode_finds {b : Byte} {ls : PosTable} {cs : List Nat} (hlen : cs.length = ls.length) (i : Nat)
    (h : ∃ k, k < ls.length ∧ BeginsWith b (cs.getD k 0) (posLen k ls)) :
    ∃ k, k < ls.length ∧ findCode b ls cs i = i + k ∧ BeginsWith b (cs.getD k 0) (posLen k ls) := by
  induction ls generalizing cs i with
  | nil =>
    obtain ⟨k, hk, -⟩ := h
    exact absurd hk (Nat.not_lt_zero k)
  | cons l ls ih =>
    obtain _ | ⟨c, cs⟩ := cs
    · cases hlen
    · rw [findCode]
      split_ifs with hc
      · exact ⟨0, Nat.succ_pos _, rfl, hc⟩
      · obtain ⟨k, hk, hb⟩ := h
        obtain _ | k := k
        · exact absurd hb hc
        · obtain ⟨j, hj, heq, hb⟩ := ih (Nat.succ.inj hlen) (i + 1) ⟨k, Nat.lt_of_succ_lt_succ hk, hb⟩
          exact ⟨j + 1, Nat.succ_lt_succ hj, by omega, hb⟩

/-- A byte lies between the starts of the code `D_CODE` gives. -/
theorem LegalTable.dCode_spec {P : PosTable} (hP : LegalTable P) (b : Byte) :
    dCode b P < 64 ∧ codeStart P (dCode b P) ≤ b.toNat ∧ b.toNat < codeStart P (dCode b P + 1) := by
  obtain ⟨k, hk, hb⟩ := exists_codeStart_interval (P := P) (n := 64) (x := b.toNat) (hP.codeStart_end ▸ b.isLt)
  obtain ⟨j, hj, heq, hbj⟩ :=
    findCode_finds (canonicalCodes_length P) 0 ⟨k, hP.lt_length hk, (hP.beginsWith_iff hk).2 hb⟩
  rw [hP.1] at hj
  rw [dCode, heq, Nat.zero_add]
  exact ⟨hj, (hP.beginsWith_iff hj).1 hbj⟩

/-- A byte begins with the code `D_CODE` gives. -/
theorem LegalTable.topBits_dCode {P : PosTable} (hP : LegalTable P) (b : Byte) :
    topBits (posLen (dCode b P) P) b = topBits (posLen (dCode b P) P) (posCode (dCode b P) P) := by
  obtain ⟨hi, hb⟩ := hP.dCode_spec b
  exact (hP.topBits_eq_posCode_iff hi b).2 hb

/-- It begins with no other. -/
theorem LegalTable.eq_dCode {P : PosTable} (hP : LegalTable P) {i : Nat} (hi : i < 64) {b : Byte}
    (h : topBits (posLen i P) b = topBits (posLen i P) (posCode i P)) : i = dCode b P :=
  codeStart_interval_unique ((hP.topBits_eq_posCode_iff hi b).1 h) (hP.dCode_spec b).2

end Sys2Proof.Machine

/-! PROOFS. ENCODE_POSITION (R82): the code of the high part, then the six low bits. -/

namespace Sys2Proof.Machine

open Sys2Proof

/-- Left-justified in 32 bits a word begins with its own bits. -/
theorem topBits_justified {w : Nat} (n : Nat) (hw : w ≤ 32) (v : BitVec w) :
    topBits n (v.setWidth 32 <<< (32 - w)) = topBits n v := by
  refine topBits_congr fun k _ => ?_
  rw [BitVec.getMsbD_shiftLeft, BitVec.getMsbD_setWidth, decide_eq_true (Nat.le_add_left ..), Bool.true_and]
  congr 1; omega

theorem lowBits_setWidth (o : BitVec 12) : (o &&& 0x3F).setWidth 32 = (o.setWidth 6).setWidth 32 := by
  refine BitVec.eq_of_toNat_eq ?_
  rw [BitVec.toNat_setWidth, BitVec.toNat_setWidth, BitVec.toNat_setWidth, BitVec.toNat_and]
  exact congrArg (· % 2 ^ 32) (Nat.and_two_pow_sub_one_eq_mod o.toNat 6)

theorem offset_high_lt (o : BitVec 12) : o.toNat / 64 < 64 := by
  have := o.isLt
  omega

theorem posBits_length (P : PosTable) (o : BitVec 12) : (posBits o P).length = posLen (o.toNat / 64) P + 6 := by
  rw [posBits, List.length_append, topBits_length, topBits_length]

/-- ENCODE_POSITION writes the position code of its offset. -/
theorem encodePosition_written {P : PosTable} {s : State} {o : BitVec 12} (hP : LegalTable P) (w : Memory.wf s = true)
    (hw : WriterOk s) (hroom : Room 4 s) : Written s (encodePosition o s P) (posBits o P) := by
  obtain ⟨-, h8⟩ := hP.posLen_bounds (offset_high_lt o)
  have hcnt := hw.1
  have hcode := putCode_written ((posCode (o.toNat / 64) P).setWidth 32 <<< 24) w hw
    (l := posLen (o.toNat / 64) P) (by omega)
  have hcount := hcode.count
  rw [topBits_length] at hcount
  have hlow := putCode_written ((o &&& 0x3F).setWidth 32 <<< 26) hcode.memory hcode.writer (l := 6) (by omega)
  have hall := hcode.trans hlow
  rw [lowBits_setWidth, topBits_justified (w := 8) _ (by decide), topBits_justified (w := 6) _ (by decide)] at hall
  rw [encodePosition, lowBits_setWidth]
  exact hall

/-- The lengths of the default table (log entry 1). -/
theorem posLen_default : ∀ i, i < 64 →
    posLen i = if i < 1 then 3 else if i < 4 then 4 else if i < 12 then 5 else if i < 24 then 6 else if i < 48 then 7 else 8 := by
  decide

/-- Settles O21: the two PUT_CODEs of R82 write the two parts of the position code. -/
theorem encodePositionEmitsItsCode : Obligations.EncodePositionEmitsItsCode := by
  unfold Obligations.EncodePositionEmitsItsCode
  refine ⟨by decide, fun P s o hP w hw hroom => ⟨?_, posBits_length P o⟩, fun s o _ _ _ => ⟨_, exec_encodePosition o s, rfl⟩,
    fun o => ?_⟩
  · have h := encodePosition_written (o := o) hP w hw hroom
    exact ⟨_, rfl, h.written, h.writer, h.appends, encodePosition_frame P o s⟩
  · rw [posBits_length, posLen_default _ (offset_high_lt o)]
    split_ifs <;> omega

end Sys2Proof.Machine

/-! PROOFS. DECODE_POSITION (R83, R84): it reads the one position code the payload begins with. -/

namespace Sys2Proof.Machine

open Sys2Proof

/-! ### Runs of payload bits (R95, R97) -/

theorem spells_append_iff {s : State} {p q : List Bool} :
    Spells s (p ++ q) ↔ Spells s p ∧ Spells (skipBits p.length s) q := by
  induction p generalizing s with
  | nil => simp [skipBits_zero]
  | cons b p ih =>
    rw [List.cons_append, spells_cons_iff, spells_cons_iff, ih, skipBits_skipBits, List.length_cons, Nat.add_comm 1, and_assoc]

theorem spells_topBits_iff {w n : Nat} {v : BitVec w} {s : State} :
    Spells s (topBits n v) ↔ ∀ k, k < n → payloadAt s k = v.getMsbD k := by
  rw [Spells, topBits_length, topBits, List.map_inj_left]
  simp only [List.mem_range]

theorem spells_posBits_iff {P : PosTable} {o : BitVec 12} {s : State} :
    Spells s (posBits o P) ↔ Spells s (topBits (posLen (o.toNat / 64) P) (posCode (o.toNat / 64) P))
      ∧ Spells (skipBits (posLen (o.toNat / 64) P) s) (topBits 6 (o.setWidth 6)) := by
  rw [posBits, spells_append_iff, topBits_length]

theorem getLsbD_shiftIn {w : Nat} (v : BitVec w) (b : Bool) {k : Nat} (hk : k < w) :
    ((v <<< 1) ||| (BitVec.ofBool b).setWidth w).getLsbD k = if k = 0 then b else v.getLsbD (k - 1) := by
  rw [BitVec.getLsbD_or, BitVec.getLsbD_shiftLeft, BitVec.getLsbD_setWidth, BitVec.getLsbD_ofBool]
  cases k <;> simp [hk]

theorem shiftLeft_one_and_bit {w : Nat} (v : BitVec w) (b : Bool) : (v <<< 1) &&& (BitVec.ofBool b).setWidth w = 0#w := by
  refine BitVec.eq_of_getLsbD_eq fun k _ => ?_
  cases k <;> simp

/-- What a loop that shifts payload bits in leaves: the bits read, the last one lowest, above them what was there. -/
theorem getLsbD_of_shiftsIn {w : Nat} {loop : Nat → BitVec w → State → BitVec w} (hzero : ∀ v s, loop 0 v s = v)
    (hsucc : ∀ n v s, loop (n + 1) v s = loop n ((v <<< 1) ||| (BitVec.ofBool (payloadAt s 0)).setWidth w) (skipBits 1 s))
    (n : Nat) (v : BitVec w) (s : State) {k : Nat} (hk : k < w) :
    (loop n v s).getLsbD k = if k < n then payloadAt s (n - 1 - k) else v.getLsbD (k - n) := by
  induction n generalizing v s with
  | zero => rw [hzero, if_neg (Nat.not_lt_zero k), Nat.sub_zero]
  | succ n ih =>
    rw [hsucc, ih]
    rcases Nat.lt_trichotomy k n with h | rfl | h
    · rw [if_pos h, if_pos (by omega), payloadAt_skipBits]
      congr 1; omega
    · rw [if_neg (Nat.lt_irrefl k), if_pos (by omega), getLsbD_shiftIn _ _ (by omega), if_pos (Nat.sub_self k)]
      congr 1; omega
    · rw [if_neg (by omega), if_neg (by omega), getLsbD_shiftIn _ _ (by omega), if_neg (by omega), Nat.sub_sub]

theorem getBits_getLsbD (n : Nat) (v : BitVec 8) (s : State) {k : Nat} (hk : k < 8) :
    (getBits n v s).1.getLsbD k = if k < n then payloadAt s (n - 1 - k) else v.getLsbD (k - n) :=
  getLsbD_of_shiftsIn (loop := fun n v s => (getBits n v s).1) (fun _ _ => rfl)
    (fun n v s => by rw [getBits, getBit_eq]) n v s hk

theorem moreBits_getLsbD (n : Nat) (v : BitVec 16) (s : State) {k : Nat} (hk : k < 16) :
    (moreBits n v s).1.getLsbD k = if k < n then payloadAt s (n - 1 - k) else v.getLsbD (k - n) :=
  getLsbD_of_shiftsIn (loop := fun n v s => (moreBits n v s).1) (fun _ _ => rfl)
    (fun n v s => by
      rw [moreBits, getBit_eq, BitVec.add_eq_or_of_and_eq_zero _ _ (shiftLeft_one_and_bit v _)]) n v s hk

theorem getByte_spells (s : State) : Spells s (topBits 8 (getByte s).1) := by
  refine spells_topBits_iff.2 fun k hk => ?_
  rw [BitVec.getMsbD_eq_getLsbD, getByte, getBits_getLsbD 8 0 s (by omega), if_pos (by omega), decide_eq_true hk, Bool.true_and]
  congr 1; omega

/-! ### The offset read -/

theorem getByte_snd (s : State) : (getByte s).2 = skipBits 8 s := getByte_state s

theorem moreBits_snd (n : Nat) (v : BitVec 16) (s : State) : (moreBits n v s).2 = skipBits n s := moreBits_state n v s

/-- What DECODE_POSITION has shifted in after the first byte and `l - 2` more bits. -/
def shiftedIn (l : Nat) (s : State) : BitVec 16 := (moreBits (l - 2) ((getByte s).1.setWidth 16) (getByte s).2).1

theorem decodePosition_fst (P : PosTable) (s : State) : (decodePosition s P).1 =
    (BitVec.ofNat 12 (dCode (getByte s).1 P) <<< 6) ||| (shiftedIn (dLen (getByte s).1 P) s &&& 0x3F).setWidth 12 := rfl

/-- With the first byte and `l - 2` more bits the six bits after a code of `l` bits are read, as the lowest. -/
theorem shiftedIn_spells {s : State} {l : Nat} (hl : 3 ≤ l) (h8 : l ≤ 8) :
    Spells (skipBits l s) (topBits 6 ((shiftedIn l s).setWidth 6)) := by
  refine spells_topBits_iff.2 fun k hk => ?_
  rw [payloadAt_skipBits, BitVec.getMsbD_eq_getLsbD, BitVec.getLsbD_setWidth, shiftedIn, moreBits_getLsbD _ _ _ (by omega),
    getByte_snd, payloadAt_skipBits, decide_eq_true hk, decide_eq_true (show 6 - 1 - k < 6 by omega), Bool.true_and, Bool.true_and]
  split_ifs with hlate
  · congr 1; omega
  · rw [BitVec.getLsbD_setWidth, getByte, getBits_getLsbD _ _ _ (by omega), if_pos (by omega), decide_eq_true (by omega),
      Bool.true_and]
    congr 1; omega

theorem joinedOffset_toNat {i : Nat} (hi : i < 64) (v : BitVec 16) :
    ((BitVec.ofNat 12 i <<< 6) ||| (v &&& 0x3F).setWidth 12).toNat = 64 * i + v.toNat % 64 := by
  have hlow : v.toNat &&& (63 : BitVec 16).toNat = v.toNat % 64 := Nat.and_two_pow_sub_one_eq_mod v.toNat 6
  have hhigh : (i % 2 ^ 12) <<< 6 % 2 ^ 12 = i <<< 6 := by
    rw [Nat.shiftLeft_eq, Nat.shiftLeft_eq]
    omega
  rw [BitVec.toNat_or, BitVec.toNat_shiftLeft, BitVec.toNat_setWidth, BitVec.toNat_and, BitVec.toNat_ofNat, hlow, hhigh,
    Nat.mod_eq_of_lt (by omega), ← Nat.shiftLeft_add_eq_or_of_lt (Nat.mod_lt _ (by decide)), Nat.shiftLeft_eq, Nat.mul_comm]

/-- The high part of the offset DECODE_POSITION returns is the code its first byte begins with, the low part what it reads last. -/
theorem decodePosition_offset {P : PosTable} (hP : LegalTable P) (s : State) :
    (decodePosition s P).1.toNat / 64 = dCode (getByte s).1 P
      ∧ (decodePosition s P).1.setWidth 6 = (shiftedIn (dLen (getByte s).1 P) s).setWidth 6 := by
  obtain ⟨hi, -⟩ := hP.dCode_spec (getByte s).1
  have hnat := joinedOffset_toNat hi (shiftedIn (dLen (getByte s).1 P) s)
  refine ⟨?_, BitVec.eq_of_toNat_eq ?_⟩
  · rw [decodePosition_fst, hnat]
    omega
  · rw [decodePosition_fst, BitVec.toNat_setWidth, BitVec.toNat_setWidth, hnat]
    omega

/-- The payload goes on with the code of the offset DECODE_POSITION returns. -/
theorem decodePosition_spells {P : PosTable} (hP : LegalTable P) (s : State) : Spells s (posBits (decodePosition s P).1 P) := by
  obtain ⟨hi, -⟩ := hP.dCode_spec (getByte s).1
  obtain ⟨h3, h8⟩ := hP.posLen_bounds hi
  obtain ⟨hhigh, hlow⟩ := decodePosition_offset hP s
  have hbyte := spells_topBits_iff.1 (getByte_spells s)
  rw [spells_posBits_iff, hhigh, hlow]
  refine ⟨?_, shiftedIn_spells h3 h8⟩
  rw [← hP.topBits_dCode]
  exact spells_topBits_iff.2 fun k hk => hbyte k (hk.trans_le h8)

/-- Only the bits of that code are consumed. -/
theorem decodePosition_snd {P : PosTable} (hP : LegalTable P) (s : State) :
    (decodePosition s P).2 = skipBits (posBits (decodePosition s P).1 P).length s := by
  obtain ⟨hi, -⟩ := hP.dCode_spec (getByte s).1
  obtain ⟨h3, -⟩ := hP.posLen_bounds hi
  obtain ⟨hhigh, -⟩ := decodePosition_offset hP s
  rw [posBits_length, hhigh, decodePosition, moreBits_snd, getByte_snd, skipBits_skipBits]
  congr 1
  rw [dLen]
  omega

/-- Where the payload goes on with a position code, its first byte begins with the code of the high part. -/
theorem LegalTable.high_of_spells {P : PosTable} (hP : LegalTable P) {s : State} {o : BitVec 12} (h : Spells s (posBits o P)) :
    o.toNat / 64 = dCode (getByte s).1 P := by
  obtain ⟨hcode, -⟩ := spells_posBits_iff.1 h
  obtain ⟨-, h8⟩ := hP.posLen_bounds (offset_high_lt o)
  refine hP.eq_dCode (offset_high_lt o) (topBits_congr fun k hk => ?_)
  rw [← spells_topBits_iff.1 (getByte_spells s) k (hk.trans_le h8), spells_topBits_iff.1 hcode k hk]

/-- The payload goes on with one position code at most (R47). -/
theorem LegalTable.offset_unique {P : PosTable} (hP : LegalTable P) {s : State} {o o' : BitVec 12}
    (h : Spells s (posBits o P)) (h' : Spells s (posBits o' P)) : o = o' := by
  have hhigh := (hP.high_of_spells h).trans (hP.high_of_spells h').symm
  obtain ⟨-, hlow⟩ := spells_posBits_iff.1 h
  obtain ⟨-, hlow'⟩ := spells_posBits_iff.1 h'
  rw [← hhigh] at hlow'
  have hsix : o.setWidth 6 = o'.setWidth 6 := BitVec.eq_of_getMsbD_eq fun k hk =>
    (spells_topBits_iff.1 hlow k hk).symm.trans (spells_topBits_iff.1 hlow' k hk)
  have hnat := congrArg BitVec.toNat hsix
  rw [BitVec.toNat_setWidth, BitVec.toNat_setWidth] at hnat
  exact BitVec.eq_of_toNat_eq (by omega)

/-- DECODE_POSITION reads the position code the payload goes on with (R84). -/
theorem execDecodePosition_of_spells {P : PosTable} (hP : LegalTable P) {s : State} {o : BitVec 12} (h : Spells s (posBits o P)) :
    execDecodePosition s P = .next (setRet (o.setWidth 16) (skipBits (posBits o P).length s)) := by
  rw [execDecodePosition, decodePosition_snd hP, hP.offset_unique (decodePosition_spells hP s) h]

/-- Settles O22: what DECODE_POSITION returns is the one offset whose code the payload goes on with. -/
theorem decodePositionReadsOneCode : Obligations.DecodePositionReadsOneCode := by
  unfold Obligations.DecodePositionReadsOneCode
  exact ⟨fun P s o hP h => execDecodePosition_of_spells hP h, fun P s hP => ⟨_, decodePosition_spells hP s⟩,
    fun s o h => execDecodePosition_of_spells legalTable_default h⟩

end Sys2Proof.Machine

/-! PROOFS. The write side of the bit channel: PUT_CODE, FLUSH and reading back what they wrote (R91 to R95, R99). -/

namespace Sys2Proof.Machine

open Sys2Proof

/-! ### PUT_CODE (R92) -/

theorem exec_putCode (l : BitVec 6) (v : BitVec 32) (s : State) : exec (.putCode l v) s = .next (putCode l.toNat v s) := rfl

/-- Settles O15: PUT_CODE writes the top bits of its operand, and fewer than 8 + 32 bits fill at most four bytes. -/
theorem putCodeAppendsTheTopBits : Obligations.PutCodeAppendsTheTopBits := by
  unfold Obligations.PutCodeAppendsTheTopBits
  intro s l v w hw hroom hl
  have hpending := hw.1
  have h := putCode_written v w hw (l := l.toNat) (by omega)
  have hcount := h.count
  rw [topBits_length] at hcount
  exact ⟨_, exec_putCode l v s, h.written, h.writer, h.outLen_le, by omega, h.appends, putCode_frame l.toNat v s⟩

/-! ### FLUSH (R94) -/

/-- The state FLUSH leaves where bits are pending. -/
def flushed (s : State) : State := { outAppend (s.wr.acc.extractLsb' 24 8) s with wr := { acc := 0, cnt := 0 } }

theorem exec_flush_of_none {s : State} (h : s.wr.cnt = 0) : exec .flush s = .next s :=
  congrArg Host.Outcome.next (if_neg (by rw [h]; decide))

theorem exec_flush_of_pending {s : State} (h : s.wr.cnt ≠ 0) : exec .flush s = .next (flushed s) :=
  congrArg Host.Outcome.next (if_pos (by bv_omega))

theorem putBit_false (s : State) :
    putBit false s = if s.wr.cnt + 1 = 8 then flushed s else { s with wr := { acc := s.wr.acc, cnt := s.wr.cnt + 1 } } := by
  simp [putBit, flushed]

theorem putZeros_eq_flushed (n i : Nat) (s : State) (h : s.wr.cnt.toNat + (n + 1) = 8) :
    forUp (fun _ => putBit false) (n + 1) i s = flushed s := by
  induction n generalizing i s with
  | zero => rw [forUp, forUp, putBit_false, if_pos (by bv_omega)]
  | succ n ih =>
    rw [forUp, putBit_false, if_neg (by bv_omega), ih _ _ (by dsimp only; bv_omega)]
    rfl

/-- FLUSH with bits pending is PUT_CODE of the zeros that fill their byte. -/
theorem putCode_zeros_eq_flushed {s : State} (hw : WriterOk s) : putCode (8 - s.wr.cnt.toNat) 0 s = flushed s := by
  obtain ⟨n, hn⟩ : ∃ n, 8 - s.wr.cnt.toNat = n + 1 := ⟨7 - s.wr.cnt.toNat, by have := hw.1; omega⟩
  simp only [hn, putCode, BitVec.ofNat_eq_ofNat, BitVec.getMsbD_zero]
  exact putZeros_eq_flushed n 0 s (by omega)

theorem topBits_zero (w n : Nat) : topBits n (0 : BitVec w) = List.replicate n false := by
  simp [topBits, List.map_const']

theorem flushed_written {s : State} (w : Memory.wf s = true) (hw : WriterOk s) (hroom : Room 1 s) :
    Written s (flushed s) (List.replicate (8 - s.wr.cnt.toNat) false) := by
  have hpending := hw.1
  rw [← putCode_zeros_eq_flushed hw, ← topBits_zero 32]
  exact putCode_written 0 w hw (by omega)

/-- Settles O16: FLUSH writes as many zeros as fill the pending byte, and that byte goes to `OUT[OUT_LEN]` alone. -/
theorem flushWritesThePendingBits : Obligations.FlushWritesThePendingBits := by
  unfold Obligations.FlushWritesThePendingBits
  refine ⟨by decide, fun s w hw hroom => ⟨exec_flush_of_none, fun h => ?_⟩⟩
  exact ⟨flushed s, exec_flush_of_pending h, (outAt_outAppend w _ _).trans (if_pos rfl), (flushed_written w hw hroom).written,
    fun a ha => (outAt_outAppend w _ a).trans (if_neg ha), rfl⟩

/-! ### Reading back (R99) -/

theorem topBits_getD {w : Nat} (n : Nat) (v : BitVec w) (k : Nat) :
    (topBits n v).getD k false = (decide (k < n) && v.getMsbD k) := by
  by_cases hk : k < n <;> simp [topBits, List.getD_eq_getElem?_getD, hk]

theorem outBits_succ (s : State) (start n : Nat) : outBits s start (n + 1) = outBits s start n ++ topBits 8 (outAt s (start + n)) := by
  rw [outBits, List.range_succ, List.flatMap_append, List.flatMap_singleton, outBits]

theorem outBits_length (s : State) (start n : Nat) : (outBits s start n).length = 8 * n := by
  induction n with
  | zero => rfl
  | succ n ih => rw [outBits_succ, List.length_append, ih, topBits_length, Nat.mul_succ]

/-- Bit `k` of a run of output bytes is bit `k mod 8`, from the top, of its byte `k / 8`. -/
theorem outBits_getD (s : State) (start n k : Nat) : (outBits s start n).getD k false =
    if k / 8 < n then (outAt s (start + k / 8)).getMsbD (k % 8) else false := by
  induction n with
  | zero => rw [if_neg (Nat.not_lt_zero _)]; rfl
  | succ n ih =>
    have hlength := outBits_length s start n
    rw [outBits_succ]
    by_cases hk : k / 8 < n
    · rw [List.getD_append _ _ _ _ (by omega), ih, if_pos hk, if_pos (by omega)]
    · rw [List.getD_append_right _ _ _ _ (by omega), hlength, topBits_getD]
      by_cases hlast : k / 8 = n
      · rw [if_pos (by omega), hlast, show k - 8 * n = k % 8 by omega, decide_eq_true (Nat.mod_lt k (by decide)), Bool.true_and]
      · rw [if_neg (by omega), decide_eq_false (by omega), Bool.false_and]

/-- Zeros after a bit string do not show to a reader that reads zeros past its end. -/
theorem getD_append_zeros (bits : List Bool) (m k : Nat) : (bits ++ List.replicate m false).getD k false = bits.getD k false := by
  rcases Nat.lt_or_ge k bits.length with hk | hk
  · exact List.getD_append _ _ _ _ hk
  · rw [List.getD_append_right _ _ _ _ hk, List.getD_eq_default _ _ hk, List.getD_eq_getElem?_getD,
      List.getElem?_getD_replicate_default_eq]

/-- With nothing pending the payload bits of `OUT` are the bits written after the header. -/
theorem payloadBit_of_out {u : State} (h : u.wr.cnt = 0) (k : Nat) :
    payloadBit { u with inBuf := u.outBuf, inLen := u.outLen } k = (writtenBits u).getD (32 + k) false := by
  have hbyte : (32 + k) / 8 = 4 + k / 8 := by omega
  have hbit : (32 + k) % 8 = k % 8 := by omega
  have hlow : (outAt u (4 + k / 8)).getLsbD (7 - k % 8) = (outAt u (4 + k / 8)).getMsbD (k % 8) := by
    rw [BitVec.getMsbD_eq_getLsbD, decide_eq_true (Nat.mod_lt k (by decide)), Bool.true_and]
  have hwritten : writtenBits u = outBits u 0 u.outLen.toNat := by rw [writtenBits, h]; exact List.append_nil _
  rw [hwritten, outBits_getD, hbyte, hbit, Nat.zero_add, ← hlow]
  rfl

/-- Settles O19: FLUSH leaves nothing pending, and the zeros it writes read like the end of the input. -/
theorem flushedOutputReadsBackAsWritten : Obligations.FlushedOutputReadsBackAsWritten := by
  unfold Obligations.FlushedOutputReadsBackAsWritten
  intro s u w hw hroom _ e k
  rw [List.getD_eq_getElem?_getD, List.getElem?_drop, ← List.getD_eq_getElem?_getD]
  by_cases h : s.wr.cnt = 0
  · obtain rfl := next_inj ((exec_flush_of_none h).symm.trans e)
    exact payloadBit_of_out h k
  · obtain rfl := next_inj ((exec_flush_of_pending h).symm.trans e)
    rw [payloadBit_of_out rfl, (flushed_written w hw hroom).written, getD_append_zeros]

end Sys2Proof.Machine

/-! PROOFS. The read side of the bit channel: GET_BIT, GET_BYTE and the shift register that delivers the same bits (R95 to R98). -/

namespace Sys2Proof.Machine

open Sys2Proof

/-! ### GET_BIT and GET_BYTE (R96, R97) -/

theorem exec_getBit (s : State) : exec .getBit s = .next (setRet (if payloadAt s 0 then 1 else 0) (skipBits 1 s)) := by
  show execGetBit s = _
  rw [execGetBit, getBit_eq]
  cases payloadAt s 0 <;> rfl

theorem exec_getByte (s : State) : exec .getByte s = .next (setRet ((getByte s).1.setWidth 16) (skipBits 8 s)) := by
  rw [← getByte_snd]
  rfl

/-- Bit `k` of the byte GET_BYTE returns, counted from the top, is the payload bit `k` places on. -/
theorem getByte_getMsbD (s : State) {k : Nat} (hk : k < 8) : (getByte s).1.getMsbD k = payloadAt s k :=
  (spells_topBits_iff.1 (getByte_spells s) k hk).symm

theorem payloadAt_zero (s : State) : payloadAt s 0 = payloadBit s s.rdBitpos.toNat := by rw [payloadAt, BitVec.add_zero]

/-- Settles O17: GET_BIT returns the bit at the cursor, and the payload is as R95 says. -/
theorem getBitDeliversThePayloadBit : Obligations.GetBitDeliversThePayloadBit := by
  unfold Obligations.GetBitDeliversThePayloadBit
  refine ⟨by decide, fun s => ⟨?_, fun _ => rfl⟩⟩
  rw [exec_getBit, payloadAt_zero]
  rfl

/-- Settles O18: the byte has the next eight payload bits, and zero-extending it to `ret` adds none. -/
theorem getByteIsEightPayloadBits : Obligations.GetByteIsEightPayloadBits := by
  unfold Obligations.GetByteIsEightPayloadBits
  refine ⟨by decide, fun s => ⟨_, exec_getByte s, rfl, ?_, fun k hk => ?_⟩⟩
  · rw [setRet_ret, BitVec.toNat_setWidth_of_le (by decide)]
    exact (getByte s).1.isLt
  · rw [setRet_ret, BitVec.getLsbD_setWidth, ← getByte_getMsbD s hk, BitVec.getMsbD_eq_getLsbD, decide_eq_true hk,
      decide_eq_true (show 7 - k < 16 by omega)]

/-! ### The shift register (R98) -/

/-- The byte the register loads next, 0 past the end of the input, is the eight payload bits after those it holds. -/
theorem loadedByte_getMsbD {s : State} {g : ReadReg} (h : g.Holds s) {k : Nat} (hk : k < 8) :
    (if g.ptr < s.inLen.toNat then inAt s g.ptr else 0 : Byte).getMsbD k = payloadBit s (s.rdBitpos.toNat + g.cnt + k) := by
  obtain ⟨-, haligned, hptr, -⟩ := h
  have hbyte : (s.rdBitpos.toNat + g.cnt + k) / 8 = (s.rdBitpos.toNat + g.cnt) / 8 := by omega
  have hbit : (s.rdBitpos.toNat + g.cnt + k) % 8 = k := by omega
  rw [payloadBit, hbyte, hbit]
  by_cases hin : g.ptr < s.inLen.toNat
  · have hat : g.ptr = 4 + (s.rdBitpos.toNat + g.cnt) / 8 := hptr.resolve_right fun hend => absurd hend.1 (by omega)
    rw [if_pos hin, ← hat, if_pos hin, BitVec.getMsbD_eq_getLsbD, decide_eq_true hk, Bool.true_and]
    rfl
  · rw [if_neg hin, if_neg (by omega)]
    exact BitVec.getMsbD_zero

/-- A byte loaded under `c` bits stands right after them. -/
theorem getMsbD_loadedByte (b : Byte) {c : Nat} (hc : c ≤ 8) (k : Nat) :
    (b.setWidth 16 <<< (8 - c)).getMsbD k = (decide (c ≤ k) && b.getMsbD (k - c)) := by
  rw [BitVec.getMsbD_shiftLeft, BitVec.getMsbD_setWidth]
  by_cases hk : c ≤ k
  · rw [decide_eq_true hk, decide_eq_true (by omega)]
    congr 2; omega
  · rw [decide_eq_false hk, decide_eq_false (by omega), Bool.false_and, Bool.false_and]

/-- A round of the refill keeps the register's contract. -/
theorem ReadReg.Holds.load {s : State} {g : ReadReg} (h : g.Holds s) (hroom : g.cnt ≤ 8) : (g.load s).Holds s := by
  have hbyte {k : Nat} (hk : k < 8) := loadedByte_getMsbD h hk
  obtain ⟨-, haligned, hptr, hbits⟩ := h
  unfold ReadReg.load
  generalize (if g.ptr < s.inLen.toNat then inAt s g.ptr else 0 : Byte) = b at *
  refine ⟨show g.cnt + 8 ≤ 16 by omega, show (s.rdBitpos.toNat + (g.cnt + 8)) % 8 = 0 by omega, ?_, fun k hk => ?_⟩
  · show _ = 4 + (s.rdBitpos.toNat + (g.cnt + 8)) / 8 ∨ _ ∧ s.inLen.toNat ≤ 4 + (s.rdBitpos.toNat + (g.cnt + 8)) / 8
    dsimp only
    split <;> omega
  · rw [BitVec.getMsbD_or, hbits k hk, getMsbD_loadedByte b hroom]
    show _ = (decide (k < g.cnt + 8) && _)
    rcases Nat.lt_or_ge k g.cnt with hold | hnew
    · simp [hold, show ¬ g.cnt ≤ k by omega, show k < g.cnt + 8 by omega]
    · rcases Nat.lt_or_ge (k - g.cnt) 8 with hin | hpast
      · rw [hbyte hin, show s.rdBitpos.toNat + g.cnt + (k - g.cnt) = s.rdBitpos.toNat + k by omega]
        simp [hnew, hnew.not_gt, show k < g.cnt + 8 by omega]
      · rw [BitVec.getMsbD_of_ge b _ hpast]
        simp [hnew.not_gt, show ¬ k < g.cnt + 8 by omega]

/-- The refill keeps the register's contract and leaves more than eight bits in it. -/
theorem ReadReg.Holds.refill {s : State} {g : ReadReg} (h : g.Holds s) : (g.refill s).Holds s ∧ 8 < (g.refill s).cnt := by
  unfold ReadReg.refill
  by_cases hlow : g.cnt ≤ 8
  · rw [if_pos hlow]
    by_cases hlow' : (g.load s).cnt ≤ 8
    · rw [if_pos hlow']
      exact ⟨(h.load hlow).load hlow', Nat.lt_add_of_pos_left (Nat.succ_pos _)⟩
    · rw [if_neg hlow']
      exact ⟨h.load hlow, Nat.lt_of_not_le hlow'⟩
  · rw [if_neg hlow]
    exact ⟨h, Nat.lt_of_not_le hlow⟩

theorem skipBits_rdBitpos_toNat {s : State} {n : Nat} (h : s.rdBitpos.toNat + n < 2 ^ 64) :
    (skipBits n s).rdBitpos.toNat = s.rdBitpos.toNat + n := by
  have hn : (BitVec.ofNat 64 n).toNat = n := Nat.mod_eq_of_lt (by omega)
  rw [skipBits_rdBitpos, BitVec.toNat_add_of_lt (by rwa [hn]), hn]

/-- Shifting `n` bits out of the register goes with moving the cursor on by `n`. -/
theorem ReadReg.Holds.shift {s : State} {g : ReadReg} {n : Nat} (h : g.Holds s) (hn : n ≤ g.cnt)
    (hpos : s.rdBitpos.toNat + n < 2 ^ 64) : ReadReg.Holds (skipBits n s) { acc := g.acc <<< n, cnt := g.cnt - n, ptr := g.ptr } := by
  obtain ⟨hcnt, haligned, hptr, hbits⟩ := h
  have hsum : s.rdBitpos.toNat + n + (g.cnt - n) = s.rdBitpos.toNat + g.cnt := by omega
  rw [ReadReg.Holds, skipBits_rdBitpos_toNat hpos]
  dsimp only
  rw [hsum]
  refine ⟨by omega, haligned, hptr, fun k _ => ?_⟩
  rw [BitVec.getMsbD_shiftLeft, Nat.add_right_comm, Nat.add_assoc]
  rcases Nat.lt_or_ge (k + n) 16 with hin | hpast
  · rw [hbits _ hin]
    congr 1
    exact decide_eq_decide.2 (by omega)
  · rw [BitVec.getMsbD_of_ge _ _ hpast, decide_eq_false (by omega), Bool.false_and]

/-- Below its count the register's bits are the next payload bits. -/
theorem ReadReg.Holds.getMsbD_eq {s : State} {g : ReadReg} {k : Nat} (h : g.Holds s) (hk : k < g.cnt)
    (hpos : s.rdBitpos.toNat + k < 2 ^ 64) : g.acc.getMsbD k = payloadAt s k := by
  obtain ⟨hcnt, -, -, hbits⟩ := h
  rw [hbits k (hk.trans_le hcnt), decide_eq_true hk, Bool.true_and, ← skipBits_rdBitpos_toNat hpos]
  rfl

theorem ReadReg.Holds.getBit_fst {s : State} {g : ReadReg} (h : g.Holds s) : (g.getBit s).1 = payloadAt s 0 := by
  obtain ⟨hholds, hcnt⟩ := h.refill
  exact hholds.getMsbD_eq (k := 0) (by omega) s.rdBitpos.isLt

theorem ReadReg.Holds.getByte_fst {s : State} {g : ReadReg} (h : g.Holds s) (hpos : s.rdBitpos.toNat + 8 < 2 ^ 64) :
    (g.getByte s).1 = (Machine.getByte s).1 := by
  obtain ⟨hholds, hcnt⟩ := h.refill
  refine BitVec.eq_of_getMsbD_eq fun k hk => ?_
  rw [getByte_getMsbD s hk, ← hholds.getMsbD_eq (hk.trans hcnt) (by omega), ReadReg.getByte, BitVec.getMsbD_eq_getLsbD,
    BitVec.getMsbD_eq_getLsbD, BitVec.getLsbD_extractLsb', decide_eq_true hk, decide_eq_true (show 8 - 1 - k < 8 by omega),
    decide_eq_true (show k < 16 by omega)]
  simp only [Bool.true_and]
  congr 1; omega

theorem ReadReg.start_holds {s : State} (h : s.rdBitpos = 0) : ReadReg.start.Holds s := by
  rw [ReadReg.Holds, h]
  exact ⟨by decide, by decide, .inl rfl, fun k _ => BitVec.getMsbD_zero⟩

/-- Settles O20: the refill keeps the register's contract, so its first bits are the next payload bits; shifting them out goes with
moving the cursor on. -/
theorem shiftRegisterDeliversTheSameBits : Obligations.ShiftRegisterDeliversTheSameBits := by
  unfold Obligations.ShiftRegisterDeliversTheSameBits
  refine ⟨fun s => ReadReg.start_holds, fun s g h hpos => ?_⟩
  obtain ⟨hholds, hcnt⟩ := h.refill
  refine ⟨⟨_, exec_getBit s, ?_, hholds.shift (n := 1) (by omega) (by omega)⟩,
    ⟨_, exec_getByte s, ?_, hholds.shift (n := 8) hcnt.le hpos⟩⟩
  · rw [h.getBit_fst, setRet_ret]
  · rw [h.getByte_fst hpos, setRet_ret]

end Sys2Proof.Machine

/-! PROOFS. Whole commands (R116, R150): a command is its steps; when it ends, and what two runs of it have in common. -/

namespace Sys2Proof.Machine

open Sys2Proof

section Runs

variable {P : PosTable} {s t u : State} {fuel n : Nat}

theorem runCommand_of_not_busy (hb : busy s = false) (fuel : Nat) : runCommand fuel s P = .ok s := by
  have hb' : ¬ busy s = true := Bool.eq_false_iff.1 hb
  cases fuel with
  | zero => exact if_neg hb'
  | succ n => exact if_neg hb'

theorem runCommand_step (hb : busy s = true) (e : coreStep s P = .ok t) (fuel : Nat) :
    runCommand (fuel + 1) s P = runCommand fuel t P := by
  rw [runCommand, if_pos hb, e, bind_ok]

theorem busy_of_phase {p : Phase} (hp : s.phase = p) : busy s = p.busy := congrArg Phase.busy hp

/-! ### Steps and runs (R150) -/

theorem coreSteps_of_rest (hb : busy s = false) (e : runCommand fuel s = .ok t) : ∃ n, n ≤ fuel ∧ coreSteps n s = .ok t
    ∧ busy t = false ∧ ∀ k u, k < n → coreSteps k s = .ok u → busy u = true := by
  rw [runCommand_of_not_busy hb] at e
  exact ⟨0, Nat.zero_le _, e, Except.ok.inj e ▸ hb, fun k u hk => absurd hk (Nat.not_lt_zero k)⟩

theorem coreSteps_of_runCommand (e : runCommand fuel s = .ok t) : ∃ n, n ≤ fuel ∧ coreSteps n s = .ok t ∧ busy t = false
    ∧ ∀ k u, k < n → coreSteps k s = .ok u → busy u = true := by
  induction fuel generalizing s with
  | zero =>
    have e0 := e
    rw [runCommand] at e
    split_ifs at e with hb
    exact coreSteps_of_rest (Bool.eq_false_iff.2 hb) e0
  | succ fuel ih =>
    by_cases hb : busy s = true
    · rw [runCommand, if_pos hb] at e
      obtain ⟨s1, e1, e2⟩ := bind_eq_ok.1 e
      obtain ⟨n, hn, hsteps, hend, hbusy⟩ := ih e2
      refine ⟨n + 1, by omega, bind_eq_ok.2 ⟨s1, e1, hsteps⟩, hend, fun k u hk hu => ?_⟩
      cases k with
      | zero => exact Except.ok.inj hu ▸ hb
      | succ k =>
        obtain ⟨s2, e2, hu⟩ := bind_eq_ok.1 hu
        obtain rfl := Except.ok.inj (e1.symm.trans e2)
        exact hbusy k u (by omega) hu
    · exact coreSteps_of_rest (Bool.eq_false_iff.2 hb) e

theorem runCommand_of_coreSteps (hn : n ≤ fuel) (hsteps : coreSteps n s = .ok t) (hend : busy t = false)
    (hbusy : ∀ k u, k < n → coreSteps k s = .ok u → busy u = true) : runCommand fuel s = .ok t := by
  induction n generalizing fuel s with
  | zero =>
    obtain rfl := Except.ok.inj hsteps
    exact runCommand_of_not_busy hend fuel
  | succ n ih =>
    obtain ⟨fuel, rfl⟩ : ∃ m, fuel = m + 1 := ⟨fuel - 1, by omega⟩
    obtain ⟨s1, e1, hsteps⟩ := bind_eq_ok.1 hsteps
    rw [runCommand_step (hbusy 0 s (by omega) rfl) e1]
    exact ih (by omega) hsteps fun k u hk hu => hbusy (k + 1) u (by omega) (bind_eq_ok.2 ⟨s1, e1, hu⟩)

theorem exec_compress_of_not_busy (hb : busy s = false) :
    exec .compress s = outcome (runCommand commandFuel (setPhase .eHdr s)) :=
  congrArg outcome (wholeCommand_of_not_busy hb)

theorem exec_decompress_of_not_busy (hb : busy s = false) :
    exec .decompress s = outcome (runCommand commandFuel (setPhase .dHdr s)) :=
  congrArg outcome (wholeCommand_of_not_busy hb)

theorem wholeCommand_of_busy {p : Phase} (hb : busy s = true) : wholeCommand p s P = .ok s := if_pos hb

theorem runCommand_eq_ok_iff : runCommand fuel s = .ok t ↔ ∃ n, n ≤ fuel ∧ coreSteps n s = .ok t ∧ busy t = false
    ∧ ∀ k u, k < n → coreSteps k s = .ok u → busy u = true :=
  ⟨coreSteps_of_runCommand, fun ⟨_, hn, hsteps, hend, hbusy⟩ => runCommand_of_coreSteps hn hsteps hend hbusy⟩

/-- Settles O54: one round of the command is one step of the core, taken exactly while the core is busy. -/
theorem wholeCommandIsItsSteps : Obligations.WholeCommandIsItsSteps := by
  refine fun s => ⟨fun hb => ⟨congrArg outcome (wholeCommand_of_busy hb), congrArg outcome (wholeCommand_of_busy hb)⟩,
    fun hb t => ⟨?_, ?_⟩⟩
  · rw [exec_compress_of_not_busy hb, outcome_eq_next]
    exact runCommand_eq_ok_iff
  · rw [exec_decompress_of_not_busy hb, outcome_eq_next]
    exact runCommand_eq_ok_iff

/-! ### When a run ends (R151) -/

/-- A run ends when every step keeps `I`, answers, and brings `μ` down. -/
theorem runCommand_ends {I : State → Prop} {μ : State → Nat}
    (hstep : ∀ s, I s → busy s = true → ∃ t, coreStep s P = .ok t ∧ I t ∧ μ t < μ s) (hs : I s) (hfuel : μ s ≤ fuel) :
    ∃ t, runCommand fuel s P = .ok t ∧ I t ∧ busy t = false := by
  induction fuel generalizing s with
  | zero =>
    by_cases hb : busy s = true
    · obtain ⟨t, -, -, hlt⟩ := hstep s hs hb
      omega
    · exact ⟨s, if_neg hb, hs, Bool.eq_false_iff.2 hb⟩
  | succ fuel ih =>
    by_cases hb : busy s = true
    · obtain ⟨t, e, ht, hlt⟩ := hstep s hs hb
      rw [runCommand_step hb e]
      exact ih ht (by omega)
    · exact ⟨s, if_neg hb, hs, Bool.eq_false_iff.2 hb⟩

/-- More fuel changes no answer. -/
theorem runCommand_more (e : runCommand fuel s P = .ok t) (n : Nat) : runCommand (fuel + n) s P = .ok t := by
  induction fuel generalizing s with
  | zero =>
    rw [runCommand] at e
    split_ifs at e with hb
    rw [runCommand_of_not_busy (Bool.eq_false_iff.2 hb), e]
  | succ fuel ih =>
    by_cases hb : busy s = true
    · rw [runCommand, if_pos hb] at e
      obtain ⟨s1, e1, e2⟩ := bind_eq_ok.1 e
      rw [Nat.add_right_comm, runCommand_step hb e1, ih e2]
    · rw [runCommand_of_not_busy (Bool.eq_false_iff.2 hb)] at e ⊢
      exact e

/-! ### Two runs -/

/-- Two runs whose steps keep `R` end in states that stand in `R`. -/
theorem runCommand_related {R : State → State → Prop} {s' t' : State} (hphase : ∀ s s', R s s' → s'.phase = s.phase)
    (hstep : ∀ s s' t t', R s s' → busy s = true → coreStep s P = .ok t → coreStep s' P = .ok t' → R t t') (hR : R s s')
    (e : runCommand fuel s P = .ok t) (e' : runCommand fuel s' P = .ok t') : R t t' := by
  induction fuel generalizing s s' with
  | zero =>
    rw [runCommand] at e e'
    split_ifs at e e'
    exact Except.ok.inj e ▸ Except.ok.inj e' ▸ hR
  | succ fuel ih =>
    have hbb : busy s' = busy s := busy_of_phase (hphase s s' hR)
    by_cases hb : busy s = true
    · rw [runCommand, if_pos hb] at e
      rw [runCommand, if_pos (hbb.trans hb)] at e'
      obtain ⟨s1, e1, e⟩ := bind_eq_ok.1 e
      obtain ⟨s1', e1', e'⟩ := bind_eq_ok.1 e'
      exact ih (hstep s s' s1 s1' hR hb e1 e1') e e'
    · have hb' := Bool.eq_false_iff.2 hb
      rw [runCommand_of_not_busy hb'] at e
      rw [runCommand_of_not_busy (hbb.trans hb')] at e'
      exact Except.ok.inj e ▸ Except.ok.inj e' ▸ hR

/-! ### The way from one state of a run to another -/

/-- Every run from `s` passes through `t`. -/
def Reaches (P : PosTable) (s t : State) : Prop := ∃ n, ∀ fuel, runCommand (fuel + n) s P = runCommand fuel t P

theorem Reaches.refl (s : State) : Reaches P s s := ⟨0, fun _ => rfl⟩

theorem Reaches.trans (h : Reaches P s t) (h' : Reaches P t u) : Reaches P s u := by
  obtain ⟨n, hn⟩ := h
  obtain ⟨m, hm⟩ := h'
  exact ⟨m + n, fun fuel => by rw [← Nat.add_assoc, hn, hm]⟩

theorem Reaches.step (hb : busy s = true) (e : coreStep s P = .ok t) : Reaches P s t := ⟨1, runCommand_step hb e⟩

/-- A run that ends, ends in the one state at rest that it passes through. -/
theorem Reaches.end_eq (h : Reaches P s t) (hb : busy t = false) (e : runCommand fuel s P = .ok u) : u = t := by
  obtain ⟨n, hn⟩ := h
  have e' := runCommand_more e n
  rw [hn, runCommand_of_not_busy hb] at e'
  exact (Except.ok.inj e').symm

end Runs

end Sys2Proof.Machine

/-! PROOFS. DECOMPRESS row by row (R111 to R115): what each row answers, exactly. -/

namespace Sys2Proof.Machine

open Sys2Proof

/-! ### The core's step in each phase -/

section Rows

variable {P : PosTable} {s : State}

theorem coreStep_dHdr (hp : s.phase = .dHdr) : coreStep s P = stepDHdr s := by rw [coreStep, hp]

theorem coreStep_dInit (hp : s.phase = .dInit) : coreStep s P = .ok (stepDInit s) := by rw [coreStep, hp]

theorem coreStep_dSymbol (hp : s.phase = .dSymbol) : coreStep s P = stepDSymbol s P := by rw [coreStep, hp]

theorem coreStep_dCopy (hp : s.phase = .dCopy) : coreStep s P = stepDCopy s := by rw [coreStep, hp]

end Rows

/-! ### D_HDR (R32, R111, R123) -/

/-- A joined word is its high part times the weight of the low part, and the low part. -/
theorem toNat_append_eq {m n : Nat} (x : BitVec m) (y : BitVec n) : (x ++ y).toNat = x.toNat * 2 ^ n + y.toNat := by
  rw [BitVec.toNat_append, ← Nat.shiftLeft_add_eq_or_of_lt y.isLt, Nat.shiftLeft_eq]

/-- The header's value, `IN[0]` the least significant byte (R32). -/
def headerValue (s : State) : BitVec 32 := inAt s 3 ++ inAt s 2 ++ inAt s 1 ++ inAt s 0

theorem headerValue_toNat (s : State) : (headerValue s).toNat =
    (inAt s 0).toNat + 256 * (inAt s 1).toNat + 65536 * (inAt s 2).toNat + 16777216 * (inAt s 3).toNat := by
  simp only [headerValue, toNat_append_eq]
  omega

theorem readHeader_ok {s : State} (h : 4 ≤ s.inLen.toNat) : readHeader s = .ok (headerValue s) := by
  rw [readHeader, inByte_ok (by omega), inByte_ok (by omega), inByte_ok (by omega), inByte_ok (by omega)]
  rfl

theorem stepDHdr_of_short {s : State} (h : s.inLen.toNat < 4) :
    stepDHdr s = .ok (raiseFault .hdrShort s.inLen (clearResults s)) := if_pos h

theorem stepDHdr_of_header {s : State} (h : 4 ≤ s.inLen.toNat) :
    stepDHdr s = .ok (takeHeader (headerValue s) (clearResults s)) := by
  have hread : readHeader (clearResults s) = .ok (headerValue s) := readHeader_ok h
  refine (if_neg (Nat.not_lt.2 h)).trans ?_
  rw [hread, bind_ok]

/-- Settles O41: fewer than four bytes fault; else the four bytes are the header. -/
theorem decompressReadsTheHeader : Obligations.DecompressReadsTheHeader := by
  refine fun s hi hp => ⟨fun h => ?_, fun h => ?_⟩ <;> rw [step_of_no_input hi, coreStep_dHdr hp]
  · rw [stepDHdr_of_short h]
    rfl
  · rw [stepDHdr_of_header h]
    exact ⟨_, rfl, headerValue_toNat s, rfl⟩

/-! ### D_INIT (R112) -/

/-- Settles O42: START_HUFF, the fill of the window and the cursors, one field each. -/
theorem decompressInitialises : Obligations.DecompressInitialises := by
  intro s w hi hp
  obtain ⟨-, -, wtb, -, -⟩ := memory_wf_iff.1 w
  rw [step_of_no_input hi, coreStep_dInit hp]
  refine ⟨stepDInit s, rfl, ?_, fun i hlt => ?_, ?_⟩
  · rw [stepDInit_huff, exec_startHuff, setHuff]
  · rw [stepDInit_textBuf]
    exact winAt_winFill wtb hlt
  · rw [stepDInit_huff, stepDInit_textBuf, stepDInit]

/-! ### D_SYMBOL (R111, R113, R115) -/

section Symbol

variable {P : PosTable} {s : State} {c : Nat} {bits : List Bool} {g : Huffman}

/-- The code of symbol `c`, `n` bits, is read and the tree is now `g`. -/
def afterSymbol (c n : Nat) (g : Huffman) (s : State) : State := setSym c (setHuff g (skipBits n s))

theorem skipBits_afterSymbol (c m n : Nat) (g : Huffman) (s : State) :
    skipBits n (afterSymbol c m g s) = afterSymbol c (m + n) g s := by
  rw [afterSymbol, afterSymbol, ← skipBits_skipBits]
  rfl

theorem takeSymbolCode_of_code (ok : HuffOk s.huff) (hcode : IsCode s.huff c bits) (hg : update c s.huff = .ok g) :
    takeSymbolCode c s = .ok (afterSymbol c bits.length g s) := by
  obtain ⟨hc, -⟩ := ok.linksOk.isCode_iff.1 hcode
  obtain ⟨bits', v, hcode', -, -, hof, -⟩ := ok.exists_code hc
  obtain rfl := ok.linksOk.code_unique hcode hcode'
  rw [takeSymbolCode, hof, bind_ok, hg]
  rfl

theorem stepDSymbol_literal (ok : HuffOk s.huff) (hcode : IsCode s.huff c bits) (hs : Spells s bits)
    (hg : update c s.huff = .ok g) (hc : c < 256) :
    stepDSymbol s P = .ok (takeLiteral (afterSymbol c bits.length g s)) := by
  rw [stepDSymbol, decodeChar_of_code ok hcode hs hg, bind_ok]
  exact if_pos hc

theorem decodePosition_of_spells (hP : LegalTable P) {o : BitVec 12} (h : Spells s (posBits o P)) :
    decodePosition s P = (o, skipBits (posBits o P).length s) := by
  have ho := hP.offset_unique (decodePosition_spells hP s) h
  have hsnd := decodePosition_snd hP s
  rw [ho] at hsnd
  exact Prod.ext ho hsnd

theorem stepDSymbol_match (hP : LegalTable P) (ok : HuffOk s.huff) (hcode : IsCode s.huff c bits) (hs : Spells s bits)
    (hg : update c s.huff = .ok g) (hc : 256 ≤ c) {o : BitVec 12} (ho : Spells (skipBits bits.length s) (posBits o P)) :
    stepDSymbol s P = .ok (startCopy o (afterSymbol c (bits.length + (posBits o P).length) g s)) := by
  have hpos : decodePosition (afterSymbol c bits.length g s) P = (o, afterSymbol c (bits.length + (posBits o P).length) g s) := by
    rw [← skipBits_afterSymbol]
    exact decodePosition_of_spells hP ho
  rw [stepDSymbol, decodeChar_of_code ok hcode hs hg, bind_ok]
  refine (if_neg (Nat.not_lt.2 hc)).trans ?_
  rw [← afterSymbol, hpos]

end Symbol

/-- Settles O43: DECODE_CHAR and DECODE_POSITION read the codes that the payload goes on with. -/
theorem symbolStepReadsOneToken : Obligations.SymbolStepReadsOneToken := by
  intro s c bits hs hi hp hc hcode hspells
  obtain ⟨g, hg, -⟩ := update_ok hs.huffman hs.huff_wf hc
  refine ⟨fun hlit => ?_, fun hmatch o ho => ?_⟩ <;> rw [step_of_no_input hi, coreStep_dSymbol hp]
  · have hbyte : (BitVec.ofNat 8 c).toNat = c := Nat.mod_eq_of_lt hlit
    rw [stepDSymbol_literal hs.huffman hcode hspells hg hlit, exec_lit, hbyte, takeSymbolCode_of_code hs.huffman hcode hg,
      map_ok]
  · rw [stepDSymbol_match legalTable_default hs.huffman hcode hspells hg hmatch ho]
    have hsym : lenOfSym (BitVec.ofNat 9 c).toNat = BitVec.ofNat 6 (c - 253) := by
      rw [lenOfSym, BitVec.toNat_ofNat, Nat.mod_eq_of_lt (by omega)]
    refine ⟨_, rfl, hg, ?_⟩
    rw [startCopy, afterSymbol, setSym, setDec_dec, hsym]
    rfl

/-! ### D_COPY (R114, R125) -/

theorem stepDCopy_of_overrun {s : State} (h : s.dec.outCnt = s.dec.origLen) :
    stepDCopy s = .ok (raiseFault .outOverrun (s.dec.copyRem.setWidth 64) s) := if_pos h

/-- One pass of the copy: the byte at `src`, and the phase by what is left. -/
def afterCopy (s : State) : State :=
  setPhase (if 0 < (s.dec.copyRem - 1).toNat then .dCopy
    else if (s.dec.outCnt + 1).toNat < s.dec.origLen.toNat then .dSymbol else .done)
    (copyByte (winAt s.textBuf s.dec.src.toNat) s)

theorem stepDCopy_of_room {s : State} (h : s.dec.outCnt ≠ s.dec.origLen) : stepDCopy s = .ok (afterCopy s) := by
  rw [stepDCopy, if_neg h, winRead_ok (Nat.lt_trans s.dec.src.isLt (by decide)), bind_ok]
  rfl

theorem outAt_produceByte {s : State} (w : Memory.wf s = true) (c : Byte) (a : Nat) :
    outAt (produceByte c s) a = if a = s.dec.outCnt.toNat then c else outAt s a :=
  sparseGet_sparseSet (memory_wf_iff.1 w).2.1

theorem winAt_produceByte {s : State} (w : Memory.wf s = true) (c : Byte) (i : Nat) :
    winAt (produceByte c s).textBuf i = if i = s.r.toNat then c else winAt s.textBuf i :=
  winAt_winPut (memory_wf_iff.1 w).2.2.1 ..

/-- Settles O44: the pass tests the declared length, then produces the byte at `src`. -/
theorem copyStepMovesOneByteOrFaults : Obligations.CopyStepMovesOneByteOrFaults := by
  refine fun s w hi hp => ⟨fun h => ?_, fun h => ?_⟩ <;> rw [step_of_no_input hi, coreStep_dCopy hp]
  · rw [stepDCopy_of_overrun h]
    rfl
  · have hphase : (0 < (s.dec.copyRem - 1).toNat) = (s.dec.copyRem ≠ 1) := propext (by bv_omega)
    rw [stepDCopy_of_room h]
    refine ⟨afterCopy s, rfl, outAt_produceByte w _, winAt_produceByte w _, ?_⟩
    simp only [afterCopy, hphase]
    rfl

end Sys2Proof.Machine

/-! PROOFS. COMPRESS up to its first token (R106, R107): what E_HDR, E_INIT and E_PRIME answer, exactly. -/

namespace Sys2Proof.Machine

open Sys2Proof

/-! ### The core's step in each phase -/

section Rows

variable {P : PosTable} {s : State}

theorem coreStep_eHdr (hp : s.phase = .eHdr) : coreStep s P = .ok (stepEHdr s) := by rw [coreStep, hp]

theorem coreStep_eInit (hp : s.phase = .eInit) : coreStep s P = stepEInit s := by rw [coreStep, hp]

theorem coreStep_ePrime (hp : s.phase = .ePrime) : coreStep s P = stepEPrime s := by rw [coreStep, hp]

theorem coreStep_eEmit (hp : s.phase = .eEmit) : coreStep s P = stepEEmit s P := by rw [coreStep, hp]

theorem coreStep_eAdvIn (hp : s.phase = .eAdvIn) : coreStep s P = stepEAdvIn s := by rw [coreStep, hp]

theorem coreStep_eAdvDrain (hp : s.phase = .eAdvDrain) : coreStep s P = stepEAdvDrain s := by rw [coreStep, hp]

theorem coreStep_eFlush (hp : s.phase = .eFlush) : coreStep s P = .ok (stepEFlush s) := by rw [coreStep, hp]

end Rows

/-! ### E_HDR (R32, R106, R122) -/

/-- The results cleared and the four bytes of the header written (R106). -/
def withHeader (s : State) : State := (headerBytes (s.inLen.setWidth 32)).foldl (fun t v => outAppend v t) (clearResults s)

theorem withHeader_frame (s : State) : withHeader s = { s with
    faultCode := .none, faultInfo := 0, outLen := 4, outBuf := (withHeader s).outBuf } := rfl

theorem stepEHdr_of_range {s : State} (h : 2 ^ 32 ≤ s.inLen.toNat) :
    stepEHdr s = raiseFault .lenRange s.inLen (clearResults s) := if_pos h

theorem stepEHdr_of_header {s : State} (h : s.inLen.toNat < 2 ^ 32) :
    stepEHdr s = setPhase (if s.inLen = 0 then .done else .eInit) (withHeader s) := if_neg (Nat.not_le.2 h)

theorem outBuf_outAppend_wf {s : State} (w : sparseWf bufferDefault 0 (2 ^ 64) s.outBuf = true) (v : Byte) :
    sparseWf bufferDefault 0 (2 ^ 64) (outAppend v s).outBuf = true :=
  sparseWf_sparseSet w (Nat.zero_le _) s.outLen.isLt

/-- Byte `k` of a length (R32). -/
def lengthByte (n : BitVec 64) (k : Nat) : Byte := n.extractLsb' (8 * k) 8

theorem extractLsb'_setWidth_low (n : BitVec 64) {k : Nat} (hk : k ≤ 24) :
    (n.setWidth 32).extractLsb' k 8 = n.extractLsb' k 8 := by
  refine BitVec.eq_of_getLsbD_eq fun i hi => ?_
  rw [BitVec.getLsbD_extractLsb', BitVec.getLsbD_extractLsb', BitVec.getLsbD_setWidth, decide_eq_true (by omega : k + i < 32),
    Bool.true_and]

/-- The four bytes of a length below 2^32 spell it. -/
theorem lengthByte_sum {n : BitVec 64} (h : n.toNat < 2 ^ 32) : (lengthByte n 0).toNat + 256 * (lengthByte n 1).toNat
    + 65536 * (lengthByte n 2).toNat + 16777216 * (lengthByte n 3).toNat = n.toNat := by
  simp only [lengthByte, BitVec.extractLsb'_toNat, Nat.shiftRight_eq_div_pow]
  omega

theorem outAt_withHeader (s : State) {k : Nat} (hk : k < 4) : outAt (withHeader s) k = lengthByte s.inLen k := by
  have w0 : sparseWf bufferDefault 0 (2 ^ 64) (clearResults s).outBuf = true := rfl
  have w1 := outBuf_outAppend_wf w0 ((s.inLen.setWidth 32).extractLsb' 0 8)
  have w2 := outBuf_outAppend_wf w1 ((s.inLen.setWidth 32).extractLsb' 8 8)
  have w3 := outBuf_outAppend_wf w2 ((s.inLen.setWidth 32).extractLsb' 16 8)
  have h3 := sparseGet_sparseSet (i := 3) (j := k) (x := (s.inLen.setWidth 32).extractLsb' 24 8) w3
  have h2 := sparseGet_sparseSet (i := 2) (j := k) (x := (s.inLen.setWidth 32).extractLsb' 16 8) w2
  have h1 := sparseGet_sparseSet (i := 1) (j := k) (x := (s.inLen.setWidth 32).extractLsb' 8 8) w1
  have h0 := sparseGet_sparseSet (i := 0) (j := k) (x := (s.inLen.setWidth 32).extractLsb' 0 8) w0
  refine h3.trans ?_
  rcases (by omega : k = 0 ∨ k = 1 ∨ k = 2 ∨ k = 3) with rfl | rfl | rfl | rfl
  · exact h2.trans (h1.trans (h0.trans (extractLsb'_setWidth_low s.inLen (by omega))))
  · exact h2.trans (h1.trans (extractLsb'_setWidth_low s.inLen (by omega)))
  · exact h2.trans (extractLsb'_setWidth_low s.inLen (by omega))
  · exact extractLsb'_setWidth_low s.inLen (by omega)

/-- Settles O37: the length is tested, then its four bytes are appended to the empty `OUT`. -/
theorem compressWritesTheHeader : Obligations.CompressWritesTheHeader := by
  refine ⟨by decide, by decide, fun s hi hp => ⟨fun h => ?_, fun h => ?_⟩⟩ <;> rw [step_of_no_input hi, coreStep_eHdr hp]
  · rw [stepEHdr_of_range h]
    rfl
  · rw [stepEHdr_of_header h]
    exact ⟨_, rfl, rfl, outAt_withHeader s (k := 0) (by omega), outAt_withHeader s (k := 1) (by omega),
      outAt_withHeader s (k := 2) (by omega), outAt_withHeader s (k := 3) (by omega), rfl⟩

/-! ### E_INIT (R107) -/

/-- The preload writes the window, `in_pos` and `len` alone. -/
theorem preload_frame {n : Nat} {s t : State} (e : preload n s = .ok t) :
    t = { s with textBuf := t.textBuf, enc := { s.enc with inPos := t.enc.inPos, len := t.enc.len } } := by
  induction n generalizing s with
  | zero => exact Except.ok.inj e ▸ rfl
  | succ n ih =>
    unfold preload at e
    split_ifs at e
    · obtain ⟨c, -, e⟩ := bind_eq_ok.1 e
      have := ih e
      exact this
    · exact Except.ok.inj e ▸ rfl

/-- What E_INIT overwrites stands as it leaves it: such a state is safe where its memory is canonical. -/
def tidied (s : State) : State := { s with wr := { acc := 0, cnt := 0 }, huff := initialTree, mf := { s.mf with matchLength := 0 } }

theorem tidied_safe {s : State} (w : Memory.wf s = true) : Safe (tidied s) := by
  obtain ⟨win, wout, wtb, wmf, -⟩ := memory_wf_iff.1 w
  exact ⟨memory_wf_iff.2 ⟨win, wout, wtb, wmf, rfl⟩, writerOk_empty s, initialTree_huffOk, Nat.zero_le _⟩

theorem initEncode_tidied {s : State} (w : Memory.wf s = true) : initEncode (tidied s) = initEncode s := by
  obtain ⟨-, -, -, -, wh⟩ := memory_wf_iff.1 w
  have hh : startHuff initialTree = startHuff s.huff := (startHuff_eq rfl).trans (startHuff_eq wh).symm
  simp only [initEncode, tidied, hh, initTree]

/-- The preload takes the first bytes of the input, 60 at most. -/
theorem stepEInit_preloaded {s : State} (w : Memory.wf s = true) : ∃ t, stepEInit s = .ok (setPhase .ePrime t)
    ∧ Preloaded t (min s.inLen.toNat 60) ∧ t = { initEncode s with
      textBuf := t.textBuf, enc := { (initEncode s).enc with inPos := t.enc.inPos, len := t.enc.len } } := by
  have hstart := Preloaded.start (tidied_safe w)
  rw [initEncode_tidied w] at hstart
  obtain ⟨t, k, hrun, hp, -, hfull, -, -, hlen⟩ := preload_ok (n := 60) hstart (by omega)
  have hk : k = min s.inLen.toNat 60 := by
    have hbound := hp.bound
    rw [initEncode_inLen] at hlen
    rw [hlen] at hbound hfull
    omega
  exact ⟨t, by rw [stepEInit, hrun, bind_ok], hk ▸ hp, preload_frame hrun⟩

theorem exec_initTree_links (s : State) : exec .initTree s = .next { s with mf := { s.mf with
    lson := (initTree s.mf).lson, rson := (initTree s.mf).rson, dad := (initTree s.mf).dad } } := by
  rw [exec_initTree, setMf, initTree]

theorem Preloaded.window {s : State} {k i : Nat} (h : Preloaded s k) (hi : i < 4155) : winAt s.textBuf i =
    if 4036 ≤ i ∧ i < 4036 + k then inAt s (i - 4036) else Config.FILL := by
  split_ifs with hin
  · have := h.loaded (i - 4036) (by omega)
    rwa [Nat.add_sub_cancel' hin.1] at this
  · exact h.fill i hi (by omega)

/-! ### E_PRIME (R107) -/

/-- A loop answers exactly when its rounds do, one after the other. -/
theorem forUpM_eq_ok_iff {σ : Type} {f : Nat → σ → Res σ} {n i : Nat} {a b : σ} : forUpM f n i a = .ok b ↔
    ∃ g : Nat → σ, g 0 = a ∧ (∀ k, k < n → f (k + i) (g k) = .ok (g (k + 1))) ∧ g n = b := by
  induction n generalizing i a with
  | zero => exact ⟨fun e => ⟨fun _ => a, rfl, fun k hk => absurd hk (Nat.not_lt_zero k), Except.ok.inj e⟩,
      fun ⟨g, h0, _, hn⟩ => congrArg Except.ok (h0.symm.trans hn)⟩
  | succ n ih =>
    refine ⟨fun e => ?_, fun ⟨g, h0, hg, hn⟩ => ?_⟩
    · obtain ⟨a', e1, e2⟩ := bind_eq_ok.1 e
      obtain ⟨g, h0, hg, hn⟩ := ih.1 e2
      refine ⟨fun k => if k = 0 then a else g (k - 1), rfl, fun k hk => ?_, hn⟩
      cases k with
      | zero =>
        rw [Nat.zero_add]
        exact e1.trans (congrArg Except.ok h0.symm)
      | succ k =>
        have := hg k (by omega)
        rwa [← Nat.add_assoc, Nat.add_right_comm] at this
    · refine bind_eq_ok.2 ⟨g 1, ?_, ih.2 ⟨fun k => g (k + 1), rfl, fun k hk => ?_, hn⟩⟩
      · have := hg 0 (by omega)
        rwa [Nat.zero_add, h0] at this
      · have := hg (k + 1) (by omega)
        rwa [Nat.add_right_comm] at this

theorem exec_insertNode_eq_next {r : BitVec 12} {s t : State} : exec (.insertNode r) s = .next t ↔ insertAt r s = .ok t :=
  execInsertNode_eq_next.trans insertAt_eq_ok.symm

/-- Settles O38: the writes of E_INIT, one field each, then the preload; the loop of E_PRIME is its insertions, one after the other. -/
theorem compressInitialisesAndPreloads : Obligations.CompressInitialisesAndPreloads := by
  refine ⟨fun s w hi hp => ?_, fun s t hi hp => ?_⟩
  · obtain ⟨-, -, -, wmf, -⟩ := memory_wf_iff.1 w
    obtain ⟨t, hrun, hpre, hframe⟩ := stepEInit_preloaded w
    have hexec := exec_initTree_links s
    have hempty := initTree_empty wmf
    have hroot := fun i (h1 : 4097 ≤ i) (h2 : i ≤ 4352) => initTree_root wmf (isSentinel_iff.2 ⟨h1, h2⟩)
    have hlinks := fun i (h : i ≤ 4096) => And.intro (initTree_lson s.mf i) (initTree_rson wmf h)
    have hnil := initTree_dad_nil wmf
    have hmf : t.mf = { initTree s.mf with matchLength := 0, matchPosition := 0 } := by rw [hframe, ← initEncode_mf]
    generalize initTree s.mf = m at *
    have hwr : t.wr = { acc := 0, cnt := 0 } := by rw [hframe, ← initEncode_wr s]
    have hhuff : t.huff = startHuff s.huff := by rw [hframe, ← initEncode_huff]
    have henc : t.enc = { s.enc with s := 0, inPos := t.enc.inPos, len := t.enc.len } := by rw [hframe, initEncode_enc]
    have hin : inAt t = inAt s := by
      rw [hframe]
      exact congrArg (sparseGet bufferDefault) (initEncode_inBuf s)
    refine ⟨setPhase .ePrime t, by rw [step_of_no_input hi, coreStep_eInit hp, hrun, outcome_ok], rfl, hwr, ?_, ?_, ?_, ?_, ?_, ?_,
      ?_, ?_, hpre.r, hpre.evict, hpre.len, hpre.inPos, fun i hlt => ?_, ?_, ?_, ?_⟩
    · rw [setPhase_huff, hhuff, exec_startHuff, setHuff]
    · rw [setPhase_mf, hmf]
      exact hexec
    · rw [setPhase_mf, hmf]
      exact fun p hp => hempty p ((inTree_congr (dadOf_matchResult ..)).1 hp)
    · rw [setPhase_mf, hmf]
      exact hroot
    · rw [setPhase_mf, hmf]
      exact hlinks
    · rw [setPhase_mf, hmf]
      exact hnil
    · rw [setPhase_mf, hmf]
    · rw [setPhase_mf, hmf]
    · rw [setPhase_textBuf, hpre.window hlt, hin]
    · rw [setPhase_enc, henc]
    · rw [setPhase_enc, henc]
    · rw [hframe, initEncode]
      rfl
  · rw [step_of_no_input hi, coreStep_ePrime hp, outcome_eq_next, stepEPrime, bind_eq_ok]
    simp only [bind_eq_ok, forUpM_eq_ok_iff, exec_insertNode_eq_next]
    refine ⟨fun ⟨v, ⟨f, h0, hf, hv⟩, u, hu, ht⟩ => ⟨f, u, h0, hf, hv ▸ hu, (Except.ok.inj ht).symm⟩,
      fun ⟨f, u, h0, hf, hu, ht⟩ => ⟨f 60, ⟨f, h0, hf, rfl⟩, u, hu, congrArg Except.ok ht.symm⟩⟩

end Sys2Proof.Machine

/-! PROOFS. The token step of COMPRESS (R108): what E_EMIT writes and what it leaves. -/

namespace Sys2Proof.Machine

open Sys2Proof

/-! ### What the write side depends on (R91) -/

/-- What PUT_CODE and FLUSH read and write. -/
def outputPart (s : State) : BitWriter × List Host.Cell × BitVec 64 := (s.wr, s.outBuf, s.outLen)

theorem outputPart_eq_iff {s t : State} : outputPart t = outputPart s ↔ t.wr = s.wr ∧ t.outBuf = s.outBuf ∧ t.outLen = s.outLen := by
  simp only [outputPart, Prod.mk.injEq]

theorem outAt_congr {s t : State} (h : t.outBuf = s.outBuf) : outAt t = outAt s := congrArg (sparseGet bufferDefault) h

theorem writtenBits_congr {s t : State} (h : outputPart t = outputPart s) : writtenBits t = writtenBits s := by
  obtain ⟨hwr, hbuf, hlen⟩ := outputPart_eq_iff.1 h
  rw [writtenBits, writtenBits, outBits, outBits, hwr, hlen, outAt_congr hbuf]

theorem Written.congr {s s' t t' : State} {bits : List Bool} (h : Written s t bits) (hs : outputPart s' = outputPart s)
    (ht : outputPart t' = outputPart t) (w : Memory.wf t' = true) : Written s' t' bits := by
  obtain ⟨hswr, hsbuf, hslen⟩ := outputPart_eq_iff.1 hs
  obtain ⟨htwr, htbuf, htlen⟩ := outputPart_eq_iff.1 ht
  refine ⟨w, by rw [WriterOk, htwr]; exact h.writer, ?_, ?_, ?_⟩
  · rw [writtenBits_congr hs, writtenBits_congr ht, h.written]
  · rw [htlen, htwr, hslen, hswr, h.count]
  · rw [AppendsOnly, hslen, htlen, outAt_congr hsbuf, outAt_congr htbuf]
    exact h.appends

/-! ### ENCODE_CHAR (R71) -/

/-- ENCODE_CHAR takes `s` to `t`: the code `bits` of symbol `c` in the tree as it stands, then UPDATE. -/
structure EmitsCode (s t : State) (c : Nat) (bits : List Bool) : Prop where
  run : encodeChar c s = .ok t
  code : IsCode s.huff c bits
  length : bits.length ≤ 21
  tree : update c s.huff = .ok t.huff
  written : Written s t bits
  frame : t = { s with huff := t.huff, wr := t.wr, outBuf := t.outBuf, outLen := t.outLen }

theorem encodeChar_emitsCode {s : State} {c : Nat} (hs : Safe s) (hc : c < 314)
    (hroom : 8 * s.outLen.toNat + s.wr.cnt.toNat + 21 < 8 * 2 ^ 64) : ∃ t bits, EmitsCode s t c bits := by
  obtain ⟨bits, v, hcode, -, hlen, hof, htop⟩ := hs.huffman.exists_code hc
  obtain ⟨g, hg, -⟩ := update_ok hs.huffman hs.huff_wf hc
  have hrun : encodeChar c s = .ok (setHuff g (putCode bits.length v s)) := encodeChar_eq_ok.2 ⟨_, v, g, hof, hg, rfl⟩
  have hwritten := putCode_written (l := bits.length) v hs.memory hs.writer (by omega)
  rw [htop] at hwritten
  exact ⟨_, bits, hrun, hcode, hlen, hg, hwritten.congr rfl rfl (hs.encodeChar hc hrun).memory, setHuff_putCode_frame g _ v s⟩

/-! ### The token (R108) -/

section Token

variable {P : PosTable} {s : State}

/-- The state with another match length. -/
def withLength (m : BitVec 6) (s : State) : State := setMf { s.mf with matchLength := m } s

/-- The match length as the clamp leaves it. -/
def clampedLength (s : State) : BitVec 6 := if s.enc.len.toNat < s.mf.matchLength.toNat then s.enc.len else s.mf.matchLength

theorem clampedLength_toNat (s : State) : (clampedLength s).toNat = min s.mf.matchLength.toNat s.enc.len.toNat := by
  unfold clampedLength
  split_ifs <;> omega

theorem clamp_eq (s : State) : clamp s = withLength (clampedLength s) s := by
  unfold clamp clampedLength
  split_ifs <;> rfl

theorem emitToken_withLength_literal {m : BitVec 6} (h : m.toNat ≤ 2) :
    emitToken (withLength m s) P = encodeChar (winAt s.textBuf s.r.toNat).toNat (withLength 1 s) := by
  have hread : winRead (withLength m s).textBuf (withLength m s).r.toNat = .ok (winAt s.textBuf s.r.toNat) :=
    winRead_ok (Nat.lt_trans s.r.isLt (by decide))
  rw [emitToken]
  refine (if_pos h).trans ?_
  rw [hread, bind_ok]
  rfl

theorem emitToken_withLength_match {m : BitVec 6} (h : 2 < m.toNat) {t : State}
    (e : encodeChar (253 + m.toNat) (withLength m s) = .ok t) :
    emitToken (withLength m s) P = .ok (encodePosition s.mf.matchPosition t P) := by
  rw [emitToken]
  refine (if_neg (Nat.not_le.2 h)).trans (bind_eq_ok.2 ⟨t, e, rfl⟩)

/-- E_EMIT takes `s` to `t` with a token of `m` positions: the code `bits` of symbol `c`, then `more`. -/
structure EmitsToken (P : PosTable) (s t : State) (m : BitVec 6) (c : Nat) (bits more : List Bool) : Prop where
  step : stepEEmit s P = .ok t
  code : IsCode s.huff c bits
  codeLength : bits.length ≤ 21
  tree : update c s.huff = .ok t.huff
  written : Written s t (bits ++ more)
  mf : t.mf = { s.mf with matchLength := m }
  enc : t.enc = { s.enc with lastMatchLength := m, advI := 0 }
  phase : t.phase = if s.enc.inPos.toNat < s.inLen.toNat then .eAdvIn else .eAdvDrain
  frame : t = { s with
    phase := t.phase, wr := t.wr, outBuf := t.outBuf, outLen := t.outLen, huff := t.huff, mf := t.mf, enc := t.enc }

theorem startAdvance_memory_wf (t : State) : Memory.wf (startAdvance t) = Memory.wf t := rfl

theorem startAdvance_outputPart (t : State) : outputPart (startAdvance t) = outputPart t := rfl

theorem stepEEmit_literal (hs : Safe s) (hroom : Room 8 s) (h2 : (clampedLength s).toNat ≤ 2) :
    ∃ t bits, EmitsToken P s t 1 (winAt s.textBuf s.r.toNat).toNat bits [] := by
  have hbyte := (winAt s.textBuf s.r.toNat).isLt
  have hcnt := hs.writer.1
  have hs' : Safe (withLength 1 s) := hs.withMatchLength (by decide)
  obtain ⟨u, bits, hu⟩ := encodeChar_emitsCode (c := (winAt s.textBuf s.r.toNat).toNat) hs' (by omega)
    (show 8 * s.outLen.toNat + s.wr.cnt.toNat + 21 < 8 * 2 ^ 64 by omega)
  have hemit : emitToken (clamp s) P = .ok u := by rw [clamp_eq, emitToken_withLength_literal h2, hu.run]
  have hwritten : Written s (startAdvance u) (bits ++ []) := by
    rw [List.append_nil]
    exact hu.written.congr rfl (startAdvance_outputPart u) ((startAdvance_memory_wf u).trans hu.written.memory)
  obtain ⟨-, hcode, hlen, htree, -, hframe⟩ := hu
  refine ⟨startAdvance u, bits, stepEEmit_of_emit hemit, hcode, hlen, htree, hwritten, ?_, ?_, ?_, ?_⟩ <;> rw [hframe] <;> rfl

theorem stepEEmit_match (hP : LegalTable P) (hs : Safe s) (hroom : Room 8 s) (h2 : 2 < (clampedLength s).toNat) :
    ∃ t bits, EmitsToken P s t (clampedLength s) (253 + (clampedLength s).toNat) bits (posBits s.mf.matchPosition P) := by
  have hm := clampedLength_toNat s
  have h60 : s.mf.matchLength.toNat ≤ 60 := hs.matchBound
  have hcnt := hs.writer.1
  have hs' : Safe (withLength (clampedLength s) s) := hs.withMatchLength (by omega)
  obtain ⟨u, bits, hu⟩ := encodeChar_emitsCode (c := 253 + (clampedLength s).toNat) hs' (by omega)
    (show 8 * s.outLen.toNat + s.wr.cnt.toNat + 21 < 8 * 2 ^ 64 by omega)
  have hcount : 8 * u.outLen.toNat + u.wr.cnt.toNat = 8 * s.outLen.toNat + s.wr.cnt.toNat + bits.length := hu.written.count
  have hlen := hu.length
  have hpos := encodePosition_written (o := s.mf.matchPosition) hP hu.written.memory hu.written.writer (by omega)
  have hemit : emitToken (clamp s) P = .ok (encodePosition s.mf.matchPosition u P) := by
    rw [clamp_eq, emitToken_withLength_match h2 hu.run]
  have hframe' := encodePosition_frame P s.mf.matchPosition u
  generalize encodePosition s.mf.matchPosition u P = v at *
  have hwritten : Written s (startAdvance v) (bits ++ posBits s.mf.matchPosition P) :=
    (hu.written.trans hpos).congr rfl (startAdvance_outputPart v) ((startAdvance_memory_wf v).trans hpos.memory)
  obtain ⟨-, hcode, hlen, htree, -, hframe⟩ := hu
  refine ⟨startAdvance v, bits, stepEEmit_of_emit hemit, hcode, hlen, ?_, hwritten, ?_, ?_, ?_, ?_⟩ <;> rw [hframe']
  · exact htree
  all_goals
    rw [hframe]
    rfl

end Token

/-- Settles O39: the token, by the clamped length, and what it leaves. -/
theorem emitWritesOneToken : Obligations.EmitWritesOneToken := by
  intro s hs hroom hi hp
  rw [step_of_no_input hi, coreStep_eEmit hp]
  rcases Nat.lt_or_ge 2 (clampedLength s).toNat with h2 | h2
  · obtain ⟨t, bits, ht⟩ := stepEEmit_match legalTable_default hs hroom h2
    rw [← clampedLength_toNat]
    refine ⟨t, bits, by rw [ht.step, outcome_ok], ht.written.writer, by rw [ht.enc], ht.phase, fun h => absurd h2 (Nat.not_lt.2 h),
      fun _ => ⟨ht.code, by rw [ht.written.written, List.append_assoc], ht.tree, ?_, ?_, ?_⟩, ht.written.appends, ?_⟩
    · rw [ht.mf]
    · rw [ht.mf]
    · rw [ht.enc, ht.mf]
    · rw [ht.enc, ← ht.enc]
      exact ht.frame
  · obtain ⟨t, bits, ht⟩ := stepEEmit_literal (P := Config.POS_LEN) hs hroom h2
    rw [← clampedLength_toNat]
    refine ⟨t, bits, by rw [ht.step, outcome_ok], ht.written.writer, by rw [ht.enc], ht.phase,
      fun _ => ⟨ht.code, by rw [ht.written.written, List.append_nil], ht.tree, ht.mf, by rw [ht.enc]⟩,
      fun h => absurd h (Nat.not_lt.2 h2), ht.written.appends, ?_⟩
    · rw [ht.enc, ← ht.enc]
      exact ht.frame

end Sys2Proof.Machine

/-! PROOFS. Where `phase` goes (R116), row by row. -/

namespace Sys2Proof.Machine

open Sys2Proof

section Phases

variable {P : PosTable} {s t : State}

theorem emitToken_sameStream (e : emitToken s P = .ok t) : SameStream s t := by
  unfold emitToken at e
  split_ifs at e
  · obtain ⟨b, -, e⟩ := bind_eq_ok.1 e
    exact (SameStream.setMf _ s).trans (encodeChar_sameStream e).1
  · obtain ⟨u, hu, e⟩ := bind_eq_ok.1 e
    rw [← Except.ok.inj e]
    exact (encodeChar_sameStream hu).1.trans (encodePosition_sameStream P _ u).1

theorem stepEEmit_sameStream (e : stepEEmit s P = .ok t) : SameStream s t := by
  obtain ⟨u, hu, e⟩ := bind_eq_ok.1 e
  rw [← Except.ok.inj e]
  exact ((clamp_sameStream s).1.trans (emitToken_sameStream hu)).trans ⟨rfl, rfl, rfl, rfl, rfl, rfl, rfl⟩

/-- The phase after the header, by the header's value. -/
theorem stepDHdr_phase_eq (e : stepDHdr s = .ok t) :
    t.phase = if s.inLen.toNat < 4 then .fault else if t.dec.origLen = 0 then .done else .dInit := by
  split_ifs with h hzero
  · rw [stepDHdr_of_short h] at e
    exact Except.ok.inj e ▸ rfl
  all_goals
    rw [stepDHdr_of_header (Nat.not_lt.1 h)] at e
    obtain rfl := Except.ok.inj e
  · exact if_pos hzero
  · exact if_neg hzero

/-- The walk of DECODE_CHAR ends at a symbol, in every tree. -/
theorem decodeWalk_symbol_lt {fuel c d : Nat} (hc : c < 941) (e : decodeWalk fuel c s = .ok (d, t)) : d < 314 := by
  induction fuel generalizing c s with
  | zero => cases e
  | succ fuel ih =>
    unfold decodeWalk at e
    split_ifs at e with hT
    · simp only at e
      split_ifs at e with hin
      exact ih (sonAt s.huff _).isLt e
    · obtain ⟨rfl, -⟩ := Prod.mk.inj (Except.ok.inj e)
      simp only [show Config.T = 627 from rfl]
      omega

theorem decodeChar_symbol_lt {c : Nat} (e : decodeChar s = .ok (c, t)) : c < 314 := by
  obtain ⟨u, h, hu, -, -⟩ := decodeChar_eq_ok.1 e
  exact decodeWalk_symbol_lt (sonAt s.huff _).isLt hu

/-- The phase after a symbol, by the symbol. -/
theorem stepDSymbol_phase_eq (e : stepDSymbol s P = .ok t) : t.phase =
    if 256 ≤ t.dec.sym.toNat then .dCopy else if t.dec.outCnt.toNat < t.dec.origLen.toNat then .dSymbol else .done := by
  obtain ⟨⟨c, u⟩, hu, e⟩ := bind_eq_ok.1 e
  have hc := decodeChar_symbol_lt hu
  have hsym : (BitVec.ofNat 9 c).toNat = c := Nat.mod_eq_of_lt (by omega)
  simp only at e
  split_ifs at e with hlit <;> obtain rfl := Except.ok.inj e
  · have hnot : ¬ 256 ≤ (takeLiteral (setSym c u)).dec.sym.toNat := by
      show ¬ 256 ≤ (BitVec.ofNat 9 c).toNat
      omega
    exact (if_neg hnot).symm
  · have hge : 256 ≤ (setSym c u).dec.sym.toNat := by
      show 256 ≤ (BitVec.ofNat 9 c).toNat
      omega
    rw [decodePosition_state]
    exact (if_pos hge).symm

/-- The phase after one pass of the copy. -/
theorem stepDCopy_phase_eq (e : stepDCopy s = .ok t) : t.phase =
    if s.dec.outCnt = s.dec.origLen then .fault else if t.dec.copyRem ≠ 0 then .dCopy
    else if t.dec.outCnt.toNat < t.dec.origLen.toNat then .dSymbol else .done := by
  by_cases hend : s.dec.outCnt = s.dec.origLen
  · rw [stepDCopy_of_overrun hend] at e
    rw [if_pos hend, ← Except.ok.inj e, raiseFault_phase]
  · rw [stepDCopy_of_room hend] at e
    obtain rfl := Except.ok.inj e
    have hrem : (0 < (s.dec.copyRem - 1).toNat) = ((afterCopy s).dec.copyRem ≠ 0) := propext
      ⟨fun h h0 => by rw [show s.dec.copyRem - 1 = 0 from h0] at h; exact absurd h (by decide),
        fun h => Nat.pos_of_ne_zero fun h0 => h (BitVec.eq_of_toNat_eq h0)⟩
    rw [if_neg hend, afterCopy, setPhase_phase]
    simp only [hrem]
    rfl

end Phases

/-- Settles O50: each row's phase, by the row's own test. -/
theorem phaseMovesAsTheTableSays : Obligations.PhaseMovesAsTheTableSays := by
  intro s t hi e
  rw [step_of_no_input hi, outcome_eq_next] at e
  refine ⟨fun hp => ?_, fun hp => ?_, fun hp => ?_, fun hp => ?_, fun hp => ?_, fun hp hle => ?_, fun hp hle => ?_, fun hp => ?_,
    fun hp => ?_, fun hp => ?_, fun hp => ?_, fun hp => ?_⟩
  · rcases hp with hp | hp | hp <;> rw [coreStep, hp] at e <;> rw [← Except.ok.inj e]
  · rw [coreStep_eHdr hp] at e
    rw [← Except.ok.inj e, stepEHdr_phase]
  · rw [coreStep_eInit hp] at e
    exact stepEInit_phase e
  · rw [coreStep_ePrime hp] at e
    exact stepEPrime_phase e
  · rw [coreStep_eEmit hp] at e
    have hsame := stepEEmit_sameStream e
    rw [stepEEmit_phase e, hsame.inPos, hsame.inLen]
  · rw [coreStep_eAdvIn hp] at e
    have hend : (t.enc.lastMatchLength.toNat ≤ t.enc.advI.toNat) = (t.enc.advI = t.enc.lastMatchLength) := propext (by bv_omega)
    rw [stepEAdvIn_phase e]
    simp only [hend]
  · rw [coreStep_eAdvDrain hp] at e
    have hend : (t.enc.advI.toNat < t.enc.lastMatchLength.toNat) = (t.enc.advI ≠ t.enc.lastMatchLength) := propext (by bv_omega)
    have hlen : (0 < t.enc.len.toNat) = (t.enc.len ≠ 0) := propext (by bv_omega)
    rw [stepEAdvDrain_phase e]
    simp only [hend, hlen, ne_eq, ite_not]
  · rw [coreStep_eFlush hp] at e
    rw [← Except.ok.inj e, stepEFlush, setPhase_phase]
  · rw [coreStep_dHdr hp] at e
    exact stepDHdr_phase_eq e
  · rw [coreStep_dInit hp] at e
    rw [← Except.ok.inj e, stepDInit_phase]
  · rw [coreStep_dSymbol hp] at e
    exact stepDSymbol_phase_eq e
  · rw [coreStep_dCopy hp] at e
    exact stepDCopy_phase_eq e

end Sys2Proof.Machine

/-! PROOFS. DECOMPRESS ends on every input (R111, R121, R127, R151): each symbol produces a byte, and no more bytes are produced than the
header says. -/

namespace Sys2Proof.Machine

open Sys2Proof

/-! ### The symbol step on every payload (R73, R84) -/

section Symbol

variable {P : PosTable} {s : State} {g : Huffman}

theorem exists_symbolCode (ok : HuffOk s.huff) (w : s.huff.wf = true) : ∃ c bits g, c < 314 ∧ IsCode s.huff c bits ∧ Spells s bits
    ∧ update c s.huff = .ok g ∧ HuffOk g ∧ g.wf = true := by
  obtain ⟨n, c, hc, hcode⟩ := LeadsTo.root.exists_code (f := payloadAt s) (n := 0) ok.linksOk (by omega)
  obtain ⟨g, hg, okg, wg, -⟩ := update_ok ok w hc
  exact ⟨c, (List.range n).map (payloadAt s), g, hc, hcode, by rw [Spells, List.length_map, List.length_range], hg, okg, wg⟩

theorem afterSymbol_memory_wf (w : Memory.wf s = true) (wg : g.wf = true) (c n : Nat) : Memory.wf (afterSymbol c n g s) = true :=
  setSym_memory_wf.trans (setHuff_memory_wf (skipBits_memory_wf.trans w) wg)

end Symbol

/-! ### The decoder between its steps -/

/-- No fault since the command started. -/
def NoFault (s : State) : Prop := s.faultCode = .none ∧ s.faultInfo = 0

/-- Where DECOMPRESS of a header of value `n` stands from D_SYMBOL on, and with which results. -/
inductive DecodeStage (n : BitVec 32) (s : State) : Prop where
  | symbol : s.phase = .dSymbol → NoFault s → s.dec.outCnt.toNat < n.toNat → DecodeStage n s
  | copy : s.phase = .dCopy → NoFault s → 1 ≤ s.dec.copyRem.toNat → s.dec.copyRem.toNat ≤ 60 →
      (s.dec.outCnt = n → s.dec.copyRem.toNat ≤ 59) → DecodeStage n s
  | finished : s.phase = .done → NoFault s → s.dec.outCnt = n → DecodeStage n s
  | overrun : s.phase = .fault → s.faultCode = .outOverrun → 1 ≤ s.faultInfo.toNat → s.faultInfo.toNat ≤ 59 → s.dec.outCnt = n →
      DecodeStage n s

/-- What DECOMPRESS keeps from D_SYMBOL on. -/
structure Decoding (n : BitVec 32) (s : State) : Prop where
  memory : Memory.wf s = true
  huffman : HuffOk s.huff
  origLen : s.dec.origLen = n
  outLen : s.outLen = s.dec.outCnt.setWidth 64
  bound : s.dec.outCnt.toNat ≤ n.toNat
  stage : DecodeStage n s

/-- Each row brings this down: a symbol comes before its bytes, and every other row produces a byte or faults. -/
def decodeMeasure (s : State) : Nat :=
  match s.phase with
  | .dSymbol => 2 * (s.dec.origLen.toNat - s.dec.outCnt.toNat) + 2
  | .dCopy => 2 * (s.dec.origLen.toNat - s.dec.outCnt.toNat) + 1
  | _ => 0

theorem decodeMeasure_dSymbol {s : State} (hp : s.phase = .dSymbol) :
    decodeMeasure s = 2 * (s.dec.origLen.toNat - s.dec.outCnt.toNat) + 2 := by rw [decodeMeasure, hp]

theorem decodeMeasure_dCopy {s : State} (hp : s.phase = .dCopy) :
    decodeMeasure s = 2 * (s.dec.origLen.toNat - s.dec.outCnt.toNat) + 1 := by rw [decodeMeasure, hp]

theorem decodeMeasure_le (s : State) : decodeMeasure s ≤ 2 * (s.dec.origLen.toNat - s.dec.outCnt.toNat) + 2 := by
  unfold decodeMeasure
  split <;> omega

section Steps

variable {P : PosTable} {n : BitVec 32} {s t : State}

/-- After a byte the decoder is at the next symbol or at its end. -/
theorem decodeStage_afterOutput (hp : t.phase = if t.dec.outCnt.toNat < n.toNat then .dSymbol else .done) (hf : NoFault t)
    (hle : t.dec.outCnt.toNat ≤ n.toNat) : DecodeStage n t := by
  split_ifs at hp with h
  · exact .symbol hp hf h
  · exact .finished hp hf (by bv_omega)

theorem Decoding.step_literal (h : Decoding n s) (hf : NoFault s) (hlt : s.dec.outCnt.toNat < n.toNat) {g : Huffman} (okg : HuffOk g)
    (wg : g.wf = true) (c k : Nat) : Decoding n (takeLiteral (afterSymbol c k g s))
      ∧ decodeMeasure (takeLiteral (afterSymbol c k g s)) ≤ 2 * (n.toNat - s.dec.outCnt.toNat) := by
  have hcnt : (takeLiteral (afterSymbol c k g s)).dec.outCnt.toNat = s.dec.outCnt.toNat + 1 := by
    show (s.dec.outCnt + 1).toNat = _
    bv_omega
  have horig : (takeLiteral (afterSymbol c k g s)).dec.origLen = n := h.origLen
  have hphase : (takeLiteral (afterSymbol c k g s)).phase =
      if (takeLiteral (afterSymbol c k g s)).dec.outCnt.toNat < n.toNat then .dSymbol else .done := by
    rw [← horig]
    rfl
  have hmem := takeLiteral_memory_wf (afterSymbol_memory_wf h.memory wg c k)
  have hmeasure := decodeMeasure_le (takeLiteral (afterSymbol c k g s))
  rw [horig] at hmeasure
  exact ⟨⟨hmem, okg, horig, rfl, by omega, decodeStage_afterOutput hphase hf (by omega)⟩, by omega⟩

theorem Decoding.step_match (h : Decoding n s) (hf : NoFault s) (hlt : s.dec.outCnt.toNat < n.toNat) {g : Huffman} (okg : HuffOk g)
    (wg : g.wf = true) {c : Nat} (hc : 256 ≤ c) (hc' : c < 314) (k : Nat) (o : BitVec 12) :
    Decoding n (startCopy o (afterSymbol c k g s))
      ∧ decodeMeasure (startCopy o (afterSymbol c k g s)) ≤ 2 * (n.toNat - s.dec.outCnt.toNat) + 1 := by
  have hrem : (startCopy o (afterSymbol c k g s)).dec.copyRem.toNat = c - 253 := by
    show (lenOfSym (BitVec.ofNat 9 c).toNat).toNat = _
    rw [lenOfSym, BitVec.toNat_ofNat, BitVec.toNat_ofNat, Nat.mod_eq_of_lt (show c < 2 ^ 9 by omega), Nat.mod_eq_of_lt (by omega)]
  have hmeasure := decodeMeasure_dCopy (s := startCopy o (afterSymbol c k g s)) rfl
  have horig : (startCopy o (afterSymbol c k g s)).dec.origLen = n := h.origLen
  have hcnt : (startCopy o (afterSymbol c k g s)).dec.outCnt = s.dec.outCnt := rfl
  rw [horig, hcnt] at hmeasure
  refine ⟨⟨startCopy_memory_wf.trans (afterSymbol_memory_wf h.memory wg c k), okg, horig, h.outLen, h.bound, ?_⟩, hmeasure.le⟩
  exact .copy rfl hf (by omega) (by omega) fun e => absurd (congrArg BitVec.toNat (hcnt.symm.trans e)) hlt.ne

theorem Decoding.step_copy (h : Decoding n s) (hf : NoFault s) (hlt : s.dec.outCnt.toNat < n.toNat) (h1 : 1 ≤ s.dec.copyRem.toNat)
    (h60 : s.dec.copyRem.toNat ≤ 60) : Decoding n (afterCopy s) ∧ decodeMeasure (afterCopy s) ≤ 2 * (n.toNat - s.dec.outCnt.toNat) := by
  have hcnt : (afterCopy s).dec.outCnt.toNat = s.dec.outCnt.toNat + 1 := by
    show (s.dec.outCnt + 1).toNat = _
    bv_omega
  have hrem : (afterCopy s).dec.copyRem.toNat = s.dec.copyRem.toNat - 1 := by
    show (s.dec.copyRem - 1).toNat = _
    bv_omega
  have horig : (afterCopy s).dec.origLen = n := h.origLen
  have hmem : Memory.wf (afterCopy s) = true := setPhase_memory_wf.trans (setDec_memory_wf.trans (produceByte_memory_wf h.memory))
  have hphase : (afterCopy s).phase = if 0 < (afterCopy s).dec.copyRem.toNat then .dCopy
      else if (afterCopy s).dec.outCnt.toNat < n.toNat then .dSymbol else .done := by
    rw [← horig]
    rfl
  have hmeasure := decodeMeasure_le (afterCopy s)
  rw [horig] at hmeasure
  refine ⟨⟨hmem, h.huffman, horig, rfl, by omega, ?_⟩, by omega⟩
  by_cases hmore : 0 < (afterCopy s).dec.copyRem.toNat
  · rw [if_pos hmore] at hphase
    exact .copy hphase hf hmore (by omega) fun _ => by omega
  · rw [if_neg hmore] at hphase
    exact decodeStage_afterOutput hphase hf (by omega)

theorem Decoding.step_overrun (h : Decoding n s) (hend : s.dec.outCnt = n) (h1 : 1 ≤ s.dec.copyRem.toNat)
    (h59 : s.dec.copyRem.toNat ≤ 59) : Decoding n (raiseFault .outOverrun (s.dec.copyRem.setWidth 64) s) := by
  have hinfo : (s.dec.copyRem.setWidth 64).toNat = s.dec.copyRem.toNat := BitVec.toNat_setWidth_of_le (by decide)
  exact ⟨raiseFault_memory_wf.trans h.memory, h.huffman, h.origLen, h.outLen, h.bound,
    .overrun rfl rfl (by rw [raiseFault_faultInfo, hinfo]; exact h1) (by rw [raiseFault_faultInfo, hinfo]; exact h59) hend⟩

/-- Every row of the decoder answers, keeps what the decoder keeps, and brings its measure down. -/
theorem Decoding.step (hP : LegalTable P) (h : Decoding n s) (hb : busy s = true) :
    ∃ t, coreStep s P = .ok t ∧ Decoding n t ∧ decodeMeasure t < decodeMeasure s := by
  rcases h.stage with ⟨hp, hf, hlt⟩ | ⟨hp, hf, h1, h60, h59⟩ | ⟨hp⟩ | ⟨hp⟩
  · rw [coreStep_dSymbol hp, decodeMeasure_dSymbol hp, h.origLen]
    obtain ⟨c, bits, g, hc, hcode, hs, hg, okg, wg⟩ := exists_symbolCode h.huffman (memory_wf_iff.1 h.memory).2.2.2.2
    rcases Nat.lt_or_ge c 256 with hlit | hmatch
    · obtain ⟨hnext, hmeasure⟩ := h.step_literal hf hlt okg wg c bits.length
      exact ⟨_, stepDSymbol_literal h.huffman hcode hs hg hlit, hnext, by omega⟩
    · have ho := decodePosition_spells hP (skipBits bits.length s)
      obtain ⟨hnext, hmeasure⟩ := h.step_match hf hlt okg wg hmatch hc (bits.length + (posBits _ P).length) _
      exact ⟨_, stepDSymbol_match hP h.huffman hcode hs hg hmatch ho, hnext, by omega⟩
  · rw [coreStep_dCopy hp, decodeMeasure_dCopy hp, h.origLen]
    by_cases hend : s.dec.outCnt = n
    · exact ⟨_, stepDCopy_of_overrun (hend.trans h.origLen.symm), h.step_overrun hend h1 (h59 hend), Nat.succ_pos _⟩
    · obtain ⟨hnext, hmeasure⟩ := h.step_copy hf (by have := h.bound; bv_omega) h1 h60
      exact ⟨_, stepDCopy_of_room (h.origLen ▸ hend), hnext, by omega⟩
  · rw [busy_of_phase hp] at hb
    cases hb
  · rw [busy_of_phase hp] at hb
    cases hb

end Steps

/-! ### The command -/

/-- D_INIT of a header that is not 0 starts the decoder. -/
theorem decoding_start {s : State} (w : Memory.wf s = true) (hn : s.dec.origLen ≠ 0) (hf : NoFault s) (hlen : s.outLen = 0) :
    Decoding s.dec.origLen (stepDInit s) := by
  have hdec : (stepDInit s).dec = { s.dec with outCnt := 0 } := stepDInit_dec s
  refine ⟨stepDInit_memory_wf w, ?_, ?_, ?_, ?_, .symbol (stepDInit_phase s) ⟨?_, ?_⟩ ?_⟩
  · rw [stepDInit_huff]
    exact startHuff_huffOk (memory_wf_iff.1 w).2.2.2.2
  · rw [hdec]
  · rw [stepDInit_outLen, hdec, hlen]
    rfl
  · rw [hdec]
    exact Nat.zero_le _
  · rw [stepDInit_faultCode]
    exact hf.1
  · rw [stepDInit_faultInfo]
    exact hf.2
  · rw [hdec]
    exact Nat.pos_of_ne_zero fun h => hn (BitVec.eq_of_toNat_eq h)

theorem commandFuel_eq : commandFuel = (2 ^ 33 + 14) + 1 + 1 := by decide

/-- DECOMPRESS after its first row, by the header. -/
def headerTaken (s : State) : State := takeHeader (headerValue s) (clearResults (setPhase .dHdr s))

section Header

variable {P : PosTable} {s : State}

theorem runDecompress_short (h : s.inLen.toNat < 4) (fuel : Nat) :
    runCommand (fuel + 1) (setPhase .dHdr s) P = .ok (raiseFault .hdrShort s.inLen (clearResults (setPhase .dHdr s))) :=
  (runCommand_step rfl ((coreStep_dHdr rfl).trans (stepDHdr_of_short (s := setPhase .dHdr s) h)) fuel).trans
    (runCommand_of_not_busy rfl fuel)

theorem runDecompress_header (h : 4 ≤ s.inLen.toNat) (fuel : Nat) :
    runCommand (fuel + 1) (setPhase .dHdr s) P = runCommand fuel (headerTaken s) P :=
  runCommand_step rfl ((coreStep_dHdr rfl).trans (stepDHdr_of_header (s := setPhase .dHdr s) h)) fuel

theorem runDecompress_zero (h : 4 ≤ s.inLen.toNat) (h0 : headerValue s = 0) (fuel : Nat) :
    runCommand (fuel + 1) (setPhase .dHdr s) P = .ok (headerTaken s) :=
  (runDecompress_header h fuel).trans (runCommand_of_not_busy (busy_of_phase (p := .done) (if_pos h0)) fuel)

theorem runDecompress_init (h : 4 ≤ s.inLen.toNat) (h0 : headerValue s ≠ 0) (fuel : Nat) :
    runCommand (fuel + 1 + 1) (setPhase .dHdr s) P = runCommand fuel (stepDInit (headerTaken s)) P := by
  have hphase : (headerTaken s).phase = .dInit := if_neg h0
  rw [runDecompress_header h, runCommand_step (busy_of_phase hphase) (coreStep_dInit hphase)]

theorem headerTaken_memory_wf (w : Memory.wf s = true) : Memory.wf (headerTaken s) = true :=
  takeHeader_memory_wf.trans (clearResults_memory_wf (setPhase_memory_wf.trans w))

end Header

/-- How DECOMPRESS of `IN` ends (R121). -/
structure DecompressEnd (s t : State) : Prop where
  short : s.inLen.toNat < 4 → t.phase = .fault ∧ t.faultCode = .hdrShort ∧ t.faultInfo = s.inLen ∧ t.outLen = 0
  header : 4 ≤ s.inLen.toNat → t.outLen.toNat = (headerValue s).toNat
    ∧ ((t.phase = .done ∧ NoFault t)
      ∨ (t.phase = .fault ∧ t.faultCode = .outOverrun ∧ 1 ≤ t.faultInfo.toNat ∧ t.faultInfo.toNat ≤ 59))

theorem Decoding.decompressEnd {n : BitVec 32} {s t : State} (h : Decoding n t) (hb : busy t = false) (h4 : 4 ≤ s.inLen.toNat)
    (hn : n = headerValue s) : DecompressEnd s t := by
  refine ⟨fun hlt => absurd h4 (Nat.not_le.2 hlt), fun _ => ?_⟩
  rw [h.outLen, ← hn]
  rcases h.stage with ⟨hp, -, -⟩ | ⟨hp, -⟩ | ⟨hp, hf, hcnt⟩ | ⟨hp, hcode, h1, h59, hcnt⟩
  · rw [busy_of_phase hp] at hb
    cases hb
  · rw [busy_of_phase hp] at hb
    cases hb
  · exact ⟨by rw [hcnt]; exact BitVec.toNat_setWidth_of_le (by decide), .inl ⟨hp, hf⟩⟩
  · exact ⟨by rw [hcnt]; exact BitVec.toNat_setWidth_of_le (by decide), .inr ⟨hp, hcode, h1, h59⟩⟩

theorem decompress_ends {P : PosTable} (hP : LegalTable P) {s : State} (w : Memory.wf s = true) :
    ∃ t, runCommand commandFuel (setPhase .dHdr s) P = .ok t ∧ DecompressEnd s t := by
  rw [commandFuel_eq]
  rcases Nat.lt_or_ge s.inLen.toNat 4 with h4 | h4
  · exact ⟨_, runDecompress_short h4 _, fun _ => ⟨rfl, rfl, rfl, rfl⟩, fun h => absurd h4 (Nat.not_lt.2 h)⟩
  by_cases hn : headerValue s = 0
  · refine ⟨_, runDecompress_zero h4 hn _, fun hlt => absurd h4 (Nat.not_le.2 hlt), fun _ => ⟨?_, .inl ⟨if_pos hn, rfl, rfl⟩⟩⟩
    rw [hn]
    rfl
  · have hstart := decoding_start (headerTaken_memory_wf w) hn ⟨rfl, rfl⟩ rfl
    have hfuel := decodeMeasure_le (stepDInit (headerTaken s))
    have hlt := (stepDInit (headerTaken s)).dec.origLen.isLt
    obtain ⟨t, hrun, ht, hb⟩ := runCommand_ends (fuel := 2 ^ 33 + 14) (fun u hu hub => hu.step hP hub) hstart (by omega)
    exact ⟨t, (runDecompress_init h4 hn _).trans hrun, ht.decompressEnd hb h4 rfl⟩

/-- Settles O57: the decoder's measure bounds its steps, and its stage at rest is one of the two ends. -/
theorem decompressEndsOnEveryInput : Obligations.DecompressEndsOnEveryInput := by
  intro s w hb
  obtain ⟨t, hrun, hshort, hheader⟩ := decompress_ends legalTable_default w
  refine ⟨t, by rw [exec_decompress_of_not_busy hb, hrun, outcome_ok], hshort, fun h4 => ?_⟩
  obtain ⟨hlen, hend⟩ := hheader h4
  rw [← headerValue_toNat]
  exact ⟨hlen, hend⟩

end Sys2Proof.Machine

/-! PROOFS. What DECOMPRESS answers depends on its input alone (R119, R142): after D_INIT two runs over one input agree on all that the
decoder reads. -/

namespace Sys2Proof.Machine

open Sys2Proof

/-! ### The input as the bit channel reads it (R95) -/

theorem SameInput.symm {s s' : State} (h : SameInput s s') : SameInput s' s := ⟨h.1.symm, fun k hk => (h.2 k (h.1.symm ▸ hk)).symm⟩

theorem SameInput.payloadBit {s s' : State} (h : SameInput s s') (k : Nat) : payloadBit s' k = payloadBit s k := by
  obtain ⟨hlen, hbytes⟩ := h
  rw [Machine.payloadBit, Machine.payloadBit, ← hlen]
  split_ifs with hk
  · exact congrArg (fun b : Byte => b.getLsbD (7 - k % 8)) (hbytes _ hk).symm
  · rfl

theorem SameInput.spells {s s' : State} (h : SameInput s s') (hpos : s'.rdBitpos = s.rdBitpos) {bits : List Bool} (hs : Spells s bits) :
    Spells s' bits := by
  have hat : payloadAt s' = payloadAt s := funext fun k => by rw [payloadAt, payloadAt, hpos, h.payloadBit]
  rwa [Spells, hat]

theorem SameInput.of_hostPart {s s' t t' : State} (h : SameInput s s') (ht : hostPart t = hostPart s) (ht' : hostPart t' = hostPart s') :
    SameInput t t' := by
  obtain ⟨hbuf, hlen, -⟩ := hostPart_eq_iff.1 ht
  obtain ⟨hbuf', hlen', -⟩ := hostPart_eq_iff.1 ht'
  have hin : inAt t = inAt s := congrArg (sparseGet bufferDefault) hbuf
  have hin' : inAt t' = inAt s' := congrArg (sparseGet bufferDefault) hbuf'
  rw [SameInput, hlen, hlen', hin, hin']
  exact h

theorem SameInput.headerValue {s s' : State} (h : SameInput s s') (h4 : 4 ≤ s.inLen.toNat) : headerValue s' = headerValue s := by
  rw [Machine.headerValue, Machine.headerValue, h.2 0 (by omega), h.2 1 (by omega), h.2 2 (by omega), h.2 3 (by omega)]

/-! ### What the decoder reads -/

/-- What the copy passes read: the rest of the state as after reset. -/
def copyView (s : State) : State := { State.reset with
  phase := s.phase, faultCode := s.faultCode, faultInfo := s.faultInfo, outLen := s.outLen, outBuf := s.outBuf, textBuf := s.textBuf
  huff := s.huff, r := s.r, rdBitpos := s.rdBitpos, dec := s.dec }

/-- What the symbol step reads: it writes `sym`, `src` and `copy_rem` before anything reads them. -/
def symbolView (s : State) : State := copyView (setDec { s.dec with sym := 0, src := 0, copyRem := 0 } s)

section Views

variable {s s' : State} {c k : Nat} {g : Huffman} {o : BitVec 12}

theorem symbolView_of_copyView (h : copyView s' = copyView s) : symbolView s' = symbolView s := (congrArg symbolView h :)

theorem takeLiteral_view (h : symbolView s' = symbolView s) :
    symbolView (takeLiteral (afterSymbol c k g s')) = symbolView (takeLiteral (afterSymbol c k g s)) :=
  (congrArg (fun v => symbolView (takeLiteral (afterSymbol c k g v))) h :)

theorem startCopy_view (h : symbolView s' = symbolView s) :
    copyView (startCopy o (afterSymbol c k g s')) = copyView (startCopy o (afterSymbol c k g s)) :=
  (congrArg (fun v => copyView (startCopy o (afterSymbol c k g v))) h :)

theorem afterCopy_view (h : copyView s' = copyView s) : copyView (afterCopy s') = copyView (afterCopy s) :=
  (congrArg (fun v => copyView (afterCopy v)) h :)

theorem overrun_view (h : copyView s' = copyView s) : copyView (raiseFault .outOverrun (s'.dec.copyRem.setWidth 64) s')
    = copyView (raiseFault .outOverrun (s.dec.copyRem.setWidth 64) s) :=
  (congrArg (fun v => copyView (raiseFault .outOverrun (v.dec.copyRem.setWidth 64) v)) h :)

theorem sameResult_of_view (h : symbolView s' = symbolView s) : SameResult s s' := by
  have hout : s'.outBuf = s.outBuf := (congrArg State.outBuf h :)
  exact ⟨(congrArg State.phase h.symm :), (congrArg State.faultCode h.symm :), (congrArg State.faultInfo h.symm :),
    (congrArg State.outLen h.symm :), fun k _ => (congrFun (outAt_congr hout) k).symm⟩

end Views

/-! ### Two runs of the decoder -/

/-- Two decoders at the same place of the same input. -/
structure DecodeAlike (n : BitVec 32) (s s' : State) : Prop where
  left : Decoding n s
  right : Decoding n s'
  input : SameInput s s'
  view : symbolView s' = symbolView s
  copy : s.phase = .dCopy → copyView s' = copyView s

section Alike

variable {P : PosTable} {n : BitVec 32} {s s' t t' : State}

theorem DecodeAlike.phase (h : DecodeAlike n s s') : s'.phase = s.phase := (congrArg State.phase h.view :)

theorem takeLiteral_phase_ne (s : State) : (takeLiteral s).phase ≠ .dCopy := by
  rcases afterOutput_cases (produceByte (s.dec.sym.setWidth 8) s) with h | h <;> rw [takeLiteral, setPhase_phase, h] <;> decide

/-- The symbol step of both decoders reads the same codes. -/
theorem DecodeAlike.symbol (hP : LegalTable P) (h : DecodeAlike n s s') (e : stepDSymbol s P = .ok t)
    (e' : stepDSymbol s' P = .ok t') : symbolView t' = symbolView t ∧ (t.phase = .dCopy → copyView t' = copyView t) := by
  have hhuff : s'.huff = s.huff := (congrArg State.huff h.view :)
  have hpos : s'.rdBitpos = s.rdBitpos := (congrArg State.rdBitpos h.view :)
  obtain ⟨c, bits, g, hc, hcode, hs, hg, -⟩ := exists_symbolCode h.left.huffman (memory_wf_iff.1 h.left.memory).2.2.2.2
  have hcode' : IsCode s'.huff c bits := hhuff ▸ hcode
  have hg' : update c s'.huff = .ok g := hhuff ▸ hg
  have hs' := h.input.spells hpos hs
  rcases Nat.lt_or_ge c 256 with hlit | hmatch
  · obtain rfl := Except.ok.inj ((stepDSymbol_literal h.left.huffman hcode hs hg hlit).symm.trans e)
    obtain rfl := Except.ok.inj ((stepDSymbol_literal h.right.huffman hcode' hs' hg' hlit).symm.trans e')
    exact ⟨takeLiteral_view h.view, fun hp => absurd hp (takeLiteral_phase_ne _)⟩
  · have ho := decodePosition_spells hP (skipBits bits.length s)
    have ho' := SameInput.spells (s := skipBits bits.length s) (s' := skipBits bits.length s') h.input (congrArg (· + BitVec.ofNat 64 bits.length) hpos) ho
    obtain rfl := Except.ok.inj ((stepDSymbol_match hP h.left.huffman hcode hs hg hmatch ho).symm.trans e)
    obtain rfl := Except.ok.inj ((stepDSymbol_match hP h.right.huffman hcode' hs' hg' hmatch ho').symm.trans e')
    have hview := startCopy_view (c := c) (k := bits.length + (posBits (decodePosition (skipBits bits.length s) P).1 P).length)
      (g := g) (o := (decodePosition (skipBits bits.length s) P).1) h.view
    exact ⟨symbolView_of_copyView hview, fun _ => hview⟩

/-- One pass of the copy moves the same byte in both decoders. -/
theorem DecodeAlike.copyPass (h : DecodeAlike n s s') (hp : s.phase = .dCopy) (e : stepDCopy s = .ok t) (e' : stepDCopy s' = .ok t') :
    copyView t' = copyView t := by
  have hview := h.copy hp
  have hdec : s'.dec = s.dec := (congrArg State.dec hview :)
  by_cases hend : s.dec.outCnt = s.dec.origLen
  · obtain rfl := Except.ok.inj ((stepDCopy_of_overrun hend).symm.trans e)
    obtain rfl := Except.ok.inj ((stepDCopy_of_overrun (s := s') (by rw [hdec, hend])).symm.trans e')
    exact overrun_view hview
  · obtain rfl := Except.ok.inj ((stepDCopy_of_room hend).symm.trans e)
    obtain rfl := Except.ok.inj ((stepDCopy_of_room (s := s') (by rw [hdec]; exact hend)).symm.trans e')
    exact afterCopy_view hview

theorem Decoding.step_of_ok (hP : LegalTable P) (h : Decoding n s) (hb : busy s = true) (e : coreStep s P = .ok t) : Decoding n t := by
  obtain ⟨u, hu, hnext, -⟩ := h.step hP hb
  exact Except.ok.inj (hu.symm.trans e) ▸ hnext

theorem DecodeAlike.step (hP : LegalTable P) (h : DecodeAlike n s s') (hb : busy s = true) (e : coreStep s P = .ok t)
    (e' : coreStep s' P = .ok t') : DecodeAlike n t t' := by
  have hb' : busy s' = true := (busy_of_phase h.phase).trans hb
  have hviews : symbolView t' = symbolView t ∧ (t.phase = .dCopy → copyView t' = copyView t) := by
    rcases h.left.stage with ⟨hp⟩ | ⟨hp⟩ | ⟨hp⟩ | ⟨hp⟩
    · exact h.symbol hP ((coreStep_dSymbol hp).symm.trans e) ((coreStep_dSymbol (h.phase.trans hp)).symm.trans e')
    · have hview := h.copyPass hp ((coreStep_dCopy hp).symm.trans e) ((coreStep_dCopy (h.phase.trans hp)).symm.trans e')
      exact ⟨symbolView_of_copyView hview, fun _ => hview⟩
    · rw [busy_of_phase hp] at hb
      cases hb
    · rw [busy_of_phase hp] at hb
      cases hb
  exact ⟨h.left.step_of_ok hP hb e, h.right.step_of_ok hP hb' e', h.input.of_hostPart (coreStep_hostPart e) (coreStep_hostPart e'),
    hviews.1, hviews.2⟩

end Alike

/-! ### From any two states -/

theorem winFill_eq {tb tb' : List Host.Cell} (w : sparseWf windowDefault 0 4155 tb = true)
    (w' : sparseWf windowDefault 0 4155 tb' = true) : winFill tb' = winFill tb :=
  sparse_ext (winFill_wf w') (winFill_wf w) fun _ _ hi => (winAt_winFill w' hi).trans (winAt_winFill w hi).symm

theorem DecodeAlike.start {s s' : State} (w : Memory.wf s = true) (w' : Memory.wf s' = true) (h : SameInput s s')
    (h4 : 4 ≤ s.inLen.toNat) (h0 : headerValue s ≠ 0) :
    DecodeAlike (headerValue s) (stepDInit (headerTaken s)) (stepDInit (headerTaken s')) := by
  have hn := h.headerValue h4
  obtain ⟨-, -, wtb, -, wh⟩ := memory_wf_iff.1 w
  obtain ⟨-, -, wtb', -, wh'⟩ := memory_wf_iff.1 w'
  have hright := decoding_start (headerTaken_memory_wf w') (show headerValue s' ≠ 0 from hn ▸ h0) ⟨rfl, rfl⟩ rfl
  have hhuff : startHuff s'.huff = startHuff s.huff := (startHuff_eq wh').trans (startHuff_eq wh).symm
  refine ⟨decoding_start (headerTaken_memory_wf w) h0 ⟨rfl, rfl⟩ rfl, hn ▸ hright, ?_, ?_, fun hp => ?_⟩
  · exact h.of_hostPart ((stepDInit_keeps _).1.trans rfl) ((stepDInit_keeps _).1.trans rfl)
  · simp only [symbolView, copyView, stepDInit, headerTaken, takeHeader, clearResults, setPhase, setDec, hn, hhuff, winFill_eq wtb wtb']
  · rw [stepDInit_phase] at hp
    cases hp

theorem decompress_sameResult {P : PosTable} (hP : LegalTable P) {s s' t t' : State} (w : Memory.wf s = true) (w' : Memory.wf s' = true)
    (h : SameInput s s') (e : runCommand commandFuel (setPhase .dHdr s) P = .ok t)
    (e' : runCommand commandFuel (setPhase .dHdr s') P = .ok t') : SameResult t t' := by
  have hlen := h.1
  rw [commandFuel_eq] at e e'
  rcases Nat.lt_or_ge s.inLen.toNat 4 with h4 | h4
  · rw [runDecompress_short h4] at e
    rw [runDecompress_short (hlen ▸ h4)] at e'
    obtain rfl := Except.ok.inj e
    obtain rfl := Except.ok.inj e'
    exact ⟨rfl, rfl, hlen, rfl, fun k hk => absurd hk (Nat.not_lt_zero k)⟩
  have hn := h.headerValue h4
  by_cases h0 : headerValue s = 0
  · rw [runDecompress_zero h4 h0] at e
    rw [runDecompress_zero (hlen ▸ h4) (hn.trans h0)] at e'
    obtain rfl := Except.ok.inj e
    obtain rfl := Except.ok.inj e'
    refine ⟨?_, rfl, rfl, rfl, fun k hk => absurd hk (Nat.not_lt_zero k)⟩
    rw [headerTaken, headerTaken, hn]
    rfl
  · rw [runDecompress_init h4 h0] at e
    rw [runDecompress_init (hlen ▸ h4) (hn.symm ▸ h0)] at e'
    have hend := runCommand_related (R := DecodeAlike (headerValue s)) (fun _ _ h => h.phase)
      (fun _ _ _ _ h hb e e' => h.step hP hb e e') (.start w w' h h4 h0) e e'
    exact sameResult_of_view hend.view

/-- Settles O58: after D_INIT the two runs agree on all that the decoder reads, and each row keeps that. -/
theorem decompressDependsOnItsInputAlone : Obligations.DecompressDependsOnItsInputAlone := by
  intro s s' t t' w w' hb hb' h e e'
  rw [exec_decompress_of_not_busy hb, outcome_eq_next] at e
  rw [exec_decompress_of_not_busy hb', outcome_eq_next] at e'
  exact decompress_sameResult legalTable_default w w' h e e'

end Sys2Proof.Machine

/-! PROOFS. COMPRESS ends on every input (R106 to R110, R118, R143, R151), and what it writes is a sequence of codes that spells its
input. -/

namespace Sys2Proof.Machine

open Sys2Proof

/-! ### The codes of an input (R43 to R46) -/

/-- The byte `d` places before place `a` of the input, FILL before its start (R107). -/
def before (x : Nat → Byte) (a d : Nat) : Byte := if d ≤ a then x (a - d) else Config.FILL

/-- From the tree `h` on, the bits are codes of tokens that cover the bytes `x k .. x (n-1)`. -/
inductive Codes (P : PosTable) (x : Nat → Byte) (n : Nat) : Huffman → Nat → List Bool → Prop where
  | nothing {h : Huffman} : Codes P x n h n []
  | literal {h g : Huffman} {k : Nat} {bits rest : List Bool} : k < n → IsCode h (x k).toNat bits → bits.length ≤ 21 →
      update (x k).toNat h = .ok g → Codes P x n g (k + 1) rest → Codes P x n h k (bits ++ rest)
  | copy {h g : Huffman} {k : Nat} {m : BitVec 6} {o : BitVec 12} {bits rest : List Bool} : 3 ≤ m.toNat → m.toNat ≤ 60 →
      k + m.toNat ≤ n → o.toNat ≤ 4035 → (∀ i, i < m.toNat → x (k + i) = before x (k + i) (o.toNat + 1)) →
      IsCode h (253 + m.toNat) bits → bits.length ≤ 21 → update (253 + m.toNat) h = .ok g →
      Codes P x n g (k + m.toNat) rest → Codes P x n h k (bits ++ (posBits o P ++ rest))

theorem LegalTable.posBits_length_le {P : PosTable} (hP : LegalTable P) (o : BitVec 12) : (posBits o P).length ≤ 14 := by
  have := (hP.posLen_bounds (offset_high_lt o)).2
  rw [posBits_length]
  omega

/-- A byte costs at most 21 bits. -/
theorem Codes.length_le {P : PosTable} (hP : LegalTable P) {x : Nat → Byte} {n k : Nat} {h : Huffman} {bits : List Bool}
    (hc : Codes P x n h k bits) : bits.length + 21 * k ≤ 21 * n := by
  induction hc with
  | nothing => rw [List.length_nil, Nat.zero_add]
  | literal _ _ hlen _ _ ih =>
    rw [List.length_append]
    omega
  | copy h3 _ _ _ _ _ hlen _ _ ih =>
    have := hP.posBits_length_le (by assumption)
    rw [List.length_append, List.length_append]
    omega

/-! ### The window at a token (R14, R31, R107) -/

/-- The mirror makes a linear index of the buffer an index mod N. -/
theorem winAt_linear {tb : List Host.Cell} (mirror : ∀ k, k < 59 → winAt tb (4096 + k) = winAt tb k) (p : BitVec 12) {i : Nat}
    (hi : i < 60) : winAt tb (p.toNat + i) = winAt tb (p + BitVec.ofNat 12 i).toNat := by
  rcases Nat.lt_or_ge (p.toNat + i) 4096 with h | h
  · rw [show (p + BitVec.ofNat 12 i).toNat = p.toNat + i by bv_omega]
  · rw [show p.toNat + i = 4096 + (p + BitVec.ofNat 12 i).toNat by bv_omega, mirror _ (by bv_omega)]

section Window

variable {s : State}

/-- Place `d` back from byte `i` of the lookahead. -/
theorem Stream.winAt_back (h : Stream s) {i d : Nat} (hi : i < s.enc.len.toNat) (h1 : 1 ≤ d) (hd : d ≤ 4036) :
    winAt s.textBuf (s.r - BitVec.ofNat 12 d + BitVec.ofNat 12 i).toNat = before (inAt s) (covered s + i) d := by
  have h60 := h.len.2
  unfold before
  rcases Nat.lt_or_ge i d with hid | hid
  · rw [show s.r - BitVec.ofNat 12 d + BitVec.ofNat 12 i = s.r - BitVec.ofNat 12 (d - i) by bv_omega, h.history _ (by omega) (by omega)]
    split_ifs with h1 h2 h2
    · congr 1
      omega
    · omega
    · omega
    · rfl
  · rw [show s.r - BitVec.ofNat 12 d + BitVec.ofNat 12 i = s.r + BitVec.ofNat 12 (i - d) by bv_omega, h.lookahead _ (by omega),
      if_pos (by omega)]
    congr 1
    omega

theorem Stream.keyByte_lookahead (h : Stream s) {i : Nat} (hi : i < s.enc.len.toNat) :
    keyByte s.textBuf s.r.toNat i = (inAt s (covered s + i)).toNat := by
  have h60 := h.len.2
  rw [keyByte, winAt_linear h.mirror _ (by omega), h.lookahead i hi]

/-- A match at a token repeats the bytes at its offset (R62). -/
theorem Stream.match_repeats (h : Stream s) {m : Nat} (hm : m ≤ s.enc.len.toNat) {o : BitVec 12} (ho : o.toNat ≤ 4035)
    (hshare : SharePrefix s.textBuf (s.r - o - 1).toNat s.r.toNat m) {i : Nat} (hi : i < m) :
    inAt s (covered s + i) = before (inAt s) (covered s + i) (o.toNat + 1) := by
  have h60 := h.len.2
  have hat : s.r - o - 1 = s.r - BitVec.ofNat 12 (o.toNat + 1) := by bv_omega
  have hkey := hshare i hi
  rw [h.keyByte_lookahead (by omega), keyByte, winAt_linear h.mirror _ (by omega), hat, h.winAt_back (by omega) (by omega) (by omega)] at hkey
  exact (BitVec.eq_of_toNat_eq hkey).symm

end Window

/-! ### COMPRESS from its first token on -/

/-- How many positions the advance has still to go. -/
def advanceLeft (s : State) : Nat :=
  match s.phase with
  | .eAdvIn | .eAdvDrain => s.enc.lastMatchLength.toNat - s.enc.advI.toNat
  | _ => 0

/-- How many input bytes the tokens written so far cover, those still to be advanced over included. -/
def frontier (s : State) : Nat := covered s + advanceLeft s

/-- Each row brings this down: a token comes before its positions, and each position is one byte further. -/
def encodeMeasure (s : State) : Nat :=
  match s.phase with
  | .eEmit => 2 * (s.inLen.toNat - covered s) + 2
  | .eAdvIn | .eAdvDrain => 2 * (s.inLen.toNat - covered s) + 1
  | .eFlush => 1
  | _ => 0

theorem frontier_eEmit {s : State} (hp : s.phase = .eEmit) : frontier s = covered s := by rw [frontier, advanceLeft, hp]; rfl

theorem frontier_eFlush {s : State} (hp : s.phase = .eFlush) : frontier s = covered s := by rw [frontier, advanceLeft, hp]; rfl

theorem frontier_advance {s : State} (hp : s.phase = .eAdvIn ∨ s.phase = .eAdvDrain) :
    frontier s = covered s + (s.enc.lastMatchLength.toNat - s.enc.advI.toNat) := by
  rcases hp with hp | hp <;> rw [frontier, advanceLeft, hp]

theorem encodeMeasure_eEmit {s : State} (hp : s.phase = .eEmit) : encodeMeasure s = 2 * (s.inLen.toNat - covered s) + 2 := by
  rw [encodeMeasure, hp]

theorem encodeMeasure_advance {s : State} (hp : s.phase = .eAdvIn ∨ s.phase = .eAdvDrain) :
    encodeMeasure s = 2 * (s.inLen.toNat - covered s) + 1 := by
  rcases hp with hp | hp <;> rw [encodeMeasure, hp]

theorem encodeMeasure_eFlush {s : State} (hp : s.phase = .eFlush) : encodeMeasure s = 1 := by rw [encodeMeasure, hp]

/-- COMPRESS between its first token and its last step, with room in `OUT` for what is still to be covered. -/
structure Emitting (s : State) : Prop where
  safe : Safe s
  stage : ((s.phase = .eEmit ∨ s.phase = .eAdvIn ∨ s.phase = .eAdvDrain) ∧ Encoding s) ∨ (s.phase = .eFlush ∧ covered s = s.inLen.toNat)
  room : 8 * s.outLen.toNat + s.wr.cnt.toNat + 21 * (s.inLen.toNat - frontier s) + 64 ≤ 8 * 2 ^ 64

/-- A row of COMPRESS that writes `bits`, the codes of what it moves the frontier over. -/
structure Row (P : PosTable) (s t : State) (bits : List Bool) : Prop where
  step : coreStep s P = .ok t
  fault : t.faultCode = s.faultCode ∧ t.faultInfo = s.faultInfo
  input : t.inBuf = s.inBuf ∧ t.inLen = s.inLen
  written : Written s t bits
  codes : ∀ rest, Codes P (inAt s) s.inLen.toNat t.huff (frontier t) rest →
    Codes P (inAt s) s.inLen.toNat s.huff (frontier s) (bits ++ rest)

/-- From `s` COMPRESS ends in `t`, with the codes of the bytes not yet covered, filled up to a byte, written. -/
structure Finishes (P : PosTable) (s t : State) : Prop where
  done : t.phase = .done
  fault : t.faultCode = s.faultCode ∧ t.faultInfo = s.faultInfo
  pending : t.wr.cnt = 0
  codes : ∃ bits k, Codes P (inAt s) s.inLen.toNat s.huff (frontier s) bits ∧ k < 8 ∧ Written s t (bits ++ List.replicate k false)

section Rows

variable {P : PosTable} {s t u : State} {bits : List Bool}

theorem Row.finishes (h : Row P s t bits) (h' : Finishes P t u) : Finishes P s u := by
  obtain ⟨rest, k, hrest, hk, hwritten⟩ := h'.codes
  rw [show inAt t = inAt s from congrArg (sparseGet bufferDefault) h.input.1, h.input.2] at hrest
  refine ⟨h'.done, ⟨h'.fault.1.trans h.fault.1, h'.fault.2.trans h.fault.2⟩, h'.pending, bits ++ rest, k, h.codes rest hrest, hk, ?_⟩
  rw [List.append_assoc]
  exact h.written.trans hwritten

/-! ### The token row (R108) -/

theorem Encoding.covered_lt (h : Encoding s) : covered s + s.enc.len.toNat = s.enc.inPos.toNat ∧ covered s < s.inLen.toNat := by
  have hlen := h.len
  have htaken := h.taken
  unfold covered
  omega

theorem SameStream.covered (h : SameStream s t) : covered t = covered s := by rw [Machine.covered, h.inPos, h.len, Machine.covered]

/-- After a token of `m` positions the frontier is `m` further. -/
theorem EmitsToken.frontier {m : BitVec 6} {c : Nat} {more : List Bool} (h : EmitsToken P s t m c bits more) :
    frontier t = covered s + m.toNat ∧ encodeMeasure t = 2 * (s.inLen.toNat - covered s) + 1 := by
  have hsame := stepEEmit_sameStream h.step
  have hphase : t.phase = .eAdvIn ∨ t.phase = .eAdvDrain := by
    rw [h.phase]
    split_ifs
    · exact .inl rfl
    · exact .inr rfl
  rw [frontier_advance hphase, encodeMeasure_advance hphase, hsame.covered, hsame.inLen, h.enc]
  exact ⟨rfl, rfl⟩

theorem EmitsToken.row {m : BitVec 6} {c : Nat} {more : List Bool} (hp : s.phase = .eEmit) (h : EmitsToken P s t m c bits more)
    (hcodes : ∀ rest, Codes P (inAt s) s.inLen.toNat t.huff (covered s + m.toNat) rest →
      Codes P (inAt s) s.inLen.toNat s.huff (covered s) (bits ++ (more ++ rest))) : Row P s t (bits ++ more) := by
  refine ⟨(coreStep_eEmit hp).trans h.step, ?_, ?_, h.written, fun rest hrest => ?_⟩
  · rw [h.frame]
    exact ⟨rfl, rfl⟩
  · rw [h.frame]
    exact ⟨rfl, rfl⟩
  · rw [h.frontier.1] at hrest
    rw [frontier_eEmit hp, List.append_assoc]
    exact hcodes rest hrest

/-- The token written covers the next bytes of the input. -/
theorem emit_row (hP : LegalTable P) (hs : Safe s) (h : Encoding s) (hp : s.phase = .eEmit) (hroom : Room 8 s) :
    ∃ t bits more m c, EmitsToken P s t m c bits more ∧ Row P s t (bits ++ more) ∧ m.toNat ≤ s.enc.len.toNat
      ∧ (bits ++ more).length ≤ 21 * m.toNat := by
  have hclamp := clampedLength_toNat s
  have hlen := h.len.1
  have hcov := h.covered_lt
  have htaken := h.taken.2
  rcases Nat.lt_or_ge 2 (clampedLength s).toNat with h2 | h2
  · obtain ⟨t, bits, ht⟩ := stepEEmit_match hP hs hroom h2
    have h60 : s.mf.matchLength.toNat ≤ 60 := hs.matchBound
    rcases h.emit hp with h0 | ⟨-, hoff, hshare⟩
    · have hnone : s.mf.matchLength.toNat = 0 := congrArg BitVec.toNat h0
      omega
    have hrep : ∀ i, i < (clampedLength s).toNat → inAt s (covered s + i) = before (inAt s) (covered s + i) (s.mf.matchPosition.toNat + 1) :=
      fun i hi => h.stream.match_repeats (by omega) hoff (fun j hj => hshare j (by omega)) hi
    have hpos := hP.posBits_length_le s.mf.matchPosition
    have hcode := ht.codeLength
    refine ⟨t, _, _, _, _, ht, ht.row hp fun rest hrest => ?_, by omega, ?_⟩
    · exact .copy h2 (by omega) (by omega) hoff hrep ht.code hcode ht.tree hrest
    · rw [List.length_append]
      omega
  · obtain ⟨t, bits, ht⟩ := stepEEmit_literal (P := P) hs hroom h2
    have hbyte := h.lookahead 0 (by omega)
    rw [BitVec.add_zero, Nat.add_zero] at hbyte
    have hcode := ht.code
    have htree := ht.tree
    rw [hbyte] at hcode htree
    refine ⟨t, bits, [], 1, _, ht, ht.row hp fun rest hrest => ?_, hlen, ?_⟩
    · exact .literal hcov.2 hcode ht.codeLength htree hrest
    · rw [List.append_nil]
      exact ht.codeLength

/-! ### The rows of the advance (R109, R110) -/

/-- A row of the advance writes nothing and takes one more byte as covered. -/
structure Advances (s t : State) : Prop where
  output : outputPart t = outputPart s
  huffman : t.huff = s.huff
  fault : t.faultCode = s.faultCode ∧ t.faultInfo = s.faultInfo
  input : t.inBuf = s.inBuf ∧ t.inLen = s.inLen
  moved : covered t = covered s + 1
  phase : ((t.phase = .eEmit ∨ t.phase = .eFlush ∧ covered t = t.inLen.toNat) ∧ s.enc.lastMatchLength.toNat ≤ s.enc.advI.toNat + 1)
    ∨ ((t.phase = .eAdvIn ∨ t.phase = .eAdvDrain) ∧ t.enc.lastMatchLength = s.enc.lastMatchLength
      ∧ t.enc.advI.toNat = s.enc.advI.toNat + 1)

theorem stepEAdvIn_advances (h : Encoding s) (hp : s.phase = .eAdvIn) (e : stepEAdvIn s = .ok t) : Advances s t := by
  obtain ⟨hadv, -, -⟩ := h.advance (.inl hp)
  have hshort := h.inLen
  have htaken := h.taken.1
  obtain ⟨-, m, hin, -, -, rfl⟩ := stepEAdvIn_eq_ok.1 e
  have hpos : (s.enc.inPos + 1).toNat = s.enc.inPos.toNat + 1 := by bv_omega
  have hi : (s.enc.advI + 1).toNat = s.enc.advI.toNat + 1 := by bv_omega
  refine ⟨rfl, rfl, ⟨rfl, rfl⟩, ⟨rfl, rfl⟩, ?_, ?_⟩
  · show (s.enc.inPos + 1).toNat - s.enc.len.toNat = s.enc.inPos.toNat - s.enc.len.toNat + 1
    omega
  · rw [setPhase_phase, phaseAfterAdvIn]
    split_ifs with hend hmore
    · exact .inl ⟨.inl rfl, hend.trans hi.le⟩
    · exact .inr ⟨.inl rfl, rfl, hi⟩
    · exact .inr ⟨.inr rfl, rfl, hi⟩

theorem stepEAdvDrain_advances (h : Encoding s) (hp : s.phase = .eAdvDrain) (e : stepEAdvDrain s = .ok t) : Advances s t := by
  obtain ⟨hadv, -, hphase⟩ := h.advance (.inr hp)
  have hin : ¬ s.enc.inPos.toNat < s.inLen.toNat := fun hlt => by
    have := hphase.2 hlt
    rw [hp] at this
    cases this
  have hlen := h.len.1
  have htaken := h.taken
  obtain ⟨-, m, -, -, rfl⟩ := stepEAdvDrain_eq_ok.1 e
  have hlen' : (s.enc.len - 1).toNat = s.enc.len.toNat - 1 := by bv_omega
  have hi : (s.enc.advI + 1).toNat = s.enc.advI.toNat + 1 := by bv_omega
  have hcov : s.enc.inPos.toNat - (s.enc.len - 1).toNat = s.enc.inPos.toNat - s.enc.len.toNat + 1 := by omega
  refine ⟨rfl, rfl, ⟨rfl, rfl⟩, ⟨rfl, rfl⟩, hcov, ?_⟩
  rw [setPhase_phase, phaseAfterDrain]
  split_ifs with hmore hleft
  · exact .inr ⟨.inr rfl, rfl, hi⟩
  · exact .inl ⟨.inl rfl, (Nat.not_lt.1 hmore).trans hi.le⟩
  · have hzero : ¬ 0 < (s.enc.len - 1).toNat := hleft
    have hcovered : s.enc.inPos.toNat - (s.enc.len - 1).toNat = s.inLen.toNat := by omega
    exact .inl ⟨.inr ⟨rfl, hcovered⟩, (Nat.not_lt.1 hmore).trans hi.le⟩

theorem coreStep_advances (hs : Safe s) (h : Encoding s) (hp : s.phase = .eAdvIn ∨ s.phase = .eAdvDrain) :
    ∃ t, coreStep s P = .ok t ∧ Advances s t := by
  rcases hp with hp | hp
  · obtain ⟨t, e, -⟩ := stepEAdvIn_ok hs h hp
    exact ⟨t, (coreStep_eAdvIn hp).trans e, stepEAdvIn_advances h hp e⟩
  · obtain ⟨t, e, -⟩ := stepEAdvDrain_ok hs h hp
    exact ⟨t, (coreStep_eAdvDrain hp).trans e, stepEAdvDrain_advances h hp e⟩

/-- The frontier stays where the token set it. -/
theorem Advances.frontier (h : Advances s t) (hp : s.phase = .eAdvIn ∨ s.phase = .eAdvDrain) (hs : Encoding s) :
    frontier t = frontier s ∧ encodeMeasure t < encodeMeasure s := by
  obtain ⟨hadv, -, -⟩ := hs.advance hp
  have hcov := h.moved
  have hlt := hs.covered_lt
  rw [frontier_advance hp, encodeMeasure_advance hp]
  rcases h.phase with ⟨hp' | ⟨hp', -⟩, hend⟩ | ⟨hp', hl, hi⟩
  · rw [frontier_eEmit hp', encodeMeasure_eEmit hp', h.input.2]
    omega
  · rw [frontier_eFlush hp', encodeMeasure_eFlush hp']
    omega
  · rw [frontier_advance hp', encodeMeasure_advance hp', h.input.2, hl, hi]
    omega

theorem Advances.row (h : Advances s t) (hp : s.phase = .eAdvIn ∨ s.phase = .eAdvDrain) (hs : Safe s) (he : Encoding s)
    (e : coreStep s P = .ok t) : Row P s t [] := by
  refine ⟨e, h.fault, h.input, (Written.refl hs.memory hs.writer).congr rfl h.output (hs.coreStep e).memory, fun rest hrest => ?_⟩
  rw [h.huffman, (h.frontier hp he).1] at hrest
  exact hrest

/-! ### The last row (R110) -/

/-- FLUSH fills up to a byte with fewer than eight zeros. -/
theorem flushBits_written (hs : Safe s) (hroom : Room 1 s) :
    (flushBits s).wr.cnt = 0 ∧ ∃ k, k < 8 ∧ Written s (flushBits s) (List.replicate k false) := by
  by_cases hcnt : s.wr.cnt = 0
  · rw [next_inj (exec_flush_of_none hcnt : Host.Outcome.next (flushBits s) = _)]
    exact ⟨hcnt, 0, by decide, Written.refl hs.memory hs.writer⟩
  · rw [next_inj (exec_flush_of_pending hcnt : Host.Outcome.next (flushBits s) = _)]
    exact ⟨rfl, _, by bv_omega, flushed_written hs.memory hs.writer hroom⟩

theorem flush_finishes (hs : Safe s) (hp : s.phase = .eFlush) (hcov : covered s = s.inLen.toNat) (hroom : Room 1 s) :
    Finishes P s (stepEFlush s) := by
  obtain ⟨hcnt, k, hk, hwritten⟩ := flushBits_written hs hroom
  have hframe := flushBits_frame s
  have hmem := (hs.coreStep (P := P) (coreStep_eFlush hp)).memory
  have hflush : stepEFlush s = setPhase .done (flushBits s) := rfl
  rw [hflush] at hmem ⊢
  refine ⟨rfl, ?_, hcnt, [], k, ?_, hk, hwritten.congr rfl rfl hmem⟩
  · rw [hframe]
    exact ⟨rfl, rfl⟩
  · rw [frontier_eFlush hp, hcov]
    exact .nothing

/-! ### From the first token to the end -/

theorem Emitting.room_of_lt (h : Emitting s) : Room 1 s ∧ (frontier s < s.inLen.toNat → Room 8 s) := by
  have := h.room
  constructor
  · show s.outLen.toNat + 1 < 2 ^ 64
    omega
  · intro hlt
    show s.outLen.toNat + 8 < 2 ^ 64
    omega

/-- Room is left after a row that costs no more than the bytes it moves the frontier over. -/
theorem Row.room (h : Row P s t bits) (hbits : bits.length ≤ 21 * (frontier t - frontier s)) (hle : frontier s ≤ frontier t)
    (hn : frontier t ≤ s.inLen.toNat)
    (hroom : 8 * s.outLen.toNat + s.wr.cnt.toNat + 21 * (s.inLen.toNat - frontier s) + 64 ≤ 8 * 2 ^ 64) :
    8 * t.outLen.toNat + t.wr.cnt.toNat + 21 * (t.inLen.toNat - frontier t) + 64 ≤ 8 * 2 ^ 64 := by
  have hcount := h.written.count
  rw [h.input.2]
  omega

theorem Emitting.emit (hP : LegalTable P) (h : Emitting s) (he : Encoding s) (hp : s.phase = .eEmit) :
    ∃ t bits, Row P s t bits ∧ Emitting t ∧ encodeMeasure t < encodeMeasure s := by
  have hcov := he.covered_lt
  have htaken := he.taken
  have hf := frontier_eEmit hp
  obtain ⟨t, bits, more, m, c, ht, hrow, hm, hbits⟩ := emit_row hP h.safe he hp (h.room_of_lt.2 (by omega))
  obtain ⟨hfront, hmeasure⟩ := ht.frontier
  obtain ⟨u, hu, hue⟩ := stepEEmit_ok (P := P) h.safe he
  obtain rfl := Except.ok.inj (hu.symm.trans ht.step)
  have hphase : u.phase = .eEmit ∨ u.phase = .eAdvIn ∨ u.phase = .eAdvDrain := by
    rw [ht.phase]
    split_ifs
    · exact .inr (.inl rfl)
    · exact .inr (.inr rfl)
  have hcost : m.toNat = frontier u - frontier s := by omega
  exact ⟨u, _, hrow, ⟨h.safe.coreStep hrow.step, .inl ⟨hphase, hue⟩,
    hrow.room (hcost ▸ hbits) (by omega) (by omega) h.room⟩, by rw [hmeasure, encodeMeasure_eEmit hp]; exact Nat.lt_succ_self _⟩

theorem Emitting.advance (h : Emitting s) (he : Encoding s) (hp : s.phase = .eAdvIn ∨ s.phase = .eAdvDrain) :
    ∃ t, Row P s t [] ∧ Emitting t ∧ encodeMeasure t < encodeMeasure s := by
  obtain ⟨t, e, ht⟩ := coreStep_advances (P := P) h.safe he hp
  obtain ⟨hfront, hmeasure⟩ := ht.frontier hp he
  have hrow := ht.row hp h.safe he e
  obtain ⟨hadv, hleft, -⟩ := he.advance hp
  have hcov := he.covered_lt
  have htaken := he.taken
  have hle : frontier s ≤ s.inLen.toNat := by
    rw [frontier_advance hp]
    omega
  have hok := coreStep_encoderOk (P := P) h.safe (he.encoderOk (by rcases hp with hp | hp <;> rw [hp] <;> decide)) e
  refine ⟨t, hrow, ⟨h.safe.coreStep e, ?_, hrow.room (Nat.zero_le _) hfront.ge (hfront ▸ hle) h.room⟩, hmeasure⟩
  rcases ht.phase with ⟨hp' | ⟨hp', hcov⟩, -⟩ | ⟨hp' | hp', -⟩
  · exact .inl ⟨.inl hp', hok.encoding hp' rfl⟩
  · exact .inr ⟨hp', hcov⟩
  · exact .inl ⟨.inr (.inl hp'), hok.encoding hp' rfl⟩
  · exact .inl ⟨.inr (.inr hp'), hok.encoding hp' rfl⟩

theorem Emitting.row (hP : LegalTable P) (h : Emitting s) :
    (s.phase = .eFlush ∧ covered s = s.inLen.toNat)
      ∨ busy s = true ∧ ∃ t bits, Row P s t bits ∧ Emitting t ∧ encodeMeasure t < encodeMeasure s := by
  rcases h.stage with ⟨hp | hp, he⟩ | hend
  · exact .inr ⟨busy_of_phase hp, h.emit hP he hp⟩
  · obtain ⟨t, ht⟩ := h.advance (P := P) he hp
    exact .inr ⟨by rcases hp with hp | hp <;> exact busy_of_phase hp, t, [], ht⟩
  · exact .inl hend

/-- From its first token on COMPRESS ends, having written the codes of what is left. -/
theorem Emitting.runs (hP : LegalTable P) (h : Emitting s) {fuel : Nat} (hfuel : encodeMeasure s ≤ fuel) :
    ∃ t, runCommand fuel s P = .ok t ∧ Finishes P s t := by
  induction fuel generalizing s with
  | zero =>
    rcases h.row hP with ⟨hp, -⟩ | ⟨-, t, bits, -, -, hlt⟩
    · rw [encodeMeasure_eFlush hp] at hfuel
      omega
    · omega
  | succ fuel ih =>
    rcases h.row hP with ⟨hp, hcov⟩ | ⟨hb, t, bits, hrow, ht, hlt⟩
    · refine ⟨stepEFlush s, ?_, flush_finishes h.safe hp hcov h.room_of_lt.1⟩
      rw [runCommand_step (busy_of_phase hp) (coreStep_eFlush hp)]
      exact runCommand_of_not_busy rfl fuel
    · obtain ⟨u, hrun, hu⟩ := ih ht (by omega)
      exact ⟨u, (runCommand_step hb hrow.step fuel).trans hrun, hrow.finishes hu⟩

end Rows

/-! ### E_INIT and E_PRIME (R107) -/

/-- `t` is `s` with COMPRESS initialised and nothing covered. -/
structure Begun (s t : State) : Prop where
  safe : Safe t
  encoding : Encoding t
  start : covered t = 0
  huffman : t.huff = initialTree
  writer : t.wr = { acc := 0, cnt := 0 }
  output : t.outBuf = s.outBuf ∧ t.outLen = s.outLen
  fault : t.faultCode = s.faultCode ∧ t.faultInfo = s.faultInfo
  input : t.inBuf = s.inBuf ∧ t.inLen = s.inLen

theorem stepEInit_begun {s : State} (w : Memory.wf s = true) (h1 : 1 ≤ s.inLen.toNat) (hlt : s.inLen.toNat < 2 ^ 32) :
    ∃ t, stepEInit s = .ok t ∧ t.phase = .ePrime ∧ Begun s t := by
  have htidied : stepEInit (tidied s) = stepEInit s := by rw [stepEInit, stepEInit, initEncode_tidied w]
  have hsafe := tidied_safe w
  obtain ⟨u, hu, hue⟩ := stepEInit_ok hsafe h1 hlt
  have hus := hsafe.stepEInit hu
  obtain ⟨t, ht, hpre, hframe⟩ := stepEInit_preloaded w
  obtain rfl := Except.ok.inj ((hu.symm.trans htidied).trans ht)
  refine ⟨_, ht, rfl, hus, hue, ?_, ?_, ?_, ?_, ?_, ?_⟩
  · show t.enc.inPos.toNat - t.enc.len.toNat = 0
    rw [hpre.inPos, hpre.len, Nat.sub_self]
  · rw [setPhase_huff, hframe]
    exact (initEncode_huff s).trans (startHuff_eq (memory_wf_iff.1 w).2.2.2.2)
  · rw [setPhase_wr, hframe]
    exact initEncode_wr s
  · rw [setPhase_outBuf, setPhase_outLen, hframe]
    exact ⟨initEncode_outBuf s, initEncode_outLen s⟩
  · rw [setPhase_faultCode, setPhase_faultInfo, hframe]
    exact ⟨initEncode_faultCode s, initEncode_faultInfo s⟩
  · rw [setPhase_inBuf, setPhase_inLen, hframe]
    exact ⟨initEncode_inBuf s, initEncode_inLen s⟩

theorem insertAt_frame {r : BitVec 12} {s t : State} (e : insertAt r s = .ok t) : ∃ m, t = setMf m s := by
  obtain ⟨m, -, rfl⟩ := insertAt_eq_ok.1 e
  exact ⟨m, rfl⟩

/-- The insertions of E_PRIME leave all but the match finder. -/
theorem stepEPrime_frame {s t : State} (e : stepEPrime s = .ok t) : ∃ m, t = setPhase .eEmit (setMf m s) := by
  obtain ⟨u, hu, e⟩ := bind_eq_ok.1 e
  obtain ⟨v, hv, e⟩ := bind_eq_ok.1 e
  have hsu : ∃ m, u = setMf m s := forUpM_inv (P := fun u => ∃ m, u = setMf m s) (fun _ _ _ _ _ ⟨m, hm⟩ e => by
    obtain ⟨m', rfl⟩ := insertAt_frame e
    exact ⟨m', by rw [hm]; rfl⟩) ⟨s.mf, rfl⟩ hu
  obtain ⟨m, rfl⟩ := hsu
  obtain ⟨m', rfl⟩ := insertAt_frame hv
  exact ⟨m', (Except.ok.inj e).symm⟩

theorem Begun.prime {s t : State} (h : Begun s t) (hp : t.phase = .ePrime) :
    ∃ u, stepEPrime t = .ok u ∧ u.phase = .eEmit ∧ Begun s u := by
  obtain ⟨u, hu, hue⟩ := stepEPrime_ok h.safe h.encoding hp
  have hsafe := h.safe.stepEPrime hu
  obtain ⟨m, rfl⟩ := stepEPrime_frame hu
  exact ⟨_, hu, rfl, hsafe, hue, h.start, h.huffman, h.writer, h.output, h.fault, h.input⟩

/-! ### The command -/

theorem commandFuel_eq_compress : commandFuel = (2 ^ 33 + 13) + 1 + 1 + 1 := by decide

/-- COMPRESS after its first row, where there is input to encode. -/
def headerWritten (s : State) : State := setPhase .eInit (withHeader (setPhase .eHdr s))

section Command

variable {P : PosTable} {s t : State}

theorem outBuf_foldl_outAppend_wf (w : sparseWf bufferDefault 0 (2 ^ 64) s.outBuf = true) (l : List Byte) :
    sparseWf bufferDefault 0 (2 ^ 64) (l.foldl (fun t v => outAppend v t) s).outBuf = true := by
  induction l generalizing s with
  | nil => exact w
  | cons v l ih => exact ih (outBuf_outAppend_wf w v)

theorem withHeader_memory_wf (w : Memory.wf s = true) : Memory.wf (withHeader (setPhase .eHdr s)) = true := by
  have hbuf : sparseWf bufferDefault 0 (2 ^ 64) (withHeader (setPhase .eHdr s)).outBuf = true := outBuf_foldl_outAppend_wf rfl _
  obtain ⟨win, -, wtb, wmf, wh⟩ := memory_wf_iff.1 w
  rw [withHeader_frame]
  exact memory_wf_iff.2 ⟨win, hbuf, wtb, wmf, wh⟩

theorem headerWritten_memory_wf (w : Memory.wf s = true) : Memory.wf (headerWritten s) = true :=
  setPhase_memory_wf.trans (withHeader_memory_wf w)

theorem runCompress_range (h : 2 ^ 32 ≤ s.inLen.toNat) (fuel : Nat) : runCommand (fuel + 1) (setPhase .eHdr s) P =
    .ok (raiseFault .lenRange s.inLen (clearResults (setPhase .eHdr s))) := by
  rw [runCommand_step rfl (coreStep_eHdr rfl), stepEHdr_of_range (s := setPhase .eHdr s) h]
  exact runCommand_of_not_busy rfl fuel

theorem runCompress_empty (h : s.inLen = 0) (fuel : Nat) :
    runCommand (fuel + 1) (setPhase .eHdr s) P = .ok (setPhase .done (withHeader (setPhase .eHdr s))) := by
  rw [runCommand_step rfl (coreStep_eHdr rfl), stepEHdr_of_header (s := setPhase .eHdr s) (show s.inLen.toNat < 2 ^ 32 by rw [h]; decide),
    if_pos (show (setPhase .eHdr s).inLen = 0 from h)]
  exact runCommand_of_not_busy rfl fuel

/-- COMPRESS is initialised in `u` and reaches its first token in `t`. -/
structure FirstToken (P : PosTable) (s u t : State) : Prop where
  init : stepEInit (headerWritten s) = .ok u
  initPhase : u.phase = .ePrime
  initBegun : Begun (headerWritten s) u
  prime : stepEPrime u = .ok t
  phase : t.phase = .eEmit
  begun : Begun (headerWritten s) t
  run : ∀ fuel, runCommand (fuel + 1 + 1 + 1) (setPhase .eHdr s) P = runCommand fuel t P

theorem exists_firstToken (w : Memory.wf s = true) (h0 : s.inLen ≠ 0) (hlt : s.inLen.toNat < 2 ^ 32) :
    ∃ u t, FirstToken P s u t := by
  have hhdr : stepEHdr (setPhase .eHdr s) = headerWritten s := (stepEHdr_of_header hlt).trans (by rw [if_neg h0]; rfl)
  obtain ⟨u, hu, hup, hub⟩ := stepEInit_begun (s := headerWritten s) (headerWritten_memory_wf w)
    (Nat.pos_of_ne_zero fun h => h0 (BitVec.eq_of_toNat_eq h)) hlt
  obtain ⟨t, ht, htp, htb⟩ := hub.prime hup
  refine ⟨u, t, hu, hup, hub, ht, htp, htb, fun fuel => ?_⟩
  rw [runCommand_step rfl (coreStep_eHdr rfl), hhdr, runCommand_step rfl ((coreStep_eInit rfl).trans hu),
    runCommand_step (busy_of_phase hup) ((coreStep_ePrime hup).trans ht)]

/-- How COMPRESS ends on an input whose length the header can hold (R106, R110, R118). -/
structure CompressEnd (P : PosTable) (s t : State) : Prop where
  done : t.phase = .done
  fault : NoFault t
  memory : Memory.wf t = true
  header : ∀ k, k < 4 → outAt t k = lengthByte s.inLen k
  outLen : 4 ≤ t.outLen.toNat ∧ t.outLen.toNat ≤ 4 + (21 * s.inLen.toNat + 7) / 8
  payload : s.inLen ≠ 0 → t.wr.cnt = 0 ∧ ∃ bits, Codes P (inAt s) s.inLen.toNat initialTree 0 bits
    ∧ ∀ k, (writtenBits t).getD (32 + k) false = bits.getD k false

theorem compressEnd_empty (w : Memory.wf s = true) (h : s.inLen = 0) :
    CompressEnd P s (setPhase .done (withHeader (setPhase .eHdr s))) := by
  have hheader := fun k (hk : k < 4) => outAt_withHeader (setPhase .eHdr s) hk
  have hmem := withHeader_memory_wf w
  have hframe := withHeader_frame (setPhase .eHdr s)
  generalize withHeader (setPhase .eHdr s) = t at *
  have hlen : t.outLen.toNat = 4 := by
    rw [hframe]
    rfl
  refine ⟨rfl, ?_, setPhase_memory_wf.trans hmem, hheader, ?_, fun h0 => absurd h h0⟩
  · rw [hframe]
    exact ⟨rfl, rfl⟩
  · rw [setPhase_outLen, hlen]
    exact ⟨le_rfl, Nat.le_add_right _ _⟩

theorem Begun.emitting (h : Begun (headerWritten s) t) (hp : t.phase = .eEmit) : Emitting t := by
  refine ⟨h.safe, .inl ⟨.inl hp, h.encoding⟩, ?_⟩
  have hlen : t.outLen.toNat = 4 := by
    rw [h.output.2]
    rfl
  have hin := h.encoding.inLen
  rw [hlen, h.writer]
  show 8 * 4 + 0 + _ + 64 ≤ _
  omega

theorem Begun.compressEnd (hP : LegalTable P) (h : Begun (headerWritten s) t) (hp : t.phase = .eEmit) {u : State}
    (hu : Finishes P t u) : CompressEnd P s u := by
  obtain ⟨hdone, hfault, hpending, bits, k, hcodes, hk, hwritten⟩ := hu
  have hlen : t.outLen.toNat = 4 := by
    rw [h.output.2]
    rfl
  have hin : inAt t = inAt s := congrArg (sparseGet bufferDefault) h.input.1
  rw [frontier_eEmit hp, h.start, h.huffman, hin, show t.inLen = s.inLen from h.input.2] at hcodes
  have hcount := hwritten.count
  have hbits := hcodes.length_le hP
  rw [hlen, h.writer, hpending, List.length_append, List.length_replicate] at hcount
  simp only [BitVec.ofNat_eq_ofNat, BitVec.toNat_ofNat, Nat.zero_mod, Nat.add_zero] at hcount
  refine ⟨hdone, ⟨hfault.1.trans h.fault.1, hfault.2.trans h.fault.2⟩, hwritten.memory, fun j hj => ?_, by omega, fun _ => ⟨hpending, bits,
    hcodes, fun j => ?_⟩⟩
  · rw [hwritten.appends j (.inl (hlen ▸ hj)), outAt_congr h.output.1]
    exact outAt_withHeader (setPhase .eHdr s) hj
  · have hfront : (writtenBits t).length = 32 := by
      rw [writtenBits, List.length_append, outBits_length, topBits_length, hlen, h.writer]
      rfl
    rw [hwritten.written, List.getD_append_right _ _ _ _ (by omega), hfront, Nat.add_sub_cancel_left, getD_append_zeros]

theorem compress_ends (hP : LegalTable P) (w : Memory.wf s = true) (hlt : s.inLen.toNat < 2 ^ 32) :
    ∃ t, runCommand commandFuel (setPhase .eHdr s) P = .ok t ∧ CompressEnd P s t := by
  by_cases h0 : s.inLen = 0
  · exact ⟨_, runCompress_empty h0 _, compressEnd_empty w h0⟩
  · obtain ⟨-, t, -, -, -, -, hp, hbegun, hrun⟩ := exists_firstToken (P := P) w h0 hlt
    have hfuel : encodeMeasure t ≤ 2 ^ 33 + 13 := by
      have := hbegun.encoding.inLen
      rw [encodeMeasure_eEmit hp]
      omega
    obtain ⟨u, hu, hfin⟩ := (hbegun.emitting hp).runs hP hfuel
    exact ⟨u, by rw [commandFuel_eq_compress, hrun, hu], hbegun.compressEnd hP hp hfin⟩

end Command

/-- Settles O56: the measure bounds the steps, and a byte of input costs at most 21 bits. -/
theorem compressEndsOnEveryInput : Obligations.CompressEndsOnEveryInput := by
  intro s w hb
  rw [exec_compress_of_not_busy hb]
  rcases Nat.lt_or_ge s.inLen.toNat (2 ^ 32) with hlt | hge
  · obtain ⟨t, hrun, ht⟩ := compress_ends legalTable_default w hlt
    refine ⟨t, by rw [hrun, outcome_ok], fun _ => ⟨ht.done, ht.fault.1, ht.fault.2, ht.outLen.1, ht.outLen.2, ?_⟩,
      fun h => absurd hlt (Nat.not_lt.2 h)⟩
    rw [ht.header 0 (by decide), ht.header 1 (by decide), ht.header 2 (by decide), ht.header 3 (by decide), lengthByte_sum hlt]
  · refine ⟨_, by rw [commandFuel_eq_compress, runCompress_range hge, outcome_ok], fun h => absurd h (Nat.not_lt.2 hge), fun _ => ⟨rfl, rfl, rfl, rfl⟩⟩

end Sys2Proof.Machine

/-! PROOFS. DECOMPRESS of what COMPRESS wrote gives the input back (R46, R118): the decoder reads the codes of the tokens one after the
other, with the tree and the window the encoder had. -/

namespace Sys2Proof.Machine

open Sys2Proof

/-! ### The decoder after `k` bytes -/

/-- DECOMPRESS has produced the first `k` of the `n` bytes `x`. -/
structure Restored (x : Nat → Byte) (n : BitVec 32) (k : Nat) (s : State) : Prop where
  memory : Memory.wf s = true
  fault : NoFault s
  origLen : s.dec.origLen = n
  count : s.dec.outCnt.toNat = k
  outLen : s.outLen = s.dec.outCnt.setWidth 64
  output : ∀ a, a < k → outAt s a = x a
  window : ∀ j, 1 ≤ j → j ≤ 4036 → winAt s.textBuf (s.r - BitVec.ofNat 12 j).toNat = before x k j

/-- The phase once `k` of `n` bytes are out. -/
def phaseAt (n k : Nat) : Phase := if k < n then .dSymbol else .done

section Decode

variable {P : PosTable} {x : Nat → Byte} {n : BitVec 32} {k : Nat} {s : State}

/-- The next byte of `x` is produced. -/
theorem Restored.produceByte (h : Restored x n k s) (hk : k < n.toNat) {c : Byte} (hc : c = x k) :
    Restored x n (k + 1) (produceByte c s) := by
  obtain ⟨hmem, hfault, horig, hcnt, hlen, hout, hwin⟩ := h
  refine ⟨produceByte_memory_wf hmem, hfault, horig, ?_, rfl, fun a ha => ?_, fun j h1 hj => ?_⟩
  · show (s.dec.outCnt + 1).toNat = k + 1
    bv_omega
  · rw [outAt_produceByte hmem, hcnt]
    split_ifs with hak
    · rw [hc, hak]
    · exact hout a (by omega)
  · rw [winAt_produceByte hmem]
    show (if (s.r + 1 - BitVec.ofNat 12 j).toNat = s.r.toNat then c else winAt s.textBuf (s.r + 1 - BitVec.ofNat 12 j).toNat) = _
    by_cases hj1 : j = 1
    · subst hj1
      rw [if_pos (by bv_omega), hc, before, if_pos (by omega), Nat.add_sub_cancel]
    · rw [if_neg (by bv_omega), show s.r + 1 - BitVec.ofNat 12 j = s.r - BitVec.ofNat 12 (j - 1) by bv_omega,
        hwin _ (by omega) (by omega), before, before]
      by_cases hjk : j ≤ k + 1
      · rw [if_pos (by omega), if_pos hjk, show k - (j - 1) = k + 1 - j by omega]
      · rw [if_neg (by omega), if_neg hjk]

/-! ### A match (R113, R114) -/

/-- The copy of `m` more bytes `x k ..`, which repeat the bytes `o + 1` places before them. -/
structure Copying (x : Nat → Byte) (n : BitVec 32) (k m : Nat) (o : BitVec 12) (s : State) : Prop where
  restored : Restored x n k s
  phase : s.phase = .dCopy
  left : s.dec.copyRem.toNat = m
  some : 1 ≤ m
  fits : k + m ≤ n.toNat
  source : s.dec.src = s.r - o - 1
  near : o.toNat ≤ 4035
  repeats : ∀ i, i < m → x (k + i) = before x (k + i) (o.toNat + 1)

/-- What the payload's bits are read from. -/
theorem spells_congr {t : State} (hbuf : t.inBuf = s.inBuf) (hlen : t.inLen = s.inLen) (hpos : t.rdBitpos = s.rdBitpos) {bits : List Bool}
    (h : Spells s bits) : Spells t bits := by
  have hat : payloadAt t = payloadAt s := funext fun k => by rw [payloadAt, payloadAt, payloadBit, payloadBit, hbuf, hlen, hpos]
  rwa [Spells, hat]

theorem takeLiteral_spells {g : Huffman} {c l : Nat} {bits : List Bool} (h : Spells (skipBits l s) bits) :
    Spells (takeLiteral (afterSymbol c l g s)) bits := by
  refine spells_congr (s := skipBits l s) (t := takeLiteral (afterSymbol c l g s)) ?_ ?_ ?_ h <;>
    rw [takeLiteral]
  · rw [setPhase_inBuf, produceByte_inBuf]
    rfl
  · rw [setPhase_inLen, produceByte_inLen]
    rfl
  · rw [setPhase_rdBitpos, produceByte_rdBitpos]
    rfl

theorem startCopy_spells {g : Huffman} {c l : Nat} {o : BitVec 12} {bits : List Bool} (h : Spells (skipBits l s) bits) :
    Spells (startCopy o (afterSymbol c l g s)) bits :=
  spells_congr (s := skipBits l s) (t := startCopy o (afterSymbol c l g s)) rfl rfl rfl h

/-- What the copy leaves: the payload still to be read and the tree. -/
def Leaves (s t : State) : Prop := t.huff = s.huff ∧ ∀ bits, Spells s bits → Spells t bits

/-- One pass moves the next byte. -/
theorem Copying.pass {m : Nat} {o : BitVec 12} (h : Copying x n k m o s) : coreStep s P = .ok (afterCopy s)
    ∧ Restored x n (k + 1) (afterCopy s) ∧ Leaves s (afterCopy s)
    ∧ (if 1 < m then Copying x n (k + 1) (m - 1) o (afterCopy s) else (afterCopy s).phase = phaseAt n.toNat (k + 1)) := by
  obtain ⟨hr, hphase, hrem, h1, hfits, hsrc, ho, hrep⟩ := h
  have hcnt := hr.count
  have hbyte : winAt s.textBuf s.dec.src.toNat = x k := by
    rw [hsrc, show s.r - o - 1 = s.r - BitVec.ofNat 12 (o.toNat + 1) by bv_omega, hr.window _ (by omega) (by omega)]
    exact (hrep 0 h1).symm
  have hproduced := hr.produceByte (by omega) hbyte
  have hrestored : Restored x n (k + 1) (afterCopy s) :=
    ⟨setPhase_memory_wf.trans (setDec_memory_wf.trans hproduced.memory), hproduced.fault, hproduced.origLen, hproduced.count,
      hproduced.outLen, hproduced.output, hproduced.window⟩
  have hroom : s.dec.outCnt ≠ s.dec.origLen := by
    rw [hr.origLen]
    bv_omega
  have hrem' : (afterCopy s).dec.copyRem.toNat = m - 1 := by
    show (s.dec.copyRem - 1).toNat = m - 1
    bv_omega
  have hphase' : (afterCopy s).phase = if 0 < (afterCopy s).dec.copyRem.toNat then .dCopy
    else phaseAt (afterCopy s).dec.origLen.toNat (afterCopy s).dec.outCnt.toNat := rfl
  rw [hrem', hrestored.origLen, hrestored.count] at hphase'
  refine ⟨(coreStep_dCopy hphase).trans (stepDCopy_of_room hroom), hrestored, ⟨rfl, fun _ => spells_congr (s := s) rfl rfl rfl⟩, ?_⟩
  split_ifs with hm
  · refine ⟨hrestored, hphase'.trans (if_pos (by omega)), hrem', by omega, by omega, ?_, ho, fun i hi => ?_⟩
    · show s.dec.src + 1 = s.r + 1 - o - 1
      rw [hsrc]
      bv_omega
    · rw [Nat.add_assoc, Nat.add_comm 1 i]
      exact hrep (i + 1) (by omega)
  · exact hphase'.trans (if_neg (by omega))

theorem Copying.copies {m : Nat} {o : BitVec 12} (h : Copying x n k m o s) :
    ∃ t, Reaches P s t ∧ Restored x n (k + m) t ∧ t.phase = phaseAt n.toNat (k + m) ∧ Leaves s t := by
  induction m generalizing k s with
  | zero => exact absurd h.some (by decide)
  | succ m ih =>
    have hb : busy s = true := busy_of_phase h.phase
    obtain ⟨hstep, hrestored, hleaves, hnext⟩ := h.pass (P := P)
    split_ifs at hnext with hm
    · obtain ⟨t, ht, htr, htp, htl⟩ := ih hnext
      rw [Nat.add_right_comm, Nat.add_assoc] at htr htp
      exact ⟨t, (Reaches.step hb hstep).trans ht, htr, htp, htl.1.trans hleaves.1, fun bits hs => htl.2 bits (hleaves.2 bits hs)⟩
    · obtain rfl : m = 0 := by omega
      exact ⟨_, .step hb hstep, hrestored, hnext, hleaves⟩

/-! ### The tokens (R45, R46) -/

theorem update_keeps {h g : Huffman} {c : Nat} {bits : List Bool} (ok : HuffOk h) (w : h.wf = true) (hcode : IsCode h c bits)
    (hg : update c h = .ok g) : HuffOk g ∧ g.wf = true := by
  obtain ⟨hc, -⟩ := ok.linksOk.isCode_iff.1 hcode
  obtain ⟨g', hg', okg, wg, -⟩ := update_ok ok w hc
  exact Except.ok.inj (hg'.symm.trans hg) ▸ ⟨okg, wg⟩

/-- The symbol read leaves the bytes produced as they are. -/
theorem Restored.afterSymbol (h : Restored x n k s) {g : Huffman} (wg : g.wf = true) (c l : Nat) :
    Restored x n k (afterSymbol c l g s) :=
  ⟨afterSymbol_memory_wf h.memory wg c l, h.fault, h.origLen, h.count, h.outLen, h.output, h.window⟩

theorem Restored.literal (h : Restored x n k s) (hk : k < n.toNat) {g : Huffman} (wg : g.wf = true) (l : Nat) :
    Restored x n (k + 1) (takeLiteral (Machine.afterSymbol (x k).toNat l g s))
      ∧ (takeLiteral (Machine.afterSymbol (x k).toNat l g s)).phase = phaseAt n.toNat (k + 1) := by
  have hbyte : (BitVec.ofNat 9 (x k).toNat).setWidth 8 = x k := by bv_omega
  have hnext := (h.afterSymbol wg (x k).toNat l).produceByte hk hbyte
  refine ⟨⟨setPhase_memory_wf.trans hnext.memory, hnext.fault, hnext.origLen, hnext.count, hnext.outLen, hnext.output, hnext.window⟩, ?_⟩
  rw [← hnext.count, ← hnext.origLen]
  rfl

theorem Restored.copying (h : Restored x n k s) {g : Huffman} (wg : g.wf = true) (l : Nat) {m : BitVec 6} {o : BitVec 12}
    (h3 : 3 ≤ m.toNat) (h60 : m.toNat ≤ 60) (hfits : k + m.toNat ≤ n.toNat) (ho : o.toNat ≤ 4035)
    (hrep : ∀ i, i < m.toNat → x (k + i) = before x (k + i) (o.toNat + 1)) :
    Copying x n k m.toNat o (startCopy o (Machine.afterSymbol (253 + m.toNat) l g s)) := by
  have hnext := h.afterSymbol wg (253 + m.toNat) l
  refine ⟨⟨startCopy_memory_wf.trans hnext.memory, hnext.fault, hnext.origLen, hnext.count, hnext.outLen, hnext.output, hnext.window⟩,
    rfl, ?_, by omega, hfits, rfl, ho, hrep⟩
  show (lenOfSym (BitVec.ofNat 9 (253 + m.toNat)).toNat).toNat = m.toNat
  rw [lenOfSym, BitVec.toNat_ofNat, BitVec.toNat_ofNat, Nat.mod_eq_of_lt (show 253 + m.toNat < 2 ^ 9 by omega),
    Nat.add_sub_cancel_left, Nat.mod_eq_of_lt (by omega)]

theorem phaseAt_of_lt {n k : Nat} (h : k < n) : phaseAt n k = .dSymbol := if_pos h

/-- The decoder reads the codes of the bytes from `k` on and produces those bytes. -/
theorem Codes.restores (hP : LegalTable P) {h : Huffman} {bits : List Bool} (hc : Codes P x n.toNat h k bits) :
    ∀ s : State, s.huff = h → HuffOk h → Restored x n k s → s.phase = phaseAt n.toNat k → Spells s bits →
      ∃ t, Reaches P s t ∧ t.phase = .done ∧ Restored x n n.toNat t := by
  induction hc with
  | nothing => exact fun s _ _ hr hp _ => ⟨s, .refl s, hp.trans (if_neg (Nat.lt_irrefl _)), hr⟩
  | @literal h g k bits rest hk hcode _ hg _ ih =>
    rintro s rfl ok hr hp hs
    obtain ⟨hs1, hs2⟩ := spells_append_iff.1 hs
    obtain ⟨okg, wg⟩ := update_keeps ok (memory_wf_iff.1 hr.memory).2.2.2.2 hcode hg
    obtain ⟨hnext, hphase⟩ := hr.literal hk wg bits.length
    have hp' := hp.trans (phaseAt_of_lt hk)
    obtain ⟨t, ht, hend⟩ := ih _ rfl okg hnext hphase (takeLiteral_spells hs2)
    have hstep := (coreStep_dSymbol (P := P) hp').trans (stepDSymbol_literal ok hcode hs1 hg (x k).isLt)
    exact ⟨t, (Reaches.step (busy_of_phase hp') hstep).trans ht, hend⟩
  | @copy h g k m o bits rest h3 h60 hfits ho hrep hcode _ hg _ ih =>
    rintro s rfl ok hr hp hs
    obtain ⟨hs1, hs2⟩ := spells_append_iff.1 hs
    obtain ⟨hso, hs3⟩ := spells_append_iff.1 hs2
    obtain ⟨okg, wg⟩ := update_keeps ok (memory_wf_iff.1 hr.memory).2.2.2.2 hcode hg
    have hp' := hp.trans (phaseAt_of_lt (by omega))
    have hstep := (coreStep_dSymbol (P := P) hp').trans (stepDSymbol_match hP ok hcode hs1 hg (by omega) hso)
    obtain ⟨t, ht, hnext, hphase, hhuff, hspells⟩ :=
      (hr.copying wg (bits.length + (posBits o P).length) h3 h60 hfits ho hrep).copies (P := P)
    rw [skipBits_skipBits] at hs3
    obtain ⟨u, hu, hend⟩ := ih t hhuff okg hnext hphase (hspells rest (startCopy_spells hs3))
    exact ⟨u, ((Reaches.step (busy_of_phase hp') hstep).trans ht).trans hu, hend⟩

end Decode

/-! ### The round trip (R118) -/

/-- The output of a command offered to the next one as its input. -/
def fedBack (t : State) : State := { t with inBuf := t.outBuf, inLen := t.outLen }

section RoundTrip

variable {P : PosTable} {s t : State}

theorem fedBack_memory_wf (w : Memory.wf t = true) : Memory.wf (fedBack t) = true := by
  obtain ⟨-, wout, wtb, wmf, wh⟩ := memory_wf_iff.1 w
  exact memory_wf_iff.2 ⟨wout, wout, wtb, wmf, wh⟩

/-- The header reads back as the length. -/
theorem CompressEnd.headerValue (h : CompressEnd P s t) (hlt : s.inLen.toNat < 2 ^ 32) :
    (headerValue (fedBack t)).toNat = s.inLen.toNat := by
  have hin : ∀ k, k < 4 → inAt (fedBack t) k = lengthByte s.inLen k := h.header
  rw [headerValue_toNat, hin 0 (by decide), hin 1 (by decide), hin 2 (by decide), hin 3 (by decide), lengthByte_sum hlt]

theorem stepDInit_restored (w : Memory.wf s = true) (hf : NoFault s) (hlen : s.outLen = 0) (x : Nat → Byte) :
    Restored x s.dec.origLen 0 (stepDInit s) := by
  refine ⟨stepDInit_memory_wf w, ⟨?_, ?_⟩, ?_, ?_, ?_, fun a ha => absurd ha (Nat.not_lt_zero a), fun j h1 hj => ?_⟩
  · rw [stepDInit_faultCode]
    exact hf.1
  · rw [stepDInit_faultInfo]
    exact hf.2
  · rw [stepDInit_dec]
  · rw [stepDInit_dec]
    rfl
  · rw [stepDInit_outLen, hlen, stepDInit_dec]
    rfl
  · rw [stepDInit_textBuf, winAt_winFill (memory_wf_iff.1 w).2.2.1 (Nat.lt_trans (BitVec.isLt _) (by decide)), before,
      if_neg (by omega)]

/-- A payload whose bits are these spells them from its start. -/
theorem stepDInit_spells {bits : List Bool} (hlen : bits.length < 2 ^ 64) (h : ∀ k, k < bits.length → payloadBit s k = bits.getD k false) :
    Spells (stepDInit s) bits := by
  refine List.ext_getElem (by rw [List.length_map, List.length_range]) fun k hk hk' => ?_
  have hbit : payloadBit (stepDInit s) k = payloadBit s k := by
    rw [payloadBit, payloadBit, stepDInit_inLen, stepDInit_inBuf]
  have hat : (0 + BitVec.ofNat 64 k).toNat = k := by bv_omega
  rw [List.getElem_map, List.getElem_range, payloadAt, stepDInit_rdBitpos, hat, hbit, h k hk', List.getD_eq_getElem _ _ hk']

/-- DECOMPRESS reaches a state that holds the input of COMPRESS. -/
theorem CompressEnd.restores (hP : LegalTable P) (h : CompressEnd P s t) (hlt : s.inLen.toNat < 2 ^ 32) :
    ∃ u, Reaches P (setPhase .dHdr (fedBack t)) u ∧ u.phase = .done ∧ NoFault u ∧ u.outLen = s.inLen
      ∧ ∀ k, k < s.inLen.toNat → outAt u k = inAt s k := by
  have hheader := h.headerValue hlt
  have h4 : 4 ≤ (fedBack t).inLen.toNat := h.outLen.1
  have hmem := headerTaken_memory_wf (fedBack_memory_wf h.memory)
  by_cases h0 : s.inLen = 0
  · have hn : Machine.headerValue (fedBack t) = 0 := BitVec.eq_of_toNat_eq (by rw [hheader, h0]; rfl)
    refine ⟨headerTaken (fedBack t), ⟨1, runDecompress_header h4⟩, if_pos hn, ⟨rfl, rfl⟩, h0.symm, fun k hk => ?_⟩
    rw [h0] at hk
    exact absurd hk (Nat.not_lt_zero k)
  · have hn : Machine.headerValue (fedBack t) ≠ 0 := fun hz => h0 (BitVec.eq_of_toNat_eq (by rw [← hheader, hz]; rfl))
    obtain ⟨hpending, bits, hcodes, hbits⟩ := h.payload h0
    have hlen := hcodes.length_le hP
    have hspells : Spells (stepDInit (headerTaken (fedBack t))) bits :=
      stepDInit_spells (by omega) fun k _ => (payloadBit_of_out hpending k).trans (hbits k)
    have hstart := stepDInit_restored hmem ⟨rfl, rfl⟩ rfl (inAt s)
    have hhuff : (stepDInit (headerTaken (fedBack t))).huff = initialTree := by
      rw [stepDInit_huff, startHuff_eq (memory_wf_iff.1 hmem).2.2.2.2]
    have hpos : 0 < s.inLen.toNat := Nat.pos_of_ne_zero fun hz => h0 (BitVec.eq_of_toNat_eq hz)
    rw [← hheader] at hcodes hpos
    obtain ⟨u, hu, hdone, hr⟩ := hcodes.restores hP _ hhuff initialTree_huffOk hstart
      ((stepDInit_phase _).trans (phaseAt_of_lt hpos).symm) hspells
    refine ⟨u, Reaches.trans ⟨2, runDecompress_init h4 hn⟩ hu, hdone, hr.fault, BitVec.eq_of_toNat_eq ?_, ?_⟩
    · rw [hr.outLen, BitVec.toNat_setWidth_of_le (by decide), hr.count, hheader]
    · rw [← hheader]
      exact hr.output

/-- Both commands end, and the second restores the input of the first. -/
theorem round_trip (hP : LegalTable P) (w : Memory.wf s = true) (hb : busy s = false) (hlt : s.inLen.toNat < 2 ^ 32) :
    ∃ t u, execCompress s P = .next t ∧ execDecompress (fedBack t) P = .next u ∧ u.phase = .done ∧ u.faultCode = .none
      ∧ u.outLen = s.inLen ∧ ∀ k, k < s.inLen.toNat → outAt u k = inAt s k := by
  obtain ⟨t, hrun, ht⟩ := compress_ends hP w hlt
  obtain ⟨u, hrun', -⟩ := decompress_ends hP (fedBack_memory_wf ht.memory)
  obtain ⟨v, hreach, hdone, hfault, hres⟩ := ht.restores hP hlt
  obtain rfl := hreach.end_eq (busy_of_phase hdone) hrun'
  have hb' : busy (fedBack t) = false := busy_of_phase ht.done
  exact ⟨t, u, by rw [execCompress, wholeCommand_of_not_busy hb, hrun, outcome_ok],
    by rw [execDecompress, wholeCommand_of_not_busy hb', hrun', outcome_ok], hdone, hfault.1, hres⟩

end RoundTrip

/-- Settles O60: the decoder reads the codes of the tokens, whose bytes are those of the input. -/
theorem roundTripRestoresTheInput : Obligations.RoundTripRestoresTheInput :=
  ⟨fun _ _ hP w hb hlt => round_trip hP w hb hlt, fun _ w hb hlt => round_trip legalTable_default w hb hlt⟩

end Sys2Proof.Machine

/-! PROOFS. What the match finder answers depends on its trees alone (R57, R59, R119): links outside the trees are never read before they
are written. -/

namespace Sys2Proof.Machine

open Sys2Proof

/-! ### Two runs side by side -/

/-- Where both runs answer, their answers stand in `R`. -/
def InStep {α β : Type} (R : α → β → Prop) (x : Res α) (x' : Res β) : Prop := ∀ a a', x = .ok a → x' = .ok a' → R a a'

section InStep

variable {α β γ δ : Type} {R : α → β → Prop} {S : γ → δ → Prop}

theorem InStep.refl (x : Res α) : InStep (· = ·) x x := fun _ _ e e' => Except.ok.inj (e.symm.trans e')

theorem InStep.ok {a : α} {a' : β} (h : R a a') : InStep R (.ok a) (.ok a') := fun _ _ e e' => by
  rwa [← Except.ok.inj e, ← Except.ok.inj e']

theorem InStep.bind {x : Res α} {x' : Res β} {f : α → Res γ} {f' : β → Res δ} (h : InStep R x x')
    (k : ∀ a a', R a a' → InStep S (f a) (f' a')) : InStep S (x >>= f) (x' >>= f') := fun b b' e e' => by
  obtain ⟨a, ea, e⟩ := bind_eq_ok.1 e
  obtain ⟨a', ea', e'⟩ := bind_eq_ok.1 e'
  exact k a a' (h a a' ea ea') b b' e e'

/-- Both runs read the same value. -/
theorem InStep.read {x x' : Res α} {f : α → Res γ} {f' : α → Res δ} (h : InStep (· = ·) x x')
    (k : ∀ a, x = .ok a → InStep S (f a) (f' a)) : InStep S (x >>= f) (x' >>= f') := fun b b' e e' => by
  obtain ⟨a, ea, e⟩ := bind_eq_ok.1 e
  obtain ⟨a', ea', e'⟩ := bind_eq_ok.1 e'
  obtain rfl : a = a' := h a a' ea ea'
  exact k a ea b b' e e'

theorem InStep.mono {R' : α → β → Prop} {x : Res α} {x' : Res β} (h : InStep R x x') (k : ∀ a a', R a a' → R' a a') :
    InStep R' x x' := fun a a' e e' => k a a' (h a a' e e')

end InStep

/-! ### Match finders that agree on some child links -/

/-- Agreement on the parents, the child links in `A` and the match result. -/
structure Alike (A : Int → Nat → Prop) (m m' : MatchFinder) : Prop where
  wf : m.wf = true
  wf' : m'.wf = true
  dad : ∀ i, i < 4096 → dadOf m' i = dadOf m i
  child : ∀ cmp i, A cmp i → childOf m' cmp i = childOf m cmp i
  length : m'.matchLength = m.matchLength
  position : m'.matchPosition = m.matchPosition

section Alike

variable {A : Int → Nat → Prop} {m m' : MatchFinder} {i : Nat} {v : Idx}

theorem Alike.mono {B : Int → Nat → Prop} (h : Alike A m m') (hB : ∀ cmp i, B cmp i → A cmp i) : Alike B m m' :=
  ⟨h.wf, h.wf', h.dad, fun cmp i hi => h.child cmp i (hB cmp i hi), h.length, h.position⟩

theorem Alike.readDad (h : Alike A m m') (hi : i < 4096) : InStep (· = ·) (dadAt m i) (dadAt m' i) := fun c c' e e' =>
  Fin.ext (by rw [dadAt_eq_ok e, dadAt_eq_ok e', h.dad i hi])

theorem Alike.readLson (h : Alike A m m') (hi : A (-1) i) : InStep (· = ·) (lsonAt m i) (lsonAt m' i) := fun c c' e e' =>
  Fin.ext (by rw [lsonAt_eq_ok e, lsonAt_eq_ok e', ← childOf_left, ← childOf_left, h.child _ i hi])

theorem Alike.readRson (h : Alike A m m') (hi : A 1 i) : InStep (· = ·) (rsonAt m i) (rsonAt m' i) := fun c c' e e' =>
  Fin.ext (by rw [rsonAt_eq_ok e, rsonAt_eq_ok e', ← childOf_right, ← childOf_right, h.child _ i hi])

theorem Alike.setRson (h : Alike A m m') (i : Nat) (v : Idx) : InStep (Alike A) (setRson i v m) (setRson i v m') := fun t t' e e' => by
  obtain ⟨w, hc, hd, hl, hp⟩ := setRson_eq_ok h.wf e
  obtain ⟨w', hc', hd', hl', hp'⟩ := setRson_eq_ok h.wf' e'
  refine ⟨w, w', fun j hj => by rw [hd, hd', h.dad j hj], fun cmp j hj => ?_, by rw [hl, hl', h.length], by rw [hp, hp', h.position]⟩
  rw [hc, hc', putChild, putChild, h.child cmp j hj]

theorem Alike.setLson (h : Alike A m m') (i : Nat) (v : Idx) : InStep (Alike A) (setLson i v m) (setLson i v m') := fun t t' e e' => by
  obtain ⟨w, hc, hd, hl, hp⟩ := setLson_eq_ok h.wf e
  obtain ⟨w', hc', hd', hl', hp'⟩ := setLson_eq_ok h.wf' e'
  refine ⟨w, w', fun j hj => by rw [hd, hd', h.dad j hj], fun cmp j hj => ?_, by rw [hl, hl', h.length], by rw [hp, hp', h.position]⟩
  rw [hc, hc', putChild, putChild, h.child cmp j hj]

theorem Alike.setDad (h : Alike A m m') (i : Nat) (v : Idx) : InStep (Alike A) (setDad i v m) (setDad i v m') := fun t t' e e' => by
  obtain ⟨w, hc, hd, hl, hp⟩ := setDad_eq_ok h.wf e
  obtain ⟨w', hc', hd', hl', hp'⟩ := setDad_eq_ok h.wf' e'
  refine ⟨w, w', fun j hj => ?_, fun cmp j hj => by rw [hc, hc', h.child cmp j hj], by rw [hl, hl', h.length], by rw [hp, hp', h.position]⟩
  rw [hd, hd', putDad, putDad, h.dad j hj]

theorem Alike.hangInPlace (h : Alike A m m') {q : Idx} (hq : A 1 q.val) (p x : Idx) :
    InStep (Alike A) (hangInPlace q p x m) (hangInPlace q p x m') := (h.readRson hq).read fun c _ => by
  split_ifs
  · exact h.setRson _ _
  · exact h.setLson _ _

end Alike

/-! ### Writes that keep the parents of some positions among the links agreed on -/

/-- Agreement, with the parents of the positions in `I` among the nodes whose links agree. -/
structure Hung (A : Int → Nat → Prop) (I : Nat → Prop) (m m' : MatchFinder) : Prop where
  alike : Alike A m m'
  parent : ∀ i, I i → A 1 (dadOf m i)

section Hung

variable {A : Int → Nat → Prop} {I : Nat → Prop} {m m' : MatchFinder}

theorem Hung.setRson (h : Hung A I m m') (i : Nat) (v : Idx) : InStep (Hung A I) (setRson i v m) (setRson i v m') := fun t t' e e' =>
  ⟨h.alike.setRson i v t t' e e', by rw [(setRson_eq_ok h.alike.wf e).dad]; exact h.parent⟩

theorem Hung.setLson (h : Hung A I m m') (i : Nat) (v : Idx) : InStep (Hung A I) (setLson i v m) (setLson i v m') := fun t t' e e' =>
  ⟨h.alike.setLson i v t t' e e', by rw [(setLson_eq_ok h.alike.wf e).dad]; exact h.parent⟩

theorem Hung.setDad (h : Hung A I m m') (i : Nat) {v : Idx} (hv : A 1 v.val) :
    InStep (Hung A I) (setDad i v m) (setDad i v m') := fun t t' e e' => by
  refine ⟨h.alike.setDad i v t t' e e', fun j hj => ?_⟩
  rw [(setDad_eq_ok h.alike.wf e).dad, putDad]
  split_ifs
  · exact hv
  · exact h.parent j hj

/-- The parent read is one whose links agree. -/
theorem Hung.readDad (h : Hung A I m m') {p : Nat} (hI : I p) (hp : p < 4096) {α : Type} {S : α → α → Prop}
    {f f' : Idx → Res α} (k : ∀ d : Idx, A 1 d.val → InStep S (f d) (f' d)) : InStep S (dadAt m p >>= f) (dadAt m' p >>= f') :=
  (h.alike.readDad hp).read fun d e => k d (by rw [dadAt_eq_ok e]; exact h.parent p hI)

/-! ### INSERT_NODE (R57) -/

theorem Hung.replaceNode (h : Hung A I m m') {r p : Idx} (hI : I p.val) (hp : p.val < 4096) (hA : ∀ cmp, A cmp p.val) (hr : A 1 r.val) :
    InStep (Alike A) (replaceNode r p m) (replaceNode r p m') :=
  h.readDad hI hp fun _ hd =>
  (h.setDad _ hd).bind fun _ _ h1 =>
  (h1.alike.readLson (hA _)).read fun _ _ =>
  (h1.setLson _ _).bind fun _ _ h2 =>
  (h2.alike.readRson (hA _)).read fun _ _ =>
  (h2.setRson _ _).bind fun _ _ h3 =>
  (h3.alike.readLson (hA _)).read fun _ _ =>
  (h3.setDad _ hr).bind fun _ _ h4 =>
  (h4.alike.readRson (hA _)).read fun _ _ =>
  (h4.setDad _ hr).bind fun _ _ h5 =>
  h5.readDad hI hp fun _ hd =>
  (h5.alike.hangInPlace hd _ _).bind fun _ _ h6 => h6.setDad _ _

/-! ### DELETE_NODE (R59) -/

theorem Hung.spliceOut (h : Hung A I m m') {p q : Idx} (hI : I p.val) (hp : p.val < 4096) :
    InStep (Alike A) (spliceOut p q m) (spliceOut p q m') :=
  h.readDad hI hp fun _ hd =>
  (h.setDad _ hd).bind fun _ _ h1 =>
  h1.readDad hI hp fun _ hd =>
  (h1.alike.hangInPlace hd _ _).bind fun _ _ h2 => h2.setDad _ _

end Hung

section Trees

variable {tb : List Host.Cell} {m m' : MatchFinder}

/-- Match finders that agree on their trees. -/
def SameTrees (m m' : MatchFinder) : Prop := Alike (WalkNode m) m m'

theorem SameTrees.hung (h : SameTrees m m') (ok : DirOk tb m) : Hung (WalkNode m) (InTree m) m m' :=
  ⟨h, fun _ hp => (ok.dad_node hp).imp_right fun hs => ⟨hs, by decide⟩⟩

/-- The child read at a node of the tree is NIL or in the tree. -/
theorem DirOk.rsonAt_inTree (ok : DirOk tb m) {p c : Idx} (hp : InTree m p.val) (e : rsonAt m p.val = .ok c) (hc : c ≠ nilIdx) :
    InTree m c.val := by
  have hval : c.val = childOf m 1 p.val := (rsonAt_eq_ok e).trans (childOf_right ..).symm
  rw [hval]
  exact ok.child_inTree (.inl hp) fun e => hc (Fin.ext (hval.trans e))

theorem DirOk.lsonAt_inTree (ok : DirOk tb m) {p c : Idx} (hp : InTree m p.val) (e : lsonAt m p.val = .ok c) (hc : c ≠ nilIdx) :
    InTree m c.val := by
  have hval : c.val = childOf m (-1) p.val := (lsonAt_eq_ok e).trans (childOf_left ..).symm
  rw [hval]
  exact ok.child_inTree (.inl hp) fun e => hc (Fin.ext (hval.trans e))

theorem SameTrees.rightmost (h : SameTrees m m') (ok : DirOk tb m) {fuel : Nat} {q : Idx} (hq : InTree m q.val) :
    InStep (fun a a' => a = a' ∧ InTree m a.val) (rightmost m fuel q) (rightmost m' fuel q) := by
  induction fuel generalizing q with
  | zero =>
    intro _ _ e
    cases e
  | succ fuel ih =>
    refine (h.readRson (.inl hq)).read fun c hc => ?_
    split_ifs with hnil
    · exact .ok ⟨rfl, hq⟩
    · exact ih (ok.rsonAt_inTree hq hc hnil)

/-- The writes so far keep the agreement on the trees of `m`, and the position taken is the same. -/
def SamePlace (m : MatchFinder) (x x' : Idx × MatchFinder) : Prop :=
  x.1 = x'.1 ∧ Hung (WalkNode m) (InTree m) x.2 x'.2

theorem SameTrees.detachPredecessor (h : SameTrees m m') (ok : DirOk tb m) {p q0 : Idx} (hp : InTree m p.val) (hq0 : InTree m q0.val) :
    InStep (fun x x' => SamePlace m x x' ∧ InTree m x.1.val) (detachPredecessor p q0 m) (detachPredecessor p q0 m') := by
  have hung := h.hung ok
  refine (h.readRson (.inl hq0)).read fun c _ => ?_
  split_ifs
  · exact .ok ⟨⟨rfl, hung⟩, hq0⟩
  refine (h.rightmost ok hq0).bind fun q q' ⟨e, hq⟩ => ?_
  subst e
  exact hung.readDad hq hq.1 fun _ _ =>
    (h.readLson (.inl hq)).read fun _ _ =>
    (hung.setRson _ _).bind fun _ _ h1 =>
    (h1.alike.readLson (.inl hq)).read fun _ _ =>
    h1.readDad hq hq.1 fun _ hd =>
    (h1.setDad _ hd).bind fun _ _ h2 =>
    (h2.alike.readLson (.inl hp)).read fun _ _ =>
    (h2.setLson _ _).bind fun _ _ h3 =>
    (h3.alike.readLson (.inl hp)).read fun _ _ =>
    (h3.setDad _ (.inl hq)).bind fun _ _ h4 => .ok ⟨⟨rfl, h4⟩, hq⟩

theorem SameTrees.hangPredecessor (h : SameTrees m m') (ok : DirOk tb m) {p : Idx} (hp : InTree m p.val) {l : Idx}
    (hl : lsonAt m p.val = .ok l) (hnil : l ≠ nilIdx) : InStep (SamePlace m) (hangPredecessor p m) (hangPredecessor p m') := by
  refine (h.readLson (.inl hp)).read fun q0 hq0 => ?_
  obtain rfl := Except.ok.inj (hl.symm.trans hq0)
  refine (h.detachPredecessor ok hp (ok.lsonAt_inTree hp hq0 hnil)).bind ?_
  rintro ⟨q, n⟩ ⟨q', n'⟩ ⟨⟨rfl, h1⟩, hq⟩
  exact (h1.alike.readRson (.inl hp)).read fun _ _ =>
    (h1.setRson _ _).bind fun _ _ h2 =>
    (h2.alike.readRson (.inl hp)).read fun _ _ =>
    (h2.setDad _ (.inl hq)).bind fun _ _ h3 => .ok ⟨rfl, h3⟩

theorem SameTrees.replacement (h : SameTrees m m') (ok : DirOk tb m) {p : Idx} (hp : InTree m p.val) :
    InStep (SamePlace m) (replacement p m) (replacement p m') := by
  refine (h.readLson (.inl hp)).read fun l hl => (h.readRson (.inl hp)).read fun r _ => ?_
  split_ifs with hr hnil
  · exact .ok ⟨rfl, h.hung ok⟩
  · exact .ok ⟨rfl, h.hung ok⟩
  · exact h.hangPredecessor ok hp hl hnil

theorem SameTrees.deleteNode (h : SameTrees m m') (ok : DirOk tb m) (p : BitVec 12) :
    InStep SameTrees (Machine.deleteNode p m) (Machine.deleteNode p m') := by
  obtain ⟨t, ht, -, hin⟩ := deleteNode_ok (p := p) h.wf ok
  have hstep : InStep (Alike (WalkNode m)) (Machine.deleteNode p m) (Machine.deleteNode p m') := by
    refine (h.readDad p.isLt).read fun d hd => ?_
    split_ifs with hnil
    · exact .ok h
    · have hp : InTree m (posIdx p).val := by
        rw [posIdx_val]
        exact inTree_iff.2 ⟨p.isLt, fun e => hnil (Fin.ext ((dadAt_eq_ok hd).trans e))⟩
      refine (h.replacement ok hp).bind ?_
      rintro ⟨q, n⟩ ⟨q', n'⟩ ⟨rfl, h1⟩
      exact h1.spliceOut hp hp.1
  intro a a' e e'
  obtain rfl := Except.ok.inj (ht.symm.trans e)
  exact (hstep _ a' e e').mono fun cmp q hq => hq.imp_left fun h => ((hin q).1 h).1

/-! ### The walk of INSERT_NODE -/

/-- The nodes of the tree and the new position. -/
def WithNew (m : MatchFinder) (r : Nat) (cmp : Int) (x : Nat) : Prop := x = r ∨ WalkNode m cmp x

theorem SameTrees.clearNode (h : SameTrees m m') (r : BitVec 12) :
    InStep (fun t t' => Alike (WithNew m r.toNat) t t' ∧ Cleared m t r.toNat) (clearNode (posIdx r) m) (clearNode (posIdx r) m') :=
    fun t t' e e' => by
  obtain ⟨u, hu, hcl, hl, hp⟩ := clearNode_ok (r := r) h.wf
  obtain ⟨u', hu', hcl', hl', hp'⟩ := clearNode_ok (r := r) h.wf'
  obtain rfl := Except.ok.inj (hu.symm.trans e)
  obtain rfl := Except.ok.inj (hu'.symm.trans e')
  refine ⟨⟨hcl.wf, hcl'.wf, ?_, fun cmp x hx => ?_, hl'.trans hl.symm, hp'.trans (h.position.trans hp.symm)⟩, hcl⟩
  · rw [hcl.dad, hcl'.dad]
    exact h.dad
  · by_cases hxr : x = r.toNat
    · rw [hxr, hcl.leaf, hcl'.leaf]
    · rw [hcl.child cmp x hxr, hcl'.child cmp x hxr, h.child cmp x (hx.resolve_left hxr)]

theorem Alike.readChild {A : Int → Nat → Prop} (h : Alike A m m') {cmp : Int} {p : Idx} (hp : A cmp p.val) :
    InStep (· = ·) (childAt m cmp p) (childAt m' cmp p) := by
  unfold childAt
  split_ifs with h0
  · refine fun c c' e e' => Fin.ext ?_
    have := h.child cmp p.val hp
    rw [childOf, childOf, if_pos h0, if_pos h0] at this
    rw [rsonAt_eq_ok e, rsonAt_eq_ok e', this]
  · refine fun c c' e e' => Fin.ext ?_
    have := h.child cmp p.val hp
    rw [childOf, childOf, if_neg h0, if_neg h0] at this
    rw [lsonAt_eq_ok e, lsonAt_eq_ok e', this]

theorem Alike.noteCandidate {A : Int → Nat → Prop} (h : Alike A m m') (o : BitVec 12) (i : Nat) :
    Alike A (noteCandidate o i m) (noteCandidate o i m') := by
  obtain ⟨w, w', hd, hc, hl, hp⟩ := h
  unfold Machine.noteCandidate
  rw [hl, hp]
  split_ifs
  · exact ⟨w, w', hd, hc, rfl, rfl⟩
  · exact ⟨w, w', hd, hc, rfl, rfl⟩
  · exact ⟨w, w', hd, hc, hl, hp⟩
  · exact ⟨w, w', hd, hc, hl, hp⟩

/-- What both walks end with: one site, in the tree of `m` where it is a node to replace. -/
structure SameSite (m : MatchFinder) (r : Nat) (x x' : InsertSite × MatchFinder) : Prop where
  site : x.1 = x'.1
  alike : Alike (WithNew m r) x.2 x'.2
  cleared : Cleared m x.2 r
  replaced : ∀ c, x.1 = .replaces c → InTree m c.val

theorem insertWalk_sameSite (ok : DirOk tb m) {r : BitVec 12} (hr : ¬ InTree m r.toNat) {fuel : Nat} {cmp : Int} {p : Idx}
    {n n' : MatchFinder} (h : Alike (WithNew m r.toNat) n n') (hcl : Cleared m n r.toNat) (hp : WalkNode m cmp p.val) :
    InStep (SameSite m r.toNat) (insertWalk tb r fuel cmp p n) (insertWalk tb r fuel cmp p n') := by
  induction fuel generalizing cmp p n n' with
  | zero =>
    intro _ _ e
    cases e
  | succ fuel ih =>
    refine (h.readChild (.inr hp)).read fun child hchild => ?_
    have hval := (hcl.sameLinks r.isLt hr).childAt_eq_ok hp hchild
    by_cases hnil : child = nilIdx
    · rw [if_pos hnil, if_pos hnil]
      refine .ok ⟨rfl, h, hcl, fun c e => ?_⟩
      split_ifs at e
    · rw [if_neg hnil, if_neg hnil]
      have hin : InTree m child.val := hval ▸ ok.child_inTree hp fun e => hnil (Fin.ext (hval.trans e))
      refine (InStep.refl _).read fun ⟨cmp', i⟩ _ => ?_
      rw [h.length]
      have h' := h.noteCandidate (offsetOf r (BitVec.ofNat 12 child.val)) i
      have hcl' := hcl.of_frame (noteCandidate_frame (offsetOf r (BitVec.ofNat 12 child.val)) i n)
      dsimp only
      split_ifs
      · exact .ok ⟨rfl, h', hcl', fun c e => InsertSite.replaces.inj e ▸ hin⟩
      · exact ih h' hcl' (.inl hin)

/-! ### The whole insertion -/

theorem linkAt_alike (ok : DirOk tb m) {r : BitVec 12} {site : InsertSite} {n n' : MatchFinder} (h : Alike (WithNew m r.toNat) n n')
    (hcl : Cleared m n r.toNat) (hsite : ∀ c, site = .replaces c → InTree m c.val) :
    InStep (Alike (WithNew m r.toNat)) (linkAt (posIdx r) site n) (linkAt (posIdx r) site n') := by
  cases site with
  | rightOf p => exact (h.setRson _ _).bind fun _ _ h1 => h1.setDad _ _
  | leftOf p => exact (h.setLson _ _).bind fun _ _ h1 => h1.setDad _ _
  | replaces p =>
    have hp := hsite p rfl
    have hung : Hung (WithNew m r.toNat) (InTree m) n n' := ⟨h, fun q hq => by
      rw [hcl.dad]
      exact .inr ((ok.dad_node hq).imp_right fun hs => ⟨hs, by decide⟩)⟩
    exact hung.replaceNode hp hp.1 (fun cmp => .inr (.inl hp)) (.inl (posIdx_val r))

theorem SameTrees.insertNode (h : SameTrees m m') (ok : DirOk tb m) {r : BitVec 12} (hr : ¬ InTree m r.toNat) :
    InStep SameTrees (insertNode tb r m) (insertNode tb r m') := by
  obtain ⟨t, ht, -, -, hin, -⟩ := insertNode_keeps h.wf ok hr
  have hstep : InStep (Alike (WithNew m r.toNat)) (Machine.insertNode tb r m) (Machine.insertNode tb r m') := by
    refine (InStep.refl _).read fun b _ => (h.clearNode r).bind fun n n' ⟨h1, hcl⟩ => ?_
    refine (insertWalk_sameSite ok hr h1 hcl (.inr ⟨lookupIdx_sentinel b, by decide⟩)).bind ?_
    rintro ⟨site, u⟩ ⟨site', u'⟩ ⟨rfl, hu, hclu, hsite⟩
    exact linkAt_alike ok hu hclu hsite
  intro a a' e e'
  obtain rfl := Except.ok.inj (ht.symm.trans e)
  refine (hstep _ a' e e').mono fun cmp q hq => ?_
  rcases hq with hq | hq
  · exact (hin q hq).imp_right .inl
  · exact .inr (.inr hq)

/-! ### INIT_TREE (R56) -/

/-- Empty trees agree whatever the links were. -/
theorem sameTrees_initTree (w : m.wf = true) (w' : m'.wf = true) :
    SameTrees { initTree m with matchLength := 0, matchPosition := 0 } { initTree m' with matchLength := 0, matchPosition := 0 } := by
  have hw := initTree_wf w
  have hw' := initTree_wf w'
  have hd := fun i (hi : i < 4096) => (initTree_dad w' hi).trans (initTree_dad w hi).symm
  have hempty := initTree_empty w
  have hroot := fun i (hi : IsSentinel i) => (initTree_root w' hi).trans (initTree_root w hi).symm
  generalize initTree m = n at *
  generalize initTree m' = n' at *
  refine ⟨wf_matchResult.trans hw, wf_matchResult.trans hw', hd, fun cmp i hi => ?_, rfl, rfl⟩
  rcases hi with hi | ⟨hs, h0⟩
  · exact absurd hi (hempty i)
  · rw [childOf_matchResult, childOf_matchResult, childOf, childOf, if_pos h0, if_pos h0]
    exact hroot i hs

end Trees

end Sys2Proof.Machine

/-! PROOFS. What COMPRESS answers depends on its input alone (R118, R119, R142): from E_INIT on two runs over one input agree on all that
the encoder reads. -/

namespace Sys2Proof.Machine

open Sys2Proof

/-! ### What the encoder reads -/

/-- What the rows of COMPRESS read besides the input, the match finder and the count of the advance: the rest as after reset. -/
def encodeView (s : State) : State := { State.reset with
  phase := s.phase, inLen := s.inLen, faultCode := s.faultCode, faultInfo := s.faultInfo, outLen := s.outLen, outBuf := s.outBuf
  wr := s.wr, huff := s.huff, textBuf := s.textBuf, r := s.r
  enc := { s := s.enc.s, len := s.enc.len, inPos := s.enc.inPos, lastMatchLength := 0, advI := 0 } }

/-- Two encoders that read the same. -/
structure SameEncoder (s s' : State) : Prop where
  view : encodeView s' = encodeView s
  trees : SameTrees s.mf s'.mf

section SameEncoder

variable {P : PosTable} {s s' : State}

theorem SameEncoder.textBuf (h : SameEncoder s s') : s'.textBuf = s.textBuf := (congrArg State.textBuf h.view :)

theorem SameEncoder.huff (h : SameEncoder s s') : s'.huff = s.huff := (congrArg State.huff h.view :)

theorem SameEncoder.r (h : SameEncoder s s') : s'.r = s.r := (congrArg State.r h.view :)

theorem SameEncoder.phase (h : SameEncoder s s') : s'.phase = s.phase := (congrArg State.phase h.view :)

theorem SameEncoder.inLen (h : SameEncoder s s') : s'.inLen = s.inLen := (congrArg State.inLen h.view :)

theorem SameEncoder.cursors (h : SameEncoder s s') : s'.enc.s = s.enc.s ∧ s'.enc.len = s.enc.len ∧ s'.enc.inPos = s.enc.inPos :=
  ⟨(congrArg (fun v => v.enc.s) h.view :), (congrArg (fun v => v.enc.len) h.view :), (congrArg (fun v => v.enc.inPos) h.view :)⟩

theorem SameEncoder.sameResult (h : SameEncoder s s') : SameResult s s' := by
  have hout : s'.outBuf = s.outBuf := (congrArg State.outBuf h.view :)
  exact ⟨h.phase.symm, (congrArg State.faultCode h.view.symm :), (congrArg State.faultInfo h.view.symm :),
    (congrArg State.outLen h.view.symm :), fun k _ => (congrFun (outAt_congr hout) k).symm⟩

theorem SameEncoder.setPhase (h : SameEncoder s s') (p : Phase) : SameEncoder (setPhase p s) (setPhase p s') :=
  ⟨(congrArg (fun v => Machine.setPhase p v) h.view :), h.trees⟩

/-! ### The write side (R71, R82, R92, R94) -/

/-- A loop commutes with what each of its rounds commutes with. -/
theorem forUp_comm {σ : Type} {f : Nat → σ → σ} {g : σ → σ} (h : ∀ k a, g (f k a) = f k (g a)) (n i : Nat) (a : σ) :
    g (forUp f n i a) = forUp f n i (g a) := by
  induction n generalizing i a with
  | zero => rfl
  | succ n ih => rw [forUp, ih, h, forUp]

theorem putBit_view (b : Bool) (s : State) : encodeView (putBit b s) = putBit b (encodeView s) := apply_ite encodeView _ _ _

theorem putCode_view (l : Nat) (v : BitVec 32) (s : State) : encodeView (putCode l v s) = putCode l v (encodeView s) :=
  forUp_comm (f := fun k => putBit (v.getMsbD k)) (g := encodeView) (fun _ _ => putBit_view _ _) l 0 s

theorem encodePosition_view (o : BitVec 12) (s : State) : encodeView (encodePosition o s P) = encodePosition o (encodeView s) P := by
  rw [encodePosition, encodePosition, putCode_view, putCode_view]

theorem flushBits_view (s : State) : encodeView (flushBits s) = flushBits (encodeView s) := apply_ite encodeView _ _ _

theorem SameEncoder.encodeChar (h : SameEncoder s s') (c : Nat) : InStep SameEncoder (encodeChar c s) (encodeChar c s') := by
  intro t t' e e'
  obtain ⟨l, v, g, hof, hg, rfl⟩ := encodeChar_eq_ok.1 e
  obtain ⟨l', v', g', hof', hg', rfl⟩ := encodeChar_eq_ok.1 e'
  rw [h.huff] at hof' hg'
  obtain ⟨rfl, rfl⟩ := Prod.mk.inj (Except.ok.inj (hof'.symm.trans hof))
  obtain rfl := Except.ok.inj (hg'.symm.trans hg)
  have hview : encodeView (putCode l' v' s') = encodeView (putCode l' v' s) := by rw [putCode_view, putCode_view, h.view]
  refine ⟨(congrArg (fun v => setHuff g' v) hview :), ?_⟩
  rw [setHuff_putCode_frame, setHuff_putCode_frame]
  exact h.trees

theorem SameEncoder.encodePosition (h : SameEncoder s s') (o : BitVec 12) :
    SameEncoder (encodePosition o s P) (encodePosition o s' P) := by
  refine ⟨by rw [encodePosition_view, encodePosition_view, h.view], ?_⟩
  rw [encodePosition_frame, encodePosition_frame P o s']
  exact h.trees

theorem SameEncoder.flush (h : SameEncoder s s') : SameEncoder (stepEFlush s) (stepEFlush s') := by
  refine SameEncoder.setPhase ⟨by rw [flushBits_view, flushBits_view, h.view], ?_⟩ .done
  rw [flushBits_frame, flushBits_frame s']
  exact h.trees

/-! ### The token (R108) -/

theorem SameEncoder.withLength (h : SameEncoder s s') (m : BitVec 6) : SameEncoder (withLength m s) (withLength m s') := by
  obtain ⟨hview, w, w', hd, hc, -, hp⟩ := h
  exact ⟨hview, w, w', hd, hc, rfl, hp⟩

theorem SameEncoder.clamp (h : SameEncoder s s') : SameEncoder (clamp s) (clamp s') := by
  have hm : clampedLength s' = clampedLength s := by rw [clampedLength, clampedLength, h.cursors.2.1, h.trees.length]
  rw [clamp_eq, clamp_eq, hm]
  exact h.withLength _

theorem SameEncoder.emitToken (h : SameEncoder s s') : InStep SameEncoder (emitToken s P) (emitToken s' P) := by
  unfold Machine.emitToken
  rw [h.trees.length, h.trees.position, h.textBuf, h.r]
  split_ifs
  · exact (InStep.refl _).read fun c _ => (h.withLength 1).encodeChar _
  · exact (h.encodeChar _).bind fun _ _ h1 => .ok (h1.encodePosition _)

/-- Two encoders that read the same, the count of the advance included. -/
structure SameAdvance (s s' : State) : Prop extends SameEncoder s s' where
  advance : s'.enc.lastMatchLength = s.enc.lastMatchLength ∧ s'.enc.advI = s.enc.advI

theorem SameEncoder.startAdvance (h : SameEncoder s s') : SameAdvance (startAdvance s) (startAdvance s') :=
  ⟨⟨(congrArg (fun v => encodeView (Machine.startAdvance v)) h.view :), h.trees⟩, h.trees.length, rfl⟩

theorem SameEncoder.emit (h : SameEncoder s s') : InStep SameAdvance (stepEEmit s P) (stepEEmit s' P) :=
  h.clamp.emitToken.bind fun _ _ h1 => .ok h1.startAdvance

end SameEncoder

/-! ### The advance (R109, R110) -/

section Advance

variable {s s' : State} {m m' : MatchFinder}

theorem SameAdvance.advancedIn (h : SameAdvance s s') (hbyte : inAt s' s'.enc.inPos.toNat = inAt s s.enc.inPos.toNat)
    (hm : SameTrees m m') : SameAdvance (advancedIn m s) (advancedIn m' s') := by
  refine ⟨⟨?_, hm⟩, h.advance.1, congrArg (· + 1) h.advance.2⟩
  unfold Machine.advancedIn
  rw [hbyte]
  exact (congrArg (fun v => encodeView { v with
    textBuf := winWrite v.enc.s.toNat (inAt s s.enc.inPos.toNat) v.textBuf
    r := v.r + 1
    enc := { v.enc with s := v.enc.s + 1, inPos := v.enc.inPos + 1 } }) h.view :)

theorem SameAdvance.advancedDrain (h : SameAdvance s s') (hm : SameTrees m m') : SameAdvance (advancedDrain m s) (advancedDrain m' s') :=
  ⟨⟨(congrArg (fun v => encodeView (Machine.advancedDrain m v)) h.view :), hm⟩, h.advance.1, congrArg (· + 1) h.advance.2⟩

theorem SameAdvance.setPhase (h : SameAdvance s s') (p : Phase) : SameAdvance (setPhase p s) (setPhase p s') :=
  ⟨h.toSameEncoder.setPhase p, h.advance⟩

theorem SameAdvance.phaseAfterAdvIn (h : SameAdvance s s') : phaseAfterAdvIn s' = phaseAfterAdvIn s := by
  rw [Machine.phaseAfterAdvIn, Machine.phaseAfterAdvIn, h.advance.1, h.advance.2, h.cursors.2.2, h.inLen]

theorem SameAdvance.phaseAfterDrain (h : SameAdvance s s') : phaseAfterDrain s' = phaseAfterDrain s := by
  rw [Machine.phaseAfterDrain, Machine.phaseAfterDrain, h.advance.1, h.advance.2, h.cursors.2.1]

/-- The next position is not in the tree once the evicted one is out. -/
theorem Trees.next_not_inTree {tb : List Host.Cell} {r : BitVec 12} (h : Trees tb m r 4035) : ¬ InTree m (r + 1).toNat := fun hp => by
  have := h.range (r + 1) hp
  bv_omega

theorem SameAdvance.stepEAdvIn (h : SameAdvance s s') (hs : Safe s) (he : Encoding s) (hin : SameInput s s') :
    InStep SameAdvance (stepEAdvIn s) (stepEAdvIn s') := by
  intro t t' e e'
  obtain ⟨m1, m2, hlt, h1, h2, rfl⟩ := stepEAdvIn_eq_ok.1 e
  obtain ⟨m1', m2', -, h1', h2', rfl⟩ := stepEAdvIn_eq_ok.1 e'
  obtain ⟨hev, -, hpos⟩ := h.cursors
  have hbyte : inAt s' s'.enc.inPos.toNat = inAt s s.enc.inPos.toNat := by
    rw [hpos]
    exact (hin.2 _ hlt).symm
  have ht := he.trees hs
  rw [hev] at h1'
  rw [hev, hbyte, h.textBuf, h.r] at h2'
  have hm1 := h.trees.deleteNode ht.dirOk _ _ _ h1 h1'
  obtain ⟨u, hu, ht1⟩ := ht.delete
  rw [← he.cursors] at hu
  obtain rfl := Except.ok.inj (hu.symm.trans h1)
  have hwrite := ht1.write (memory_wf_iff.1 hs.memory).2.2.1 (inAt s s.enc.inPos.toNat)
  rw [← he.cursors] at hwrite
  have hadv := h.advancedIn hbyte (hm1.insertNode hwrite.dirOk ht1.next_not_inTree _ _ h2 h2')
  rw [hadv.phaseAfterAdvIn]
  exact hadv.setPhase _

theorem SameAdvance.stepEAdvDrain (h : SameAdvance s s') (hs : Safe s) (he : Encoding s) :
    InStep SameAdvance (stepEAdvDrain s) (stepEAdvDrain s') := by
  intro t t' e e'
  obtain ⟨m1, m2, h1, h2, rfl⟩ := stepEAdvDrain_eq_ok.1 e
  obtain ⟨m1', m2', h1', h2', rfl⟩ := stepEAdvDrain_eq_ok.1 e'
  obtain ⟨hev, hlen, -⟩ := h.cursors
  have ht := he.trees hs
  rw [hev] at h1'
  rw [hlen, h.textBuf, h.r] at h2'
  have hm1 := h.trees.deleteNode ht.dirOk _ _ _ h1 h1'
  obtain ⟨u, hu, ht1⟩ := ht.delete
  rw [← he.cursors] at hu
  obtain rfl := Except.ok.inj (hu.symm.trans h1)
  have hm2 : SameTrees m2 m2' := by
    split_ifs at h2 h2'
    · exact hm1.insertNode ht1.dirOk ht1.next_not_inTree _ _ h2 h2'
    · rw [h2, h2']
      exact hm1
  have hadv := h.advancedDrain hm2
  rw [hadv.phaseAfterDrain]
  exact hadv.setPhase _

end Advance

/-! ### Two runs of the encoder -/

/-- Two encoders at the same place of the same input, from the first token on. -/
structure EncodeAlike (s s' : State) : Prop where
  safe : Safe s
  encoder : EncoderOk s
  input : SameInput s s'
  stage : ((s.phase = .eEmit ∨ s.phase = .eFlush ∨ s.phase = .done) ∧ SameEncoder s s')
    ∨ ((s.phase = .eAdvIn ∨ s.phase = .eAdvDrain) ∧ SameAdvance s s')

section Run

variable {P : PosTable} {s s' t t' : State}

theorem EncodeAlike.same (h : EncodeAlike s s') : SameEncoder s s' := h.stage.elim And.right fun hs => hs.2.toSameEncoder

/-- What the rows before an advance and those of the advance leave. -/
theorem SameAdvance.stage (h : SameAdvance t t') (hp : t.phase = .eEmit ∨ t.phase = .eFlush ∨ t.phase = .eAdvIn ∨ t.phase = .eAdvDrain) :
    ((t.phase = .eEmit ∨ t.phase = .eFlush ∨ t.phase = .done) ∧ SameEncoder t t')
      ∨ ((t.phase = .eAdvIn ∨ t.phase = .eAdvDrain) ∧ SameAdvance t t') := by
  rcases hp with hp | hp | hp
  · exact .inl ⟨.inl hp, h.toSameEncoder⟩
  · exact .inl ⟨.inr (.inl hp), h.toSameEncoder⟩
  · exact .inr ⟨hp, h⟩

theorem EncodeAlike.step (h : EncodeAlike s s') (hb : busy s = true) (e : coreStep s P = .ok t) (e' : coreStep s' P = .ok t') :
    EncodeAlike t t' := by
  refine ⟨h.safe.coreStep e, coreStep_encoderOk h.safe h.encoder e, h.input.of_hostPart (coreStep_hostPart e) (coreStep_hostPart e'), ?_⟩
  have hphase := h.same.phase
  rcases h.stage with ⟨hp | hp | hp, hsame⟩ | ⟨hp | hp, hsame⟩
  · rw [coreStep_eEmit hp] at e
    rw [coreStep_eEmit (hphase.trans hp)] at e'
    refine (hsame.emit t t' e e').stage ?_
    rw [stepEEmit_phase e]
    split_ifs
    · exact .inr (.inr (.inl rfl))
    · exact .inr (.inr (.inr rfl))
  · rw [coreStep_eFlush hp] at e
    rw [coreStep_eFlush (hphase.trans hp)] at e'
    rw [← Except.ok.inj e, ← Except.ok.inj e']
    exact .inl ⟨.inr (.inr rfl), hsame.flush⟩
  · rw [busy_of_phase hp] at hb
    cases hb
  · rw [coreStep_eAdvIn hp] at e
    rw [coreStep_eAdvIn (hphase.trans hp)] at e'
    have henc := h.encoder.encoding hp rfl
    refine (hsame.stepEAdvIn h.safe henc h.input t t' e e').stage ?_
    rcases (stepEAdvIn_advances henc hp e).phase with ⟨hp' | ⟨hp', -⟩, -⟩ | ⟨hp', -⟩
    · exact .inl hp'
    · exact .inr (.inl hp')
    · exact .inr (.inr hp')
  · rw [coreStep_eAdvDrain hp] at e
    rw [coreStep_eAdvDrain (hphase.trans hp)] at e'
    have henc := h.encoder.encoding hp rfl
    refine (hsame.stepEAdvDrain h.safe henc t t' e e').stage ?_
    rcases (stepEAdvDrain_advances henc hp e).phase with ⟨hp' | ⟨hp', -⟩, -⟩ | ⟨hp', -⟩
    · exact .inl hp'
    · exact .inr (.inl hp')
    · exact .inr (.inr hp')

end Run

end Sys2Proof.Machine

/-! PROOFS. COMPRESS from any two states over one input (R106, R107, R119): E_HDR, E_INIT and E_PRIME bring them together. -/

namespace Sys2Proof.Machine

open Sys2Proof

/-! ### E_HDR (R106) -/

theorem outBuf_foldl_outAppend_congr {s s' : State} (hbuf : s'.outBuf = s.outBuf) (hlen : s'.outLen = s.outLen) (l : List Byte) :
    (l.foldl (fun t v => outAppend v t) s').outBuf = (l.foldl (fun t v => outAppend v t) s).outBuf := by
  induction l generalizing s s' with
  | nil => exact hbuf
  | cons v l ih =>
    refine ih (s := outAppend v s) (s' := outAppend v s') ?_ (congrArg (· + 1) hlen)
    rw [outAppend, outAppend, hbuf, hlen]

theorem withHeader_outBuf_congr {s s' : State} (h : s'.inLen = s.inLen) : (withHeader s').outBuf = (withHeader s).outBuf := by
  rw [withHeader, withHeader, h]
  exact outBuf_foldl_outAppend_congr rfl rfl _

/-! ### E_INIT (R107) -/

/-- Two preloads of the same bytes leave the same window. -/
theorem Preloaded.window_congr {s s' : State} {k : Nat} (h : Preloaded s k) (h' : Preloaded s' k)
    (hin : ∀ i, i < k → inAt s' i = inAt s i) : s'.textBuf = s.textBuf :=
  sparse_ext h'.wf h.wf fun i _ hi => by
    have hw := h.window hi
    have hw' := h'.window hi
    unfold winAt at hw hw'
    rw [hw, hw']
    split_ifs with hload
    · exact hin _ (by omega)
    · rfl

section Init

variable {s s' t t' : State}

theorem stepEInit_trees (w : Memory.wf s = true) (w' : Memory.wf s' = true) (e : stepEInit s = .ok t) (e' : stepEInit s' = .ok t') :
    SameTrees t.mf t'.mf := by
  obtain ⟨u, hu, -, hframe⟩ := stepEInit_preloaded w
  obtain ⟨u', hu', -, hframe'⟩ := stepEInit_preloaded w'
  obtain rfl := Except.ok.inj (hu.symm.trans e)
  obtain rfl := Except.ok.inj (hu'.symm.trans e')
  rw [setPhase_mf, setPhase_mf, hframe, hframe', initEncode_mf, initEncode_mf]
  exact sameTrees_initTree (memory_wf_iff.1 w).2.2.2.1 (memory_wf_iff.1 w').2.2.2.1

theorem stepEInit_window (w : Memory.wf s = true) (w' : Memory.wf s' = true) (hin : SameInput s s') (e : stepEInit s = .ok t)
    (e' : stepEInit s' = .ok t') : t'.textBuf = t.textBuf ∧ t'.r = t.r ∧ t'.enc.s = t.enc.s ∧ t'.enc.len = t.enc.len
      ∧ t'.enc.inPos = t.enc.inPos := by
  obtain ⟨u, hu, hpre, hframe⟩ := stepEInit_preloaded w
  obtain ⟨u', hu', hpre', hframe'⟩ := stepEInit_preloaded w'
  obtain rfl := Except.ok.inj (hu.symm.trans e)
  obtain rfl := Except.ok.inj (hu'.symm.trans e')
  rw [← hin.1] at hpre'
  have hinu : inAt u = inAt s := congrArg (sparseGet bufferDefault) (by rw [hframe]; exact initEncode_inBuf s)
  have hinu' : inAt u' = inAt s' := congrArg (sparseGet bufferDefault) (by rw [hframe']; exact initEncode_inBuf s')
  have htb : u'.textBuf = u.textBuf := hpre.window_congr hpre' fun i hi => by
    rw [hinu, hinu']
    exact (hin.2 i (by omega)).symm
  exact ⟨htb, hpre'.r.trans hpre.r.symm, hpre'.evict.trans hpre.evict.symm,
    BitVec.eq_of_toNat_eq (hpre'.len.trans hpre.len.symm), BitVec.eq_of_toNat_eq (hpre'.inPos.trans hpre.inPos.symm)⟩

/-- After E_INIT the two encoders read the same. -/
theorem stepEInit_sameEncoder (w : Memory.wf s = true) (w' : Memory.wf s' = true) (hin : SameInput s s') (h1 : 1 ≤ s.inLen.toNat)
    (hlt : s.inLen.toNat < 2 ^ 32) (hout : s'.outBuf = s.outBuf ∧ s'.outLen = s.outLen)
    (hfault : s'.faultCode = s.faultCode ∧ s'.faultInfo = s.faultInfo) : InStep SameEncoder (stepEInit s) (stepEInit s') := by
  intro t t' e e'
  obtain ⟨u, hu, hp, hb⟩ := stepEInit_begun w h1 hlt
  obtain ⟨u', hu', hp', hb'⟩ := stepEInit_begun w' (hin.1 ▸ h1) (hin.1 ▸ hlt)
  obtain rfl := Except.ok.inj (hu.symm.trans e)
  obtain rfl := Except.ok.inj (hu'.symm.trans e')
  obtain ⟨htb, hr, hs, hlen, hpos⟩ := stepEInit_window w w' hin e e'
  refine ⟨?_, stepEInit_trees w w' e e'⟩
  rw [encodeView, encodeView, hp, hp', hb.huffman, hb'.huffman, hb.writer, hb'.writer, hb.output.1, hb'.output.1, hb.output.2,
    hb'.output.2, hb.fault.1, hb'.fault.1, hb.fault.2, hb'.fault.2, hb.input.2, hb'.input.2, htb, hr, hs, hlen, hpos, hout.1, hout.2,
    hfault.1, hfault.2, hin.1]

/-! ### E_PRIME (R107) -/

theorem SameEncoder.insertAt (h : SameEncoder s s') (ok : DirOk s.textBuf s.mf) {r : BitVec 12} (hr : ¬ InTree s.mf r.toNat) :
    InStep SameEncoder (insertAt r s) (insertAt r s') := by
  unfold Machine.insertAt
  rw [h.textBuf]
  exact (h.trees.insertNode ok hr).bind fun _ _ hm => .ok ⟨h.view, hm⟩

theorem forUpM_inStep {σ : Type} {R : Nat → σ → σ → Prop} {f f' : Nat → σ → Res σ} {n i : Nat} {a a' : σ}
    (hf : ∀ j a a', i ≤ j → j < i + n → R j a a' → InStep (R (j + 1)) (f j a) (f' j a')) (h : R i a a') :
    InStep (R (i + n)) (forUpM f n i a) (forUpM f' n i a') := by
  induction n generalizing i a a' with
  | zero => exact .ok h
  | succ n ih =>
    rw [show i + (n + 1) = i + 1 + n by omega, forUpM, forUpM]
    exact (hf i a a' le_rfl (by omega) h).bind fun b b' hb => ih (fun j a a' h1 h2 => hf j a a' (by omega) (by omega)) hb

theorem Priming.inStep {u u' : State} {j : Nat} (hp : Priming s j u) (h : SameEncoder u u') (h1 : 1 ≤ j) (h60 : j ≤ 60) :
    InStep (fun v v' => Priming s (j + 1) v ∧ SameEncoder v v') (insertAt (s.r - BitVec.ofNat 12 j) u)
      (insertAt (s.r - BitVec.ofNat 12 j) u') := by
  obtain ⟨v, hv, hnext⟩ := hp.next h1 h60
  have htb : u.textBuf = s.textBuf := by rw [hp.same]; rfl
  intro w w' e e'
  refine ⟨Except.ok.inj (hv.symm.trans e) ▸ hnext, h.insertAt (htb ▸ hp.dirOk) (fun hin => ?_) w w' e e'⟩
  have := hp.range _ hin
  bv_omega

theorem SameEncoder.prime (h : SameEncoder s s') (hs : Safe s) (he : Encoding s) (hp : s.phase = .ePrime) :
    InStep SameEncoder (stepEPrime s) (stepEPrime s') := by
  have hstart : Priming s 1 s := ⟨rfl, hs.mf_wf, finderOk_iff.1 he.finder, fun p hin => absurd hin (he.prime hp _)⟩
  have hloop := forUpM_inStep (R := fun j u u' => Priming s j u ∧ SameEncoder u u') (n := 60) (i := 1)
    (fun j u u' h1 h2 ⟨hpr, hsame⟩ => hpr.inStep hsame h1 (by omega)) ⟨hstart, h⟩
  unfold stepEPrime
  rw [h.r]
  refine hloop.bind fun u u' ⟨hpr, hsame⟩ => ?_
  have htb : u.textBuf = s.textBuf := by rw [hpr.same]; rfl
  refine (hsame.insertAt (htb ▸ hpr.dirOk) fun hin => ?_).bind fun v v' hv => .ok (hv.setPhase _)
  have := hpr.range _ hin
  bv_omega

end Init

/-! ### The command -/

section Command

variable {P : PosTable} {s s' t t' : State}

theorem headerWritten_sameInput (h : SameInput s s') : SameInput (headerWritten s) (headerWritten s') := h

/-- At the first token the two encoders read the same. -/
theorem FirstToken.alike {u u' : State} (h : FirstToken P s u t) (h' : FirstToken P s' u' t') (w : Memory.wf s = true)
    (w' : Memory.wf s' = true) (hin : SameInput s s') (h0 : s.inLen ≠ 0) (hlt : s.inLen.toNat < 2 ^ 32) : EncodeAlike t t' := by
  have hout : (headerWritten s').outBuf = (headerWritten s).outBuf := withHeader_outBuf_congr hin.1.symm
  have hinit : SameEncoder u u' := stepEInit_sameEncoder (headerWritten_memory_wf w) (headerWritten_memory_wf w')
    (headerWritten_sameInput hin) (Nat.pos_of_ne_zero fun e => h0 (BitVec.eq_of_toNat_eq e)) hlt ⟨hout, rfl⟩ ⟨rfl, rfl⟩ _ _ h.init h'.init
  have hsame := hinit.prime h.initBegun.safe h.initBegun.encoding h.initPhase _ _ h.prime h'.prime
  have hb := h.begun
  have hb' := h'.begun
  have hinput : SameInput t t' := by
    have hat : inAt t = inAt s := congrArg (sparseGet bufferDefault) hb.input.1
    have hat' : inAt t' = inAt s' := congrArg (sparseGet bufferDefault) hb'.input.1
    rw [SameInput, hat, hat', hb.input.2, hb'.input.2]
    exact hin
  exact ⟨hb.safe, hb.encoding.encoderOk (by rw [h.phase]; decide), hinput, .inl ⟨.inl h.phase, hsame⟩⟩

theorem compress_sameResult (w : Memory.wf s = true) (w' : Memory.wf s' = true) (hin : SameInput s s')
    (e : runCommand commandFuel (setPhase .eHdr s) P = .ok t) (e' : runCommand commandFuel (setPhase .eHdr s') P = .ok t') :
    SameResult t t' := by
  have hlen := hin.1
  rw [commandFuel_eq_compress] at e e'
  rcases Nat.lt_or_ge s.inLen.toNat (2 ^ 32) with hlt | hge
  · by_cases h0 : s.inLen = 0
    · rw [runCompress_empty h0] at e
      rw [runCompress_empty (hlen ▸ h0)] at e'
      have hout := congrFun (outAt_congr (withHeader_outBuf_congr (s := setPhase .eHdr s) (s' := setPhase .eHdr s') hlen.symm))
      rw [← Except.ok.inj e, ← Except.ok.inj e']
      exact ⟨rfl, rfl, rfl, rfl, fun k _ => (hout k).symm⟩
    · obtain ⟨u, v, h⟩ := exists_firstToken (P := P) w h0 hlt
      obtain ⟨u', v', h'⟩ := exists_firstToken (P := P) w' (hlen ▸ h0) (hlen ▸ hlt)
      rw [h.run] at e
      rw [h'.run] at e'
      exact (runCommand_related (R := EncodeAlike) (fun _ _ h => h.same.phase) (fun _ _ _ _ h hb e e' => h.step hb e e')
        (h.alike h' w w' hin h0 hlt) e e').same.sameResult
  · rw [runCompress_range hge] at e
    rw [runCompress_range (hlen ▸ hge)] at e'
    rw [← Except.ok.inj e, ← Except.ok.inj e']
    exact ⟨rfl, rfl, hlen, rfl, fun k hk => absurd hk (Nat.not_lt_zero k)⟩

end Command

/-- Settles O59: E_INIT and E_PRIME bring the two runs together, and each row keeps them so. -/
theorem compressDependsOnItsInputAlone : Obligations.CompressDependsOnItsInputAlone := by
  intro s s' t t' w w' hb hb' h e e'
  rw [exec_compress_of_not_busy hb, outcome_eq_next] at e
  rw [exec_compress_of_not_busy hb', outcome_eq_next] at e'
  exact compress_sameResult w w' h e e'

end Sys2Proof.Machine

/-! PROOFS. Faults and waiting (R121, R124, R128, R136): which rows of the core go to FAULT, with what they leave, and that
outside a command the core changes nothing. -/

namespace Sys2Proof.Machine

open Sys2Proof

section Rows

variable {P : PosTable} {s t : State}

/-- Outside a command no row of R116 applies, and the core waits. -/
theorem coreStep_waits (hp : s.phase = .idle ∨ s.phase = .done ∨ s.phase = .fault) : coreStep s P = .ok s := by
  rcases hp with hp | hp | hp <;> rw [coreStep, hp]

theorem stepEHdr_phase_fault (ht : (stepEHdr s).phase = .fault) : 2 ^ 32 ≤ s.inLen.toNat := by
  rw [stepEHdr_phase] at ht
  by_contra hlt
  rw [if_neg hlt] at ht
  exact absurd ht (by split_ifs <;> decide)

theorem stepDHdr_phase_fault (e : stepDHdr s = .ok t) (ht : t.phase = .fault) : s.inLen.toNat < 4 := by
  rw [stepDHdr_phase_eq e] at ht
  by_contra hge
  rw [if_neg hge] at ht
  exact absurd ht (by split_ifs <;> decide)

theorem stepDCopy_phase_fault (e : stepDCopy s = .ok t) (ht : t.phase = .fault) : s.dec.outCnt = s.dec.origLen := by
  rw [stepDCopy_phase_eq e] at ht
  by_contra hroom
  rw [if_neg hroom] at ht
  exact absurd ht (by split_ifs <;> decide)

/-- The three rows that raise a fault (R121), each on its own test: every other row goes to a phase other than FAULT. -/
theorem coreStep_fault_cases (e : coreStep s P = .ok t) (hs : s.phase ≠ .fault) (ht : t.phase = .fault) :
    (s.phase = .eHdr ∧ 2 ^ 32 ≤ s.inLen.toNat) ∨ (s.phase = .dHdr ∧ s.inLen.toNat < 4)
      ∨ (s.phase = .dCopy ∧ s.dec.outCnt = s.dec.origLen) := by
  cases hp : s.phase with
  | fault => exact absurd hp hs
  | idle => exact absurd (Except.ok.inj ((coreStep_waits (.inl hp)).symm.trans e) ▸ ht) hs
  | done => exact absurd (Except.ok.inj ((coreStep_waits (.inr (.inl hp))).symm.trans e) ▸ ht) hs
  | eHdr => exact .inl ⟨rfl, stepEHdr_phase_fault (Except.ok.inj ((coreStep_eHdr hp).symm.trans e) ▸ ht)⟩
  | eInit =>
    rw [stepEInit_phase ((coreStep_eInit hp).symm.trans e)] at ht
    exact absurd ht (by decide)
  | ePrime =>
    rw [stepEPrime_phase ((coreStep_ePrime hp).symm.trans e)] at ht
    exact absurd ht (by decide)
  | eEmit =>
    rw [stepEEmit_phase ((coreStep_eEmit hp).symm.trans e)] at ht
    exact absurd ht (by split_ifs <;> decide)
  | eAdvIn =>
    rw [stepEAdvIn_phase ((coreStep_eAdvIn hp).symm.trans e)] at ht
    exact absurd ht (by split_ifs <;> decide)
  | eAdvDrain =>
    rw [stepEAdvDrain_phase ((coreStep_eAdvDrain hp).symm.trans e)] at ht
    exact absurd ht (by split_ifs <;> decide)
  | eFlush =>
    rw [← Except.ok.inj ((coreStep_eFlush hp).symm.trans e), stepEFlush, setPhase_phase] at ht
    exact absurd ht (by decide)
  | dHdr => exact .inr (.inl ⟨rfl, stepDHdr_phase_fault ((coreStep_dHdr hp).symm.trans e) ht⟩)
  | dInit =>
    rw [← Except.ok.inj ((coreStep_dInit hp).symm.trans e), stepDInit_phase] at ht
    exact absurd ht (by decide)
  | dSymbol =>
    rw [stepDSymbol_phase_eq ((coreStep_dSymbol hp).symm.trans e)] at ht
    exact absurd ht (by split_ifs <;> decide)
  | dCopy => exact .inr (.inr ⟨rfl, stepDCopy_phase_fault ((coreStep_dCopy hp).symm.trans e) ht⟩)

end Rows

/-- Settles O6: the core's step answers the state itself. -/
theorem coreWaitsOutsideCommands : Obligations.CoreWaitsOutsideCommands := by
  intro s hi hp
  rw [step_of_no_input hi, coreStep_waits hp, outcome_ok]

/-- Settles O51: one of the three rows took its fault branch, and what that branch answers is known in full. -/
theorem onlyThreeRowsRaiseFaults : Obligations.OnlyThreeRowsRaiseFaults := by
  intro s t hi e hs ht
  rw [step_of_no_input hi, outcome_eq_next] at e
  rcases coreStep_fault_cases e hs ht with ⟨hp, hrange⟩ | ⟨hp, hshort⟩ | ⟨hp, hend⟩
  · rw [coreStep_eHdr hp, stepEHdr_of_range hrange] at e
    exact .inl ⟨hp, hrange, (Except.ok.inj e).symm⟩
  · rw [coreStep_dHdr hp, stepDHdr_of_short hshort] at e
    exact .inr (.inl ⟨hp, hshort, (Except.ok.inj e).symm⟩)
  · rw [coreStep_dCopy hp, stepDCopy_of_overrun hend] at e
    exact .inr (.inr ⟨hp, hend, (Except.ok.inj e).symm⟩)

end Sys2Proof.Machine

/-! PROOFS. Power-on and the RESET input (R140). -/

namespace Sys2Proof.Machine

open Sys2Proof

/-- In IDLE every field of `STATUS` is 0 (R23). -/
theorem statusReg_idle : statusReg .idle = 0 := by decide

/-- RESET discards the state, whatever it was, but not what is still to come from outside (log entry 5). -/
theorem step_of_resetLine {s : State} {rest : List Input} (h : s.inputs = .resetLine :: rest) :
    step s = .next { State.reset with inputs := rest } := by
  rw [step_of_input h, takeInput, resetInput]

/-- Settles O1: a RESET step answers the power-on state with the rest of the inputs, and its phase is IDLE. -/
theorem resetClearsPhaseAndResults : Obligations.ResetClearsPhaseAndResults := by
  refine ⟨⟨rfl, rfl, rfl, rfl, statusReg_idle⟩, fun s rest h => ?_⟩
  exact ⟨_, step_of_resetLine h, rfl, rfl, rfl, rfl, statusReg_idle, rfl⟩

end Sys2Proof.Machine

/-! PROOFS. The encoder and the decoder (R41 to R55): what each layout of operands takes from the bytes it wrote, the position-code
words, and with them every instruction. -/

namespace Sys2Proof.Machine

open Sys2Proof

/-! ### Operands (R32, log entry 2) -/

theorem u16_bytes {v : Nat} (hv : v < 65536) : u16 (BitVec.ofNat 8 v) (BitVec.ofNat 8 (v / 256)) = v := by
  rw [u16, BitVec.toNat_ofNat, BitVec.toNat_ofNat]
  omega

theorem ofNat_u16 {w : Nat} (hw : w ≤ 16) (v : BitVec w) :
    BitVec.ofNat w (u16 (BitVec.ofNat 8 v.toNat) (BitVec.ofNat 8 (v.toNat / 256))) = v := by
  rw [u16_bytes (v.isLt.trans_le (Nat.pow_le_pow_right (by decide) hw)), BitVec.ofNat_toNat, BitVec.setWidth_eq]

theorem u32_bytes32 (v : BitVec 32) : u32 (v.extractLsb' 0 8) (v.extractLsb' 8 8) (v.extractLsb' 16 8) (v.extractLsb' 24 8) = v := by
  refine BitVec.eq_of_toNat_eq ?_
  simp only [u32, toNat_append_eq, BitVec.extractLsb'_toNat, Nat.shiftRight_eq_div_pow]
  omega

theorem takePosition_bytes16 (r : BitVec 12) (rest : List Byte) : takePosition (bytes16 r.toNat ++ rest) = .ok (r, rest) :=
  congrArg (fun p => Except.ok (p, rest)) (ofNat_u16 (by decide) r)

theorem takeSymbol_bytes16 {c : BitVec 9} (hc : isSymbol c = true) (rest : List Byte) :
    takeSymbol (bytes16 c.toNat ++ rest) = .ok (c, rest) := by
  have hu := u16_bytes (v := c.toNat) (by omega)
  refine (if_pos ?_).trans ?_
  · rw [hu]
    exact of_decide_eq_true hc
  · rw [hu, BitVec.ofNat_toNat, BitVec.setWidth_eq]
    rfl

theorem takeLength_byte {m : BitVec 6} (hm : isMatchLength m = true) (rest : List Byte) :
    takeLength (BitVec.ofNat 8 m.toNat :: rest) = .ok (m, rest) := by
  have hbyte : (BitVec.ofNat 8 m.toNat).toNat = m.toNat := by rw [BitVec.toNat_ofNat]; omega
  refine (if_pos ?_).trans ?_
  · rw [hbyte]
    exact of_decide_eq_true hm
  · rw [hbyte, BitVec.ofNat_toNat, BitVec.setWidth_eq]

/-- A value of at most eight bits goes into a byte and comes back. -/
theorem ofNat_byte {w : Nat} (hw : w ≤ 8) (v : BitVec w) : BitVec.ofNat w (BitVec.ofNat 8 v.toNat).toNat = v := by
  have hlt : v.toNat < 2 ^ 8 := v.isLt.trans_le (Nat.pow_le_pow_right (by decide) hw)
  rw [BitVec.toNat_ofNat, Nat.mod_eq_of_lt hlt, BitVec.ofNat_toNat, BitVec.setWidth_eq]

/-! ### Position-code words (R44, R46, R47) -/

/-- A position code of high part `i` with its six low bits, left-justified in 16 bits. -/
def posWordValue (P : PosTable) (i : Nat) (low : BitVec 6) : Nat := (posCode i P).toNat * 256 + low.toNat * 2 ^ (10 - posLen i P)

section PositionWords

variable {P : PosTable} {i : Nat}

/-- Six bits after a code of `l` bits leave `10 - l` of 16. -/
theorem codeWeight_split {l : Nat} (hl : l ≤ 8) : 2 ^ (8 - l) * 256 = 64 * 2 ^ (10 - l) := by
  rw [show 10 - l = 8 - l + 2 by omega, Nat.pow_add]
  omega

/-- The first byte lies among those of code `i`. -/
theorem LegalTable.posWordValue_bounds (hP : LegalTable P) (hi : i < 64) (low : BitVec 6) :
    codeStart P i * 256 ≤ posWordValue P i low ∧ posWordValue P i low < codeStart P (i + 1) * 256 := by
  obtain ⟨-, h8⟩ := hP.posLen_bounds hi
  have hlow : low.toNat * 2 ^ (10 - posLen i P) < 2 ^ (8 - posLen i P) * 256 := by
    rw [codeWeight_split h8]
    exact Nat.mul_lt_mul_of_pos_right low.isLt (Nat.two_pow_pos _)
  rw [posWordValue, hP.posCode_toNat hi, codeStart_succ (hP.lt_length hi), Nat.add_mul]
  omega

theorem LegalTable.posWordValue_lt (hP : LegalTable P) (hi : i < 64) (low : BitVec 6) : posWordValue P i low < 65536 := by
  have hnext : codeStart P (i + 1) ≤ codeStart P 64 := codeStart_monotone P hi
  have hend := hP.codeStart_end
  obtain ⟨-, hlt⟩ := hP.posWordValue_bounds hi low
  omega

/-- Without the bits after it, the word is the code with the six low bits behind it. -/
theorem LegalTable.posWordValue_div (hP : LegalTable P) (hi : i < 64) (low : BitVec 6) :
    posWordValue P i low / 2 ^ (10 - posLen i P) = (canonicalCodes P).getD i 0 * 64 + low.toNat := by
  obtain ⟨-, h8⟩ := hP.posLen_bounds hi
  rw [posWordValue, hP.posCode_toNat hi, ← hP.canonicalCode_justified hi, Nat.mul_assoc, codeWeight_split h8, ← Nat.mul_assoc,
    ← Nat.add_mul, Nat.mul_div_cancel _ (Nat.two_pow_pos _)]

theorem LegalTable.posWord_first (hP : LegalTable P) (hi : i < 64) (low : BitVec 6) :
    (BitVec.ofNat 8 (posWordValue P i low / 256)).toNat = posWordValue P i low / 256 := by
  have hlt := hP.posWordValue_lt hi low
  rw [BitVec.toNat_ofNat]
  omega

/-- The first byte of a word begins with the code of its high part. -/
theorem LegalTable.dCode_posWord (hP : LegalTable P) (hi : i < 64) (low : BitVec 6) :
    dCode (BitVec.ofNat 8 (posWordValue P i low / 256)) P = i := by
  obtain ⟨hle, hlt⟩ := hP.posWordValue_bounds hi low
  refine codeStart_interval_unique (hP.dCode_spec _).2 ?_
  rw [hP.posWord_first hi low]
  omega

/-- The two bytes of a word are its value. -/
theorem LegalTable.posWord_join (hP : LegalTable P) (hi : i < 64) (low : BitVec 6) :
    (BitVec.ofNat 8 (posWordValue P i low / 256)).toNat * 256 + (BitVec.ofNat 8 (posWordValue P i low)).toNat
      = posWordValue P i low := by
  rw [hP.posWord_first hi low, BitVec.toNat_ofNat]
  omega

theorem LegalTable.rawBits_posWord (hP : LegalTable P) (hi : i < 64) (low : BitVec 6) :
    rawBits (posLen i P) (BitVec.ofNat 8 (posWordValue P i low / 256)) (BitVec.ofNat 8 (posWordValue P i low)) = low := by
  rw [rawBits, hP.posWord_join hi low, hP.posWordValue_div hi low]
  exact BitVec.eq_of_toNat_eq (by rw [BitVec.toNat_ofNat]; omega)

/-- A position-code word decodes to the instruction of its code and its low bits. -/
theorem LegalTable.decode_posWord (hP : LegalTable P) (hi : i < 64) (low : BitVec 6) (rest : List Byte) :
    decode .pos (posWord i low P ++ rest) P = .ok (poscodeOf i low, rest) := by
  show Except.ok (poscodeOf (dCode (BitVec.ofNat 8 (posWordValue P i low / 256)) P)
    (rawBits (posLen (dCode (BitVec.ofNat 8 (posWordValue P i low / 256)) P) P) (BitVec.ofNat 8 (posWordValue P i low / 256))
      (BitVec.ofNat 8 (posWordValue P i low))), rest) = _
  rw [hP.dCode_posWord hi low, hP.rawBits_posWord hi low]

end PositionWords

/-! ### Every instruction -/

/-- Settles O11: an operand reads back from the bytes it was written to, and the first byte of a position-code word begins with the
code of its high part alone. -/
theorem decodeOfEncodeIsTheInstruction : Obligations.DecodeOfEncodeIsTheInstruction := by
  intro P i rest hP hwf
  cases i
  case insertNode r => exact congrArg (fun r => Except.ok (Instr.insertNode r, rest)) (ofNat_u16 (by decide) r)
  case deleteNode p => exact congrArg (fun p => Except.ok (Instr.deleteNode p, rest)) (ofNat_u16 (by decide) p)
  case encodePosition o => exact congrArg (fun o => Except.ok (Instr.encodePosition o, rest)) (ofNat_u16 (by decide) o)
  case update c | encodeChar c =>
    show (takeSymbol (bytes16 c.toNat ++ rest)).map _ = _
    rw [takeSymbol_bytes16 hwf]
    rfl
  case putCode l v =>
    have hl : l.toNat ≤ 32 := of_decide_eq_true hwf
    have hbyte : (BitVec.ofNat 8 l.toNat).toNat ≤ 32 := by rw [BitVec.toNat_ofNat]; omega
    refine (if_pos hbyte).trans ?_
    rw [ofNat_byte (by decide), u32_bytes32]
    rfl
  case hdr n => exact congrArg (fun n => Except.ok (Instr.hdr n, rest)) (u32_bytes32 n)
  case matchTok m o =>
    show decodeToken 1 (BitVec.ofNat 8 m.toNat :: (bytes16 o.toNat ++ rest)) = _
    simp only [decodeToken, takeLength_byte hwf, takePosition_bytes16]
    rfl
  case pad k => exact congrArg (fun k => Except.ok (Instr.pad k, rest)) (ofNat_byte (by decide) k)
  case offset r p =>
    show decodePseudo 1 (bytes16 r.toNat ++ (bytes16 p.toNat ++ rest)) = _
    simp only [decodePseudo, takePosition_bytes16]
  case symOfLen m => exact congrArg (fun m => Except.ok (Instr.symOfLen m, rest)) (ofNat_byte (by decide) m)
  case lenOfSym c => exact congrArg (fun c => Except.ok (Instr.lenOfSym c, rest)) (ofNat_u16 (by decide) c)
  case initTree | startHuff | reconst | decodeChar | decodePosition | flush | getBit | getByte | compress | decompress | cmdCompress
    | cmdDecompress | cmdReserved0 | cmdReserved3 | lit | lookup => rfl
  all_goals exact hP.decode_posWord (by decide) _ rest

end Sys2Proof.Machine

/-! PROOFS. What the decoder answers (R41 to R55): the space and the length of a decoded word, how many bytes begin with each position
code, the 64 position-code words, and the step that runs a word. -/

namespace Sys2Proof.Machine

open Sys2Proof

/-! ### The length of a word (log entry 2) -/

/-- `i` stands in space `sp`, and its word is as long as what `bytes` have before `rest`. -/
def ReadAs (sp : Space) (bytes : List Byte) (i : Instr) (rest : List Byte) : Prop :=
  (encode i).1 = sp ∧ bytes.length = (encode i).2.length + rest.length

section Lengths

variable {bs rest : List Byte} {i : Instr}

theorem takePosition_length {r : BitVec 12} (h : takePosition bs = .ok (r, rest)) : bs.length = rest.length + 2 := by
  unfold takePosition at h
  split at h
  · obtain ⟨-, rfl⟩ := Prod.mk.inj (Except.ok.inj h)
    rfl
  · cases h

theorem takeSymbol_length {c : BitVec 9} (h : takeSymbol bs = .ok (c, rest)) : bs.length = rest.length + 2 := by
  unfold takeSymbol at h
  split at h
  · split_ifs at h
    obtain ⟨-, rfl⟩ := Prod.mk.inj (Except.ok.inj h)
    rfl
  · cases h

theorem takeLength_length {m : BitVec 6} (h : takeLength bs = .ok (m, rest)) : bs.length = rest.length + 1 := by
  unfold takeLength at h
  split at h
  · split_ifs at h
    obtain ⟨-, rfl⟩ := Prod.mk.inj (Except.ok.inj h)
    rfl
  · cases h

/-- A word of an id and `n` operand bytes. -/
theorem readAs_cons {sp : Space} {n : Nat} (hsp : (encode i).1 = sp) (hlen : (encode i).2.length = n + 1)
    (h : bs.length = rest.length + n) (b : Byte) : ReadAs sp (b :: bs) i rest :=
  ⟨hsp, by rw [List.length_cons, h, hlen]; omega⟩

theorem decodeOp_readAs {id : Nat} (h : decodeOp id bs = .ok (i, rest)) (b : Byte) : ReadAs .op (b :: bs) i rest := by
  unfold decodeOp at h
  split at h
  case h_2 | h_3 | h_9 =>
    obtain ⟨⟨r, rest'⟩, hr, he⟩ := operand_of_map h
    obtain ⟨rfl, rfl⟩ := Prod.mk.inj he
    exact readAs_cons rfl rfl (takePosition_length hr) b
  case h_5 | h_7 =>
    obtain ⟨⟨c, rest'⟩, hc, he⟩ := operand_of_map h
    obtain ⟨rfl, rfl⟩ := Prod.mk.inj he
    exact readAs_cons rfl rfl (takeSymbol_length hc) b
  case h_11 =>
    split at h
    · split_ifs at h
      obtain ⟨rfl, rfl⟩ := Prod.mk.inj (Except.ok.inj h)
      exact readAs_cons rfl rfl rfl b
    · cases h
  case h_17 => cases h
  all_goals
    obtain ⟨rfl, rfl⟩ := Prod.mk.inj (Except.ok.inj h)
    exact readAs_cons rfl rfl rfl b

theorem decodeCmd_readAs (v : Nat) (b : Byte) : ReadAs .cmd (b :: rest) (decodeCmd v) rest := by
  unfold decodeCmd
  split <;> exact readAs_cons rfl rfl rfl b

theorem decodeToken_readAs {kind : Nat} (h : decodeToken kind bs = .ok (i, rest)) (b : Byte) : ReadAs .token (b :: bs) i rest := by
  unfold decodeToken at h
  split at h
  case h_2 =>
    split at h
    next hm =>
      obtain ⟨⟨o, rest'⟩, ho, he⟩ := operand_of_map h
      obtain ⟨rfl, rfl⟩ := Prod.mk.inj he
      have hlen := takeLength_length hm
      have hlen' := takePosition_length ho
      exact readAs_cons (n := 3) rfl rfl (by omega) b
    · cases h
  case h_4 => cases h
  all_goals
    split at h
    · obtain ⟨rfl, rfl⟩ := Prod.mk.inj (Except.ok.inj h)
      exact readAs_cons rfl rfl rfl b
    · cases h

theorem decodePseudo_readAs {id : Nat} (h : decodePseudo id bs = .ok (i, rest)) (b : Byte) : ReadAs .pseudo (b :: bs) i rest := by
  unfold decodePseudo at h
  split at h
  case h_2 =>
    split at h
    next hr =>
      split at h
      next hp =>
        obtain ⟨rfl, rfl⟩ := Prod.mk.inj (Except.ok.inj h)
        have hlen := takePosition_length hr
        have hlen' := takePosition_length hp
        exact readAs_cons (n := 4) rfl rfl (by omega) b
      · cases h
    · cases h
  case h_5 => cases h
  all_goals
    split at h
    · obtain ⟨rfl, rfl⟩ := Prod.mk.inj (Except.ok.inj h)
      exact readAs_cons rfl rfl rfl b
    · cases h

theorem encode_poscodeOf (P : PosTable) {k : Nat} (hk : k < 64) (low : BitVec 6) :
    encode (poscodeOf k low) P = (.pos, posWord k low P) := by
  interval_cases k <;> rfl

theorem poscodeOf_readAs (b0 b1 : Byte) (low : BitVec 6) : ReadAs .pos (b0 :: b1 :: rest) (poscodeOf (dCode b0) low) rest := by
  have henc := encode_poscodeOf Config.POS_LEN (legalTable_default.dCode_spec b0).1 low
  exact readAs_cons (n := 1) (by rw [henc]) (by rw [henc]; rfl) rfl b0

theorem decode_readAs {sp : Space} {bytes : List Byte} (h : decode sp bytes = .ok (i, rest)) : ReadAs sp bytes i rest := by
  unfold decode at h
  split at h
  · exact decodeOp_readAs h _
  · obtain ⟨rfl, rfl⟩ := Prod.mk.inj (Except.ok.inj h)
    exact decodeCmd_readAs _ _
  · obtain ⟨rfl, rfl⟩ := Prod.mk.inj (Except.ok.inj h)
    exact readAs_cons rfl rfl rfl _
  · exact decodeToken_readAs h _
  · obtain ⟨rfl, rfl⟩ := Prod.mk.inj (Except.ok.inj h)
    exact poscodeOf_readAs _ _ _
  · exact decodePseudo_readAs h _
  · cases h

end Lengths

/-- Settles O12: decoder by decoder, an operand is in its range and takes the bytes it is written in. -/
theorem decodedInstructionsAreWellFormed : Obligations.DecodedInstructionsAreWellFormed :=
  fun _ _ _ _ h => ⟨decode_wf h, decode_readAs h⟩

/-- Settles O13: each word is evaluated. -/
theorem specWordsDecodeAsListed : Obligations.SpecWordsDecodeAsListed := by
  unfold Obligations.SpecWordsDecodeAsListed
  and_intros <;> decide

/-! ### How many bytes begin with each code (R46, R47) -/

theorem length_filter_range_interval {n a b : Nat} (hb : b ≤ n) :
    ((List.range n).filter fun x => a ≤ x ∧ x < b).length = b - a := by
  have hfilter : (Finset.range n).filter (fun x => a ≤ x ∧ x < b) = Finset.Ico a b := by
    ext x
    simp only [Finset.mem_filter, Finset.mem_range, Finset.mem_Ico]
    omega
  rw [← List.countP_eq_length_filter, ← Nat.card_Ico, ← hfilter]
  exact Nat.count_eq_card_filter_range _ n

section Bytes

variable {P : PosTable} {i : Nat}

theorem LegalTable.dCode_eq_iff (hP : LegalTable P) {b : Byte} :
    dCode b P = i ↔ codeStart P i ≤ b.toNat ∧ b.toNat < codeStart P (i + 1) :=
  ⟨fun h => h ▸ (hP.dCode_spec b).2, codeStart_interval_unique (hP.dCode_spec b).2⟩

/-- A code of `l` bits begins `2 ^ (8 - l)` bytes. -/
theorem LegalTable.count_dCode (hP : LegalTable P) (hi : i < 64) :
    ((List.range 256).filter fun b => dCode (BitVec.ofNat 8 b) P = i).length = 2 ^ (8 - posLen i P) := by
  have hend : codeStart P (i + 1) ≤ codeStart P 64 := codeStart_monotone P hi
  rw [hP.codeStart_end] at hend
  have hsame : ∀ b ∈ List.range 256, decide (dCode (BitVec.ofNat 8 b) P = i)
      = decide (codeStart P i ≤ b ∧ b < codeStart P (i + 1)) := fun b hb => by
    have hbyte : (BitVec.ofNat 8 b).toNat = b := Nat.mod_eq_of_lt (List.mem_range.1 hb)
    rw [decide_eq_decide, hP.dCode_eq_iff, hbyte]
  rw [List.filter_congr hsame, length_filter_range_interval hend, codeStart_succ (hP.lt_length hi), Nat.add_sub_cancel_left]

end Bytes

/-- Settles O14: the codes cut the bytes into 64 intervals, each as long as its code's length says. -/
theorem everyByteBeginsWithOneCode : Obligations.EveryByteBeginsWithOneCode := by
  refine ⟨fun P b hP => ⟨(hP.dCode_spec b).1, hP.topBits_dCode b, fun i hi => hP.eq_dCode hi, rfl, fun i hi => ?_⟩,
    fun i hi => ?_⟩
  · rw [hP.topBits_eq_posCode_iff hi, hP.posCode_toNat hi, codeStart_succ (hP.lt_length hi)]
  · rw [legalTable_default.count_dCode hi, posLen_default i hi]
    split_ifs <;> rfl

/-! ### The 64 position-code words (R44, R46) -/

theorem topBits_append {m n : Nat} (x : BitVec m) (y : BitVec n) : topBits (m + n) (x ++ y) = topBits m x ++ topBits n y := by
  rw [topBits, List.range_add, List.map_append, List.map_map]
  congr 1
  · exact List.map_congr_left fun k hk => by rw [BitVec.getMsbD_append, if_neg (by simpa using hk)]
  · exact List.map_congr_left fun k _ => by
      rw [Function.comp_apply, BitVec.getMsbD_append, if_pos (Nat.le_add_right ..), Nat.add_sub_cancel_left]

theorem topBits_take {w m n : Nat} (h : m ≤ n) (v : BitVec w) : (topBits n v).take m = topBits m v := by
  rw [topBits, ← List.map_take, List.take_range, Nat.min_eq_left h, topBits]

/-- Two words of any widths begin with the same `n` bits where they agree after the shift that leaves those. -/
theorem topBits_eq_of_div {w w' n : Nat} (hn : n ≤ w) (hn' : n ≤ w') {v : BitVec w} {v' : BitVec w'}
    (h : v.toNat / 2 ^ (w - n) = v'.toNat / 2 ^ (w' - n)) : topBits n v = topBits n v' := by
  have hbit : ∀ {w : Nat} (_ : n ≤ w) (v : BitVec w) {k : Nat} (_ : k < n),
      v.getMsbD k = (v.toNat / 2 ^ (w - n)).testBit (n - 1 - k) := fun {w} hn v k hk => by
    rw [BitVec.getMsbD_eq_getLsbD, decide_eq_true (by omega), Bool.true_and, BitVec.getLsbD, Nat.testBit_div_two_pow]
    congr 1
    omega
  exact topBits_congr fun k hk => by rw [hbit hn v hk, hbit hn' v' hk, h]

/-- A position-code word begins with the code of its high part and goes on with its six low bits. -/
theorem LegalTable.posWord_bits {P : PosTable} (hP : LegalTable P) {i : Nat} (hi : i < 64) (low : BitVec 6) :
    (topBits 8 (BitVec.ofNat 8 (posWordValue P i low / 256)) ++ topBits 8 (BitVec.ofNat 8 (posWordValue P i low))).take
      (posLen i P + 6) = topBits (posLen i P) (posCode i P) ++ topBits 6 low := by
  obtain ⟨-, h8⟩ := hP.posLen_bounds hi
  have hstart := hP.canonicalCode_justified hi
  have hpos := Nat.two_pow_pos (8 - posLen i P)
  have hcode : (BitVec.ofNat (posLen i P) ((canonicalCodes P).getD i 0)).toNat = (canonicalCodes P).getD i 0 := by
    refine Nat.mod_eq_of_lt (Nat.lt_of_mul_lt_mul_right (a := 2 ^ (8 - posLen i P)) ?_)
    rw [hstart, ← Nat.pow_add, Nat.add_sub_cancel' h8]
    exact hP.codeStart_lt hi
  have hjoin : (BitVec.ofNat 8 (posWordValue P i low / 256) ++ BitVec.ofNat 8 (posWordValue P i low)).toNat = posWordValue P i low :=
    (toNat_append_eq ..).trans (hP.posWord_join hi low)
  rw [← topBits_append, topBits_take (by omega)]
  calc _ = topBits (posLen i P + 6) (BitVec.ofNat (posLen i P) ((canonicalCodes P).getD i 0) ++ low) := by
        refine topBits_eq_of_div (by omega) le_rfl ?_
        rw [hjoin, show 8 + 8 - (posLen i P + 6) = 10 - posLen i P by omega,
          hP.posWordValue_div hi low, toNat_append_eq, hcode, Nat.sub_self, Nat.pow_zero, Nat.div_one]
        rfl
    _ = topBits (posLen i P) (BitVec.ofNat (posLen i P) ((canonicalCodes P).getD i 0)) ++ topBits 6 low := topBits_append ..
    _ = topBits (posLen i P) (posCode i P) ++ topBits 6 low := by
        congr 1
        refine topBits_eq_of_div le_rfl h8 ?_
        rw [hcode, hP.posCode_toNat hi, ← hstart, Nat.mul_div_cancel _ hpos, Nat.sub_self, Nat.pow_zero, Nat.div_one]

theorem posBits_of_parts (P : PosTable) {i : Nat} (hi : i < 64) (low : BitVec 6) :
    posBits (BitVec.ofNat 12 (64 * i + low.toNat)) P = topBits (posLen i P) (posCode i P) ++ topBits 6 low := by
  have hnat : (BitVec.ofNat 12 (64 * i + low.toNat)).toNat = 64 * i + low.toNat := Nat.mod_eq_of_lt (by omega)
  have hlow : (BitVec.ofNat 12 (64 * i + low.toNat)).setWidth 6 = low := BitVec.eq_of_toNat_eq (by
    rw [BitVec.toNat_setWidth, hnat]
    omega)
  rw [posBits, hnat, hlow, show (64 * i + low.toNat) / 64 = i by omega]

theorem exec_poscodeOf {i : Nat} (hi : i < 64) (low : BitVec 6) (s : State) :
    exec (poscodeOf i low) s = .next (takePosCode i low s) := by
  interval_cases i <;> rfl

/-- Settles O23: a word's value is its code with the six low bits behind it, and its meaning skips that many bits. -/
theorem positionWordsCompleteWithTheirOffset : Obligations.PositionWordsCompleteWithTheirOffset := by
  refine fun s i low hi => ⟨exec_poscodeOf hi low s, _, _, encode_poscodeOf _ hi low, ?_⟩
  rw [posBits_of_parts _ hi low]
  exact legalTable_default.posWord_bits hi low

/-! ### The step that runs a word (log entries 3, 5) -/

theorem runWord_of_decode {sp : Space} {bytes left : List Byte} {i : Instr} (h : decode sp bytes = .ok (i, left)) (s : State) :
    runWord sp bytes s = exec i s := by
  rw [runWord, h]

/-- Settles O5: the step takes the word off and runs what it decodes to. -/
theorem stepRunsTheDecodedWord : Obligations.StepRunsTheDecodedWord := by
  refine ⟨fun s sp bytes left rest i hs hd => ?_, fun s sp bytes rest e hs hd => ?_, fun s nbits w i hw => ?_⟩
  · rw [step_of_input hs]
    exact runWord_of_decode hd _
  · rw [step_of_input hs, takeInput, runWord, hd]
  · unfold decodeTableWord at hw
    split at hw
    next hd =>
      rw [← Option.some.inj hw]
      exact runWord_of_decode hd s
    · cases hw

end Sys2Proof.Machine

/-! PROOFS. The literal and match tokens presented as words (R43, R44, R113 to R115, R125): the passes of a copy, one after the
other, move their bytes forward. -/

namespace Sys2Proof.Machine

open Sys2Proof

/-- A symbol's code is there to be read, and the tree can be updated for it. -/
theorem Safe.symbol {s : State} (hs : Safe s) {c : Nat} (hc : c < 314) :
    ∃ g bits, IsCode s.huff c bits ∧ update c s.huff = .ok g ∧ g.wf = true := by
  obtain ⟨g, hg, -, wg, -⟩ := update_ok hs.huffman hs.huff_wf hc
  obtain ⟨bits, -, hcode, -⟩ := hs.huffman.exists_code hc
  exact ⟨g, bits, hcode, hg, wg⟩

/-! ### The literal token (R43, R115) -/

/-- Settles O45: the code is read, then the byte is produced. -/
theorem literalTokenProducesItsByte : Obligations.LiteralTokenProducesItsByte := by
  intro s b hs
  obtain ⟨g, bits, hcode, hg, wg⟩ := hs.symbol (c := b.toNat) (by omega)
  have w := afterSymbol_memory_wf hs.memory wg b.toNat bits.length
  have hsym : BitVec.ofNat 9 b.toNat = b.setWidth 9 := BitVec.ofNat_toNat ..
  have hbyte : (BitVec.ofNat 9 b.toNat).setWidth 8 = b := by bv_omega
  refine ⟨takeLiteral (afterSymbol b.toNat bits.length g s), bits, ?_, hcode, hg, fun a => ?_, fun i => ?_, ?_⟩
  · rw [exec_lit, takeSymbolCode_of_code hs.huffman hcode hg, map_ok, outcome_ok]
  · exact (outAt_produceByte w _ a).trans (by rw [afterSymbol, setSym_dec, hbyte]; rfl)
  · exact (winAt_produceByte w _ i).trans (by rw [afterSymbol, setSym_dec, hbyte]; rfl)
  · simp only [takeLiteral, afterOutput, produceByte, outWriteNext, afterSymbol, setSym, setPhase, setDec, setHuff, skipBits, hsym]

/-! ### Passes of a copy (R114) -/

section Passes

variable {s : State} {d n : Nat}

theorem copyAll_of_end (hp : s.phase ≠ .dCopy) (n : Nat) : copyAll n s = .ok s := by
  cases n with
  | zero => rfl
  | succ n => exact if_neg hp

theorem copyAll_succ {t : State} (hp : s.phase = .dCopy) (e : stepDCopy s = .ok t) (n : Nat) : copyAll (n + 1) s = copyAll n t := by
  rw [copyAll, if_pos hp, e, bind_ok]

/-- A copy that finds no room left faults. -/
theorem copyAll_overrun (hp : s.phase = .dCopy) (hend : s.dec.outCnt = s.dec.origLen) (n : Nat) :
    copyAll (n + 1) s = .ok (raiseFault .outOverrun (s.dec.copyRem.setWidth 64) s) :=
  (copyAll_succ hp (stepDCopy_of_overrun hend) n).trans (copyAll_of_end (by rw [raiseFault_phase]; decide) n)

/-- The registers after `d` passes. -/
theorem afterCopy_iterate (d : Nat) (s : State) : afterCopy^[d] s = { s with
    phase := (afterCopy^[d] s).phase, outBuf := (afterCopy^[d] s).outBuf, textBuf := (afterCopy^[d] s).textBuf
    outLen := if d = 0 then s.outLen else (s.dec.outCnt + BitVec.ofNat 32 d).setWidth 64, r := s.r + BitVec.ofNat 12 d
    dec := { s.dec with
      outCnt := s.dec.outCnt + BitVec.ofNat 32 d, src := s.dec.src + BitVec.ofNat 12 d
      copyRem := s.dec.copyRem - BitVec.ofNat 6 d } } := by
  induction d with
  | zero => simp
  | succ d ih =>
    rw [Function.iterate_succ_apply']
    generalize afterCopy^[d] s = t at ih ⊢
    rw [ih]
    simp only [afterCopy, copyByte, produceByte, outWriteNext, setPhase, setDec, Nat.succ_ne_zero, if_false, State.mk.injEq,
      DecodeRegs.mk.injEq, true_and, and_true, BitVec.ofNat_add, BitVec.add_assoc]
    exact ⟨rfl, rfl, rfl, rfl, by bv_omega⟩

theorem afterCopy_iterate_r (d : Nat) (s : State) : (afterCopy^[d] s).r = s.r + BitVec.ofNat 12 d := by rw [afterCopy_iterate]

theorem afterCopy_iterate_dec (d : Nat) (s : State) : (afterCopy^[d] s).dec = { s.dec with
    outCnt := s.dec.outCnt + BitVec.ofNat 32 d, src := s.dec.src + BitVec.ofNat 12 d
    copyRem := s.dec.copyRem - BitVec.ofNat 6 d } := by rw [afterCopy_iterate]

theorem afterCopy_iterate_memory_wf (w : Memory.wf s = true) (d : Nat) : Memory.wf (afterCopy^[d] s) = true := by
  induction d with
  | zero => exact w
  | succ d ih =>
    rw [Function.iterate_succ_apply']
    exact setPhase_memory_wf.trans (setDec_memory_wf.trans (produceByte_memory_wf ih))

/-- While bytes of the match are left the copy goes on. -/
theorem afterCopy_iterate_phase (hp : s.phase = .dCopy) (hd : d < s.dec.copyRem.toNat) : (afterCopy^[d] s).phase = .dCopy := by
  cases d with
  | zero => exact hp
  | succ d =>
    rw [Function.iterate_succ_apply']
    refine if_pos ?_
    rw [afterCopy_iterate_dec]
    bv_omega

/-- With the last byte of the match the copy ends. -/
theorem afterCopy_iterate_end (h1 : 1 ≤ s.dec.copyRem.toNat)
    (hroom : s.dec.outCnt.toNat + s.dec.copyRem.toNat ≤ s.dec.origLen.toNat) : (afterCopy^[s.dec.copyRem.toNat] s).phase =
      if s.dec.outCnt.toNat + s.dec.copyRem.toNat < s.dec.origLen.toNat then .dSymbol else .done := by
  obtain ⟨d, hd⟩ := Nat.exists_eq_succ_of_ne_zero (Nat.one_le_iff_ne_zero.1 h1)
  rw [hd, Function.iterate_succ_apply']
  refine (if_neg ?_).trans (if_congr ?_ rfl rfl) <;> rw [afterCopy_iterate_dec]
  · bv_omega
  · bv_omega

/-- As many passes as there are bytes left and room for. -/
theorem copyAll_passes (hp : s.phase = .dCopy) (hd : d ≤ s.dec.copyRem.toNat)
    (hroom : s.dec.outCnt.toNat + d ≤ s.dec.origLen.toNat) (n : Nat) : copyAll (d + n) s = copyAll n (afterCopy^[d] s) := by
  induction d generalizing n with
  | zero => rw [Nat.zero_add, Function.iterate_zero_apply]
  | succ d ih =>
    have hne : (afterCopy^[d] s).dec.outCnt ≠ (afterCopy^[d] s).dec.origLen := by
      rw [afterCopy_iterate_dec]
      bv_omega
    rw [Nat.add_right_comm, Nat.add_assoc, ih (by omega) (by omega),
      copyAll_succ (afterCopy_iterate_phase hp hd) (stepDCopy_of_room hne), Function.iterate_succ_apply']

/-! ### The bytes of a copy (R114, R145) -/

/-- `d` bytes went forward from `o + 1` back to the window and to `OUT`, a byte copied before where the ranges overlap, and no other
byte changed. -/
structure CopiedForward (o : BitVec 12) (d : Nat) (s t : State) : Prop where
  window : ∀ j, j < d → winAt t.textBuf (s.r + BitVec.ofNat 12 j).toNat =
    winAt (if j ≤ o.toNat then s.textBuf else t.textBuf) (s.r + BitVec.ofNat 12 j - o - 1).toNat
  output : ∀ j, j < d → outAt t (s.dec.outCnt.toNat + j) = winAt t.textBuf (s.r + BitVec.ofNat 12 j).toNat
  windowElse : ∀ i, (∀ j, j < d → i ≠ (s.r + BitVec.ofNat 12 j).toNat) → winAt t.textBuf i = winAt s.textBuf i
  outputElse : ∀ a, a < s.dec.outCnt.toNat ∨ s.dec.outCnt.toNat + d ≤ a → outAt t a = outAt s a

theorem position_ne {r : BitVec 12} {j : Nat} (hj : j < d) (hd : d < 60) :
    (r + BitVec.ofNat 12 j).toNat ≠ (r + BitVec.ofNat 12 d).toNat := by
  bv_omega

/-- A source among the bytes written is behind the byte to write. -/
theorem source_ne_written {r o : BitVec 12} {j : Nat} (hj : j ≤ d) (hd : d < 60) (ho : o.toNat < j) :
    (r + BitVec.ofNat 12 j - o - 1).toNat ≠ (r + BitVec.ofNat 12 d).toNat := by
  bv_omega

/-- A source farther back than the bytes written is none of them. -/
theorem written_ne_source {r o : BitVec 12} {k : Nat} (hk : k < d) (ho : d ≤ o.toNat) :
    (r + BitVec.ofNat 12 d - o - 1).toNat ≠ (r + BitVec.ofNat 12 k).toNat := by
  bv_omega

/-- One more pass: the source is behind the byte written, and no earlier pass wrote it where `d` is at most `o`. -/
theorem CopiedForward.pass {o : BitVec 12} {t : State} (h : CopiedForward o d s t) (w : Memory.wf t = true) (hd : d < 60)
    (hout : s.dec.outCnt.toNat + d < 2 ^ 32) (hr : t.r = s.r + BitVec.ofNat 12 d)
    (hsrc : t.dec.src = s.r + BitVec.ofNat 12 d - o - 1) (hcnt : t.dec.outCnt.toNat = s.dec.outCnt.toNat + d) :
    CopiedForward o (d + 1) s (afterCopy t) := by
  have hwin : ∀ i, winAt (afterCopy t).textBuf i = if i = (s.r + BitVec.ofNat 12 d).toNat
      then winAt t.textBuf (s.r + BitVec.ofNat 12 d - o - 1).toNat else winAt t.textBuf i := fun i =>
    (winAt_produceByte w _ i).trans (by rw [hr, hsrc])
  have hbyte : ∀ a, outAt (afterCopy t) a = if a = s.dec.outCnt.toNat + d
      then winAt t.textBuf (s.r + BitVec.ofNat 12 d - o - 1).toNat else outAt t a := fun a =>
    (outAt_produceByte w _ a).trans (by rw [hcnt, hsrc])
  refine ⟨fun j hj => ?_, fun j hj => ?_, fun i hi => ?_, fun a ha => ?_⟩
  · rcases Nat.lt_succ_iff_lt_or_eq.1 hj with hj | rfl
    · rw [hwin, if_neg (position_ne hj hd), h.window j hj]
      split_ifs with ho
      · rfl
      · rw [hwin, if_neg (source_ne_written hj.le hd (Nat.lt_of_not_le ho))]
    · rw [hwin, if_pos rfl]
      split_ifs with ho
      · exact h.windowElse _ fun k hk => written_ne_source hk ho
      · rw [hwin, if_neg (source_ne_written le_rfl hd (Nat.lt_of_not_le ho))]
  · rcases Nat.lt_succ_iff_lt_or_eq.1 hj with hj | rfl
    · rw [hwin, if_neg (position_ne hj hd), hbyte, if_neg (by omega), h.output j hj]
    · rw [hwin, if_pos rfl, hbyte, if_pos rfl]
  · rw [hwin, if_neg (hi d (Nat.lt_succ_self d)), h.windowElse i fun j hj => hi j (Nat.lt_succ_of_lt hj)]
  · rw [hbyte, if_neg (by omega), h.outputElse a (by omega)]

theorem copiedForward_iterate {o : BitVec 12} (w : Memory.wf s = true) (hsrc : s.dec.src = s.r - o - 1) (hd : d ≤ 60)
    (hout : s.dec.outCnt.toNat + d < 2 ^ 32) : CopiedForward o d s (afterCopy^[d] s) := by
  induction d with
  | zero =>
    exact ⟨fun j hj => absurd hj (Nat.not_lt_zero j), fun j hj => absurd hj (Nat.not_lt_zero j), fun _ _ => rfl, fun _ _ => rfl⟩
  | succ d ih =>
    rw [Function.iterate_succ_apply']
    refine (ih (by omega) (by omega)).pass (afterCopy_iterate_memory_wf w d) hd (by omega) (afterCopy_iterate_r d s) ?_ ?_ <;>
      rw [afterCopy_iterate_dec]
    · rw [hsrc]
      bv_omega
    · bv_omega

end Passes

/-! ### The match token (R44, R113) -/

section Match

variable {s : State} {m : BitVec 6} {o : BitVec 12} {bits : List Bool} {g : Huffman}

/-- Both codes of a match token are read and its copy set up (R113). -/
def matchStart (m : BitVec 6) (o : BitVec 12) (n : Nat) (g : Huffman) (s : State) : State :=
  startCopy o (afterSymbol (253 + m.toNat) (n + (posBits o).length) g s)

theorem exec_matchTok (ok : HuffOk s.huff) (hcode : IsCode s.huff (253 + m.toNat) bits)
    (hg : update (253 + m.toNat) s.huff = .ok g) :
    exec (.matchTok m o) s = outcome (copyAll 64 (matchStart m o bits.length g s)) := by
  have hskip : skipBits (posCodeBits (o.toNat / 64)) (afterSymbol (253 + m.toNat) bits.length g s) =
      afterSymbol (253 + m.toNat) (bits.length + (posBits o).length) g s := by
    rw [skipBits_afterSymbol, posBits_length, posCodeBits]
  show outcome (takeSymbolCode (253 + m.toNat) s >>= fun u =>
    copyAll 64 (startCopy o (skipBits (posCodeBits (o.toNat / 64)) u))) = _
  rw [takeSymbolCode_of_code ok hcode hg, bind_ok, hskip, matchStart]

theorem matchStart_eq (m : BitVec 6) (o : BitVec 12) (n : Nat) (g : Huffman) (s : State) : matchStart m o n g s = { s with
    phase := .dCopy, huff := g, rdBitpos := s.rdBitpos + BitVec.ofNat 64 (n + (posBits o).length)
    dec := { s.dec with sym := BitVec.ofNat 9 (253 + m.toNat), src := s.r - o - 1, copyRem := m } } := by
  have hrem : lenOfSym (BitVec.ofNat 9 (253 + m.toNat)).toNat = m := by
    rw [lenOfSym, BitVec.toNat_ofNat, Nat.mod_eq_of_lt (by omega), Nat.add_sub_cancel_left, BitVec.ofNat_toNat, BitVec.setWidth_eq]
  simp only [matchStart, startCopy, afterSymbol, setSym, setPhase, setDec, setHuff, skipBits, copySource, hrem]

theorem matchStart_copyRem (m : BitVec 6) (o : BitVec 12) (n : Nat) (g : Huffman) (s : State) :
    (matchStart m o n g s).dec.copyRem = m := by rw [matchStart_eq]

theorem matchStart_memory_wf (w : Memory.wf s = true) (wg : g.wf = true) (m : BitVec 6) (o : BitVec 12) (n : Nat) :
    Memory.wf (matchStart m o n g s) = true :=
  (startCopy_memory_wf (o := o)).trans (afterSymbol_memory_wf w wg _ _)

/-- The registers after `d` passes of a match token, and what it leaves unchanged. -/
theorem matchPasses_frame (m : BitVec 6) (o : BitVec 12) (n : Nat) (g : Huffman) (s : State) (d : Nat) :
    afterCopy^[d] (matchStart m o n g s) = { s with
      phase := (afterCopy^[d] (matchStart m o n g s)).phase, huff := g
      outBuf := (afterCopy^[d] (matchStart m o n g s)).outBuf, textBuf := (afterCopy^[d] (matchStart m o n g s)).textBuf
      outLen := if d = 0 then s.outLen else (s.dec.outCnt + BitVec.ofNat 32 d).setWidth 64, r := s.r + BitVec.ofNat 12 d
      rdBitpos := s.rdBitpos + BitVec.ofNat 64 (n + (posBits o).length)
      dec := { s.dec with
        sym := BitVec.ofNat 9 (253 + m.toNat), outCnt := s.dec.outCnt + BitVec.ofNat 32 d
        src := s.r - o - 1 + BitVec.ofNat 12 d, copyRem := m - BitVec.ofNat 6 d } } := by
  have h := afterCopy_iterate d (matchStart m o n g s)
  generalize afterCopy^[d] (matchStart m o n g s) = t at h ⊢
  rw [matchStart_eq] at h
  exact h

theorem matchPasses_copied (w : Memory.wf s = true) (wg : g.wf = true) (n : Nat) {d : Nat} (hd : d ≤ 60)
    (hout : s.dec.outCnt.toNat + d < 2 ^ 32) : CopiedForward o d s (afterCopy^[d] (matchStart m o n g s)) := by
  have hsrc : (matchStart m o n g s).dec.src = (matchStart m o n g s).r - o - 1 := rfl
  obtain ⟨hwin, hbyte, hwinElse, hbyteElse⟩ := copiedForward_iterate (matchStart_memory_wf w wg m o n) hsrc hd hout
  generalize afterCopy^[d] (matchStart m o n g s) = t at hwin hbyte hwinElse hbyteElse ⊢
  rw [matchStart_eq] at hwin hbyte hwinElse hbyteElse
  exact ⟨hwin, hbyte, hwinElse, hbyteElse⟩

/-- With room for the match the copy ends by itself. -/
theorem copyAll_match (h3 : 3 ≤ m.toNat) (hroom : s.dec.outCnt.toNat + m.toNat ≤ s.dec.origLen.toNat) (n : Nat) :
    copyAll 64 (matchStart m o n g s) = .ok (afterCopy^[m.toNat] (matchStart m o n g s))
      ∧ (afterCopy^[m.toNat] (matchStart m o n g s)).phase =
          if s.dec.outCnt.toNat + m.toNat < s.dec.origLen.toNat then .dSymbol else .done := by
  have hrem := matchStart_copyRem m o n g s
  have hphase := afterCopy_iterate_end (s := matchStart m o n g s) (hrem.symm ▸ by omega) (hrem.symm ▸ hroom)
  have hpasses := copyAll_passes (s := matchStart m o n g s) (d := m.toNat) rfl (hrem.symm ▸ le_rfl) hroom (64 - m.toNat)
  rw [hrem] at hphase
  rw [show m.toNat + (64 - m.toNat) = 64 by omega] at hpasses
  exact ⟨hpasses.trans (copyAll_of_end (by rw [hphase]; split_ifs <;> decide) _), hphase⟩

/-- With room for `d` bytes only the copy faults after them. -/
theorem copyAll_match_overrun {d : Nat} (hd : d < m.toNat) (hend : s.dec.outCnt.toNat + d = s.dec.origLen.toNat) (n : Nat) :
    copyAll 64 (matchStart m o n g s) =
      .ok (raiseFault .outOverrun ((m - BitVec.ofNat 6 d).setWidth 64) (afterCopy^[d] (matchStart m o n g s))) := by
  have hrem := matchStart_copyRem m o n g s
  have hpasses := copyAll_passes (s := matchStart m o n g s) (d := d) rfl (hrem.symm ▸ hd.le) hend.le (63 - d + 1)
  have hphase : (afterCopy^[d] (matchStart m o n g s)).phase = .dCopy := afterCopy_iterate_phase rfl (hrem.symm ▸ hd)
  have hframe := matchPasses_frame m o n g s d
  generalize afterCopy^[d] (matchStart m o n g s) = t at hpasses hphase hframe ⊢
  have hcnt : s.dec.outCnt + BitVec.ofNat 32 d = s.dec.origLen := by bv_omega
  have hfull : t.dec.outCnt = t.dec.origLen := by rw [hframe, hcnt]
  have hleft : t.dec.copyRem = m - BitVec.ofNat 6 d := by rw [hframe]
  rw [copyAll_overrun hphase hfull, hleft, show d + (63 - d + 1) = 64 by omega] at hpasses
  exact hpasses

end Match

/-- Settles O46: the passes go on to the last byte of the match. -/
theorem matchTokenCopiesForward : Obligations.MatchTokenCopiesForward := by
  intro s m o hs h3 h60 hroom
  obtain ⟨g, bits, hcode, hg, wg⟩ := hs.symbol (c := 253 + m.toNat) (by omega)
  obtain ⟨hrun, hphase⟩ := copyAll_match (o := o) (g := g) h3 hroom bits.length
  have hcopied := matchPasses_copied (m := m) (o := o) hs.memory wg bits.length h60 (by omega)
  have hframe := matchPasses_frame m o bits.length g s m.toNat
  generalize afterCopy^[m.toNat] (matchStart m o bits.length g s) = t at hrun hphase hcopied hframe
  have hhuff : t.huff = g := by rw [hframe]
  obtain ⟨hwin, hbyte, hwinElse, hbyteElse⟩ := hcopied
  refine ⟨t, bits, ?_, hcode, by rw [hhuff, hg], hwin, hbyte, hwinElse, hbyteElse, ?_⟩
  · rw [exec_matchTok hs.huffman hcode hg, hrun, outcome_ok]
  · rw [if_neg (by omega), BitVec.ofNat_toNat, BitVec.ofNat_toNat, BitVec.ofNat_toNat, BitVec.setWidth_eq, BitVec.sub_self] at hframe
    rw [hhuff, ← hphase]
    exact hframe

/-- Settles O47: the passes go on while there is room, and the next one faults. -/
theorem matchPastTheEndFaults : Obligations.MatchPastTheEndFaults := by
  intro s m o d hs h3 h60 hend hd
  obtain ⟨g, bits, hcode, hg, wg⟩ := hs.symbol (c := 253 + m.toNat) (by omega)
  have hrun := copyAll_match_overrun (o := o) (g := g) hd hend bits.length
  have hcopied := matchPasses_copied (m := m) (o := o) (d := d.toNat) hs.memory wg bits.length (by omega) (by omega)
  have hframe := matchPasses_frame m o bits.length g s d.toNat
  generalize afterCopy^[d.toNat] (matchStart m o bits.length g s) = t at hrun hcopied hframe
  have hhuff : t.huff = g := by rw [hframe]
  have hfull : s.dec.outCnt + d = s.dec.origLen := BitVec.eq_of_toNat_eq (by rw [BitVec.toNat_add]; omega)
  have hinfo : ((m - d.setWidth 6).setWidth 64).toNat = m.toNat - d.toNat := by bv_omega
  rw [BitVec.ofNat_toNat] at hrun
  simp only [BitVec.ofNat_toNat, BitVec.setWidth_eq, hfull, show d.toNat = 0 ↔ d = 0 from BitVec.toNat_inj (y := 0)] at hframe
  obtain ⟨hwin, hbyte, hwinElse, hbyteElse⟩ := hcopied
  refine ⟨raiseFault .outOverrun ((m - d.setWidth 6).setWidth 64) t, bits, ?_, hcode, ?_, hwin, hbyte, hwinElse,
    fun a ha => hbyteElse a (by omega), ?_, ?_, fun h0 => ?_, ?_⟩
  · rw [exec_matchTok hs.huffman hcode hg, hrun, outcome_ok]
  · rw [raiseFault_huff, hhuff, hg]
  · rw [raiseFault_faultInfo, hinfo]
    omega
  · rw [raiseFault_faultInfo, hinfo]
    omega
  · rw [raiseFault_faultInfo, hinfo]
    have : d.toNat ≠ 0 := fun h => h0 (BitVec.eq_of_toNat_eq h)
    omega
  · rw [raiseFault_huff, raiseFault_outBuf, raiseFault_textBuf, hhuff]
    exact congrArg (raiseFault .outOverrun ((m - d.setWidth 6).setWidth 64)) hframe

end Sys2Proof.Machine

/-! PROOFS. Elements and pseudo-operations presented as words (R41, R50, R54), and the empty input (R118). -/

namespace Sys2Proof.Machine

open Sys2Proof

/-! ### The other elements (R41, R50) -/

/-- Settles O48: the element is taken as the first row of DECOMPRESS takes the header, and the pad is not read. -/
theorem headerAndPadElements : Obligations.HeaderAndPadElements := ⟨fun _ _ => rfl, fun _ _ => rfl⟩

/-! ### The pseudo-operations (R54) -/

theorem lookupIdx_val (b : Byte) : (lookupIdx b).val = 4096 + 1 + b.toNat := Nat.mod_eq_of_lt (by omega)

theorem offsetOf_formula {r p : BitVec 12} (h : r ≠ p) :
    (offsetOf r p).setWidth 16 = BitVec.ofNat 16 ((((r.toNat : Int) - p.toNat) % 4096 - 1).toNat) := by
  have hnat : r.toNat ≠ p.toNat := fun e => h (BitVec.eq_of_toNat_eq e)
  rw [offsetOf_ne h]
  bv_omega

/-- Settles O49: each word returns the expansion's value in `ret`. -/
theorem pseudoOperationsReturnTheirExpansion : Obligations.PseudoOperationsReturnTheirExpansion := by
  refine ⟨fun s b => ?_, fun s r p => ⟨_, rfl, offsetOf_formula⟩, fun s m => rfl, fun s c => ⟨_, rfl, fun h => if_pos h⟩⟩
  rw [← lookupIdx_val]
  rfl

/-! ### The empty input (R118) -/

/-- COMPRESS of an empty input ends at its first row. -/
theorem exec_compress_empty {s : State} (hb : busy s = false) (h0 : s.inLen = 0) :
    exec .compress s = .next (setPhase .done (withHeader (setPhase .eHdr s))) := by
  have hrow : stepEHdr (setPhase .eHdr s) = setPhase .done (withHeader (setPhase .eHdr s)) := by
    rw [stepEHdr_of_header (by rw [setPhase_inLen, h0]; decide), setPhase_inLen, if_pos h0]
  rw [exec_compress_of_not_busy hb, commandFuel_eq, runCommand_step rfl (coreStep_eHdr rfl), hrow, runCommand_of_not_busy rfl,
    outcome_ok]

/-- DECOMPRESS of a header of value 0 ends at its first row. -/
theorem exec_decompress_zero {s : State} (hb : busy s = false) (h4 : 4 ≤ s.inLen.toNat) (h0 : headerValue s = 0) :
    exec .decompress s = .next (headerTaken s) := by
  rw [exec_decompress_of_not_busy hb, commandFuel_eq, runDecompress_zero h4 h0, outcome_ok]

/-- Settles O55: each command ends at its first row. -/
theorem emptyInputBothWays : Obligations.EmptyInputBothWays := by
  refine ⟨fun s hb h0 => ⟨_, exec_compress_empty hb h0, rfl, rfl, rfl, fun k hk => ?_⟩, fun s hb h4 hzero => ?_⟩
  · have hbyte : lengthByte s.inLen k = 0 := by
      rw [h0, lengthByte]
      exact BitVec.eq_of_toNat_eq (by simp)
    exact (outAt_withHeader (setPhase .eHdr s) hk).trans hbyte
  · have hheader : headerValue s = 0 := by
      rw [headerValue, hzero 0 (by decide), hzero 1 (by decide), hzero 2 (by decide), hzero 3 (by decide)]
      rfl
    exact ⟨_, exec_decompress_zero hb h4 hheader, if_pos hheader, rfl, rfl⟩

end Sys2Proof.Machine
